-- ==== Sys2Proof/Word.lean ====
section
/-! DEFINITION. The words of the FJ416: bytes, 4-byte fields, station numbers of a key. -/

namespace Sys2Proof

/-- A byte of the flash array, of a frame or of the host port. -/
abbrev Byte := BitVec 8

/-- A 4-byte field: a seq, a position, a generation, a mark or a check (12_formats.md). -/
abbrev Word := BitVec 32

/-- The sender's station number as a key carries it, its last four bits (R64). -/
abbrev StationNumber := BitVec 4

end Sys2Proof
end

