-- ==== Sys2Proof/Config.lean ====
section
/-! DEFINITION. The sizes that the manual fixes, and the values it leaves open. -/

namespace Sys2Proof.Config

/-- Segments of the array (R9). -/
abbrev segmentCount : Nat := 64
/-- Pages of a segment (R9). -/
abbrev pageCount : Nat := 256
/-- Bytes of a page (R9). -/
abbrev pageBytes : Nat := 256
/-- Origins, peer entries, floor vector entries (R2, R11, R80, R121). -/
abbrev originCount : Nat := 16
/-- Entries of the gap table (R84). -/
abbrev gapPlaces : Nat := 32
/-- Incoming jobs admitted to the program job queue (R46). -/
abbrev incomingLimit : Nat := 15
/-- ERASED segments that the Segment Manager keeps in hand (R56). -/
abbrev reserveTarget : Nat := 2
/-- Places of the submit queue (R99). -/
abbrev submitPlaces : Nat := 8
/-- Seek slots (R132). -/
abbrev slotCount : Nat := 4
/-- Entries of the responder queue (R141). -/
abbrev responderPlaces : Nat := 4
/-- Places of the notice queue (R167). -/
abbrev noticePlaces : Nat := 16
/-- The value at which the lost-notice count saturates (R168). -/
abbrev lostLimit : Nat := 255
/-- The consecutive transmit failure count that sets MUTED (R75). -/
abbrev muteLimit : Nat := 16
/-- The greatest seq (R2). -/
abbrev maxSeq : Nat := 0xFFFFFFFF
/-- The header mark of a segment header (12.2, R185). -/
abbrev headerMark : Word := 0xA55A0F41#32

/-- FREE VALUE. Notices that different blocks hand over at the same moment join in either order
(R167). The n-th time the order is open, `noticeOrder n` says which block's notice joins next.
Nothing is known of it: a claim holds whatever it is. -/
opaque noticeOrder : Nat → Nat

end Sys2Proof.Config
end

