-- ==== Sys2Proof/Syntax.lean ====
section
/-! DEFINITION. The commands of the FJ416: one constructor per row of the table of operations and
events. The operands of a constructor are the values that the row's rule names. -/

namespace Sys2Proof

/-- Which part of a command's selection a step stands for (R148, R149): SEL# is asserted; the command
is complete, its last byte being shifted in; SEL# is released; or the three with nothing between
them. -/
inductive Moment where
  | whole
  | select
  | complete
  | release
  deriving DecidableEq, Repr

/-- The outcome of a record program or a header program (R19). -/
inductive ProgramOutcome where
  | good
  | failed
  deriving DecidableEq, Repr

/-- The outcome of a segment erase (R19, R37). A failed erase leaves the segment not blank; the
operand says whether its page 0 reads blank all the same (R173). -/
inductive EraseOutcome where
  | good
  | failed (page0Blank : Bool)
  deriving DecidableEq, Repr

/-- What a station reset finds half done (R22): whether the record program in progress had written
the kind byte (R12), and whether the erase in hand leaves page 0 blank (R22). -/
structure CutShort where
  kindWritten : Bool
  page0Blank : Bool
  deriving DecidableEq, Repr

/-- How a selection is discarded at its release, the first four rows of R149. -/
inductive Discard where
  /-- no bit was shifted -/
  | noBit
  /-- the number of bits shifted is not a multiple of eight -/
  | offBoundary
  /-- HOLD# is asserted -/
  | duringHold
  /-- on a byte boundary, the command whose code byte this is being not complete -/
  | incomplete (code : Byte)
  deriving DecidableEq, Repr

/-- The commands. A host command whose moment is not written is one whole selection. -/
inductive Instr where
  /-- power-on or RST# (R172) -/
  | stationReset (cut : CutShort)
  | status (moment : Moment)
  | result (moment : Moment)
  | readBuffer (moment : Moment)
  | nextNotice (moment : Moment)
  | readPosition (position : Word) (moment : Moment := .whole)
  | readRecord (origin : Byte) (seq : Word) (moment : Moment := .whole)
  /-- the length argument is the number of payload bytes (R157) -/
  | submit (tag : Byte) (payload : List Byte) (moment : Moment := .whole)
  | release (position : Word) (moment : Moment := .whole)
  | enlist (station n w rate p : Byte) (moment : Moment := .whole)
  | format (moment : Moment := .whole)
  | quiet (moment : Moment := .whole)
  | wake (moment : Moment := .whole)
  | lineResume (moment : Moment := .whole)
  /-- the RESET command; what it cuts short as in a station reset (R166) -/
  | reset (cut : CutShort) (moment : Moment := .whole)
  | unknownCode (code : Byte) (moment : Moment := .whole)
  | commandDiscarded (how : Discard)
  | hold (asserted : Bool)
  | heldFrame (sender : StationNumber) (origin : Byte) (value : Word)
  /-- a PRESENCE of mode JOINING or ACTIVE; N is the number of values of the vector -/
  | presenceFrame (sender : StationNumber) (joining full : Bool) (vector : List Word)
  | quietingPresenceFrame (sender : StationNumber) (full : Bool) (vector : List Word)
  | appendFrame (sender : StationNumber) (seq : Word) (tag : Byte) (payload : List Byte) (check : Word)
  | refillCopyFrame (sender : StationNumber) (requester origin : Byte) (seq : Word) (tag : Byte)
      (payload : List Byte) (check : Word)
  | refillGoneFrame (sender : StationNumber) (requester origin : Byte) (first last : Word)
  | seekFrame (sender : StationNumber) (origin : Byte) (first last : Word)
  /-- the data bytes of the frame: key, body length, body, CRC-16 -/
  | frameDiscarded (bytes : List Byte)
  | separatorDominant
  | dominantRunEnd
  | gapEnd
  | huntIdleRun
  | frameStart
  | arbitrationLoss
  | transmitFailure
  | breakComplete
  | heldSendCompletion
  | appendSendCompletion
  | refillSendCompletion
  | seekSendCompletion
  | presenceSendCompletion
  | quietingPresenceSendCompletion
  | presenceTimerExpiry
  /-- the silence timers of these peers reach in one event the values their states wait for (R126,
  R129) -/
  | silenceTimerExpiry (peers : List StationNumber)
  | joiningEnd
  /-- the confirmation wait of the submit entry of this own seq (R110) -/
  | confirmationWaitExpiry (seq : Word)
  | repairWaitExpiry (slot : Fin 4)
  /-- the defer timer of the responder entry of this requester and origin (R142) -/
  | deferExpiry (requester origin : StationNumber)
  | recordProgramCompletion (outcome : ProgramOutcome)
  | headerProgramCompletion (outcome : ProgramOutcome)
  /-- `flaw` holds the bytes the array delivered, where they are not those stored (R6) -/
  | hostReadCompletion (flaw : Option (List Byte))
  | fetchCompletion (flaw : Option (List Byte))
  | blankCheckCompletion
  | mountReadCompletion
  | eraseCompletion (outcome : EraseOutcome)
  | resumeMinimumReached
  | suspensionCompletion
  | startBitSeen
  | dominantBitInGap
  deriving DecidableEq, Repr

end Sys2Proof
end

