-- ==== Sys2Proof/Machine/State.lean ====
section
/-! DEFINITION. The state of the FJ416: what each block owns (00_scope.md, block overview), the
flash array, the queue of commands, and the state right after a station reset. -/

namespace Sys2Proof.Machine

/-! ### Station and Host Port -/

/-- The station mode (R171). -/
inductive Mode where
  | mounting
  | unenlisted
  | formatting
  | joining
  | active
  | quiet
  deriving DecidableEq, Repr

/-- The line rates in kbit/s (R63, R156). -/
inductive Rate where
  | kbit125
  | kbit250
  | kbit500
  | kbit1000
  deriving DecidableEq, Repr

/-- What a taken ENLIST sets (R180). `p` is in units of 10 ms. -/
structure Enlistment where
  station : Nat
  n : Nat
  w : Nat
  rate : Rate
  p : Nat
  deriving DecidableEq, Repr

/-- Result codes of the command result and of the read slot (R153, R154, 12.4). -/
inductive Code where
  | ok
  | busy
  | refusedMode
  | queueFull
  | journalFull
  | badArg
  | exhausted
  | notFound
  | hole
  | reclaimed
  deriving DecidableEq, Repr

/-- The command result (R153); `details` are the ticket and the seq of a SUBMIT taken. -/
structure CommandResult where
  code : Code
  command : Option Byte
  details : Option (Byte × Nat)
  deriving DecidableEq, Repr

/-- The target of a read (R154). -/
inductive Target where
  | position (position : Nat)
  | record (origin seq : Nat)
  deriving DecidableEq, Repr

/-- The read slot (R154). -/
inductive ReadSlot where
  | idle
  | pending (target : Target)
  | done (target : Target) (code : Code)
  deriving DecidableEq, Repr

/-- The liveness state of a peer table entry (R121). -/
inductive Liveness where
  | unknown
  | present
  | silent
  | absent
  deriving DecidableEq, Repr

/-- A notice (R167). -/
inductive Notice where
  | durable (ticket : Byte) (seq : Nat)
  | unconfirmed (ticket : Byte) (seq : Nat)
  | hole (origin first last : Nat)
  | divergent (origin seq sender : Nat)
  | peer (station : Nat) (state : Liveness)
  | full (entered : Bool)
  /-- `erase` is clear for a program fault -/
  | media (segment : Nat) (erase : Bool)
  | muted
  | arrival (position : Nat)
  deriving DecidableEq, Repr

/-- The blocks that hand notices over (R167). -/
inductive Block where
  | lineInterface
  | streamTracker
  | presenceUnit
  | submissionController
  | repairController
  | journalWriter
  | segmentManager
  deriving DecidableEq, Repr

/-- The commands that return a response (R148). -/
inductive Report where
  | status
  | result
  | readBuffer
  | nextNotice
  deriving DecidableEq, Repr

/-- What SDO carries: nothing, or the bytes of `head` and after them the bytes of `loop` over and
over, 0x00 when `loop` is empty (R148, R160). -/
inductive Sdo where
  | highImpedance
  | drives (head loop : List Byte)
  deriving DecidableEq, Repr

/-- A command that is complete in a selection in progress (R148, R169). -/
structure Completed where
  code : Byte
  /-- the command was taken in the mode in which it became complete -/
  responded : Bool
  /-- the notice that NEXT NOTICE returned -/
  shown : Option Notice
  /-- notices discarded since the command became complete -/
  discarded : Nat
  /-- the ARRIVAL notice was given a new position since the command became complete -/
  arrivalReplaced : Bool
  deriving DecidableEq, Repr

/-- A selection in progress (R148): the code and the arguments are being shifted in, or the command is
complete. -/
inductive Selection where
  | shifting
  | completed (command : Completed)
  deriving DecidableEq, Repr

/-- The Host Port's state (R170) but the station mode. -/
structure Port where
  result : CommandResult
  slot : ReadSlot
  /-- the record in the read buffer, as stored; empty when it holds none (R160) -/
  buffer : List Byte
  notices : List Notice
  lost : Nat
  portError : Bool
  /-- what SDO carries in a selection from the completion of its command on; after the selection, what
  it carried -/
  returned : Sdo
  selection : Option Selection
  /-- SEL# is ignored until it is next released (R149) -/
  selIgnored : Bool
  /-- HOLD# is asserted (R150) -/
  holdPin : Bool
  deriving DecidableEq, Repr

/-! ### Line Interface -/

/-- The receive framer (R65). -/
inductive Framer where
  | off
  | hunt
  | free
  | frame
  | gap
  deriving DecidableEq, Repr

/-- The mode that a PRESENCE carries (R119, 12.3). -/
inductive PresenceMode where
  | active
  | joining
  | quieting
  deriving DecidableEq, Repr

/-- A frame of the peer line (12.3); `sender` is the station number of its key. -/
inductive Frame where
  | held (sender : StationNumber) (origin : Byte) (value : Word)
  | append (sender : StationNumber) (seq : Word) (tag : Byte) (payload : List Byte) (check : Word)
  | copy (sender : StationNumber) (requester origin : Byte) (seq : Word) (tag : Byte)
      (payload : List Byte) (check : Word)
  | gone (sender : StationNumber) (requester origin : Byte) (first last : Word)
  | seek (sender : StationNumber) (origin : Byte) (first last : Word)
  | presence (sender : StationNumber) (mode : PresenceMode) (full : Bool) (vector : List Word)
  deriving DecidableEq, Repr

/-- The request that the transmitter serves (section 4.3). `live` is clear once the item has been
freed or renewed, or once QUIET has been taken (R120), so that a later completion finds nothing (R72,
R134, R144, R184). -/
inductive Request where
  | held (origin : Nat)
  | append (seq : Nat)
  | refill (requester origin : Nat) (live : Bool)
  | seek (slot : Nat) (live : Bool)
  | presence (live : Bool)
  | quieting (live : Bool)
  deriving DecidableEq, Repr

/-- The transmitter (section 4.3). -/
inductive Transmitter where
  | off
  | idle
  | arbitrating (request : Request) (frame : Frame)
  | sending (request : Request) (frame : Frame)
  | breaking (request : Request)
  deriving DecidableEq, Repr

/-- The Line Interface's state (R79). -/
structure Line where
  transmitter : Transmitter
  framer : Framer
  failures : Nat
  muted : Bool
  heldCursor : Nat
  deriving DecidableEq, Repr

/-! ### Stream Tracker -/

/-- An entry of the holdings table (R80). -/
structure Holding where
  through : Nat
  accepted : Nat
  known : Nat
  due : Bool
  deriving DecidableEq, Repr

/-- A run of seqs of one origin: a gap table entry (R84), an excess run (R97), a run of wants. -/
structure Run where
  origin : Nat
  first : Nat
  last : Nat
  deriving DecidableEq, Repr

/-- An entry of the pending list (R82). -/
inductive Pending where
  | data (origin seq : Nat) (check : Word) (mark : Bool)
  | hole (origin first last : Nat)
  deriving DecidableEq, Repr

/-- An entry of the check index (R83). -/
structure IndexEntry where
  origin : Nat
  seq : Nat
  check : Word
  mark : Bool
  deriving DecidableEq, Repr

/-- The Stream Tracker's state (chapter 5). The gap table and the excess list are kept in ascending
(origin, first) order, the order in which they are read (R84, R177). -/
structure Tracker where
  holdings : List Holding
  pending : List Pending
  index : List IndexEntry
  gaps : List Run
  excess : List Run
  deriving DecidableEq, Repr

/-! ### Presence Unit -/

/-- An entry of the peer table (R121). `timer` says whether the silence timer runs. -/
structure Peer where
  state : Liveness
  timer : Bool
  reported : List Nat
  full : Bool
  quiet : Bool
  deriving DecidableEq, Repr

/-- The Presence Unit's state (chapter 7). -/
structure Presence where
  peers : List Peer
  presenceTimer : Bool
  request : Bool
  quieting : Bool
  joiningTimer : Bool
  deriving DecidableEq, Repr

/-! ### Submission Controller -/

/-- The stage of a submit entry (R99). -/
inductive Stage where
  | committing
  | sending
  | waiting
  deriving DecidableEq, Repr

/-- A submit entry (R99). Its confirmation wait runs exactly while it is WAITING. -/
structure Entry where
  ticket : Byte
  seq : Nat
  tag : Byte
  payload : List Byte
  check : Word
  stage : Stage
  sends : Nat
  declared : Bool
  deriving DecidableEq, Repr

/-- The Submission Controller's state (R99, R100, R176). An own next seq of 0x100000000 is the
exhausted value (R103). -/
structure Submission where
  queue : List Entry
  nextSeq : Option Nat
  ticket : Byte
  durable : Nat
  kept : List Nat
  deriving DecidableEq, Repr

/-! ### Repair Controller -/

/-- The state of a seek slot (R132). An ASKING slot whose wait does not run has its SEEK due. -/
inductive SlotState where
  | asking (waitRuns : Bool)
  | following
  | declaring
  deriving DecidableEq, Repr

/-- A seek slot in use (R132). -/
structure SeekSlot where
  origin : Nat
  first : Nat
  last : Nat
  attempts : Nat
  state : SlotState
  deriving DecidableEq, Repr

/-- The content of a stored DATA record that a REFILL COPY carries (R144). -/
structure Content where
  seq : Word
  tag : Byte
  payload : List Byte
  check : Word
  deriving DecidableEq, Repr

/-- The state of a responder entry (R141). -/
inductive ResponderState where
  | deferring
  | fetching
  | readyGone
  | readyCopy (record : Content)
  deriving DecidableEq, Repr

/-- An entry of the responder queue (R141). The defer timer runs exactly while it is DEFERRING, for
`rank` frame slots. -/
structure Responder where
  requester : Nat
  origin : Nat
  first : Nat
  last : Nat
  gone : Option (Nat × Nat)
  list : List Nat
  rank : Nat
  state : ResponderState
  deriving DecidableEq, Repr

/-- The Repair Controller's state (chapter 8). -/
structure Repair where
  slots : List (Option SeekSlot)
  responders : List Responder
  deriving DecidableEq, Repr

/-! ### Journal Writer -/

/-- The record fields of a job but the local position (R46). -/
inductive JobBody where
  | data (origin : Nat) (tag : Byte) (seq : Nat) (payload : List Byte) (check : Word)
  | hole (origin first last : Nat)
  | release (mark : Nat)
  deriving DecidableEq, Repr

/-- The source of a job, which gives its class (R46). -/
inductive Source where
  | commit
  | append
  | refill
  | declared
  | excess
  | release
  deriving DecidableEq, Repr

/-- A job of the program job queue (R46). -/
structure Job where
  body : JobBody
  source : Source
  deriving DecidableEq, Repr

/-- The local position and the place of the head job once its claim is made (R46, R48). -/
structure Place where
  position : Nat
  segment : Nat
  page : Nat
  offset : Nat
  deriving DecidableEq, Repr

/-- The Journal Writer's state (R7, R46, R52). The placement cursor is the OPEN segment's free
cursor (R62). -/
structure Writer where
  jobs : List Job
  place : Option Place
  nextPosition : Nat
  releaseMark : Nat
  deriving DecidableEq, Repr

/-! ### Segment Manager -/

/-- Record kinds (1.2). -/
inductive RecordKind where
  | data
  | hole
  | release
  deriving DecidableEq, Repr

/-- A span list entry (R43). -/
structure Span where
  origin : Nat
  low : Nat
  high : Nat
  deriving DecidableEq, Repr

/-- A hole list entry (R43). -/
structure HoleHigh where
  origin : Nat
  high : Nat
  deriving DecidableEq, Repr

/-- A locator list entry (R43). The seq of a HOLE record is its first missing seq. -/
structure Locator where
  position : Nat
  page : Nat
  offset : Nat
  size : Nat
  kind : RecordKind
  origin : Nat
  seq : Nat
  deriving DecidableEq, Repr

/-- The fields of a segment table entry that are present while the segment is in use (R43). -/
structure InUse where
  firstPosition : Nat
  lastPosition : Option Nat
  count : Nat
  floor : List Nat
  spans : List Span
  holes : List HoleHigh
  locators : List Locator
  deriving DecidableEq, Repr

/-- The free cursor (R43): a page 1 to 255 and a byte offset, or past page 255. -/
inductive Cursor where
  | place (page offset : Nat)
  | past
  deriving DecidableEq, Repr

/-- A segment's state with the fields present in it (R43, section 3.2). `faults` is the program
fault count (R31). -/
inductive SegmentState where
  | erased
  | opened (use : InUse) (cursor : Cursor) (faults : Nat)
  | sealed (use : InUse)
  | faulty (use : InUse)
  | erasing
  | retired
  | dirty
  deriving DecidableEq, Repr

/-- A segment table entry (R43). -/
structure Segment where
  state : SegmentState
  generation : Word
  retire : Bool
  deriving DecidableEq, Repr

/-- The Segment Manager's state (R43, R53, R58). The table has no entries until mount hands it
over (R61). -/
structure Segments where
  table : List Segment
  full : Bool
  ownFloor : Nat
  deriving DecidableEq, Repr

/-! ### Array Engine -/

/-- The program claim or operation (R23): the head job's record, or a segment's header. -/
inductive ProgramClaim where
  | record
  | header (segment : Nat)
  deriving DecidableEq, Repr

/-- The host read claim or operation (R32): where the record stands, and the seq sought when the
record is a HOLE candidate (R159). -/
structure HostClaim where
  segment : Nat
  page : Nat
  offset : Nat
  size : Nat
  sought : Option Nat
  deriving DecidableEq, Repr

/-- A fetch claim or operation (R33). -/
structure FetchClaim where
  requester : Nat
  origin : Nat
  seq : Nat
  segment : Nat
  page : Nat
  offset : Nat
  size : Nat
  deriving DecidableEq, Repr

/-- What the bytes of a fetch in progress are for (R26). -/
inductive FetchUse where
  /-- the entry takes them -/
  | wanted
  /-- they are discarded; the entry makes no other fetch claim before the read completes (R23) -/
  | withdrawn
  /-- they are discarded; the entry has been freed -/
  | orphaned
  deriving DecidableEq, Repr

/-- A read operation in progress. -/
inductive ReadOperation where
  | host (claim : HostClaim)
  | fetch (claim : FetchClaim) (use : FetchUse)
  | mountPage
  | blankCheck
  deriving DecidableEq, Repr

/-- The array activity (R20), with the operation in hand. -/
inductive Activity where
  | idle
  | program (claim : ProgramClaim)
  | read (operation : ReadOperation)
  | erase
  | suspending
  deriving DecidableEq, Repr

/-- The erase context when it is not NONE (R21). `ran`: the erase has run for any time.
`minimumReached`: the current run is at least the resume minimum. -/
structure EraseContext where
  segment : Nat
  running : Bool
  ran : Bool
  minimumReached : Bool
  suspendRequest : Bool
  deriving DecidableEq, Repr

/-- The Array Engine's state (chapter 2). The erase claim is present exactly while the context is
HELD (R23). -/
structure ArrayEngine where
  activity : Activity
  context : Option EraseContext
  hostClaim : Option HostClaim
  programClaim : Option ProgramClaim
  fetchClaims : List FetchClaim
  deriving DecidableEq, Repr

/-! ### Mount Engine -/

/-- What the scan has found of a segment from its page 0 and its blank check (R173). -/
inductive Found where
  | unread
  | blankPage
  | blank
  | notBlank
  | badHeader
  | header (generation : Word) (firstPosition : Nat) (floor : List Nat)
  deriving DecidableEq, Repr

/-- A record that the scan has accepted (R15), with the last seq of a HOLE, the mark of a RELEASE
and the check of the record. -/
structure Scanned where
  locator : Locator
  last : Nat
  check : Word
  deriving DecidableEq, Repr

/-- The scan of one segment's record space (R15). `failedBefore`: the page before ended in a record
that failed. `skipped`: the remains of a failed program were skipped. -/
structure Extent where
  segment : Nat
  generation : Word
  firstPosition : Nat
  floor : List Nat
  records : List Scanned
  failedBefore : Bool
  skipped : Bool
  deriving DecidableEq, Repr

/-- The step the scan has reached and the operation it waits for (R173, R174). -/
inductive ScanStep where
  | headers (segment : Nat)
  | blankChecks (segment : Nat)
  | records (extent : Extent) (page : Nat)
  deriving DecidableEq, Repr

/-- The scan progress (R172). -/
structure Scan where
  step : ScanStep
  found : List Found
  /-- segments whose record space is still to be scanned -/
  todo : List Nat
  /-- segments whose record space has been scanned -/
  extents : List Extent
  deriving DecidableEq, Repr

/-! ### Flash -/

/-- Flash whose bytes the manual does not give (R14, R22, R29, R30, R173). -/
inductive Damage where
  /-- the remains of a record program, failed or cut short, whose kind byte is not blank -/
  | record (segment page offset : Nat)
  /-- a segment left by a failed or cut-short header program or erase: page 0 is blank and the rest
  is not, or page 0 is neither blank nor a valid header -/
  | segment (segment : Nat) (page0Blank : Bool)
  deriving DecidableEq, Repr

/-- The flash array (R9). `cells` holds the bytes that are not blank, addresses rising. -/
structure Flash where
  cells : List Host.Cell
  damage : List Damage
  deriving DecidableEq, Repr

/-! ### The whole -/

/-- The state of the station. -/
structure State where
  /-- the commands that wait, first in first out -/
  pending : List Instr
  mode : Mode
  enlistment : Option Enlistment
  port : Port
  line : Line
  tracker : Tracker
  presence : Presence
  submission : Submission
  repair : Repair
  writer : Writer
  segments : Segments
  array : ArrayEngine
  /-- the Mount Engine's scan progress, while MOUNTING -/
  scan : Option Scan
  /-- while FORMATTING, the segment from which FORMAT's next erase is chosen (R178) -/
  formatNext : Option Nat
  flash : Flash
  /-- notices handed over in the event in hand; empty between events (R167) -/
  raised : List (Block × Notice)
  /-- how often the order of notices has been open (R167) -/
  freeIndex : Nat
  deriving DecidableEq, Repr

/-- Reasons for which the machine would stop with a fault. There are none: every fault of the
manual is an effect on State (R29 to R37). -/
inductive Fault
  deriving DecidableEq, Repr

/-- Reasons for which a command is refused. -/
inductive Refusal where
  /-- raised by an arm of exec for a command without a meaning; no arm raises it; safe -/
  | notModelled (mnemonic : String)
  deriving DecidableEq, Repr

/-! ### Updates of one field each -/

def State.setPending (s : State) (v : List Instr) : State := { s with pending := v }
def State.setMode (s : State) (v : Mode) : State := { s with mode := v }
def State.setEnlistment (s : State) (v : Option Enlistment) : State := { s with enlistment := v }
def State.setPort (s : State) (v : Port) : State := { s with port := v }
def State.setLine (s : State) (v : Line) : State := { s with line := v }
def State.setTracker (s : State) (v : Tracker) : State := { s with tracker := v }
def State.setPresence (s : State) (v : Presence) : State := { s with presence := v }
def State.setSubmission (s : State) (v : Submission) : State := { s with submission := v }
def State.setRepair (s : State) (v : Repair) : State := { s with repair := v }
def State.setWriter (s : State) (v : Writer) : State := { s with writer := v }
def State.setSegments (s : State) (v : Segments) : State := { s with segments := v }
def State.setArray (s : State) (v : ArrayEngine) : State := { s with array := v }
def State.setScan (s : State) (v : Option Scan) : State := { s with scan := v }
def State.setFormatNext (s : State) (v : Option Nat) : State := { s with formatNext := v }
def State.setFlash (s : State) (v : Flash) : State := { s with flash := v }
def State.setRaised (s : State) (v : List (Block × Notice)) : State := { s with raised := v }
def State.setFreeIndex (s : State) (v : Nat) : State := { s with freeIndex := v }

/-! ### After a station reset -/

/-- R170, which is silent on SDO: a station reset ends the selection in progress (R149), and SDO is at
high impedance after it (DESIGN CHOICE, log 37). -/
def Port.reset : Port where
  result := ⟨.ok, none, none⟩
  slot := .idle
  buffer := []
  notices := []
  lost := 0
  portError := false
  returned := .highImpedance
  selection := none
  selIgnored := false
  holdPin := false

/-- R79. -/
def Line.reset : Line where
  transmitter := .off
  framer := .off
  failures := 0
  muted := false
  heldCursor := 15

/-- R97, R172: the tables are lost; mount rebuilds them. -/
def Tracker.reset : Tracker where
  holdings := List.replicate 16 ⟨0, 0, 0, false⟩
  pending := []
  index := []
  gaps := []
  excess := []

/-- A peer table entry as station reset, ENLIST and WAKE leave it (R130, R131). -/
def Peer.reset : Peer where
  state := .unknown
  timer := false
  reported := List.replicate 16 0
  full := false
  quiet := false

/-- R130. -/
def Presence.reset : Presence where
  peers := List.replicate 16 Peer.reset
  presenceTimer := false
  request := false
  quieting := false
  joiningTimer := false

/-- R114. -/
def Submission.reset : Submission where
  queue := []
  nextSeq := none
  ticket := 0
  durable := 0
  kept := List.replicate 16 0

/-- R147. -/
def Repair.reset : Repair where
  slots := List.replicate 4 none
  responders := []

/-- R62, R172. -/
def Writer.reset : Writer where
  jobs := []
  place := none
  nextPosition := 1
  releaseMark := 0

/-- R61, R172. -/
def Segments.reset : Segments where
  table := []
  full := false
  ownFloor := 0

/-- R22, R42. -/
def ArrayEngine.reset : ArrayEngine where
  activity := .idle
  context := none
  hostClaim := none
  programClaim := none
  fetchClaims := []

/-- The mount scan at its first step (R172, R173). -/
def Scan.reset : Scan where
  step := .headers 0
  found := List.replicate 64 .unread
  todo := []
  extents := []

/-- The machine right after a station reset at power-on (R172), with nothing in flash and no
command waiting. -/
def State.reset : State where
  pending := []
  mode := .mounting
  enlistment := none
  port := Port.reset
  line := Line.reset
  tracker := Tracker.reset
  presence := Presence.reset
  submission := Submission.reset
  repair := Repair.reset
  writer := Writer.reset
  segments := Segments.reset
  array := ArrayEngine.reset
  scan := some Scan.reset
  formatNext := none
  flash := ⟨[], []⟩
  raised := []
  freeIndex := 0

end Sys2Proof.Machine
end

