-- ==== Sys2Proof/Machine/Formats.lean ====
section
/-! DEFINITION. The byte layouts of chapter 12: stored records, segment headers, line frames, the
codes and responses of the host port, and the two checks. -/

namespace Sys2Proof.Machine

/-! ### Bytes and words -/

/-- A 4-byte field, most significant byte first (chapter 12). -/
def wordBytes (w : Word) : List Byte :=
  [w.extractLsb' 24 8, w.extractLsb' 16 8, w.extractLsb' 8 8, w.extractLsb' 0 8]

/-- The 4-byte field of a number. -/
def natBytes (n : Nat) : List Byte := wordBytes (BitVec.ofNat 32 n)

/-- The 1-byte field of a number. -/
def natByte (n : Nat) : Byte := BitVec.ofNat 8 n

/-- The word of four bytes, the first most significant. -/
def ofBytes (a b c d : Byte) : Word := a ++ b ++ c ++ d

/-- The 4-byte field at the front of some bytes; a missing byte reads as blank. -/
def frontWord : List Byte → Word
  | a :: b :: c :: d :: _ => ofBytes a b c d
  | _ => 0xFFFFFFFF#32

/-- The 4-byte fields that some bytes hold one after another. -/
def wordsOf : List Byte → List Word
  | a :: b :: c :: d :: rest => ofBytes a b c d :: wordsOf rest
  | _ => []

/-! ### The two checks (R186, R187) -/

/-- One bit of the CRC-32 register (R186). -/
def crc32Shift (c : Word) : Word := if c.msb then (c <<< 1) ^^^ 0x04C11DB7#32 else c <<< 1

/-- One byte of the CRC-32, most significant bit first (R186). -/
def crc32Byte (c : Word) (b : Byte) : Word :=
  Nat.repeat crc32Shift 8 (c ^^^ (b.setWidth 32 <<< 24))

/-- The CRC-32 of the record check and of the header check (R186). -/
def crc32 (bytes : List Byte) : Word := ~~~ (bytes.foldl crc32Byte 0xFFFFFFFF#32)

/-- One bit of the CRC-16 register (R187). -/
def crc16Shift (c : BitVec 16) : BitVec 16 := if c.msb then (c <<< 1) ^^^ 0x1021#16 else c <<< 1

/-- One byte of the CRC-16, most significant bit first (R187). -/
def crc16Byte (c : BitVec 16) (b : Byte) : BitVec 16 :=
  Nat.repeat crc16Shift 8 (c ^^^ (b.setWidth 16 <<< 8))

/-- The frame CRC-16 (R187). -/
def crc16 (bytes : List Byte) : BitVec 16 := bytes.foldl crc16Byte 0xFFFF#16

/-! ### The stored record (12.1) -/

/-- The kind byte of a record (12.1). -/
def RecordKind.byte : RecordKind → Byte
  | .data => 0x01
  | .hole => 0x02
  | .release => 0x03

/-- The kind that a byte names (R13, R186). -/
def RecordKind.ofByte (b : Byte) : Option RecordKind :=
  if b = 0x01 then some .data else if b = 0x02 then some .hole
  else if b = 0x03 then some .release else none

/-- The length that a record's length byte may hold for its kind (R13). -/
def RecordKind.lengthOk (k : RecordKind) (length : Nat) : Bool :=
  match k with
  | .data => decide (1 ≤ length) && decide (length ≤ 200)
  | .hole | .release => decide (length = 4)

/-- The record check over kind, origin, tag, length, seq and payload (R6, R186). -/
def recordCheck (kind : RecordKind) (origin tag : Byte) (seq : Word) (payload : List Byte) : Word :=
  crc32 ([kind.byte, origin, tag, natByte payload.length] ++ wordBytes seq ++ payload)

/-- The bytes of a record with a given check (12.1). -/
def recordBytes (kind : RecordKind) (origin tag : Byte) (seq : Word) (position : Nat)
    (payload : List Byte) (check : Word) : List Byte :=
  [kind.byte, origin, tag, natByte payload.length] ++ wordBytes seq ++ natBytes position ++ payload
    ++ wordBytes check

/-- The bytes of a job's record at a local position (R3, R4, R5, 12.1). -/
def JobBody.bytes (body : JobBody) (position : Nat) : List Byte :=
  match body with
  | .data origin tag seq payload check =>
    recordBytes .data (natByte origin) tag (BitVec.ofNat 32 seq) position payload check
  | .hole origin first last =>
    let seq := BitVec.ofNat 32 first
    recordBytes .hole (natByte origin) 0 seq position (natBytes last)
      (recordCheck .hole (natByte origin) 0 seq (natBytes last))
  | .release mark =>
    recordBytes .release 0 0 0 position (natBytes mark)
      (recordCheck .release 0 0 0 (natBytes mark))

/-- The stored size of a job's record (1.2, R48). -/
def JobBody.size : JobBody → Nat
  | .data _ _ _ payload _ => 16 + payload.length
  | .hole .. | .release .. => 20

/-- The check that a record's bytes carry agrees with its fields (R32, R33, R186): the computation
runs over bytes 0 to 7 and the payload, the check is the last four bytes. -/
def checkGood (bytes : List Byte) : Bool :=
  decide (16 ≤ bytes.length) &&
  decide (crc32 (bytes.take 8 ++ (bytes.drop 12).take (bytes.length - 16))
    = frontWord (bytes.drop (bytes.length - 4)))

/-- The record at the front of the rest of a page, when it meets the four conditions of R15 with the
expected position; `page` and `offset` say where it stands. -/
def scanRecord (rest : List Byte) (page offset expected : Nat) : Option Scanned :=
  match rest with
  | kindByte :: origin :: _ :: length :: _ =>
    match RecordKind.ofByte kindByte with
    | none => none
    | some kind =>
      let size := 16 + length.toNat
      let bytes := rest.take size
      if kind.lengthOk length.toNat && decide (size ≤ rest.length) && checkGood bytes
          && decide (frontWord (bytes.drop 8) = BitVec.ofNat 32 expected) then
        let seq := (frontWord (bytes.drop 4)).toNat
        let last := (frontWord (bytes.drop 12)).toNat
        some ⟨⟨expected, page, offset, size, kind, origin.toNat, seq⟩,
          if kind = .data then seq else last, frontWord (bytes.drop (12 + length.toNat))⟩
      else none
  | _ => none

/-- The content of a stored DATA record, as a REFILL COPY carries it (R144). -/
def contentOf (bytes : List Byte) : Content :=
  ⟨frontWord (bytes.drop 4), bytes.getD 2 0xFF, (bytes.drop 12).take (bytes.length - 16),
    frontWord (bytes.drop (bytes.length - 4))⟩

/-! ### The segment header (12.2) -/

/-- The header fields that the header check covers (R10, 12.2). -/
def headerFields (generation : Word) (firstPosition : Nat) (floor : List Nat) : List Byte :=
  wordBytes Config.headerMark ++ wordBytes generation ++ natBytes firstPosition
    ++ (floor.take 16).flatMap natBytes

/-- The bytes of a segment header (12.2). -/
def headerBytes (generation : Word) (firstPosition : Nat) (floor : List Nat) : List Byte :=
  headerFields generation firstPosition floor
    ++ wordBytes (crc32 (headerFields generation firstPosition floor))

/-- What the first 80 bytes of a page 0 say when they are a valid header (R10, R186). -/
def parseHeader (bytes : List Byte) : Found :=
  if frontWord bytes = Config.headerMark ∧ crc32 (bytes.take 76) = frontWord (bytes.drop 76) then
    .header (frontWord (bytes.drop 4)) (frontWord (bytes.drop 8)).toNat
      ((wordsOf ((bytes.drop 12).take 64)).map BitVec.toNat)
  else .badHeader

/-! ### Line frames (12.3) -/

/-- The mode byte of a PRESENCE (12.3). -/
def PresenceMode.byte : PresenceMode → Byte
  | .active => 0x01
  | .joining => 0x02
  | .quieting => 0x03

/-- The mode that a PRESENCE's mode byte names. -/
def PresenceMode.ofByte (b : Byte) : Option PresenceMode :=
  if b = 0x01 then some .active else if b = 0x02 then some .joining
  else if b = 0x03 then some .quieting else none

/-- The kind value of a frame's key (R64). -/
def Frame.kind : Frame → BitVec 4
  | .held .. => 0
  | .append .. => 1
  | .copy .. | .gone .. => 2
  | .seek .. => 3
  | .presence .. => 4

/-- The station number of a frame's key. -/
def Frame.sender : Frame → StationNumber
  | .held sender .. | .append sender .. | .copy sender .. | .gone sender .. | .seek sender ..
  | .presence sender .. => sender

/-- The key: the kind value times 16 plus the sender's station number (R64). -/
def Frame.key (f : Frame) : Byte := f.kind ++ f.sender

/-- The body of a frame (12.3). -/
def Frame.body : Frame → List Byte
  | .held _ origin value => origin :: wordBytes value
  | .append _ seq tag payload check =>
    wordBytes seq ++ tag :: natByte payload.length :: payload ++ wordBytes check
  | .copy _ requester origin seq tag payload check =>
    requester :: origin :: 0x01 :: wordBytes seq ++ tag :: natByte payload.length :: payload
      ++ wordBytes check
  | .gone _ requester origin first last =>
    requester :: origin :: 0x02 :: wordBytes first ++ wordBytes last
  | .seek _ origin first last => origin :: wordBytes first ++ wordBytes last
  | .presence _ mode full vector =>
    mode.byte :: (if full then 0x01 else 0x00) :: natByte vector.length :: vector.flatMap wordBytes

/-- The data bytes of a frame before its CRC-16. -/
def Frame.covered (f : Frame) : List Byte := f.key :: natByte f.body.length :: f.body

/-- The data bytes of a frame in the order sent (R63, 12.3, R187). -/
def Frame.bytes (f : Frame) : List Byte :=
  f.covered ++ [(crc16 f.covered).extractLsb' 8 8, (crc16 f.covered).extractLsb' 0 8]

/-- The tail of an APPEND or COPY body from its seq on: seq, tag, payload and check, when the length
byte agrees with the bytes there (R187). -/
def parseCarried (bytes : List Byte) : Option (Word × Byte × List Byte × Word) :=
  match bytes with
  | a :: b :: c :: d :: tag :: length :: rest =>
    if rest.length = length.toNat + 4 then
      some (ofBytes a b c d, tag, rest.take length.toNat, frontWord (rest.drop length.toNat))
    else none
  | _ => none

/-- The frame that a kind value, a sender and a body spell, when the body has the length that its
kind and fields require and its flag, mode and FULL bytes name something (R73, R187). -/
def parseBody (kind : BitVec 4) (sender : StationNumber) (body : List Byte) : Option Frame :=
  if kind = 0 then
    match body with
    | [origin, a, b, c, d] => some (.held sender origin (ofBytes a b c d))
    | _ => none
  else if kind = 1 then
    (parseCarried body).map fun (seq, tag, payload, check) => .append sender seq tag payload check
  else if kind = 2 then
    match body with
    | requester :: origin :: flag :: rest =>
      if flag = 0x01 then
        (parseCarried rest).map fun (seq, tag, payload, check) =>
          .copy sender requester origin seq tag payload check
      else if flag = 0x02 ∧ rest.length = 8 then
        some (.gone sender requester origin (frontWord rest) (frontWord (rest.drop 4)))
      else none
    | _ => none
  else if kind = 3 then
    match body with
    | origin :: rest =>
      if rest.length = 8 then some (.seek sender origin (frontWord rest) (frontWord (rest.drop 4)))
      else none
    | _ => none
  else if kind = 4 then
    match body with
    | modeByte :: full :: n :: rest =>
      match PresenceMode.ofByte modeByte with
      | some mode =>
        if (full = 0x00 ∨ full = 0x01) ∧ rest.length = 4 * n.toNat then
          some (.presence sender mode (decide (full = 0x01)) (wordsOf rest))
        else none
      | none => none
    | _ => none
  else none

/-- The frame that some data bytes spell: a key, a body length that agrees with the bytes, a body
and a CRC-16 that agrees with them (R73, R187). -/
def parseFrame (bytes : List Byte) : Option Frame :=
  match bytes with
  | key :: length :: rest =>
    if rest.length = length.toNat + 2 then
      let body := rest.take length.toNat
      let crc := crc16 (key :: length :: body)
      if rest.drop length.toNat = [crc.extractLsb' 8 8, crc.extractLsb' 0 8] then
        parseBody (key.extractLsb' 4 4) (key.extractLsb' 0 4) body
      else none
    else none
  | _ => none

/-- The field checks of R73 for a station of cluster size `n`. The checks of layout are those of
`parseFrame`. -/
def Frame.fieldsGood (n : Nat) (f : Frame) : Bool :=
  decide (f.sender.toNat < n) &&
  match f with
  | .held sender origin _ => decide (origin.toNat < n) && decide (origin.toNat ≠ sender.toNat)
  | .append sender seq tag payload check =>
    decide (seq ≠ 0) && decide (1 ≤ payload.length) && decide (payload.length ≤ 200) &&
    decide (check = recordCheck .data (natByte sender.toNat) tag seq payload)
  | .copy _ requester origin seq tag payload check =>
    decide (requester.toNat < n) && decide (origin.toNat < n) && decide (seq ≠ 0) &&
    decide (1 ≤ payload.length) && decide (payload.length ≤ 200) &&
    decide (check = recordCheck .data origin tag seq payload)
  | .gone sender requester origin first last =>
    decide (requester.toNat < n) && decide (origin.toNat < n) && decide (first ≠ 0) &&
    decide (first.toNat ≤ last.toNat) && decide (origin.toNat = sender.toNat)
  | .seek _ origin first last =>
    decide (origin.toNat < n) && decide (first ≠ 0) && decide (first.toNat ≤ last.toNat) &&
    decide (last.toNat ≤ first.toNat + 15)
  | .presence _ _ _ vector => decide (vector.length = n)

/-! ### Codes and responses of the host port (12.4) -/

/-- Result codes (12.4). -/
def Code.byte : Code → Byte
  | .ok => 0x00
  | .busy => 0x02
  | .refusedMode => 0x03
  | .queueFull => 0x04
  | .journalFull => 0x05
  | .badArg => 0x06
  | .exhausted => 0x07
  | .notFound => 0x08
  | .hole => 0x09
  | .reclaimed => 0x0A

/-- Mode codes (12.4). QUIET has none, since STATUS is not decoded there. -/
def Mode.byte : Mode → Byte
  | .mounting => 0x11
  | .unenlisted => 0x12
  | .formatting => 0x13
  | .joining => 0x14
  | .active => 0x15
  | .quiet => 0x00

/-- Peer state codes (12.4). -/
def Liveness.byte : Liveness → Byte
  | .unknown => 0x00
  | .present => 0x01
  | .silent => 0x02
  | .absent => 0x03

/-- Line rate codes (12.4). -/
def Rate.byte : Rate → Byte
  | .kbit125 => 0x01
  | .kbit250 => 0x02
  | .kbit500 => 0x03
  | .kbit1000 => 0x04

/-- The line rate that a rate argument names (12.4, R188). -/
def Rate.ofByte (b : Byte) : Option Rate :=
  if b = 0x01 then some .kbit125 else if b = 0x02 then some .kbit250
  else if b = 0x03 then some .kbit500 else if b = 0x04 then some .kbit1000 else none

/-- The bit time in microseconds (R63). -/
def Rate.bitTime : Rate → Nat
  | .kbit125 => 8
  | .kbit250 => 4
  | .kbit500 => 2
  | .kbit1000 => 1

/-- The kind code and field bytes of a notice (12.4). -/
def Notice.bytes : Notice → List Byte
  | .durable ticket seq => 0x01 :: ticket :: natBytes seq
  | .unconfirmed ticket seq => 0x02 :: ticket :: natBytes seq
  | .hole origin first last => 0x03 :: natByte origin :: natBytes first ++ natBytes last
  | .divergent origin seq sender => 0x04 :: natByte origin :: natBytes seq ++ [natByte sender]
  | .peer station state => [0x05, natByte station, state.byte]
  | .full entered => [0x06, if entered then 0x01 else 0x00]
  | .media segment erase => [0x07, natByte segment, if erase then 0x02 else 0x01]
  | .muted => [0x08]
  | .arrival position => 0x09 :: natBytes position

/-- Bytes filled with 0x00 up to a length (R188). -/
def padTo (n : Nat) (bytes : List Byte) : List Byte :=
  bytes ++ List.replicate (n - bytes.length) 0x00

/-- The 11 bytes of a NEXT NOTICE response (12.4, R169, R188). -/
def noticeResponse (lost : Nat) (head : Option Notice) : List Byte :=
  padTo 11 (natByte lost :: (head.map Notice.bytes).getD [])

/-- The 7 bytes of a RESULT response (12.4, R188). -/
def CommandResult.bytes (r : CommandResult) : List Byte :=
  padTo 7 ([r.code.byte, r.command.getD 0x00] ++
    match r.details with
    | some (ticket, seq) => ticket :: natBytes seq
    | none => [])

/-- Slot state, target kind, origin, and position or seq, as STATUS and READ BUFFER show them
(12.4, R188). -/
def ReadSlot.targetBytes (r : ReadSlot) : List Byte :=
  let stateByte : Byte := match r with
    | .idle => 0x00
    | .pending _ => 0x01
    | .done .. => 0x02
  let target : Option Target := match r with
    | .idle => none
    | .pending t => some t
    | .done t _ => some t
  stateByte :: match target with
    | none => [0x00, 0x00, 0x00, 0x00, 0x00, 0x00]
    | some (.position position) => [0x01, 0x00] ++ natBytes position
    | some (.record origin seq) => [0x02, natByte origin] ++ natBytes seq

/-- The slot's code byte: 0x00 while IDLE, PENDING while PENDING, its code in DONE (12.4, R188). R188
gives PENDING for the READ BUFFER header; that STATUS carries it too is a choice (DESIGN CHOICE,
log 50). -/
def ReadSlot.codeByte : ReadSlot → Byte
  | .idle => 0x00
  | .pending _ => 0x01
  | .done _ code => code.byte

/-- The 9 bytes of the READ BUFFER header (12.4, R160). -/
def bufferHeader (slot : ReadSlot) (buffer : List Byte) : List Byte :=
  slot.targetBytes ++ [slot.codeByte, natByte buffer.length]

/-- The n-th byte that the host clocks out of SDO after the command is complete; none while SDO is at
high impedance (R148, R160). -/
def Sdo.byteAt (o : Sdo) (n : Nat) : Option Byte :=
  match o with
  | .highImpedance => none
  | .drives head loop =>
    if n < head.length then some (head.getD n 0x00)
    else some (loop.getD ((n - head.length) % loop.length) 0x00)

end Sys2Proof.Machine
end

