-- ==== Sys2Proof/Machine/Flags.lean ====
section
/-! DEFINITION. Conditions and flags that the blocks read of one another's state, each computed from
the one place that holds it. -/

namespace Sys2Proof.Machine

/-- N of the enlistment; 0 while the station is not enlisted (R155, R188). -/
def State.clusterSize (s : State) : Nat :=
  match s.enlistment with
  | some e => e.n
  | none => 0

/-- W of the enlistment. -/
def State.replicationTarget (s : State) : Nat :=
  match s.enlistment with
  | some e => e.w
  | none => 0

/-- The station's own number; 0 while it is not enlisted. -/
def State.ownNumber (s : State) : Nat :=
  match s.enlistment with
  | some e => e.station
  | none => 0

/-- A number is the station's own. -/
def State.isOwn (s : State) (o : Nat) : Bool :=
  match s.enlistment with
  | some e => decide (e.station = o)
  | none => false

/-- A number names a peer: below N and not the station's own (R121). -/
def State.isPeer (s : State) (p : Nat) : Bool := decide (p < s.clusterSize) && !s.isOwn p

/-- The station number as a frame's key carries it (R64). -/
def State.key (s : State) : StationNumber := BitVec.ofNat 4 s.ownNumber

/-- JOINING or ACTIVE, the modes in which frames are handed on and repair runs (R74, R146). -/
def Mode.onLine : Mode → Bool
  | .joining | .active => true
  | _ => false

/-- The modes in which a DIRTY segment's erase is requested (R56). -/
def Mode.erases : Mode → Bool
  | .unenlisted | .joining | .active => true
  | _ => false

/-- A job of the incoming class (R46). -/
def Source.incoming : Source → Bool
  | .append | .refill | .declared | .excess => true
  | .commit | .release => false

/-- The incoming jobs in the program job queue (R46). -/
def Writer.incomingCount (w : Writer) : Nat := w.jobs.countP (·.source.incoming)

/-- Incoming admission is open (R46). -/
def State.admissionOpen (s : State) : Bool :=
  decide (s.writer.incomingCount < Config.incomingLimit) && !s.segments.full

/-- ATTN# is asserted exactly while the notice queue is not empty (R167). -/
def State.attn (s : State) : Bool := !s.port.notices.isEmpty

/-- What SDO carries: it is at high impedance while HOLD# pauses the port (R150), while the code and the
arguments are shifted (R148) and while no selection is in progress (log 37); from the completion of
the command on it carries what that drives. -/
def Port.sdo (p : Port) : Sdo :=
  if p.holdPin then .highImpedance
  else match p.selection with
    | some (.completed _) => p.returned
    | some .shifting | none => .highImpedance

/-- The transmitter has a frame or a break in hand (section 4.3). -/
def Transmitter.busy : Transmitter → Bool
  | .arbitrating .. | .sending .. | .breaking _ => true
  | .off | .idle => false

/-- The request and content of the frame that the transmitter has on the line. -/
def Transmitter.onLine? : Transmitter → Option (Request × Frame)
  | .arbitrating r f | .sending r f => some (r, f)
  | _ => none

/-- A program claim waits or a program is in progress, so that the head job needs no claim made
(R23, R48). -/
def ArrayEngine.programBusy (a : ArrayEngine) : Bool :=
  a.programClaim.isSome || match a.activity with
    | .program _ => true
    | _ => false

/-- The erase context is HELD, so that the erase claim is present (R21, R23). -/
def ArrayEngine.eraseHeld (a : ArrayEngine) : Bool :=
  match a.context with
  | some c => !c.running
  | none => false

/-- The claim is that of the entry of this requester and origin. -/
def FetchClaim.isFor (q o : Nat) (c : FetchClaim) : Bool := c.requester = q && c.origin = o

/-- A host read, program or fetch claim waits (R38, R40). -/
def ArrayEngine.demand (a : ArrayEngine) : Bool :=
  a.hostClaim.isSome || a.programClaim.isSome || !a.fetchClaims.isEmpty

/-- The withdrawn fetch of a responder entry is still being read (R23, R26). -/
def ArrayEngine.dropping (a : ArrayEngine) (q o : Nat) : Bool :=
  match a.activity with
  | .read (.fetch c .withdrawn) => c.isFor q o
  | _ => false

/-- The record program of the head job has been served and has not completed (R47). -/
def ArrayEngine.recordInProgress (a : ArrayEngine) : Bool :=
  match a.activity with
  | .program .record => true
  | _ => false

/-- The fields of an entry that is OPEN, SEALED or FAULTY (R43). -/
def SegmentState.use? : SegmentState → Option InUse
  | .opened u _ _ | .sealed u | .faulty u => some u
  | _ => none

def SegmentState.isErased : SegmentState → Bool
  | .erased => true
  | _ => false

def SegmentState.isDirty : SegmentState → Bool
  | .dirty => true
  | _ => false

def SegmentState.isRetired : SegmentState → Bool
  | .retired => true
  | _ => false

def SegmentState.isErasing : SegmentState → Bool
  | .erasing => true
  | _ => false

def SegmentState.isOpen : SegmentState → Bool
  | .opened .. => true
  | _ => false

/-- The count of ERASED segments (R45). -/
def Segments.erasedCount (m : Segments) : Nat := m.table.countP (·.state.isErased)

/-- The flags byte of STATUS (12.4). -/
def State.flagsByte (s : State) : Byte :=
  (if s.line.muted then 0x01 else 0x00) ||| (if s.segments.full then 0x02 else 0x00)
    ||| (if s.port.portError then 0x04 else 0x00)

end Sys2Proof.Machine
end

