-- ==== Sys2Proof/Machine/Operands.lean ====
section
/-! DEFINITION. The host commands' codes and argument bytes, how a mode treats each (R152), and the
checks on ENLIST's arguments (R156). -/

namespace Sys2Proof.Machine

/-- The commands that a code byte names (chapter 9). -/
inductive HostCommand where
  | status
  | result
  | readBuffer
  | nextNotice
  | readPosition
  | readRecord
  | submit
  | release
  | enlist
  | format
  | quiet
  | wake
  | lineResume
  | reset
  deriving DecidableEq, Repr

/-- Command codes (R153, R155 to R166, R169). -/
def HostCommand.code : HostCommand → Byte
  | .status => 0x51
  | .result => 0x52
  | .nextNotice => 0x53
  | .readBuffer => 0x54
  | .enlist => 0xA1
  | .submit => 0xA4
  | .release => 0xA6
  | .readPosition => 0xB1
  | .readRecord => 0xB2
  | .quiet => 0xC5
  | .wake => 0xC6
  | .lineResume => 0xC9
  | .format => 0xE7
  | .reset => 0xEE

/-- Every host command. -/
def HostCommand.all : List HostCommand :=
  [.status, .result, .readBuffer, .nextNotice, .readPosition, .readRecord, .submit, .release,
    .enlist, .format, .quiet, .wake, .lineResume, .reset]

/-- The command that a code byte names (R148). -/
def HostCommand.ofCode (code : Byte) : Option HostCommand := HostCommand.all.find? (·.code = code)

/-- The commands that return a response (R148). -/
def HostCommand.report? : HostCommand → Option Report
  | .status => some .status
  | .result => some .result
  | .readBuffer => some .readBuffer
  | .nextNotice => some .nextNotice
  | _ => none

/-- What the decoder does with a complete command (R152). -/
inductive Verdict where
  | taken
  | busy
  | refusedMode
  | noTrace
  deriving DecidableEq, Repr

/-- The table of R152. It leaves STATUS without a trace in QUIET, where R131 speaks of a host that reads
STATUS meanwhile: the model follows R152, R155 and R171 (DEDUCED, log 42). -/
def HostCommand.verdict (c : HostCommand) (m : Mode) : Verdict :=
  match m with
  | .mounting | .formatting =>
    match c with
    | .status => .taken
    | _ => .busy
  | .quiet =>
    match c with
    | .wake => .taken
    | _ => .noTrace
  | .unenlisted =>
    match c with
    | .quiet | .lineResume | .wake => .refusedMode
    | _ => .taken
  | .joining | .active =>
    match c with
    | .enlist | .format | .wake => .refusedMode
    | _ => .taken

/-- P is at least four frame slots at the rate, in microseconds: a unit is 10 ms and a frame slot is
2,304 bit times (R156). -/
def longEnough (rate : Rate) (p : Nat) : Bool := decide (4 * 2304 * rate.bitTime ≤ p * 10000)

/-- The configuration that ENLIST's arguments name, when they pass the checks of R156. -/
def enlistmentOf (station n w rate p : Byte) : Option Enlistment :=
  match Rate.ofByte rate with
  | none => none
  | some r =>
    if 2 ≤ n.toNat ∧ n.toNat ≤ 16 ∧ station.toNat < n.toNat ∧ w.toNat < n.toNat ∧ 1 ≤ p.toNat
        ∧ longEnough r p.toNat = true then
      some ⟨station.toNat, n.toNat, w.toNat, r, p.toNat⟩
    else none

end Sys2Proof.Machine
end

