-- ==== Sys2Proof/WellFormed.lean ====
section
/-! DEFINITION. Which terms of Instr stand for an event that can arise: field widths and the checks
that need no state. -/

namespace Sys2Proof

open Machine

/-- The frame passes the checks of R73 at a station of some cluster size, and its body fits its
length byte (R63). -/
def Machine.Frame.wellFormed (f : Frame) : Bool :=
  decide (f.body.length ≤ 255) &&
  match f with
  | .presence _ _ _ vector =>
    decide (2 ≤ vector.length) && decide (vector.length ≤ 16) && f.fieldsGood vector.length
  | _ => f.fieldsGood 16

/-- The commands that carry arguments, so that a selection can end before they are complete (R148,
R149). -/
def Machine.HostCommand.hasArguments : HostCommand → Bool
  | .readPosition | .readRecord | .submit | .release | .enlist => true
  | _ => false

/-- The bytes that an array read delivers in place of those stored are as many as a record has
(1.2). -/
def flawSize (flaw : Option (List Byte)) : Bool :=
  match flaw with
  | some bytes => decide (17 ≤ bytes.length) && decide (bytes.length ≤ 216)
  | none => true

/-- The data bytes of a frame that reached its end: a key, a body length, as many body bytes, and
two CRC bytes (R63). -/
def frameSize : List Byte → Bool
  | _ :: length :: rest => decide (rest.length = length.toNat + 2)
  | _ => false

/-- A command is well-formed. -/
def Instr.wellFormed : Instr → Bool
  | .submit _ payload _ => decide (payload.length ≤ 255)
  | .unknownCode code _ => (HostCommand.ofCode code).isNone
  | .commandDiscarded (.incomplete code) => (HostCommand.ofCode code).any (·.hasArguments)
  | .heldFrame sender origin value => (Machine.Frame.held sender origin value).wellFormed
  | .presenceFrame sender joining full vector =>
    (Machine.Frame.presence sender (if joining then .joining else .active) full vector).wellFormed
  | .quietingPresenceFrame sender full vector =>
    (Machine.Frame.presence sender .quieting full vector).wellFormed
  | .appendFrame sender seq tag payload check =>
    (Machine.Frame.append sender seq tag payload check).wellFormed
  | .refillCopyFrame sender requester origin seq tag payload check =>
    (Machine.Frame.copy sender requester origin seq tag payload check).wellFormed
  | .refillGoneFrame sender requester origin first last =>
    (Machine.Frame.gone sender requester origin first last).wellFormed
  | .seekFrame sender origin first last => (Machine.Frame.seek sender origin first last).wellFormed
  | .frameDiscarded bytes => frameSize bytes
  | .hostReadCompletion flaw => flawSize flaw
  | .fetchCompletion flaw => flawSize flaw
  | .silenceTimerExpiry peers => !peers.isEmpty
  | .confirmationWaitExpiry _ | .repairWaitExpiry _ | .deferExpiry _ _
  | .stationReset _ | .status _ | .result _ | .readBuffer _ | .nextNotice _ | .readPosition _ _
  | .readRecord _ _ _ | .release _ _ | .enlist _ _ _ _ _ _ | .format _ | .quiet _ | .wake _
  | .lineResume _ | .reset _ _ | .commandDiscarded .noBit | .commandDiscarded .offBoundary
  | .commandDiscarded .duringHold | .hold _
  | .separatorDominant | .dominantRunEnd | .gapEnd | .huntIdleRun | .frameStart | .arbitrationLoss
  | .transmitFailure | .breakComplete | .heldSendCompletion | .appendSendCompletion
  | .refillSendCompletion | .seekSendCompletion | .presenceSendCompletion
  | .quietingPresenceSendCompletion | .presenceTimerExpiry | .joiningEnd
  | .recordProgramCompletion _ | .headerProgramCompletion _ | .blankCheckCompletion
  | .mountReadCompletion | .eraseCompletion _ | .resumeMinimumReached | .suspensionCompletion
  | .startBitSeen | .dominantBitInGap => true

end Sys2Proof
end

