-- ==== Sys2Proof/Decode.lean ====
section
/-! DEFINITION. The command that a word of the table spells, which is none, since the table gives no
row any bits; and the bytes of a host port selection, which do spell a command (R148, R149). -/

namespace Sys2Proof

open Machine

/-- The table of operations and events gives none of its rows any bits (log 8). -/
def decodeTableWord (_nbits _w : Nat) : Option Instr := none

/-- The command that a code and the bytes after it spell, when its arguments are complete; bytes
after completion are ignored (R148, R153 to R166, R169). -/
def commandOf (cut : CutShort) (c : HostCommand) (rest : List Byte) : Option Instr :=
  match c with
  | .status => some (.status .whole)
  | .result => some (.result .whole)
  | .readBuffer => some (.readBuffer .whole)
  | .nextNotice => some (.nextNotice .whole)
  | .readPosition =>
    match rest with
    | a :: b :: c :: d :: _ => some (.readPosition (ofBytes a b c d) .whole)
    | _ => none
  | .readRecord =>
    match rest with
    | origin :: a :: b :: c :: d :: _ => some (.readRecord origin (ofBytes a b c d) .whole)
    | _ => none
  | .submit =>
    match rest with
    | tag :: length :: bytes =>
      if length.toNat ≤ bytes.length then some (.submit tag (bytes.take length.toNat) .whole)
      else none
    | _ => none
  | .release =>
    match rest with
    | a :: b :: c :: d :: _ => some (.release (ofBytes a b c d) .whole)
    | _ => none
  | .enlist =>
    match rest with
    | station :: n :: w :: rate :: p :: _ => some (.enlist station n w rate p .whole)
    | _ => none
  | .format => some (.format .whole)
  | .quiet => some (.quiet .whole)
  | .wake => some (.wake .whole)
  | .lineResume => some (.lineResume .whole)
  | .reset => some (.reset cut .whole)

/-- The command that a selection of whole bytes is at its release, HOLD# not being asserted (R148,
R149). `cut` is what a RESET would find half done. -/
def decodeSelection (cut : CutShort) (bytes : List Byte) : Instr :=
  match bytes with
  | [] => .commandDiscarded .noBit
  | code :: rest =>
    match HostCommand.ofCode code with
    | none => .unknownCode code .whole
    | some c => (commandOf cut c rest).getD (.commandDiscarded (.incomplete code))

/-- The bytes with which a host sends a command in one selection, for the commands that a selection
spells (R148, R153 to R166, R169). -/
def encodeSelection (i : Instr) : Option (List Byte) :=
  match i with
  | .status .whole => some [HostCommand.status.code]
  | .result .whole => some [HostCommand.result.code]
  | .readBuffer .whole => some [HostCommand.readBuffer.code]
  | .nextNotice .whole => some [HostCommand.nextNotice.code]
  | .readPosition position .whole => some (HostCommand.readPosition.code :: wordBytes position)
  | .readRecord origin seq .whole => some (HostCommand.readRecord.code :: origin :: wordBytes seq)
  | .submit tag payload .whole =>
    some (HostCommand.submit.code :: tag :: natByte payload.length :: payload)
  | .release position .whole => some (HostCommand.release.code :: wordBytes position)
  | .enlist station n w rate p .whole => some [HostCommand.enlist.code, station, n, w, rate, p]
  | .format .whole => some [HostCommand.format.code]
  | .quiet .whole => some [HostCommand.quiet.code]
  | .wake .whole => some [HostCommand.wake.code]
  | .lineResume .whole => some [HostCommand.lineResume.code]
  | .reset _ .whole => some [HostCommand.reset.code]
  | .unknownCode code .whole => some [code]
  | .commandDiscarded .noBit => some []
  | _ => none

end Sys2Proof
end

