-- ==== Sys2Proof/Machine/Ops.lean ====
section
/-! DEFINITION. The shared operations: the flash array, the notice queue, the segment table's
lookups, the transmitter's and the framer's moves, and the events' end. -/

namespace Sys2Proof.Machine

/-! ### The flash array (R9, R18) -/

/-- The address of a byte of a page of a segment (R9). -/
def flashAddress (segment page offset : Nat) : Nat :=
  (segment * Config.pageCount + page) * Config.pageBytes + offset

/-- The bytes of the whole array (R18). -/
abbrev flashBytes : Nat := Config.segmentCount * Config.pageCount * Config.pageBytes

/-- What an address that is not listed reads as: a blank byte (R9). -/
abbrev blankByte : Byte := 0xFF

/-- One byte of a list of cells. -/
def readCell (cells : List Host.Cell) (a : Nat) : Byte :=
  match cells with
  | [] => blankByte
  | (b, v) :: rest => if a = b then v else readCell rest a

/-- One byte written into a list of cells: in address order, nothing listed that is blank. -/
def writeCell (cells : List Host.Cell) (a : Nat) (v : Byte) : List Host.Cell :=
  match cells with
  | [] => if v = blankByte then [] else [(a, v)]
  | (b, w) :: rest =>
    if a < b then (if v = blankByte then (b, w) :: rest else (a, v) :: (b, w) :: rest)
    else if a = b then (if v = blankByte then rest else (a, v) :: rest)
    else (b, w) :: writeCell rest a v

/-- Bytes written one after another from an address on; an address outside the array takes
nothing. -/
def writeCells (cells : List Host.Cell) (a : Nat) : List Byte → List Host.Cell
  | [] => cells
  | v :: vs => writeCells (if a < flashBytes then writeCell cells a v else cells) (a + 1) vs

/-- One byte of the array. -/
def Flash.readByte (f : Flash) (a : Nat) : Byte := readCell f.cells a

/-- Some bytes of the array. -/
def Flash.read (f : Flash) (a count : Nat) : List Byte :=
  (List.range count).map fun i => f.readByte (a + i)

/-- A program that completes GOOD (R27, R28). -/
def Flash.program (f : Flash) (a : Nat) (bytes : List Byte) : Flash :=
  { f with cells := writeCells f.cells a bytes }

/-- The segment that an address lies in. -/
def segmentOf (a : Nat) : Nat := a / (Config.pageCount * Config.pageBytes)

/-- The segment of a damage mark. -/
def Damage.segmentOf : Damage → Nat
  | .record k _ _ => k
  | .segment k _ => k

/-- A segment made blank (R37). -/
def Flash.eraseSegment (f : Flash) (k : Nat) : Flash where
  cells := f.cells.filter fun c => segmentOf c.1 ≠ k
  damage := f.damage.filter fun d => d.segmentOf ≠ k

/-- A segment whose content the manual gives up: page 0 is no valid header and the segment is not
blank (R22, R30, R60, R173). -/
def Flash.spoilSegment (f : Flash) (k : Nat) (page0Blank : Bool) : Flash :=
  let g := f.eraseSegment k
  { g with damage := g.damage ++ [.segment k page0Blank] }

/-- The remains of a record program (R14, R22). -/
def Flash.spoilRecord (f : Flash) (k page offset : Nat) : Flash :=
  { f with damage := f.damage ++ [.record k page offset] }

/-- Remains of a record program begin at this place (R14). -/
def Flash.spoiledAt (f : Flash) (k page offset : Nat) : Bool :=
  f.damage.any (· == .record k page offset)

/-- A page other than page 0 is blank throughout. -/
def Flash.pageBlank (f : Flash) (k page : Nat) : Bool :=
  f.cells.all (fun c => c.1 / Config.pageBytes ≠ k * Config.pageCount + page) &&
  f.damage.all fun d => match d with
    | .record k' page' _ => !(k' = k && page' = page)
    | .segment .. => true

/-- Byte 0 of a page of record space is blank (R13). -/
def Flash.pageStartBlank (f : Flash) (k page : Nat) : Bool :=
  decide (f.readByte (flashAddress k page 0) = blankByte) && !f.spoiledAt k page 0

/-- What reading page 0 of a segment finds (R173). -/
def Flash.readHeader (f : Flash) (k : Nat) : Found :=
  if f.damage.contains (.segment k false) then .badHeader
  else if f.damage.contains (.segment k true) then .blankPage
  else if f.pageBlank k 0 then .blankPage
  else parseHeader (f.read (flashAddress k 0 0) 80)

/-- The outcome BLANK of a segment's blank check (R35). -/
def Flash.segmentBlank (f : Flash) (k : Nat) : Bool :=
  f.cells.all (fun c => segmentOf c.1 ≠ k) && f.damage.all fun d => d.segmentOf ≠ k

/-- The canonical form of the cells: addresses rising, none outside the array, no blank byte. -/
def cellsOk : List Host.Cell → Bool
  | [] => true
  | [(a, v)] => decide (a < flashBytes) && decide (v ≠ blankByte)
  | (a, v) :: (b, w) :: rest =>
    decide (a < b) && decide (v ≠ blankByte) && cellsOk ((b, w) :: rest)

/-- The canonical form of the array. -/
def Flash.wf (f : Flash) : Bool := cellsOk f.cells

/-! ### Notices (R167, R168) -/

/-- A notice is handed over by a block; it joins the queue at the event's end. -/
def State.raise (s : State) (b : Block) (n : Notice) : State := s.setRaised (s.raised ++ [(b, n)])

def Notice.isArrival : Notice → Bool
  | .arrival _ => true
  | _ => false

/-- What becomes of the notices during a selection is told to the command that is complete in it
(R169). -/
def Selection.mapCompleted (f : Completed → Completed) : Selection → Selection
  | .shifting => .shifting
  | .completed c => .completed (f c)

/-- A notice joins at the tail, or is discarded when the queue is full (R168). -/
def Port.join (p : Port) (n : Notice) : Port :=
  if p.notices.length < Config.noticePlaces then { p with notices := p.notices ++ [n] }
  else { p with
    lost := min Config.lostLimit (p.lost + 1)
    selection := p.selection.map <| Selection.mapCompleted fun c =>
      { c with discarded := c.discarded + 1 } }

/-- A notice reaches the queue: an ARRIVAL is coalesced with the one that waits (R167). -/
def Port.take (p : Port) (n : Notice) : Port :=
  match n with
  | .arrival position =>
    if p.notices.any Notice.isArrival then
      { p with
        notices := p.notices.map fun m => if m.isArrival then .arrival position else m
        selection := p.selection.map <| Selection.mapCompleted fun c =>
          { c with arrivalReplaced := true } }
    else p.join n
  | n => p.join n

/-- The notices that can join next: each block's first (R167: the notices of one block join in the
order of its rules, those of different blocks in either order). -/
def nextNotices : List (Block × Notice) → List Block → List (Block × Notice)
  | [], _ => []
  | (b, n) :: rest, seen =>
    if seen.contains b then nextNotices rest seen else (b, n) :: nextNotices rest (b :: seen)

/-- The notices of one event in the order in which they join, and the free index after it. Where
one block alone has notices left its order is followed; where several have, the free value of
`Config.noticeOrder` says whose joins next (log 4). -/
def joinOrder : Nat → List (Block × Notice) → Nat → List Notice × Nat
  | 0, _, i => ([], i)
  | fuel + 1, l, i =>
    match nextNotices l [] with
    | [] => ([], i)
    | [only] => let r := joinOrder fuel (l.erase only) i; (only.2 :: r.1, r.2)
    | first :: others =>
      let pick := (first :: others).getD (Config.noticeOrder i % (others.length + 1)) first
      let r := joinOrder fuel (l.erase pick) (i + 1)
      (pick.2 :: r.1, r.2)

/-- The event's end for the notices handed over in it. -/
def State.flush (s : State) : State :=
  let r := joinOrder s.raised.length s.raised s.freeIndex
  ((s.setPort (r.1.foldl Port.take s.port)).setRaised []).setFreeIndex r.2

/-! ### The segment table (R43) -/

/-- The entries that are OPEN, SEALED or FAULTY, with their segment numbers. -/
def Segments.inUse (m : Segments) : List (Nat × InUse) :=
  m.table.zipIdx.filterMap fun e => e.1.state.use?.map fun u => (e.2, u)

/-- The fields of a segment that is in use. -/
def Segments.use? (m : Segments) (k : Nat) : Option InUse := m.table[k]?.bind (·.state.use?)

/-- The one of two in-use segments with the lower first position. -/
def olderOf (a b : Nat × InUse) : Nat × InUse :=
  if b.2.firstPosition < a.2.firstPosition then b else a

/-- The oldest segment holding records: the in-use segment with the lowest first position (R56). -/
def Segments.oldest (m : Segments) : Option (Nat × InUse) :=
  match m.inUse with
  | [] => none
  | a :: rest => some (rest.foldl olderOf a)

/-- The segment that follows one: the in-use segment with the lowest first position above it
(R57). -/
def Segments.following (m : Segments) (firstPosition : Nat) : Option (Nat × InUse) :=
  match m.inUse.filter (fun e => firstPosition < e.2.firstPosition) with
  | [] => none
  | a :: rest => some (rest.foldl olderOf a)

/-- The number of the OPEN segment, with its fields. -/
def Segments.open? (m : Segments) : Option (Nat × InUse × Cursor × Nat) :=
  m.table.zipIdx.findSome? fun e => match e.1.state with
    | .opened u c f => some (e.2, u, c, f)
    | _ => none

/-- The ERASED segment with the lowest generation, and among those the lowest number (R49). -/
def Segments.chooseErased (m : Segments) : Option Nat :=
  (m.table.zipIdx.foldl (fun best e =>
    if e.1.state.isErased then
      match best with
      | none => some (e.2, e.1.generation)
      | some (k, g) => if e.1.generation.toNat < g.toNat then some (e.2, e.1.generation) else some (k, g)
    else best) (none : Option (Nat × Word))).map (·.1)

/-- The lowest-numbered DIRTY segment (R56). -/
def Segments.firstDirty (m : Segments) : Option Nat := m.table.findIdx? (·.state.isDirty)

/-- One entry of the table changed. -/
def Segments.change (m : Segments) (k : Nat) (f : Segment → Segment) : Segments :=
  { m with table := m.table.modify k f }

/-- The state of one entry set. -/
def Segments.setState (m : Segments) (k : Nat) (v : SegmentState) : Segments :=
  m.change k fun e => { e with state := v }

/-- The oldest surviving first position, 0 when no segment is in use (R155); the journal is empty in
FORMATTING (R178). -/
def State.oldestPosition (s : State) : Nat :=
  match s.mode, s.segments.oldest with
  | .formatting, _ => 0
  | _, none => 0
  | _, some (_, u) => u.firstPosition

/-- The floor of an origin in the oldest surviving segment, 0 when no segment is in use (R159). -/
def State.oldestFloor (s : State) (o : Nat) : Nat :=
  match s.segments.oldest with
  | none => 0
  | some (_, u) => u.floor.getD o 0

/-- A lookup by local position (R43). -/
def Segments.findPosition (m : Segments) (position : Nat) : Option (Nat × Locator) :=
  m.inUse.findSome? fun e =>
    if e.2.firstPosition ≤ position ∧ position ≤ e.2.lastPosition.getD 0 then
      (e.2.locators.find? (·.position = position)).map fun l => (e.1, l)
    else none

/-- A lookup of a DATA record by origin and seq, through the span lists (R43). -/
def Segments.findData (m : Segments) (origin seq : Nat) : Option (Nat × Locator) :=
  m.inUse.findSome? fun e =>
    if e.2.spans.any (fun p => p.origin = origin && decide (p.low ≤ seq) && decide (seq ≤ p.high)) then
      (e.2.locators.find? fun l => l.kind = .data && l.origin = origin && l.seq = seq).map
        fun l => (e.1, l)
    else none

/-- The hole list of an entry names an origin with a range that can contain a seq (R43). -/
def InUse.holesReach (u : InUse) (origin seq : Nat) : Bool :=
  u.holes.any fun h => h.origin = origin && decide (seq ≤ h.high)

/-- The candidate with the greater first seq, the one met first of equals (R159). -/
def laterHole (best : Option (Nat × Locator)) (e : Nat × Locator) : Option (Nat × Locator) :=
  match best with
  | none => some e
  | some b => if b.2.seq < e.2.seq then some e else some b

/-- The HOLE record of an origin with the greatest first seq at or below a seq (R159), of the entries
that R43 has a lookup examine, from which R43 says that the Host Port builds its claims. R159 does not
name that bound; without it an own seq that is COMMITTING would not be answered NOT_FOUND, as R113 and
R159 say it is (DEDUCED, log 40). -/
def Segments.findHole (m : Segments) (origin seq : Nat) : Option (Nat × Locator) :=
  ((m.inUse.filter (·.2.holesReach origin seq)).flatMap fun e =>
    (e.2.locators.filter fun l => l.kind = .hole && l.origin = origin && decide (l.seq ≤ seq)).map
      fun l => (e.1, l)).foldl laterHole none

/-- A span list with a DATA record added (R44). -/
def addSpan (spans : List Span) (origin seq : Nat) : List Span :=
  if spans.any (·.origin = origin) then
    spans.map fun p =>
      if p.origin = origin then { p with low := min p.low seq, high := max p.high seq } else p
  else spans ++ [⟨origin, seq, seq⟩]

/-- A hole list with a HOLE record added (R44). -/
def addHole (holes : List HoleHigh) (origin last : Nat) : List HoleHigh :=
  if holes.any (·.origin = origin) then
    holes.map fun p => if p.origin = origin then { p with high := max p.high last } else p
  else holes ++ [⟨origin, last⟩]

/-- A record added to a segment's entry (R44); `last` is the last seq of a HOLE record. -/
def InUse.addRecord (u : InUse) (l : Locator) (last : Nat) : InUse :=
  { u with
    count := u.count + 1
    lastPosition := some l.position
    locators := u.locators ++ [l]
    spans := match l.kind with
      | .data => addSpan u.spans l.origin l.seq
      | _ => u.spans
    holes := match l.kind with
      | .hole => addHole u.holes l.origin last
      | _ => u.holes }

/-- The cursor after a record of a size placed at a page and offset (R13, R50). -/
def cursorAfter (page offset size : Nat) : Cursor :=
  if offset + size < Config.pageBytes then .place page (offset + size)
  else if page < 255 then .place (page + 1) 0
  else .past

/-- Byte 0 of the page after one, or past page 255 (R14). -/
def nextPage (page : Nat) : Cursor := if page < 255 then .place (page + 1) 0 else .past

/-! ### Tables of one entry per station number -/

/-- The holdings of an origin. -/
def Tracker.holding (t : Tracker) (o : Nat) : Holding := t.holdings.getD o ⟨0, 0, 0, false⟩

/-- The holdings of one origin changed. -/
def Tracker.change (t : Tracker) (o : Nat) (f : Holding → Holding) : Tracker :=
  { t with holdings := t.holdings.modify o f }

/-- The peer table entry of a station number. -/
def Presence.peer (p : Presence) (k : Nat) : Peer := p.peers.getD k Peer.reset

/-- One entry of the peer table changed. -/
def Presence.change (p : Presence) (k : Nat) (f : Peer → Peer) : Presence :=
  { p with peers := p.peers.modify k f }

/-! ### Line Interface -/

/-- The framer moves (R65). -/
def State.setFramer (s : State) (f : Framer) : State := s.setLine { s.line with framer := f }

/-- The framer moves from one state to another at a line event; in any other state the event does
not arise or leaves it (log 3). -/
def State.moveFramer (s : State) (source target : Framer) : State :=
  if s.line.framer = source then s.setFramer target else s

/-- The transmitter moves. -/
def State.setTransmitter (s : State) (t : Transmitter) : State :=
  s.setLine { s.line with transmitter := t }

/-- The line interface is turned off (R65, R78). -/
def State.lineOff (s : State) : State :=
  s.setLine { s.line with transmitter := .off, framer := .off }

/-- The line interface is turned on (R79). -/
def State.lineOn (s : State) : State :=
  s.setLine { s.line with transmitter := .idle, framer := .hunt }

/-- The request in transmission rewritten, the frame running on (R72). -/
def Transmitter.mapRequest (t : Transmitter) (f : Request → Request) : Transmitter :=
  match t with
  | .arbitrating r c => .arbitrating (f r) c
  | .sending r c => .sending (f r) c
  | .breaking r => .breaking (f r)
  | t => t

/-- The transmitted request no longer finds its seek slot (R134). -/
def Request.dropSlot (i : Nat) : Request → Request
  | .seek j live => .seek j (live && j ≠ i)
  | r => r

/-- The transmitted request no longer finds its responder entry (R144). -/
def Request.dropResponder (q o : Nat) : Request → Request
  | .refill q' o' live => .refill q' o' (live && !(q' = q && o' = o))
  | r => r

/-- The transmitted ordinary PRESENCE is one that QUIET has overtaken: its completion neither clears
the request nor starts the timer (R120; after a WAKE, log 23). -/
def Request.dropPresence : Request → Request
  | .presence _ => .presence false
  | r => r

/-- The transmitted request belongs to a QUIET that WAKE has ended (R78). -/
def Request.dropQuieting : Request → Request
  | .quieting _ => .quieting false
  | r => r

/-- The transmitted request rewritten. -/
def State.mapRequest (s : State) (f : Request → Request) : State :=
  s.setTransmitter (s.line.transmitter.mapRequest f)

/-- A frame of this station has reached its last separator (R70): the transmitter returns to IDLE,
the failure count becomes 0, and the framer leaves the frame (R65). -/
def State.frameSent (s : State) : State :=
  s.setLine { s.line with
    transmitter := .idle
    failures := 0
    framer := if s.line.framer = .frame then .gap else s.line.framer }

end Sys2Proof.Machine
end

