-- ==== Sys2Proof/Machine/Journal.lean ====
section
/-! DEFINITION. The Journal Writer and the Segment Manager: jobs, placement, sealing, opening, the
release mark, reclaim and erase requests (chapter 3). -/

namespace Sys2Proof.Machine

/-! ### The program job queue (R46, R47) -/

/-- A job joins the tail of the program job queue (R46). -/
def State.queueJob (s : State) (j : Job) : State :=
  s.setWriter { s.writer with jobs := s.writer.jobs ++ [j] }

def JobBody.isRelease : JobBody → Bool
  | .release _ => true
  | _ => false

/-- A job whose RELEASE mark is replaced (R47). -/
def Job.withMark (mark : Nat) (j : Job) : Job :=
  match j.body with
  | .release _ => { j with body := .release mark }
  | _ => j

/-- The jobs whose record program has not been served (R47). -/
def State.unservedJobs (s : State) : List Job :=
  if s.array.recordInProgress then s.writer.jobs.tail else s.writer.jobs

/-- A raised mark updates the waiting RELEASE job, or is left to the job queued at the completion
of the one being programmed, or is queued at the tail (R47). -/
def State.queueRelease (s : State) (mark : Nat) : State :=
  if s.unservedJobs.any (·.body.isRelease) then
    s.setWriter { s.writer with
      jobs := if s.array.recordInProgress then
          s.writer.jobs.take 1 ++ s.writer.jobs.tail.map (Job.withMark mark)
        else s.writer.jobs.map (Job.withMark mark) }
  else if s.writer.jobs.any (·.body.isRelease) then s
  else s.queueJob ⟨.release mark, .release⟩

/-! ### Erase requests (R36, R45, R58) -/

/-- The Segment Manager requests a segment's erase: the segment enters ERASING, its in-use fields
leave the entry, and the context becomes HELD (R36, R45). -/
def State.requestErase (s : State) (k : Nat) : State :=
  (s.setSegments (s.segments.setState k .erasing)).setArray
    { s.array with context := some ⟨k, false, false, false, false⟩ }

/-! ### Placement (R12, R48) -/

/-- The head job is given its position and its place, and its record program claim joins (R48). -/
def State.claimRecord (s : State) (k : Nat) (u : InUse) (faults page offset : Nat) : State :=
  ((s.setSegments (s.segments.setState k (.opened u (.place page offset) faults))).setWriter
      { s.writer with place := some ⟨s.writer.nextPosition, k, page, offset⟩ }).setArray
    { s.array with programClaim := some .record }

/-- The OPEN segment is sealed SEALED (R50). -/
def Segments.seal (m : Segments) : Segments :=
  match m.open? with
  | some (k, u, _, _) => m.setState k (.sealed u)
  | none => m

/-- The Journal Writer asks for room: the OPEN segment is sealed, and a segment is chosen for
opening (R49) or FULL is entered (R53). -/
def State.askRoom (s : State) : State :=
  let m := s.segments.seal
  match m.chooseErased with
  | some k => (s.setSegments m).setArray { s.array with programClaim := some (.header k) }
  | none => (s.setSegments { m with full := true }).raise .segmentManager (.full true)

/-- The head job is placed when it has no array claim and placement is not stalled (R48). -/
def State.placeHead (s : State) : State :=
  match s.writer.jobs with
  | [] => s
  | j :: _ =>
    if s.segments.full || s.array.programBusy then s
    else match s.segments.open? with
      | some (k, u, .place page offset, faults) =>
        if j.body.size ≤ Config.pageBytes - offset then s.claimRecord k u faults page offset
        else if page < 255 then s.claimRecord k u faults (page + 1) 0
        else s.askRoom
      | some (_, _, .past, _) => s.askRoom
      | none => s.askRoom

/-- The floor vector that a header takes (R11, R49): held-through of each origin, 0 for origins
from N on while the station is enlisted. -/
def State.floorVector (s : State) : List Nat :=
  (List.range Config.originCount).map fun o =>
    if s.enlistment.isNone || decide (o < s.clusterSize) then (s.tracker.holding o).through else 0

/-- A segment becomes OPEN at the serving of its header program, with the fields that the header
takes (R49). Its program fault count is 0 from the serving on, where R31 and R49 set it only at the
completion GOOD (DESIGN CHOICE, log 39). -/
def State.openSegment (s : State) (k : Nat) : State :=
  s.setSegments (s.segments.setState k
    (.opened ⟨s.writer.nextPosition, none, 0, s.floorVector, [], [], []⟩ (.place 1 0) 0))

/-! ### Program outcomes (R27, R29 to R31, R44, R51) -/

/-- The locator of a job's record at a place (R43, R44). -/
def JobBody.locator (body : JobBody) (p : Place) : Locator :=
  match body with
  | .data origin _ seq _ _ => ⟨p.position, p.page, p.offset, body.size, .data, origin, seq⟩
  | .hole origin first _ => ⟨p.position, p.page, p.offset, body.size, .hole, origin, first⟩
  | .release _ => ⟨p.position, p.page, p.offset, body.size, .release, 0, 0⟩

/-- The last seq of a HOLE record (R44). -/
def JobBody.holeLast : JobBody → Nat
  | .hole _ _ last => last
  | _ => 0

/-- The entry of the OPEN segment after a record program GOOD (R44): the record is added and the
free cursor moves past it. -/
def SegmentState.recordPlaced (body : JobBody) (p : Place) : SegmentState → SegmentState
  | .opened u _ f =>
    .opened (u.addRecord (body.locator p) body.holeLast) (cursorAfter p.page p.offset body.size) f
  | st => st

/-- The Journal Writer and the Segment Manager take a record program GOOD (R7, R27, R44): the bytes
are in flash, the position is final, the job leaves the queue, the record joins its segment. -/
def State.recordPlaced (s : State) (j : Job) (rest : List Job) (p : Place) : State :=
  (((s.setFlash (s.flash.program (flashAddress p.segment p.page p.offset) (j.body.bytes p.position))).setWriter
      { s.writer with jobs := rest, place := none, nextPosition := p.position + 1 }).setSegments
    (s.segments.change p.segment fun e => { e with state := e.state.recordPlaced j.body p })).raise
    .journalWriter (.arrival p.position)

/-- The follow-up of a RELEASE job's completion (R47). -/
def State.followRelease (s : State) (body : JobBody) : State :=
  match body with
  | .release mark =>
    if mark < s.writer.releaseMark then s.queueJob ⟨.release s.writer.releaseMark, .release⟩ else s
  | _ => s

/-- A record program FAILED in a segment without a failure so far: the count becomes 1 and the
record is placed again at the next page (R14, R29). At a second failure the segment is sealed FAULTY
or made DIRTY (R30, R51). -/
def SegmentState.recordFailed (p : Place) : SegmentState → SegmentState
  | .opened u _ 0 => .opened u (nextPage p.page) 1
  | .opened u _ _ => if 1 ≤ u.count then .faulty u else .dirty
  | st => st

/-- The segment is OPEN and has had a program failure since its opening (R30). -/
def SegmentState.failedBefore : SegmentState → Bool
  | .opened _ _ (_ + 1) => true
  | _ => false

/-- The effect of a record program FAILED (R29, R30, R51). The job stays at the head with its
position not consumed. -/
def State.recordFailed (s : State) (p : Place) : State :=
  let second := (s.segments.table[p.segment]?.map (·.state.failedBefore)).getD false
  let t := ((s.setFlash (s.flash.spoilRecord p.segment p.page p.offset)).setWriter
      { s.writer with place := none }).setSegments
    (s.segments.change p.segment fun e =>
      { e with state := e.state.recordFailed p, retire := e.retire || e.state.failedBefore })
  if second then t.raise .segmentManager (.media p.segment false) else t

/-- A header program GOOD: the header is in flash and the program fault count is 0 (R28, R31). -/
def State.headerWritten (s : State) (k : Nat) : State :=
  match s.segments.table[k]? with
  | some ⟨.opened u c _, generation, _⟩ =>
    (s.setFlash (s.flash.program (flashAddress k 0 0)
        (headerBytes generation u.firstPosition u.floor))).setSegments
      (s.segments.setState k (.opened u c 0))
  | _ => s

/-- A header program FAILED: the segment becomes RETIRED with a MEDIA notice (R30). -/
def State.headerFailed (s : State) (k : Nat) : State :=
  ((s.setFlash (s.flash.spoilSegment k false)).setSegments (s.segments.setState k .retired)).raise
    .segmentManager (.media k false)

/-! ### Reclaim (R56 to R58) -/

/-- Condition (a): the segment's last position is at or below the release mark (R57). -/
def State.released (s : State) (u : InUse) : Bool :=
  decide (u.lastPosition.getD (u.firstPosition - 1) ≤ s.writer.releaseMark)

/-- Condition (b): every peer that is not ABSENT reports holding every span's high seq of an origin
below N (R57). -/
def State.heldByPeers (s : State) (u : InUse) : Bool :=
  u.spans.all fun sp => decide (s.clusterSize ≤ sp.origin) ||
    (List.range s.clusterSize).all fun p =>
      s.isOwn p || decide ((s.presence.peer p).state = .absent)
        || decide (sp.high ≤ (s.presence.peer p).reported.getD sp.origin 0)

/-- Condition (c): no submit entry has an own seq at or below the own span's high seq (R57). -/
def State.notAwaited (s : State) (u : InUse) : Bool :=
  u.spans.all fun sp => !s.isOwn sp.origin || s.submission.queue.all fun e => decide (sp.high < e.seq)

/-- Condition (d): span highs and hole highs of origins below N are at or below the floor of the
segment that follows; without one the condition does not hold (R57). -/
def State.coveredByFloor (s : State) (u : InUse) : Bool :=
  match s.segments.following u.firstPosition with
  | none => false
  | some (_, v) =>
    u.spans.all (fun sp => decide (s.clusterSize ≤ sp.origin)
      || decide (sp.high ≤ v.floor.getD sp.origin 0)) &&
    u.holes.all fun h => decide (s.clusterSize ≤ h.origin) || decide (h.high ≤ v.floor.getD h.origin 0)

/-- The four conditions of R57. -/
def State.reclaimable (s : State) (u : InUse) : Bool :=
  s.released u && s.heldByPeers u && s.notAwaited u && s.coveredByFloor u

/-- The high seq of the own origin's span, 0 without one (R58). -/
def State.ownSpanHigh (s : State) (u : InUse) : Nat :=
  ((u.spans.filter fun sp => s.isOwn sp.origin).map (·.high)).foldl max 0

/-- The DATA record of an index entry stands in a segment (R83). -/
def InUse.stores (u : InUse) (origin seq : Nat) : Bool :=
  u.locators.any fun l => l.kind = .data && l.origin = origin && l.seq = seq

/-- The reclaim start of a segment (R58): the own reclaimed floor rises, the segment's records leave
the check index with the journal (R83), and its erase is requested. -/
def State.reclaimStart (s : State) (k : Nat) (u : InUse) : State :=
  ((s.setTracker { s.tracker with
      index := s.tracker.index.filter fun e => !u.stores e.origin e.seq }).setSegments
    { s.segments with ownFloor := max s.segments.ownFloor (s.ownSpanHigh u) }).requestErase k

/-- The Segment Manager's decision of R56: while the erase context is NONE, the lowest-numbered
DIRTY segment is erased; failing that, while fewer than two segments are ERASED, the oldest segment
holding records is reclaimed if it may be. -/
def State.scheduleErase (s : State) : State :=
  if s.array.context.isSome || !s.mode.erases then s
  else match s.segments.firstDirty with
    | some k => s.requestErase k
    | none =>
      if s.mode.onLine && decide (s.segments.erasedCount < Config.reserveTarget) then
        match s.segments.oldest with
        | some (k, u) =>
          let isOpen := (s.segments.table[k]?.map (·.state.isOpen)).getD true
          if !isOpen && s.reclaimable u then s.reclaimStart k u else s
        | none => s
      else s

/-! ### Erase completions (R55, R59) -/

/-- The entry of a segment at its erase's completion (R59). -/
def Segment.erased (e : Segment) (outcome : EraseOutcome) : Segment where
  state := match outcome with
    | .good => if e.retire then .retired else .erased
    | .failed _ => .retired
  generation := e.generation + 1
  retire := false

/-- The Segment Manager takes an erase completion (R55, R59). -/
def State.eraseDone (s : State) (k : Nat) (outcome : EraseOutcome) : State :=
  let becameErased := match outcome with
    | .good => !((s.segments.table[k]?.map (·.retire)).getD true)
    | .failed _ => false
  let t := s.setSegments (s.segments.change k (·.erased outcome))
  let t := match outcome with
    | .good => t.setFlash (t.flash.eraseSegment k)
    | .failed page0Blank =>
      (t.setFlash (t.flash.spoilSegment k page0Blank)).raise .segmentManager (.media k true)
  if becameErased && t.segments.full then
    (t.setSegments { t.segments with full := false }).raise .segmentManager (.full false)
  else t

end Sys2Proof.Machine
end

