-- ==== Sys2Proof/Machine/Tracking.lean ====
section
/-! DEFINITION. The Stream Tracker: learning, the fate of arriving records, holes, program
completions and the excess list (chapter 5, R177). -/

namespace Sys2Proof.Machine

/-! ### Runs of seqs -/

def Run.contains (r : Run) (o seq : Nat) : Bool :=
  r.origin = o && decide (r.first ≤ seq) && decide (seq ≤ r.last)

/-- What is left of the gap table entries when a range of an origin is filled: an entry covered
wholly is removed, one covered at an end is trimmed, one covered in the middle is split (R89, R96). -/
def cutRuns (runs : List Run) (o first last : Nat) : List Run :=
  runs.flatMap fun r =>
    if r.origin = o ∧ r.first ≤ last ∧ first ≤ r.last then
      (if r.first < first then [{ r with last := first - 1 }] else []) ++
      (if last < r.last then [{ r with first := last + 1 }] else [])
    else [r]

/-- Ascending (origin, first) order (R84). -/
def Run.before (a b : Run) : Bool :=
  decide (a.origin < b.origin) || (decide (a.origin = b.origin) && decide (a.first < b.first))

/-- A run put into its place in ascending order. -/
def insertRun (r : Run) : List Run → List Run
  | [] => [r]
  | a :: rest => if r.before a then r :: a :: rest else a :: insertRun r rest

def Pending.coversHole (o seq : Nat) : Pending → Bool
  | .hole origin first last => origin = o && decide (first ≤ seq) && decide (seq ≤ last)
  | .data .. => false

def Pending.isData (o seq : Nat) : Pending → Bool
  | .data origin s _ _ => origin = o && s = seq
  | .hole .. => false

/-- The check and divergence mark of a pending DATA entry (R82, R87). -/
def Tracker.pendingData (t : Tracker) (o seq : Nat) : Option (Word × Bool) :=
  t.pending.findSome? fun p => match p with
    | .data origin s check mark => if origin = o ∧ s = seq then some (check, mark) else none
    | .hole .. => none

/-- The check index entry of a seq (R83). -/
def Tracker.indexed (t : Tracker) (o seq : Nat) : Option IndexEntry :=
  t.index.find? fun e => e.origin = o && e.seq = seq

/-- The divergence mark of the pending entry or check index entry of a seq is set (R87). -/
def Tracker.setMark (t : Tracker) (o seq : Nat) : Tracker :=
  match t.pendingData o seq with
  | some _ =>
    { t with pending := t.pending.map fun p => match p with
        | .data origin s check mark =>
          if origin = o ∧ s = seq then .data origin s check true else .data origin s check mark
        | p => p }
  | none =>
    { t with index := t.index.map fun e =>
        if e.origin = o ∧ e.seq = seq then { e with mark := true } else e }

/-- The mark of the entry that carries a seq, when a pending DATA entry or a check index entry
does. -/
def Tracker.markOf (t : Tracker) (o seq : Nat) : Option Bool :=
  match t.pendingData o seq with
  | some (_, mark) => some mark
  | none => (t.indexed o seq).map (·.mark)

/-- The check held for a seq that is pending or stored as DATA (R87). -/
def Tracker.checkOf (t : Tracker) (o seq : Nat) : Option Word :=
  match t.pendingData o seq with
  | some (check, _) => some check
  | none => (t.indexed o seq).map (·.check)

/-- The third case of R87: the seq is held, or awaited as a hole or an excess run, with no check to
compare. -/
def Tracker.heldOtherwise (t : Tracker) (o seq : Nat) : Bool :=
  t.pending.any (·.coversHole o seq) || decide (seq ≤ (t.holding o).through)
    || t.excess.any (·.contains o seq)
    || (decide (seq ≤ (t.holding o).accepted) && !t.gaps.any (·.contains o seq))

/-- A seq is a want: it lies in an interior gap entry or in the tail gap (R85). -/
def Tracker.isWant (t : Tracker) (o seq : Nat) : Bool :=
  t.gaps.any (·.contains o seq)
    || (decide ((t.holding o).accepted < seq) && decide (seq ≤ (t.holding o).known))

/-- Every seq of a range is a want (R95). Two entries of one origin are kept apart by a seq that is
held or pending, so that a range of wants lies in one entry or in the tail gap (R133). -/
def Tracker.rangeWanted (t : Tracker) (o first last : Nat) : Bool :=
  t.gaps.any (fun r => r.origin = o && decide (r.first ≤ first) && decide (last ≤ r.last))
    || (decide ((t.holding o).accepted < first) && decide (last ≤ (t.holding o).known))

/-- The wants of an origin as runs, ascending (R85). -/
def Tracker.wantsOf (t : Tracker) (o : Nat) : List Run :=
  t.gaps.filter (·.origin = o) ++
    if (t.holding o).accepted < (t.holding o).known then
      [⟨o, (t.holding o).accepted + 1, (t.holding o).known⟩]
    else []

/-! ### Learning (R92) -/

/-- The value up to which known high of an origin is learned: of the own origin, in ACTIVE, only up
to the own next seq minus one (R92). -/
def State.learnable (s : State) (o v : Nat) : Nat :=
  if s.isOwn o && decide (s.mode = .active) then
    match s.submission.nextSeq with
    | some next => min v (next - 1)
    | none => v
  else v

/-- Known high of an origin rises to a learned value (R92). -/
def State.learn (s : State) (o v : Nat) : State :=
  s.setTracker (s.tracker.change o fun h => { h with known := max h.known (s.learnable o v) })

/-! ### Arriving records (R86 to R90) -/

/-- A record as an APPEND or a REFILL COPY brings it (R86). -/
structure Arrival where
  sender : Nat
  origin : Nat
  seq : Nat
  tag : Byte
  payload : List Byte
  check : Word
  refill : Bool
  deriving DecidableEq, Repr

/-- A DIVERGENT notice. -/
def State.divergent (s : State) (o seq sender : Nat) : State :=
  s.raise .streamTracker (.divergent o seq sender)

/-- A DIVERGENT notice once per entry: a clear mark is set and the notice raised, a set one is
left (R87). -/
def State.markDivergent (s : State) (o seq sender : Nat) : State :=
  match s.tracker.markOf o seq with
  | some true => s
  | some false => (s.setTracker (s.tracker.setMark o seq)).divergent o seq sender
  | none => s.divergent o seq sender

/-- The acceptance of a record, the gap table being as given (R90). -/
def State.accept (s : State) (a : Arrival) (gaps : List Run) : State :=
  let t := s.tracker.change a.origin fun h =>
    { h with accepted := max h.accepted a.seq, known := max h.known a.seq }
  (s.setTracker { t with
      gaps := gaps
      pending := t.pending ++ [.data a.origin a.seq a.check false] }).queueJob
    ⟨.data a.origin a.tag a.seq a.payload a.check, if a.refill then .refill else .append⟩

/-- The gap table after the acceptance of a seq that the station does not have, when it has room for
it (R88, R89). -/
def Tracker.gapsAfter (t : Tracker) (o seq : Nat) : Option (List Run) :=
  let accepted := (t.holding o).accepted
  let gaps :=
    if seq = accepted + 1 then t.gaps
    else if accepted < seq then insertRun ⟨o, accepted + 1, seq - 1⟩ t.gaps
    else cutRuns t.gaps o seq seq
  if gaps.length ≤ max Config.gapPlaces t.gaps.length then some gaps else none

/-- The decision on an arriving record after learning (R87 to R89): what becomes of it, and whether
it was accepted. -/
def State.decideArrival (s : State) (a : Arrival) : State × Bool :=
  match s.tracker.checkOf a.origin a.seq with
  | some check =>
    if check = a.check then (s, false) else (s.markDivergent a.origin a.seq a.sender, false)
  | none =>
    if s.tracker.heldOtherwise a.origin a.seq || !s.admissionOpen then (s, false)
    else match s.tracker.gapsAfter a.origin a.seq with
      | some gaps => (s.accept a gaps, true)
      | none => (s, false)

/-- A seq is at or above the own next seq (R92). -/
def Submission.beyondNext (b : Submission) (seq : Nat) : Bool :=
  match b.nextSeq with
  | some next => decide (next ≤ seq)
  | none => false

/-- An arriving record (R86, R92): an APPEND bearing the own number is a clash of numbers; every
other record raises known high and is decided; an own-origin copy at or above the own next seq is
dropped in ACTIVE with a DIVERGENT notice. -/
def State.arrive (s : State) (a : Arrival) : State × Bool :=
  if !a.refill && s.isOwn a.sender then (s.markDivergent a.origin a.seq a.sender, false)
  else
    let t := s.learn a.origin a.seq
    if s.isOwn a.origin && decide (s.mode = .active) && s.submission.beyondNext a.seq then
      (t.divergent a.origin a.seq a.sender, false)
    else t.decideArrival a

/-- The Stream Tracker takes a local commit (R93): the own record's acceptance, when the gap table
has room for the run below it. -/
def State.takeCommit (s : State) (a : Arrival) : Option State :=
  match s.tracker.gapsAfter a.origin a.seq with
  | none => none
  | some gaps =>
    let t := s.tracker.change a.origin fun h =>
      { h with accepted := max h.accepted a.seq, known := max h.known a.seq }
    some ((s.setTracker { t with
        gaps := gaps
        pending := t.pending ++ [.data a.origin a.seq a.check false] }).queueJob
      ⟨.data a.origin a.tag a.seq a.payload a.check, .commit⟩)

/-! ### Holes (R95, R96) -/

/-- The gap table after the admission of a HOLE job (R96). -/
def Tracker.gapsAfterHole (t : Tracker) (o first last : Nat) : List Run :=
  let accepted := (t.holding o).accepted
  let gaps := cutRuns t.gaps o first last
  if accepted + 1 < first then insertRun ⟨o, accepted + 1, first - 1⟩ gaps else gaps

/-- The offer of a HOLE job: admitted when every seq of the range is a want, incoming admission is
open and the gap table has room (R95, R96). -/
def State.offerHole (s : State) (o first last : Nat) : Option State :=
  if s.tracker.rangeWanted o first last && s.admissionOpen
      && decide ((s.tracker.gapsAfterHole o first last).length
        ≤ max Config.gapPlaces s.tracker.gaps.length) then
    let gaps := s.tracker.gapsAfterHole o first last
    let t := s.tracker.change o fun h => { h with accepted := max h.accepted last }
    some ((s.setTracker { t with
        gaps := gaps
        pending := t.pending ++ [.hole o first last] }).queueJob ⟨.hole o first last, .declared⟩)
  else none

/-! ### Program completions (R91, R98) -/

/-- The seqs of a pending entry as a run. -/
def Pending.run : Pending → Run
  | .data origin seq _ _ => ⟨origin, seq, seq⟩
  | .hole origin first last => ⟨origin, first, last⟩

/-- The runs of an origin that held-through does not pass: gap entries, pending seqs and excess runs
(R91). -/
def Tracker.blockers (t : Tracker) (o : Nat) : List Run :=
  (t.gaps ++ t.excess ++ t.pending.map Pending.run).filter (·.origin = o)

/-- Held-through after a completion: the greatest seq up to highest accepted, not below the old
value, that no blocker lies below (R91). -/
def Tracker.advanced (t : Tracker) (o : Nat) : Nat :=
  let h := t.holding o
  max h.through
    (((t.blockers o).filter fun r => decide (h.through < r.last)).foldl
      (fun limit r => min limit (max (h.through + 1) r.first - 1)) h.accepted)

/-- Held-through of an origin advances, and its HELD-due flag is set when it rose and the origin is
not the station's own (R91). -/
def State.advance (s : State) (o : Nat) : State :=
  let v := s.tracker.advanced o
  s.setTracker (s.tracker.change o fun h =>
    { h with through := v, due := h.due || (decide (h.through < v) && !s.isOwn o) })

/-- The Stream Tracker takes a record program GOOD (R83, R91, R98). -/
def State.trackCompletion (s : State) (j : Job) : State :=
  match j.body with
  | .data o _ seq _ check =>
    let mark := ((s.tracker.pendingData o seq).map (·.2)).getD false
    let t := s.tracker
    let t := { t with
      pending := t.pending.filter fun p => !p.isData o seq
      index := if o < s.clusterSize then t.index ++ [⟨o, seq, check, mark⟩] else t.index }
    (s.setTracker t).advance o
  | .hole o first last =>
    let t := s.tracker
    let t := { t with
      pending := t.pending.filter fun p => p ≠ .hole o first last
      excess := match j.source with
        | .excess => t.excess.filter fun r => r ≠ ⟨o, first, last⟩
        | _ => t.excess }
    (s.setTracker t).advance o
  | .release _ => s

/-! ### The excess list (R177) -/

def Job.isExcess (j : Job) : Bool :=
  match j.source with
  | .excess => true
  | _ => false

/-- The test of R177: a HOLE job for the lowest excess run is queued. -/
def State.excessTest (s : State) : State :=
  match s.tracker.excess with
  | [] => s
  | r :: _ =>
    if s.mode.onLine && !s.writer.jobs.any Job.isExcess && s.admissionOpen then
      (s.setTracker { s.tracker with
          pending := s.tracker.pending ++ [.hole r.origin r.first r.last] }).queueJob
        ⟨.hole r.origin r.first r.last, .excess⟩
    else s

/-! ### Sent reports (R94) -/

/-- An origin's flag is cleared when its held-through still equals the value sent (R94). -/
def Tracker.reportSent (t : Tracker) (o v : Nat) : Tracker :=
  t.change o fun h => { h with due := h.due && decide (h.through ≠ v) }

/-- The values of a PRESENCE sent, from an origin on (R94). -/
def Tracker.reportsSent (t : Tracker) (o : Nat) : List Word → Tracker
  | [] => t
  | v :: vs => (t.reportSent o v.toNat).reportsSent (o + 1) vs

/-! ### FORMAT and ENLIST (R98) -/

/-- The Stream Tracker at FORMAT (R98, R178). -/
def Tracker.formatted : Tracker := Tracker.reset

/-- The Stream Tracker at ENLIST with cluster size `n` (R98, R180). -/
def Tracker.enlisted (t : Tracker) (n : Nat) : Tracker where
  holdings := t.holdings.zipIdx.map fun e =>
    if e.2 < n then { e.1 with known := e.1.accepted, due := false } else ⟨0, 0, 0, false⟩
  pending := t.pending
  index := t.index.filter fun e => decide (e.origin < n)
  gaps := t.gaps.filter fun r => decide (r.origin < n)
  excess := t.excess.filter fun r => decide (r.origin < n)

end Sys2Proof.Machine
end

