-- ==== Sys2Proof/Machine/Repairing.lean ====
section
/-! DEFINITION. The Repair Controller: seek slots, hole declarations and the responder queue
(chapter 8). -/

namespace Sys2Proof.Machine

/-! ### Seek slots (R132, R133, R136) -/

/-- A seek slot in use. -/
def Repair.slot? (r : Repair) (i : Nat) : Option SeekSlot := r.slots.getD i none

/-- A slot takes a value. One that leaves use is no longer found by a completion of its SEEK
(R134). -/
def State.setSlot (s : State) (i : Nat) (v : Option SeekSlot) : State :=
  let t := s.setRepair { s.repair with slots := s.repair.slots.set i v }
  if v.isNone then t.mapRequest (Request.dropSlot i) else t

/-- The wants in a slot's range, ascending. -/
def Tracker.slotWants (t : Tracker) (sl : SeekSlot) : List Nat :=
  ((List.range (sl.last + 1 - sl.first)).map (sl.first + ·)).filter (t.isWant sl.origin)

/-- A slot narrowed to the lowest and highest seq in it that is still a want; none when no want
remains (R136). -/
def Tracker.narrowed (t : Tracker) (sl : SeekSlot) : Option SeekSlot :=
  match t.slotWants sl with
  | [] => none
  | a :: rest => some { sl with first := a, last := rest.getLastD a }

/-- A slot narrows, and leaves use when no want remains (R136). -/
def State.narrowSlot (s : State) (i : Nat) : State :=
  match s.repair.slot? i with
  | some sl => s.setSlot i (s.tracker.narrowed sl)
  | none => s

/-- Every slot of an origin narrows (R136). -/
def State.narrowOrigin (s : State) (o : Nat) : State :=
  (List.range Config.slotCount).foldl (fun s i =>
    if (s.repair.slot? i).any (·.origin = o) then s.narrowSlot i else s) s

/-- The lowest seq from one on that no slot of the origin covers. -/
def skipCovered (slots : List SeekSlot) (o : Nat) : Nat → Nat → Nat
  | 0, seq => seq
  | fuel + 1, seq =>
    match slots.find? fun sl => sl.origin = o && decide (sl.first ≤ seq) && decide (seq ≤ sl.last) with
    | some sl => skipCovered slots o fuel (sl.last + 1)
    | none => seq

/-- The run that a slot takes from a run of wants: from its lowest uncovered seq up to the next
covered one, at most 15 seqs beyond its first (R133). -/
def uncoveredRun (slots : List SeekSlot) (r : Run) : Option Run :=
  let first := skipCovered slots r.origin (slots.length + 1) r.first
  if r.last < first then none
  else some ⟨r.origin, first,
    slots.foldl (fun limit sl =>
      if sl.origin = r.origin ∧ first < sl.first then min limit (sl.first - 1) else limit)
      (min r.last (first + 15))⟩

/-- The lowest uncovered run of wants over all origins (R133). -/
def State.nextRun (s : State) : Option Run :=
  let slots := s.repair.slots.filterMap id
  (List.range s.clusterSize).findSome? fun o => (s.tracker.wantsOf o).findSome? (uncoveredRun slots)

/-- One free slot is filled (R133). -/
def State.fillSlot (s : State) : State :=
  match s.repair.slots.findIdx? (·.isNone), s.nextRun with
  | some i, some r => s.setSlot i (some ⟨r.origin, r.first, r.last, 0, .asking false⟩)
  | _, _ => s

/-- The filling of R133: free slots are filled until the slots or the uncovered wants run out. -/
def State.fillSlots (s : State) : State :=
  if s.mode.onLine then Nat.repeat State.fillSlot Config.slotCount s else s

/-! ### Holes (R139, R140) -/

/-- A HOLE job admitted: the notice is handed over and the slots of the origin narrow (R139). -/
def State.holeAdmitted (s : State) (o first last : Nat) : State :=
  (s.raise .repairController (.hole o first last)).narrowOrigin o

/-- The end of the run of consecutive wants that begins at a want. -/
def runEnd (first : Nat) : List Nat → Nat
  | [] => first
  | seq :: rest => if seq = first + 1 then runEnd seq rest else first

/-- The origin of a slot is PRESENT in the peer table; the own origin counts as not PRESENT
(R138). -/
def State.originPresent (s : State) (o : Nat) : Bool :=
  s.isPeer o && decide ((s.presence.peer o).state = .present)

/-- A DECLARING slot offers its wants, one run at a time, as long as runs are admitted (R139). That the
origin "has become PRESENT since" is read from its state at the offer alone: an origin that was
PRESENT for a while and is so no longer has the hole declared (DEDUCED, log 43). -/
def declareSlot : Nat → State → Nat → State
  | 0, s, _ => s
  | fuel + 1, s, i =>
    match s.repair.slot? i with
    | none => s
    | some sl =>
      if sl.state ≠ .declaring then s
      else match s.tracker.slotWants sl with
        | [] => s.setSlot i none
        | first :: rest =>
          let sl := { sl with first := first, last := rest.getLastD first }
          if s.originPresent sl.origin then
            s.setSlot i (some { sl with attempts := 0, state := .asking false })
          else match s.offerHole sl.origin first (runEnd first rest) with
            | some t => declareSlot fuel (t.holeAdmitted sl.origin first (runEnd first rest)) i
            | none => s.setSlot i (some sl)

/-- The offers of the DECLARING slots in ascending slot number (R46, R139). -/
def State.offerHoles (s : State) : State :=
  (List.range Config.slotCount).foldl (fun s i => declareSlot 17 s i) s

/-- The part of a run that lies within a range. -/
def Run.within (first last : Nat) (r : Run) : Option Run :=
  if max r.first first ≤ min r.last last then some ⟨r.origin, max r.first first, min r.last last⟩
  else none

/-- A GONE from the origin: each run of its wants within the range is offered as a HOLE job, in
ascending order; a run refused is not kept (R140). -/
def State.declareGone (s : State) (o first last : Nat) : State :=
  ((s.tracker.wantsOf o).filterMap (Run.within first last)).foldl (fun s r =>
    match s.offerHole o r.first r.last with
    | some t => t.holeAdmitted o r.first r.last
    | none => s) s

/-! ### The responder queue (R141 to R145) -/

/-- The responder entry of a requester and origin. -/
def Repair.responder? (r : Repair) (q o : Nat) : Option Responder :=
  r.responders.find? fun e => e.requester = q && e.origin = o

/-- One responder entry changed. -/
def State.changeResponder (s : State) (q o : Nat) (f : Responder → Responder) : State :=
  s.setRepair { s.repair with
    responders := s.repair.responders.map fun e => if e.requester = q ∧ e.origin = o then f e else e }

/-- A fetch whose seq is withdrawn while its entry stands (R26). -/
def FetchUse.withdraw : FetchUse → FetchUse
  | .wanted | .withdrawn => .withdrawn
  | .orphaned => .orphaned

/-- The fetch claim of a responder entry is withdrawn; a read already in progress completes, and what
its bytes are for changes (R26, R33). -/
def ArrayEngine.withdraw (a : ArrayEngine) (q o : Nat) (f : FetchUse → FetchUse) : ArrayEngine :=
  { a with
    fetchClaims := a.fetchClaims.filter fun c => !c.isFor q o
    activity := match a.activity with
      | .read (.fetch c use) => .read (.fetch c (if c.isFor q o then f use else use))
      | other => other }

/-- The fetch claim of a responder entry that stands is withdrawn. -/
def State.withdrawFetch (s : State) (q o : Nat) : State :=
  s.setArray (s.array.withdraw q o FetchUse.withdraw)

/-- A responder entry is freed (R144, R145). -/
def State.freeResponder (s : State) (q o : Nat) : State :=
  let t := s.setRepair { s.repair with
    responders := s.repair.responders.filter fun e => !(e.requester = q && e.origin = o) }
  (t.setArray (t.array.withdraw q o fun _ => .orphaned)).mapRequest (Request.dropResponder q o)

/-- The lowest seq of a list that is still stored, with what remains of the list from it on
(R144). -/
def Segments.firstStored (m : Segments) (o : Nat) : List Nat → Option (List Nat × Nat × Locator)
  | [] => none
  | seq :: rest =>
    match m.findData o seq with
    | some (k, l) => some (seq :: rest, k, l)
    | none => m.firstStored o rest

/-- A responder entry takes the next seq of a list (R144): the lowest still stored is fetched; when
none is left, the entry sends its GONE frame if one remains, and is freed otherwise. While its
withdrawn fetch is still being read the entry is FETCHING without a claim, and takes the next seq when
that read completes (R23, R145; log 44). -/
def State.takeNext (s : State) (e : Responder) (list : List Nat) : State :=
  if s.array.dropping e.requester e.origin && !list.isEmpty then
    s.changeResponder e.requester e.origin fun e => { e with list := list, state := .fetching }
  else match s.segments.firstStored e.origin list with
  | some (remaining, k, l) =>
    let t := s.changeResponder e.requester e.origin fun e =>
      { e with list := remaining, state := .fetching }
    t.setArray { t.array with
      fetchClaims := t.array.fetchClaims ++
        [⟨e.requester, e.origin, l.seq, k, l.page, l.offset, l.size⟩] }
  | none =>
    if e.gone.isSome then
      s.changeResponder e.requester e.origin fun e => { e with list := [], state := .readyGone }
    else s.freeResponder e.requester e.origin

/-- The lowest seq of an entry's list leaves it and the entry goes on to its next (R33, R144). -/
def State.skipSeq (s : State) (q o seq : Nat) : State :=
  match s.repair.responder? q o with
  | some e => s.takeNext e (e.list.filter (· ≠ seq))
  | none => s

/-- The rank of a responder entry (R141). -/
def rankOf (own n requester origin : Nat) : Nat :=
  if origin = own then 0 else if own = requester then n else (own + n - requester) % n

/-- The part of a range that the station, as its origin, answers as gone (R143). -/
def State.goneRange (s : State) (o first last : Nat) : Option (Nat × Nat) :=
  if s.isOwn o ∧ first ≤ s.segments.ownFloor then some (first, min last s.segments.ownFloor) else none

/-- The seqs of a range that the station stores as DATA and answers with copies (R142, R143). -/
def State.storedSeqs (s : State) (o first last : Nat) : List Nat :=
  ((List.range (last + 1 - first)).map (first + ·)).filter fun seq =>
    (s.tracker.indexed o seq).isSome && !(s.isOwn o && decide (seq ≤ s.segments.ownFloor))

/-- The responder side of a SEEK (R142): an entry is made or renewed when there is an answer. -/
def State.answerSeek (s : State) (q o first last : Nat) : State :=
  let gone := s.goneRange o first last
  let list := s.storedSeqs o first last
  if s.line.muted || (gone.isNone && list.isEmpty) then s
  else
    let e : Responder :=
      ⟨q, o, first, last, gone, list, rankOf s.ownNumber s.clusterSize q o, .deferring⟩
    match s.repair.responder? q o with
    | some _ =>
      ((s.withdrawFetch q o).mapRequest (Request.dropResponder q o)).changeResponder q o fun _ => e
    | none =>
      if s.repair.responders.length < Config.responderPlaces then
        s.setRepair { s.repair with responders := s.repair.responders ++ [e] }
      else s

/-- A due slot that overlaps an overheard SEEK becomes FOLLOWING (R135). -/
def SeekSlot.follow (o first last : Nat) (sl : SeekSlot) : SeekSlot :=
  if sl.origin = o ∧ sl.state = .asking false ∧ sl.first ≤ last ∧ first ≤ sl.last then
    { sl with state := .following }
  else sl

/-- The seek slots hear a SEEK (R135). -/
def State.followSeek (s : State) (o first last : Nat) : State :=
  s.setRepair { s.repair with
    slots := s.repair.slots.map fun sl => sl.map (SeekSlot.follow o first last) }

/-- Seqs leave the list of one responder entry (R145). -/
def State.cancelIn (s : State) (gone : Nat → Bool) (e : Responder) : State :=
  let list := e.list.filter fun seq => !gone seq
  let keep := s.changeResponder e.requester e.origin fun e => { e with list := list }
  if !e.list.any gone then s
  else match e.state with
    | .deferring =>
      if list.isEmpty && e.gone.isNone then s.freeResponder e.requester e.origin else keep
    | .fetching =>
      if (e.list.head?).any gone then
        (s.withdrawFetch e.requester e.origin).takeNext e list
      else keep
    | .readyGone => keep
    | .readyCopy record => if gone record.seq.toNat then s.takeNext e list else keep

/-- A REFILL heard from another station cancels its seqs in every entry of its origin (R145). The
entries are taken in the order of the responder queue, so that the fetch claims of those that take
their next seq join in that order, on which R25 is silent (DESIGN CHOICE, log 38). -/
def State.cancelRefill (s : State) (o : Nat) (gone : Nat → Bool) : State :=
  (s.repair.responders.filter (·.origin = o)).foldl (fun s e => s.cancelIn gone e) s

/-- Every seek slot and responder entry is freed at QUIET entry, with their fetch claims (R146). -/
def State.freeRepair (s : State) : State :=
  let t := s.setRepair Repair.reset
  let t := t.setArray { t.array with
    fetchClaims := []
    activity := match t.array.activity with
      | .read (.fetch c _) => .read (.fetch c .orphaned)
      | other => other }
  t.mapRequest fun r => match r with
    | .seek i _ => .seek i false
    | .refill q o _ => .refill q o false
    | r => r

end Sys2Proof.Machine
end

