-- ==== Sys2Proof/Machine/Engine.lean ====
section
/-! DEFINITION. The Array Engine: which claim is served, refused claims, the start, suspension and
resumption of erases (chapter 2); and the consequences that every event is followed by. -/

namespace Sys2Proof.Machine

/-- A segment holds readable records: it is OPEN, SEALED or FAULTY (R34). -/
def State.readable (s : State) (k : Nat) : Bool := (s.segments.use? k).isSome

/-- The read slot, while PENDING, becomes DONE with a code (R154). -/
def Port.readDone (p : Port) (code : Code) : Port :=
  match p.slot with
  | .pending t => { p with slot := .done t code }
  | _ => p

/-- An erase is started or resumed (R36, R39). -/
def EraseContext.start (c : EraseContext) : EraseContext :=
  { c with running := true, ran := true, minimumReached := false, suspendRequest := false }

/-- The engine serves the first claim present while the array is IDLE (R25): the host read claim,
the program claim, the fetch claims in order of joining, the erase claim. A read claim whose segment
is no longer readable is refused and the next claim is served (R34). The entry of a refused fetch takes
its next seq before that next claim is served, on which R34 is silent, so that its new fetch claim goes
ahead of a waiting erase claim (DESIGN CHOICE, log 46). -/
def serveClaims : Nat → State → State
  | 0, s => s
  | fuel + 1, s =>
    if s.array.activity ≠ .idle then s
    else match s.array.hostClaim with
      | some c =>
        let t := s.setArray { s.array with hostClaim := none }
        if s.readable c.segment then t.setArray { t.array with activity := .read (.host c) }
        else serveClaims fuel (t.setPort (t.port.readDone .reclaimed))
      | none => match s.array.programClaim with
        | some c =>
          let t := s.setArray { s.array with programClaim := none, activity := .program c }
          match c with
          | .record => t
          | .header k => t.openSegment k
        | none => match s.array.fetchClaims with
          | c :: rest =>
            let t := s.setArray { s.array with fetchClaims := rest }
            if s.readable c.segment then t.setArray { t.array with activity := .read (.fetch c .wanted) }
            else serveClaims fuel (t.skipSeq c.requester c.origin c.seq)
          | [] => match s.array.context with
            | some c =>
              if c.running then s
              else s.setArray { s.array with activity := .erase, context := some c.start }
            | none => s

/-- The claims waiting are served as far as the array allows. Each refusal takes a claim away and
can bring at most one that is not refused, so that twice their number is enough. -/
def State.serve (s : State) : State := serveClaims (2 * s.array.fetchClaims.length + 3) s

/-- The suspend request while the array runs an erase (R38 to R40): set while a host read, program
or fetch claim waits, withdrawn when none does; the suspension is taken once the current run has
reached the resume minimum. -/
def State.checkSuspend (s : State) : State :=
  match s.array.activity, s.array.context with
  | .erase, some c =>
    if s.array.demand then
      if c.minimumReached then
        s.setArray { s.array with
          activity := .suspending, context := some { c with suspendRequest := false } }
      else s.setArray { s.array with context := some { c with suspendRequest := true } }
    else s.setArray { s.array with context := some { c with suspendRequest := false } }
  | _, _ => s

/-- What follows in the same event from the changes of an event (log 32): the excess test (R177),
the filling of seek slots (R133), the placement of the head job (R48), the Segment Manager's
decision (R56), the serving of claims (R25), the decision again, since a serving can lower the count
of ERASED segments (R45), and the suspend request (R38). -/
def State.settle (s : State) : State :=
  s.excessTest.fillSlots.placeHead.scheduleErase.serve.scheduleErase.serve.checkSuspend

/-- The end of an event that can change what other blocks act on. -/
def State.conclude (s : State) : State := s.settle.flush

/-- The array becomes IDLE at a completion (R20). -/
def State.arrayIdle (s : State) : State := s.setArray { s.array with activity := .idle }

end Sys2Proof.Machine
end

