-- ==== Sys2Proof/Machine/Reporting.lean ====
section
/-! DEFINITION. The Submission Controller and the Presence Unit: the confirmation test, the outcomes
of submit entries, the peer table and the entries into the modes that both react to (chapters 6, 7
and 10). -/

namespace Sys2Proof.Machine

/-! ### Submission Controller (R107 to R110) -/

/-- A peer is counted for an own seq: its reported own holdings reach it and lie below the own next
seq (R107). -/
def State.confirms (s : State) (next seq p : Nat) : Bool :=
  s.isPeer p &&
    decide (seq ≤ (s.presence.peer p).reported.getD s.ownNumber 0) &&
    decide ((s.presence.peer p).reported.getD s.ownNumber 0 < next)

/-- The confirmation count of an own seq (R107). -/
def State.confirmationCount (s : State) (seq : Nat) : Nat :=
  match s.submission.nextSeq with
  | some next => (List.range s.clusterSize).countP (s.confirms next seq)
  | none => 0

/-- The entry is tested and its confirmation test holds (R107, R108). -/
def State.testHolds (s : State) (e : Entry) : Bool :=
  decide (e.stage ≠ .committing) && !e.declared &&
    decide (s.replicationTarget ≤ s.confirmationCount e.seq)

/-- An entry is declared DURABLE: the notice is handed over and the own durable mark rises (R108,
R109). -/
def State.declareDurable (s : State) (e : Entry) : State :=
  (s.setSubmission { s.submission with durable := max s.submission.durable e.seq }).raise
    .submissionController (.durable e.ticket e.seq)

/-- The confirmation test applied to every SENDING and WAITING entry, with W of 1 or more: the
entries whose test holds are declared DURABLE in ascending order of seq and leave the queue (R108). -/
def State.confirmTest (s : State) : State :=
  if s.replicationTarget = 0 then s
  else
    let t := s.setSubmission { s.submission with
      queue := s.submission.queue.filter fun e => !s.testHolds e }
    (s.submission.queue.filter s.testHolds).foldl State.declareDurable t

/-- One submit entry changed. -/
def State.changeEntry (s : State) (seq : Nat) (f : Entry → Entry) : State :=
  s.setSubmission { s.submission with
    queue := s.submission.queue.map fun e => if e.seq = seq then f e else e }

/-- A submit entry leaves the queue (R106, R110). -/
def State.dropEntry (s : State) (seq : Nat) : State :=
  s.setSubmission { s.submission with
    queue := s.submission.queue.filter fun e => e.seq ≠ seq }

/-- The entry of an own seq. -/
def Submission.entry? (b : Submission) (seq : Nat) : Option Entry := b.queue.find? (·.seq = seq)

/-- The commit completion of an own seq (R104, R109): the entry goes to SENDING; with W of 0 it is
declared DURABLE and stays for its one APPEND. -/
def State.commitDone (s : State) (seq : Nat) : State :=
  match s.submission.entry? seq with
  | some e =>
    if s.replicationTarget = 0 then
      (s.changeEntry seq fun e => { e with stage := .sending, declared := true }).declareDurable e
    else (s.changeEntry seq fun e => { e with stage := .sending }).confirmTest
  | none => s

/-! ### Presence Unit (R122 to R127) -/

/-- A peer entry that leaves UNKNOWN or ABSENT is zeroed first, its flags cleared (R123). -/
def Peer.fresh (e : Peer) : Bool :=
  match e.state with
  | .unknown | .absent => true
  | .present | .silent => false

/-- A peer entry at a valid frame, before its content is merged (R123, R125). -/
def Peer.heard (e : Peer) (quieting : Bool) : Peer where
  state := if quieting then .silent else .present
  timer := true
  reported := if e.fresh then List.replicate 16 0 else e.reported
  full := if e.fresh then false else e.full
  quiet := quieting

/-- A valid frame is taken as a sign of its sender's life (R123, R125, R127): the entry changes, with
a PEER notice when its state does; a zeroing is handed to the Submission Controller. A frame bearing
the own number changes no entry. -/
def State.hearPeer (s : State) (p : Nat) (quieting : Bool) : State :=
  if s.isPeer p then
    let e := s.presence.peer p
    let t := s.setPresence (s.presence.change p (·.heard quieting))
    let t := if e.state = (e.heard quieting).state then t
      else t.raise .presenceUnit (.peer p (e.heard quieting).state)
    if e.fresh then t.confirmTest else t
  else s

/-- A reported value merged into a peer's entry by raising (R124). -/
def Peer.report (o v : Nat) (e : Peer) : Peer :=
  { e with reported := e.reported.modify o (max v) }

/-- The values of a PRESENCE merged from an origin on (R124). -/
def Peer.reports (e : Peer) (o : Nat) : List Word → Peer
  | [] => e
  | v :: vs => (e.report o v.toNat).reports (o + 1) vs

/-- Known high learned from the values of a PRESENCE, from an origin on (R92, R124). -/
def State.learnAll (s : State) (o : Nat) : List Word → State
  | [] => s
  | v :: vs => (s.learn o v.toNat).learnAll (o + 1) vs

/-- A peer's entry changed by a merge; a raise for the own origin is handed to the Submission
Controller (R124). -/
def State.mergePeer (s : State) (p : Nat) (f : Peer → Peer) : State :=
  if s.isPeer p then
    let before := (s.presence.peer p).reported.getD s.ownNumber 0
    let t := s.setPresence (s.presence.change p f)
    if before < (t.presence.peer p).reported.getD s.ownNumber 0 then t.confirmTest else t
  else s

/-! ### Entries into modes (R131, R181) -/

/-- The entry into JOINING (R181): the presence request is set, the silence timers of the peers and
the joining timer start. The slot filling, reclaim test and excess test follow at the event's end. -/
def State.enterJoining (s : State) : State :=
  (s.setMode .joining).setPresence { s.presence with
    peers := s.presence.peers.zipIdx.map fun e =>
      if s.isPeer e.2 then { e.1 with timer := true } else e.1
    presenceTimer := false
    request := true
    joiningTimer := true }

/-- Every entry becomes UNKNOWN with its vector zeroed (R130, R131). -/
def Presence.forget (p : Presence) : Presence :=
  { p with peers := p.peers.map fun _ => Peer.reset }

/-- The Presence Unit's timers stop where they stand, and the QUIETING PRESENCE request replaces the
ordinary one unless the station is MUTED (R78, R120, R131). -/
def Presence.quieted (p : Presence) (muted : Bool) : Presence where
  peers := p.peers.map fun e => { e with timer := false }
  presenceTimer := false
  request := false
  quieting := !muted
  joiningTimer := false

end Sys2Proof.Machine
end

