-- ==== Sys2Proof/Machine/HostPort.lean ====
section
/-! DEFINITION. The Host Port's commands and pins (chapter 9), with the mode changes they make
(chapter 10): the meanings of the first eighteen rows of the table. -/

namespace Sys2Proof.Machine

/-! ### Answers and selections -/

/-- The command result is written (R153). -/
def State.answer (s : State) (code : Code) (command : Byte) : State :=
  s.setPort { s.port with result := ⟨code, some command, none⟩ }

/-- What SDO carries once a command is complete; its selection began at an assertion of SEL#, which is
no longer ignored (R148, R149). -/
def State.setReturned (s : State) (o : Sdo) : State :=
  s.setPort { s.port with returned := o, selIgnored := false }

/-- After a command that has no response SDO carries bytes of value 0x00 (R148). -/
abbrev Sdo.zeros : Sdo := .drives [] []

/-- A selection is discarded with the port-error flag, which no selection sets in QUIET (R149,
R151, R152). -/
def State.discardSelection (s : State) : State :=
  s.setPort { s.port with
    selection := none
    selIgnored := false
    portError := s.port.portError || decide (s.mode ≠ .quiet) }

/-- SEL# is asserted (R148): the code and the arguments are shifted in. -/
def State.beginSelection (s : State) : State :=
  if s.port.selection.isSome then s
  else s.setPort { s.port with selection := some .shifting, selIgnored := false }

/-- The last byte of a command is shifted in (R148), which a pause keeps from happening (R150). -/
def State.completeSelection (s : State) (c : Completed) (o : Sdo) : State :=
  match s.port.selection, s.port.holdPin with
  | some .shifting, false => s.setPort { s.port with returned := o, selection := some (.completed c) }
  | _, _ => s

/-- SEL# is released with a complete command (R149): the command is taken, or discarded while HOLD# is
asserted. A release that ends no selection ends the ignoring of SEL#. -/
def State.releaseSelection (s : State) (code : Byte) (effect : Completed → State → State) : State :=
  match s.port.selection with
  | none => s.setPort { s.port with selIgnored := false }
  | some .shifting => s
  | some (.completed c) =>
    if c.code ≠ code then s
    else if s.port.holdPin then s.discardSelection
    else effect c (s.setPort { s.port with selection := none })

/-- A selection of a command at one of its moments (R148, R149): `c` and `o` are the command and what
SDO carries as the completion would form them in this state, `effect` is that of the release. -/
def State.select (s : State) (m : Moment) (c : Completed) (o : Sdo)
    (effect : Completed → State → State) : State :=
  match m with
  | .select => s.beginSelection
  | .complete => s.completeSelection c o
  | .release => s.releaseSelection c.code effect
  | .whole =>
    if s.port.selection.isSome then s
    else if s.port.holdPin then s.discardSelection
    else effect c (s.setReturned o)

/-! ### Responses (R148, R155, R160, R169) -/

/-- The bytes of STATUS for one station number (R129, R155, R188). -/
def State.stationBytes (s : State) (p : Nat) : List Byte :=
  if s.isOwn p then [s.mode.byte, 0x00]
  else
    let e := s.presence.peer p
    [e.state.byte, (if e.full then 0x01 else 0x00) ||| (if e.quiet then 0x02 else 0x00)]

/-- The STATUS report (R155, 12.4). -/
def State.statusBytes (s : State) : List Byte :=
  s.mode.byte ::
  (match s.enlistment with
    | some e => [natByte e.station, natByte e.n, natByte e.w, e.rate.byte, natByte e.p]
    | none => [0x00, 0x00, 0x00, 0x00, 0x00]) ++
  s.flagsByte :: s.port.slot.targetBytes ++
  [s.port.slot.codeByte, natByte s.port.notices.length, natByte s.port.lost,
    natByte s.submission.queue.length] ++
  natBytes s.submission.durable ++ natBytes (s.writer.nextPosition - 1) ++
  natBytes s.oldestPosition ++ natBytes s.writer.releaseMark ++
  natByte s.segments.erasedCount :: (List.range s.clusterSize).flatMap s.stationBytes

/-- The response of a reporting command, formed from the state as it stands (R148). -/
def State.response (s : State) (r : Report) : Sdo :=
  match r with
  | .status => .drives s.statusBytes []
  | .result => .drives s.port.result.bytes []
  | .readBuffer => .drives (bufferHeader s.port.slot s.port.buffer) s.port.buffer
  | .nextNotice => .drives (noticeResponse s.port.lost s.port.notices.head?) []

/-- What SDO carries once a command is complete: its response, which is formed then, or bytes of 0x00
(R148); in the modes that answer BUSY and in QUIET it stays at high impedance (R152). -/
def State.drives (s : State) (c : HostCommand) : Sdo :=
  match c.verdict s.mode with
  | .taken =>
    match c.report? with
    | some r => s.response r
    | none => Sdo.zeros
  | .refusedMode => Sdo.zeros
  | .busy | .noTrace => .highImpedance

/-- A command as its completion leaves it in the selection (R148, R169). -/
def State.completed (s : State) (c : HostCommand) : Completed :=
  let taken := decide (c.verdict s.mode = .taken)
  ⟨c.code, taken, if c = .nextNotice ∧ taken then s.port.notices.head? else none, 0, false⟩

/-- A complete command is released (R152): the mode takes it, or refuses it with a code, or leaves no
trace of it. -/
def State.decode (s : State) (c : HostCommand) (body : State → State) : State :=
  match c.verdict s.mode with
  | .taken => body s
  | .busy => s.answer .busy c.code
  | .refusedMode => s.answer .refusedMode c.code
  | .noTrace => s

/-- A host command at one of the moments of its selection; `body` is its effect where it is taken. -/
def State.command (s : State) (c : HostCommand) (m : Moment) (body : Completed → State → State) :
    State :=
  s.select m (s.completed c) (s.drives c) fun k t => t.decode c (body k)

/-! ### The commands with a response (R151, R153, R155, R160, R169) -/

/-- The effect of NEXT NOTICE at its release (R169). -/
def Port.dropShown (p : Port) (c : Completed) : Port :=
  { p with
    lost := min Config.lostLimit c.discarded
    notices := match c.shown with
      | none => p.notices
      | some n => if n.isArrival && c.arrivalReplaced then p.notices else p.notices.tail }

/-- R155, R151: the port-error flag is cleared at the release. -/
def execStatus (moment : Moment) (s : State) : Host.Outcome State Fault Refusal :=
  .next (s.command .status moment fun _ s => s.setPort { s.port with portError := false })

/-- R153. -/
def execResult (moment : Moment) (s : State) : Host.Outcome State Fault Refusal :=
  .next (s.command .result moment fun _ s => s)

/-- R160. -/
def execReadBuffer (moment : Moment) (s : State) : Host.Outcome State Fault Refusal :=
  .next (s.command .readBuffer moment fun _ s => s)

/-- R169. A NEXT NOTICE that formed no response removes nothing (log 27). -/
def execNextNotice (moment : Moment) (s : State) : Host.Outcome State Fault Refusal :=
  .next (s.command .nextNotice moment fun c s =>
    if c.responded then s.setPort (s.port.dropShown c) else s)

/-! ### Reads (R154, R158, R159) -/

/-- What a read's lookup gives: a code, or the record to be read from flash. -/
inductive Lookup where
  | answered (code : Code)
  | claim (claim : HostClaim)
  deriving DecidableEq, Repr

/-- The claim for a located record (R32). -/
def Locator.hostClaim (l : Locator) (segment : Nat) (sought : Option Nat) : HostClaim :=
  ⟨segment, l.page, l.offset, l.size, sought⟩

/-- The lookup of READ POSITION, in the order of R158. -/
def State.lookupPosition (s : State) (position : Nat) : Lookup :=
  if position = 0 then .answered .badArg
  else if s.writer.nextPosition ≤ position then .answered .notFound
  else if position < s.oldestPosition then .answered .reclaimed
  else match s.segments.findPosition position with
    | some (k, l) => .claim (l.hostClaim k none)
    | none => .answered .reclaimed

/-- The lookup of READ RECORD, in the order of R159. -/
def State.lookupRecord (s : State) (origin seq : Nat) : Lookup :=
  if 15 < origin ∨ seq = 0 then .answered .badArg
  else match s.segments.findData origin seq with
    | some (k, l) => .claim (l.hostClaim k none)
    | none =>
      if seq ≤ s.oldestFloor origin then .answered .reclaimed
      else match s.segments.findHole origin seq with
        | some (k, l) => .claim (l.hostClaim k (some seq))
        | none => .answered .notFound

/-- The read slot takes a read, unless it is PENDING (R154). -/
def State.takeRead (s : State) (c : HostCommand) (t : Target) (l : Lookup) : State :=
  match s.port.slot with
  | .pending _ => s.answer .busy c.code
  | _ => match l with
    | .answered code => s.setPort { s.port with slot := .done t code }
    | .claim claim =>
      (s.setPort { s.port with slot := .pending t }).setArray
        { s.array with hostClaim := some claim }

/-- R158. -/
def execReadPosition (position : Word) (s : State) (moment : Moment := .whole) :
    Host.Outcome State Fault Refusal :=
  .next (s.command .readPosition moment fun _ s =>
    (s.takeRead .readPosition (.position position.toNat) (s.lookupPosition position.toNat)).conclude)

/-- R159. -/
def execReadRecord (origin : Byte) (seq : Word) (s : State) (moment : Moment := .whole) :
    Host.Outcome State Fault Refusal :=
  .next (s.command .readRecord moment fun _ s =>
    (s.takeRead .readRecord (.record origin.toNat seq.toNat)
      (s.lookupRecord origin.toNat seq.toNat)).conclude)

/-! ### SUBMIT and RELEASE (R101, R102, R157, R161) -/

/-- The first six conditions of R101 in their order: the refusal of the first that fails, or the own
next seq. -/
def State.submitCheck (s : State) (length : Nat) : Except Code Nat :=
  if s.mode ≠ .active then .error .refusedMode
  else if s.line.muted then .error .refusedMode
  else if length < 1 ∨ 200 < length then .error .badArg
  else match s.submission.nextSeq with
    | none => .error .exhausted
    | some next =>
      if Config.maxSeq < next then .error .exhausted
      else if s.segments.full then .error .journalFull
      else if Config.submitPlaces ≤ s.submission.queue.length then .error .queueFull
      else .ok next

/-- The own record of a SUBMIT that takes a seq (R102). -/
def State.ownRecord (s : State) (tag : Byte) (payload : List Byte) (seq : Nat) : Arrival :=
  ⟨s.ownNumber, s.ownNumber, seq, tag, payload,
    recordCheck .data (natByte s.ownNumber) tag (BitVec.ofNat 32 seq) payload, false⟩

/-- A SUBMIT taken (R102): the entry, the raised counters, the answer, and the test of R107. The
Stream Tracker and the Journal Writer have taken the commit. -/
def State.submitTaken (s : State) (a : Arrival) : State :=
  let b := s.submission
  let t := s.setSubmission { b with
    queue := b.queue ++ [⟨b.ticket, a.seq, a.tag, a.payload, a.check, .committing, 0, false⟩]
    nextSeq := some (a.seq + 1)
    ticket := b.ticket + 1 }
  (t.setPort { t.port with
    result := ⟨.ok, some HostCommand.submit.code, some (b.ticket, a.seq)⟩ }).confirmTest

/-- The Submission Controller decides a SUBMIT (R101, R102). -/
def State.decideSubmit (s : State) (tag : Byte) (payload : List Byte) : State :=
  match s.submitCheck payload.length with
  | .error code => s.answer code HostCommand.submit.code
  | .ok next =>
    match s.takeCommit (s.ownRecord tag payload next) with
    | none => s.answer .queueFull HostCommand.submit.code
    | some t => (t.submitTaken (s.ownRecord tag payload next)).conclude

/-- R157. -/
def execSubmit (tag : Byte) (payload : List Byte) (s : State) (moment : Moment := .whole) :
    Host.Outcome State Fault Refusal :=
  .next (s.command .submit moment fun _ s => s.decideSubmit tag payload)

/-- The release mark at a RELEASE command (R52, R161). -/
def State.releaseTo (s : State) (position : Nat) : State :=
  if s.writer.nextPosition ≤ position then s.answer .badArg HostCommand.release.code
  else if position ≤ s.writer.releaseMark then s.answer .ok HostCommand.release.code
  else
    let t := s.answer .ok HostCommand.release.code
    ((t.setWriter { t.writer with releaseMark := position }).queueRelease position).conclude

/-- R161. -/
def execRelease (position : Word) (s : State) (moment : Moment := .whole) :
    Host.Outcome State Fault Refusal :=
  .next (s.command .release moment fun _ s => s.releaseTo position.toNat)

/-! ### ENLIST (R156, R180) -/

/-- A taken ENLIST (R180): each block's part, and the entry into JOINING. -/
def State.enlisted (s : State) (e : Enlistment) : State :=
  let floor := s.oldestFloor e.station
  let t := (s.answer .ok HostCommand.enlist.code).setEnlistment (some e)
  let t := t.lineOn
  let t := t.setTracker (t.tracker.enlisted e.n)
  let t := t.setSegments { t.segments with ownFloor := floor }
  let t := t.setSubmission { t.submission with durable := t.submission.kept.getD e.station 0 }
  let t := t.setPresence t.presence.forget
  t.enterJoining.conclude

/-- R156. -/
def execEnlist (station n w rate p : Byte) (s : State) (moment : Moment := .whole) :
    Host.Outcome State Fault Refusal :=
  .next (s.command .enlist moment fun _ s =>
    match enlistmentOf station n w rate p with
    | some e => s.enlisted e
    | none => s.answer .badArg HostCommand.enlist.code)

/-! ### FORMAT (R165, R178, R179) -/

/-- FORMAT's next erase: of the lowest-numbered segment from one on that is not RETIRED; with none
left FORMAT ends in UNENLISTED (R178, R179). When FORMAT waited for an erase in hand and that one leaves
nothing but RETIRED segments, it ends at that completion, of which R179 does not speak (DEDUCED,
log 48). -/
def State.formatStep (s : State) (k : Nat) : State :=
  match (s.segments.table.drop k).findIdx? (fun e => !e.state.isRetired) with
  | some i => (s.requestErase (k + i)).setFormatNext (some (k + i + 1))
  | none => (s.setFormatNext none).setMode .unenlisted

/-- The clearing at the taking of FORMAT (R178). The OPEN segment keeps its entry, its free cursor in
it, until its own erase is requested (R43, R178), though R62 and R178 speak of the cursor as absent from
the taking on (DEDUCED, log 47). -/
def State.formatted (s : State) : State :=
  let t := (s.answer .ok HostCommand.format.code).setMode .formatting
  let t := t.setTracker Tracker.formatted
  let t := t.setWriter { t.writer with place := none, nextPosition := 1, releaseMark := 0 }
  let t := t.setSegments { t.segments with ownFloor := 0 }
  let t := t.setSubmission
    { t.submission with durable := 0, kept := List.replicate 16 0, ticket := 0 }
  (if t.array.context.isSome then t.setFormatNext (some 0) else t.formatStep 0).conclude

/-- R165. -/
def execFormat (s : State) (moment : Moment := .whole) :
    Host.Outcome State Fault Refusal :=
  .next (s.command .format moment fun _ s =>
    match s.writer.jobs, s.port.slot with
    | _ :: _, _ => s.answer .busy HostCommand.format.code
    | [], .pending _ => s.answer .busy HostCommand.format.code
    | [], _ => s.formatted)

/-! ### QUIET, WAKE and LINE RESUME (R162 to R164, R183, R184) -/

/-- The three conditions of QUIET (R162). -/
def State.mayQuiet (s : State) : Bool :=
  s.submission.queue.isEmpty && s.writer.jobs.isEmpty && s.array.context.isNone

/-- The entry into QUIET (R183). -/
def State.quieted (s : State) : State :=
  let t := (s.answer .ok HostCommand.quiet.code).setMode .quiet
  let t := t.setPresence (t.presence.quieted t.line.muted)
  let t := t.freeRepair.mapRequest Request.dropPresence
  if t.line.muted then t.lineOff else t

/-- R162. -/
def execQuiet (s : State) (moment : Moment := .whole) :
    Host.Outcome State Fault Refusal :=
  .next (s.command .quiet moment fun _ s =>
    if s.mayQuiet then s.quieted else s.answer .busy HostCommand.quiet.code)

/-- A taken WAKE (R184): a QUIETING PRESENCE that waits is withdrawn, one on the line runs to its
end; a line interface that is off turns on; the peer table is forgotten; JOINING is entered. -/
def State.woken (s : State) : State :=
  let t := s.answer .ok HostCommand.wake.code
  let t := if t.line.framer = .off then t.lineOn else t.mapRequest Request.dropQuieting
  let t := (t.setPresence { t.presence.forget with quieting := false }).confirmTest
  t.enterJoining.conclude

/-- R163. -/
def execWake (s : State) (moment : Moment := .whole) :
    Host.Outcome State Fault Refusal :=
  .next (s.command .wake moment fun _ s => s.woken)

/-- R164, R76. -/
def execLineResume (s : State) (moment : Moment := .whole) :
    Host.Outcome State Fault Refusal :=
  .next (s.command .lineResume moment fun _ s =>
    (s.answer .ok HostCommand.lineResume.code).setLine { s.line with muted := false, failures := 0 })

/-! ### Station reset (R22, R166, R172) -/

/-- What a station reset leaves in flash of the program in progress (R22): a torn record, or a
header that is not valid. -/
def Flash.cutProgram (f : Flash) (a : ArrayEngine) (w : Writer) (cut : CutShort) : Flash :=
  match a.activity, w.place with
  | .program .record, some p =>
    if cut.kindWritten then f.spoilRecord p.segment p.page p.offset else f
  | .program (.header k), _ => f.spoilSegment k false
  | _, _ => f

/-- What a station reset leaves in flash of the erase in hand (R22): nothing when it has not run. -/
def Flash.cutErase (f : Flash) (a : ArrayEngine) (cut : CutShort) : Flash :=
  match a.context with
  | some c => if c.ran then f.spoilSegment c.segment cut.page0Blank else f
  | none => f

/-- A station reset (R172): all on-chip state is discarded, flash keeps its content, and the mount
scan begins. A selection in progress ends, and SEL# is ignored until released (R149). -/
def State.stationReset (s : State) (cut : CutShort) : State :=
  { State.reset with
    pending := s.pending
    port := { Port.reset with
      selIgnored := s.port.selection.isSome || s.port.selIgnored
      holdPin := s.port.holdPin }
    flash := (s.flash.cutProgram s.array s.writer cut).cutErase s.array cut
    freeIndex := s.freeIndex }

/-- R172. -/
def execStationReset (cut : CutShort) (s : State) : Host.Outcome State Fault Refusal :=
  .next (s.stationReset cut)

/-- R166. -/
def execReset (cut : CutShort) (s : State) (moment : Moment := .whole) :
    Host.Outcome State Fault Refusal :=
  .next (s.command .reset moment fun _ s => s.stationReset cut)

/-! ### Unknown codes, discarded commands, HOLD# (R149, R150, R152) -/

/-- What SDO carries after a code that names no command (R148, R152). -/
def Mode.drivesUnknown : Mode → Sdo
  | .mounting | .formatting | .quiet => .highImpedance
  | .unenlisted | .joining | .active => Sdo.zeros

/-- A code that names no command is released (R152; the code in the command result, log 26). -/
def State.refuseUnknown (s : State) (code : Byte) : State :=
  match s.mode with
  | .mounting | .formatting => s.answer .busy code
  | .quiet => s
  | .unenlisted | .joining | .active => s.answer .badArg code

/-- R152. A code that names a command is not this event. -/
def execUnknownCode (code : Byte) (s : State) (moment : Moment := .whole) :
    Host.Outcome State Fault Refusal :=
  .next <|
    if (HostCommand.ofCode code).isSome then s
    else s.select moment ⟨code, false, none, 0, false⟩ s.mode.drivesUnknown
      fun _ t => t.refuseUnknown code

/-- R149. The release of a selection that a station reset ended has no effect. A release with no bit
shifted while HOLD# is asserted meets both the first row and the third, and R150 and R151 speak of every
release during a pause: the first row is followed, and nothing happens (DEDUCED, log 51). -/
def execCommandDiscarded (how : Discard) (s : State) : Host.Outcome State Fault Refusal :=
  .next <|
    let t := s.setPort { s.port with selection := none, selIgnored := false }
    if s.port.selIgnored then t
    else match how with
      | .noBit => t
      | .offBoundary | .duringHold => s.discardSelection
      | .incomplete code =>
        if s.port.holdPin then s.discardSelection
        else if s.mode ≠ .quiet ∧ (HostCommand.ofCode code).isSome then t.answer .badArg code else t

/-- R150. -/
def execHold (asserted : Bool) (s : State) : Host.Outcome State Fault Refusal :=
  .next (s.setPort { s.port with holdPin := asserted })

end Sys2Proof.Machine
end

