-- ==== Sys2Proof/Machine/ArrayEvents.lean ====
section
/-! DEFINITION. The array's completions outside mount, and the suspension of an erase (chapters 2
and 3, with the hand-ons of chapters 5, 6 and 8). -/

namespace Sys2Proof.Machine

/-! ### Programs (R27 to R31) -/

/-- The hand-on of a commit's completion to the Submission Controller (R104). -/
def State.commitHandOn (s : State) (j : Job) : State :=
  match j.source, j.body with
  | .commit, .data _ _ seq _ _ => s.commitDone seq
  | _, _ => s

/-- A record program GOOD (R27): the placement, the hand-ons to the Stream Tracker and the
Submission Controller, the RELEASE follow-up (log 31), and the offers of R46 in their order. -/
def State.programmed (s : State) (j : Job) (rest : List Job) (p : Place) : State :=
  (((((s.recordPlaced j rest p).trackCompletion j).commitHandOn j).followRelease j.body).excessTest).offerHoles

/-- R27, R29 to R31. -/
def execRecordProgramCompletion (outcome : ProgramOutcome) (s : State) :
    Host.Outcome State Fault Refusal :=
  .next <|
    match s.array.activity, s.writer.jobs, s.writer.place with
    | .program .record, j :: rest, some p =>
      match outcome with
      | .good => (s.arrayIdle.programmed j rest p).conclude
      | .failed => (s.arrayIdle.recordFailed p).conclude
    | _, _, _ => s

/-- R28, R30, R31. -/
def execHeaderProgramCompletion (outcome : ProgramOutcome) (s : State) :
    Host.Outcome State Fault Refusal :=
  .next <|
    match s.array.activity with
    | .program (.header k) =>
      match outcome with
      | .good => (s.arrayIdle.headerWritten k).conclude
      | .failed => (s.arrayIdle.headerFailed k).conclude
    | _ => s

/-! ### Reads (R32, R33) -/

/-- The bytes that a page read delivers: those stored, unless the array delivered as many others (R6;
log 6). -/
def State.delivered (s : State) (segment page offset size : Nat) (flaw : Option (List Byte)) :
    List Byte :=
  let stored := s.flash.read (flashAddress segment page offset) size
  match flaw with
  | some bytes => if bytes.length = size then bytes else stored
  | none => stored

/-- The code of a host read whose check is good: a HOLE candidate is the answer when the range read
reaches the seq sought (R159). -/
def HostClaim.code (c : HostClaim) (bytes : List Byte) : Code :=
  match c.sought with
  | none => .ok
  | some seq => if seq ≤ (frontWord (bytes.drop 12)).toNat then .hole else .notFound

/-- The Host Port takes a host read's bytes (R32, R158, R159): the buffer takes the record when it
is the answer. -/
def State.hostReadDone (s : State) (c : HostClaim) (bytes : List Byte) : State :=
  if checkGood bytes then
    s.setPort { s.port.readDone (c.code bytes) with
      buffer := if c.code bytes = .notFound then s.port.buffer else bytes }
  else s.setPort (s.port.readDone .notFound)

/-- R32, R159. -/
def execHostReadCompletion (flaw : Option (List Byte)) (s : State) :
    Host.Outcome State Fault Refusal :=
  .next <|
    match s.array.activity with
    | .read (.host c) =>
      (s.arrayIdle.hostReadDone c (s.delivered c.segment c.page c.offset c.size flaw)).conclude
    | _ => s

/-- The Repair Controller takes a fetch's bytes (R33, R144). -/
def State.fetchDone (s : State) (c : FetchClaim) (bytes : List Byte) : State :=
  if checkGood bytes then
    s.changeResponder c.requester c.origin fun e => { e with state := .readyCopy (contentOf bytes) }
  else s.skipSeq c.requester c.origin c.seq

/-- The bytes of a withdrawn fetch are discarded; an entry that waited for this read to take its next
seq takes it now (R23, R33, R145). -/
def State.fetchDropped (s : State) (q o : Nat) : State :=
  match s.repair.responder? q o with
  | some e => if e.state = .fetching then s.takeNext e e.list else s
  | none => s

/-- R33, R144. -/
def execFetchCompletion (flaw : Option (List Byte)) (s : State) :
    Host.Outcome State Fault Refusal :=
  .next <|
    match s.array.activity with
    | .read (.fetch c use) =>
      (match use with
      | .wanted => s.arrayIdle.fetchDone c (s.delivered c.segment c.page c.offset c.size flaw)
      | .withdrawn => s.arrayIdle.fetchDropped c.requester c.origin
      | .orphaned => s.arrayIdle).conclude
    | _ => s

/-! ### Erases (R37 to R39, R59, R178, R179) -/

/-- The erase context is emptied at the erase's completion (R37). -/
def State.eraseEnded (s : State) : State :=
  s.setArray { s.array with activity := .idle, context := none }

/-- What follows an erase completion beside the Segment Manager's own part: FORMAT's next erase, or
the offers that the end of FULL brings (R46, R139, R177, R178). -/
def State.afterErase (s : State) (wasFull : Bool) : State :=
  match s.formatNext with
  | some k => s.formatStep k
  | none => if wasFull && !s.segments.full then s.excessTest.offerHoles else s

/-- R37, R55, R59, R178, R179. -/
def execEraseCompletion (outcome : EraseOutcome) (s : State) : Host.Outcome State Fault Refusal :=
  .next <|
    match s.array.activity, s.array.context with
    | .erase, some c =>
      ((s.eraseEnded.eraseDone c.segment outcome).afterErase s.segments.full).conclude
    | _, _ => s

/-- R38. The current run reaches the resume minimum once after each start. -/
def execResumeMinimumReached (s : State) : Host.Outcome State Fault Refusal :=
  .next <|
    match s.array.activity, s.array.context with
    | .erase, some c =>
      if c.minimumReached then s
      else (s.setArray { s.array with context := some { c with minimumReached := true } }).checkSuspend
    | _, _ => s

/-- R39, R40. -/
def execSuspensionCompletion (s : State) : Host.Outcome State Fault Refusal :=
  .next <|
    match s.array.activity, s.array.context with
    | .suspending, some c =>
      (s.setArray { s.array with activity := .idle, context := some { c with running := false } }).conclude
    | _, _ => s

end Sys2Proof.Machine
end

