-- ==== Sys2Proof/Machine/Mounting.lean ====
section
/-! DEFINITION. The mount scan and the mount completion (sections 1.6, 10.2 and 10.3, R60, R97). -/

namespace Sys2Proof.Machine

/-! ### The record space (R13 to R15) -/

/-- The content of a page ends where no record can begin: fewer than 17 bytes remain (R13), or the kind
byte is not one of the three, 0xFF included (R186). -/
def contentEnds (rest : List Byte) : Bool :=
  decide (rest.length < 17) || (RecordKind.ofByte (rest.headD blankByte)).isNone

/-- What stands where the content of a page ends is a record that failed, unless it is blank or too
short for a record: a kind out of range cannot be stepped over and fails the first condition of R15
(R13). That R186 ends the content there and R13 has the scan treat it so are both followed (log 19). -/
def endsFailed (rest : List Byte) : Bool :=
  decide (17 ≤ rest.length) && decide (rest.headD blankByte ≠ blankByte)

/-- A page scanned on from an offset: the records accepted, and whether the content of the page
ended in a record that failed. `spoiled` says where remains of failed programs begin (log 5). -/
def scanPage (spoiled : Nat → Bool) (page : Nat) : Nat → Nat → Nat → List Byte → List Scanned × Bool
  | 0, _, _, _ => ([], false)
  | fuel + 1, offset, expected, rest =>
    if decide (17 ≤ rest.length) && spoiled offset then ([], true)
    else if contentEnds rest then ([], endsFailed rest)
    else match scanRecord rest page offset expected with
      | none => ([], true)
      | some r =>
        let more := scanPage spoiled page fuel (offset + r.locator.size) (expected + 1)
          (rest.drop r.locator.size)
        (r :: more.1, more.2)

/-- The position that the next record of an extent must carry (R15). -/
def Extent.expected (x : Extent) : Nat := x.firstPosition + x.records.length

/-- The records of a page of a segment, and whether its content ends in a record that failed. -/
def Flash.scanPage (f : Flash) (x : Extent) (page : Nat) : List Scanned × Bool :=
  Machine.scanPage (f.spoiledAt x.segment page) page 16 0 x.expected
    (f.read (flashAddress x.segment page 0) Config.pageBytes)

/-- A page read of the record scan is taken (R15): the extent after it, and whether the scan of the
segment goes on at the next page. After a record that failed, the page must begin with a record that
is accepted. -/
def Flash.extend (f : Flash) (x : Extent) (page : Nat) : Extent × Bool :=
  if f.pageStartBlank x.segment page then (x, false)
  else
    let found := f.scanPage x page
    if x.failedBefore && found.1.isEmpty then (x, false)
    else
      ({ x with
        records := x.records ++ found.1
        failedBefore := found.2
        skipped := x.skipped || x.failedBefore }, decide (page < 255))

/-- The last page of record space whose byte 0 is not blank, 0 when there is none (R15). -/
def Flash.lastPage (f : Flash) (k : Nat) : Nat :=
  (List.range Config.pageCount).foldl
    (fun last page => if 0 < page ∧ f.pageStartBlank k page = false then page else last) 0

/-- The placement cursor that the scan leaves (R15). -/
def Flash.scanCursor (f : Flash) (k : Nat) : Cursor := nextPage (f.lastPage k)

/-! ### The order and the chain (R16, R174) -/

/-- One extent is older than another (R174). -/
def Flash.older (f : Flash) (x y : Extent) : Bool :=
  decide (x.firstPosition < y.firstPosition) ||
    (decide (x.firstPosition = y.firstPosition) &&
      (decide (x.records.length < y.records.length) ||
        (decide (x.records.length = 0 ∧ y.records.length = 0) && !f.pageBlank x.segment 1
          && f.pageBlank y.segment 1)))

/-- An extent put into its place in ascending order of age. -/
def Flash.insertExtent (f : Flash) (x : Extent) : List Extent → List Extent
  | [] => [x]
  | y :: rest => if f.older x y then x :: y :: rest else y :: f.insertExtent x rest

/-- The extents, oldest first. -/
def Flash.ordered (f : Flash) (l : List Extent) : List Extent := l.foldl (fun acc x => f.insertExtent x acc) []

/-- The run of chained segments that contains the newest, of extents given newest first (R16). -/
def keptRun : List Extent → List Extent
  | [] => []
  | [x] => [x]
  | x :: y :: rest => if x.firstPosition = y.expected then x :: keptRun (y :: rest) else [x]

/-- A segment whose only placement failed twice (R60, R174). -/
def Flash.spent (f : Flash) (x : Extent) : Bool := x.records.isEmpty && !f.pageBlank x.segment 1

/-! ### The rebuilt state (R5, R7, R60, R97, R175) -/

/-- A scanned record joins a segment's entry (R15). -/
def InUse.addScanned (u : InUse) (r : Scanned) : InUse := u.addRecord r.locator r.last

/-- The fields of a segment in use (R43, R60). -/
def Extent.use (x : Extent) : InUse :=
  x.records.foldl InUse.addScanned ⟨x.firstPosition, none, 0, x.floor, [], [], []⟩

/-- The segment table entry of a surviving segment (R60). -/
def Flash.mounted (f : Flash) (newest : Bool) (x : Extent) : Segment where
  state :=
    if newest then
      match f.scanCursor x.segment with
      | .past => .sealed x.use
      | cursor => .opened x.use cursor (if x.skipped then 1 else 0)
    else .sealed x.use
  generation := x.generation
  retire := false

/-- The segment table that mount hands over (R60, R173): survivors, ERASED segments, and DIRTY ones
for all the rest. `survivors` is oldest first. -/
def Flash.mountTable (f : Flash) (found : List Found) (survivors : List Extent) : List Segment :=
  found.zipIdx.map fun e =>
    match survivors.find? fun x => x.segment = e.2 with
    | some x => f.mounted (decide ((survivors.getLast?.map (·.segment)) = some x.segment)) x
    | none => ⟨if e.1 = .blank then .erased else .dirty, 0, false⟩

/-- The seqs of an origin that a record stores or covers (R97). -/
def Scanned.covers (o : Nat) (r : Scanned) : Option (Nat × Nat) :=
  if r.locator.kind ≠ .release ∧ r.locator.origin = o then some (r.locator.seq, r.last) else none

/-- The runs between the base and highest accepted that no record covers (R97). -/
def missing (o base accepted : Nat) (covered : List (Nat × Nat)) : List Run :=
  covered.foldl (fun runs c => cutRuns runs o c.1 c.2)
    (if base < accepted then [⟨o, base + 1, accepted⟩] else [])

/-- The holdings of one origin, with its interior gaps (R97, R175). -/
def rebuilt (records : List Scanned) (floor : List Nat) (o : Nat) : Holding × List Run :=
  let base := floor.getD o 0
  let covered := records.filterMap (Scanned.covers o)
  let accepted := covered.foldl (fun m c => max m c.2) base
  let gaps := missing o base accepted covered
  let through := match gaps with
    | [] => accepted
    | g :: _ => g.first - 1
  (⟨through, accepted, accepted, false⟩, gaps)

/-- The check index entry of a scanned DATA record (R83, R97). -/
def Scanned.indexEntry (r : Scanned) : Option IndexEntry :=
  if r.locator.kind = .data then some ⟨r.locator.origin, r.locator.seq, r.check, false⟩ else none

/-- The Stream Tracker's tables after mount (R97, R175). -/
def mountTracker (records : List Scanned) (floor : List Nat) : Tracker :=
  let origins := (List.range Config.originCount).map (rebuilt records floor)
  let gaps := origins.flatMap (·.2)
  { holdings := origins.map (·.1)
    pending := []
    index := records.filterMap Scanned.indexEntry
    gaps := gaps.take Config.gapPlaces
    excess := gaps.drop Config.gapPlaces }

/-- The release mark after mount (R5). -/
def mountMark (survivors : List Extent) : Nat :=
  let marks := (survivors.flatMap (·.records)).filter (·.locator.kind = .release)
  max ((marks.getLast?.map (·.last)).getD 0) ((survivors.head?.map (·.firstPosition - 1)).getD 0)

/-- The next local position after mount (R7; log 15): `kept` is the kept run, newest first. -/
def mountPosition (kept : List Extent) : Nat :=
  match kept with
  | [] => 1
  | newest :: _ => newest.expected

/-- The mount completion (R175, R176): the results go to their blocks and the mode becomes
UNENLISTED. The first DIRTY erase follows at the event's end. -/
def State.mountDone (s : State) (c : Scan) : State :=
  let kept := keptRun (s.flash.ordered c.extents).reverse
  let survivors := kept.reverse.filter fun x => !s.flash.spent x
  let tracker := mountTracker (survivors.flatMap (·.records)) ((survivors.head?.map (·.floor)).getD [])
  let t := (s.setScan none).setMode .unenlisted
  let t := t.setSegments { t.segments with table := s.flash.mountTable c.found survivors }
  let t := t.setWriter
    { t.writer with nextPosition := mountPosition kept, releaseMark := mountMark survivors }
  let t := (t.setTracker tracker).setSubmission
    { t.submission with kept := tracker.holdings.map (·.through) }
  (t.setArray { t.array with activity := .idle }).conclude

/-! ### The steps of the scan (R173, R174) -/

/-- The scan waits for its next operation. -/
def State.scanOn (s : State) (c : Scan) (read : ReadOperation) : State :=
  (s.setScan (some c)).setArray { s.array with activity := .read read }

/-- The extent of a segment before its record space is scanned. -/
def Scan.start (c : Scan) (k : Nat) : Extent :=
  match c.found.getD k .unread with
  | .header generation firstPosition floor => ⟨k, generation, firstPosition, floor, [], false, false⟩
  | _ => ⟨k, 0, 0, [], [], false, false⟩

/-- The record space of the next segment is scanned, or mount completes (R174, R175). -/
def State.nextExtent (s : State) (c : Scan) : State :=
  match c.todo with
  | [] => s.mountDone c
  | k :: rest => s.scanOn { c with todo := rest, step := .records (c.start k) 1 } .mountPage

/-- The first position that a segment's header gave. -/
def Scan.firstPosition (c : Scan) (k : Nat) : Nat := (c.start k).firstPosition

/-- A segment put into its place in ascending order of first position. Of two of equal first position,
which R174 orders by age only once both are scanned, the lower-numbered is scanned first (DESIGN
CHOICE, log 49). -/
def Scan.insertSegment (c : Scan) (k : Nat) : List Nat → List Nat
  | [] => [k]
  | j :: rest =>
    if c.firstPosition k < c.firstPosition j then k :: j :: rest else j :: c.insertSegment k rest

/-- The segments with a valid header, in ascending order of first position (R174). -/
def Scan.inUse (c : Scan) : List Nat :=
  (c.found.zipIdx.filter fun e => match e.1 with
    | .header .. => true
    | _ => false).foldl (fun l e => c.insertSegment e.2 l) []

/-- The blank check of the lowest-numbered segment from one on whose page 0 reads blank, or, when
there is none, the scan of the record spaces (R173, R174). -/
def State.nextBlankCheck (s : State) (c : Scan) : State :=
  match c.found.findIdx? (· = .blankPage) with
  | some k => s.scanOn { c with step := .blankChecks k } .blankCheck
  | none => s.nextExtent { c with todo := c.inUse }

/-- The page read of a segment's page 0 (R173). -/
def State.headerRead (s : State) (c : Scan) (k : Nat) : State :=
  let c := { c with found := c.found.set k (s.flash.readHeader k) }
  if k + 1 < Config.segmentCount then s.scanOn { c with step := .headers (k + 1) } .mountPage
  else s.nextBlankCheck c

/-- The page read of a page of record space (R15, R174). -/
def State.pageRead (s : State) (c : Scan) (x : Extent) (page : Nat) : State :=
  let r := s.flash.extend x page
  if r.2 then s.scanOn { c with step := .records r.1 (page + 1) } .mountPage
  else s.nextExtent { c with extents := c.extents ++ [r.1] }

/-- R173 to R176. The first read of the scan is in progress from the reset on (log 13). -/
def execMountReadCompletion (s : State) : Host.Outcome State Fault Refusal :=
  .next <|
    match s.mode, s.scan with
    | .mounting, some c =>
      match c.step with
      | .headers k => s.headerRead c k
      | .records x page => s.pageRead c x page
      | .blankChecks _ => s
    | _, _ => s

/-- R35, R173. -/
def execBlankCheckCompletion (s : State) : Host.Outcome State Fault Refusal :=
  .next <|
    match s.mode, s.scan with
    | .mounting, some c =>
      match c.step with
      | .blankChecks k =>
        s.nextBlankCheck { c with
          found := c.found.set k (if s.flash.segmentBlank k then .blank else .notBlank) }
      | .headers _ | .records .. => s
    | _, _ => s

end Sys2Proof.Machine
end

