-- ==== Sys2Proof/Machine/Receive.lean ====
section
/-! DEFINITION. Frames that end on the line: the receive checks, the hand-ons by kind, and the line
events that move the framer (chapters 4, 5, 7 and 8). -/

namespace Sys2Proof.Machine

/-! ### The end of a frame (R65, R73, R74) -/

/-- The framer follows a frame that this station does not send. -/
def State.follows (s : State) : Bool :=
  decide (s.line.framer = .frame) && !s.line.transmitter.busy

/-- The frame is handed on: it passes the checks of R73 and the mode is JOINING or ACTIVE (R74). -/
def State.handsOn (s : State) (f : Frame) : Bool :=
  f.fieldsGood s.clusterSize && s.mode.onLine

/-- A frame that the framer followed has reached its last separator (R65, R73, R74): the framer
goes to GAP, and a frame that is handed on has its effect. Without a frame being followed the event
does not arise (log 3). -/
def State.hearFrame (s : State) (f : Frame) (handOn : State → State) : State :=
  if s.follows then
    if s.handsOn f then (handOn (s.setFramer .gap)).conclude else s.setFramer .gap
  else s

/-! ### HELD and PRESENCE (R123 to R125, R127) -/

/-- The hand-on of a HELD frame: the sign of life, the merge, the learning (R123, R124, R127). -/
def State.takeHeld (s : State) (p origin value : Nat) : State :=
  (((s.hearPeer p false).mergePeer p (Peer.report origin value)).learn origin value)

/-- The merge of a PRESENCE: its values and its FULL flag (R124). -/
def Peer.presence (full : Bool) (vector : List Word) (e : Peer) : Peer :=
  { e.reports 0 vector with full := full }

/-- The hand-on of a PRESENCE frame (R123 to R125, R127). -/
def State.takePresence (s : State) (p : Nat) (quieting full : Bool) (vector : List Word) : State :=
  (((s.hearPeer p quieting).mergePeer p (Peer.presence full vector)).learnAll 0 vector)

/-- R123, R124. -/
def execHeldFrame (sender : StationNumber) (origin : Byte) (value : Word) (s : State) :
    Host.Outcome State Fault Refusal :=
  .next (s.hearFrame (.held sender origin value) fun s =>
    s.takeHeld sender.toNat origin.toNat value.toNat)

/-- R123, R124. -/
def execPresenceFrame (sender : StationNumber) (joining full : Bool) (vector : List Word)
    (s : State) : Host.Outcome State Fault Refusal :=
  .next (s.hearFrame (.presence sender (if joining then .joining else .active) full vector) fun s =>
    s.takePresence sender.toNat false full vector)

/-- R125. -/
def execQuietingPresenceFrame (sender : StationNumber) (full : Bool) (vector : List Word)
    (s : State) : Host.Outcome State Fault Refusal :=
  .next (s.hearFrame (.presence sender .quieting full vector) fun s =>
    s.takePresence sender.toNat true full vector)

/-! ### APPEND and REFILL (R86 to R90, R136, R137, R140, R145) -/

/-- R86 to R90. -/
def execAppendFrame (sender : StationNumber) (seq : Word) (tag : Byte) (payload : List Byte)
    (check : Word) (s : State) : Host.Outcome State Fault Refusal :=
  .next (s.hearFrame (.append sender seq tag payload check) fun s =>
    ((s.hearPeer sender.toNat false).arrive
      ⟨sender.toNat, sender.toNat, seq.toNat, tag, payload, check, false⟩).1)

/-- The hand-on of a REFILL COPY (R87 to R90, R136, R145). The repair waits of the slots of its
origin restart (R137), which a wait that runs does not show (log 2). -/
def State.takeCopy (s : State) (a : Arrival) : State :=
  let r := s.arrive a
  (if r.2 then r.1.narrowOrigin a.origin else r.1).cancelRefill a.origin (· = a.seq)

/-- R87 to R90, R136, R145. -/
def execRefillCopyFrame (sender : StationNumber) (requester origin : Byte) (seq : Word) (tag : Byte)
    (payload : List Byte) (check : Word) (s : State) : Host.Outcome State Fault Refusal :=
  .next (s.hearFrame (.copy sender requester origin seq tag payload check) fun s =>
    (s.hearPeer sender.toNat false).takeCopy
      ⟨sender.toNat, origin.toNat, seq.toNat, tag, payload, check, true⟩)

/-- The hand-on of a REFILL GONE: known high is raised, the wants in the range are offered as
holes, and the range leaves the responder lists (R92, R140, R145; log 17). -/
def State.takeGone (s : State) (origin first last : Nat) : State :=
  ((s.learn origin last).declareGone origin first last).cancelRefill origin
    fun seq => decide (first ≤ seq) && decide (seq ≤ last)

/-- R140, R92, R145. -/
def execRefillGoneFrame (sender : StationNumber) (requester origin : Byte) (first last : Word)
    (s : State) : Host.Outcome State Fault Refusal :=
  .next (s.hearFrame (.gone sender requester origin first last) fun s =>
    (s.hearPeer sender.toNat false).takeGone origin.toNat first.toNat last.toNat)

/-! ### SEEK (R135, R142, R143, R146) -/

/-- R135, R142, R146. -/
def execSeekFrame (sender : StationNumber) (origin : Byte) (first last : Word) (s : State) :
    Host.Outcome State Fault Refusal :=
  .next (s.hearFrame (.seek sender origin first last) fun s =>
    ((s.hearPeer sender.toNat false).followSeek origin.toNat first.toNat last.toNat).answerSeek
      sender.toNat origin.toNat first.toNat last.toNat)

/-! ### Frames discarded at their end (R73, R187) -/

/-- The data bytes of a frame pass every check of R73. -/
def passes (n : Nat) (bytes : List Byte) : Bool := (parseFrame bytes).any (·.fieldsGood n)

/-- R73. Bytes that pass the checks are not this event. -/
def execFrameDiscarded (bytes : List Byte) (s : State) : Host.Outcome State Fault Refusal :=
  .next (if s.follows && !passes s.clusterSize bytes then s.setFramer .gap else s)

/-! ### The framer's other moves (R65, R66, R69) -/

/-- R65, R69. -/
def execSeparatorDominant (s : State) : Host.Outcome State Fault Refusal :=
  .next (s.moveFramer .frame .hunt)

/-- R65. -/
def execDominantRunEnd (s : State) : Host.Outcome State Fault Refusal :=
  .next (s.moveFramer .hunt .gap)

/-- R65. -/
def execGapEnd (s : State) : Host.Outcome State Fault Refusal :=
  .next (s.moveFramer .gap .free)

/-- R65, R66. -/
def execHuntIdleRun (s : State) : Host.Outcome State Fault Refusal :=
  .next (s.moveFramer .hunt .free)

/-- R65. -/
def execStartBitSeen (s : State) : Host.Outcome State Fault Refusal :=
  .next (s.moveFramer .free .frame)

/-- R65. -/
def execDominantBitInGap (s : State) : Host.Outcome State Fault Refusal :=
  .next (s.moveFramer .gap .hunt)

end Sys2Proof.Machine
end

