-- ==== Sys2Proof/Machine/Timers.lean ====
section
/-! DEFINITION. The station's timers running out (chapters 6, 7, 8 and 10). A timer that does not
run does not expire (log 3). -/

namespace Sys2Proof.Machine

/-- R118. -/
def execPresenceTimerExpiry (s : State) : Host.Outcome State Fault Refusal :=
  .next <|
    if s.presence.presenceTimer then
      s.setPresence { s.presence with presenceTimer := false, request := true }
    else s

/-- A peer entry at the expiry that its state waits for (R126). -/
def Peer.aged (e : Peer) : Peer :=
  match e.state with
  | .present => { e with state := .silent }
  | .unknown | .silent | .absent => { e with state := .absent, timer := false }

/-- The silence timer of a peer runs (R126, R131). -/
def State.silenceRuns (s : State) (p : Nat) : Bool :=
  s.mode.onLine && s.isPeer p && (s.presence.peer p).timer

/-- The peers whose silence timers run out together, ascending (R129): those named whose timer runs;
and with one of them UNKNOWN every UNKNOWN peer, since the timers of these have all run from the start
of JOINING (R126; log 45). -/
def State.expiring (s : State) (peers : List StationNumber) : List Nat :=
  let unknown := fun p => decide ((s.presence.peer p).state = .unknown)
  let running := (List.range Config.originCount).filter s.silenceRuns
  let named := fun p => peers.any fun k => decide (k.toNat = p)
  running.filter fun p => named p || unknown p && running.any fun q => named q && unknown q

/-- The silence timer of one peer has run out (R126), with its PEER notice (R122). -/
def State.silenceExpired (s : State) (p : Nat) : State :=
  (s.setPresence (s.presence.change p Peer.aged)).raise .presenceUnit
    (.peer p (s.presence.peer p).aged.state)

/-- R126, R129: the peers that change in one event are taken in ascending order. -/
def execSilenceTimerExpiry (peers : List StationNumber) (s : State) :
    Host.Outcome State Fault Refusal :=
  .next <|
    match s.expiring peers with
    | [] => s
    | l => (l.foldl State.silenceExpired s).conclude

/-- The own next seq adopted at the end of JOINING (R182). -/
def State.adopted (s : State) : Nat :=
  max (s.tracker.holding s.ownNumber).accepted (s.tracker.holding s.ownNumber).known + 1

/-- The end of JOINING (R128, R182). -/
def State.joined (s : State) : State :=
  ((s.setMode .active).setPresence { s.presence with joiningTimer := false }).setSubmission
    { s.submission with nextSeq := some s.adopted }

/-- R182. -/
def execJoiningEnd (s : State) : Host.Outcome State Fault Refusal :=
  .next <| if s.mode = .joining ∧ s.presence.joiningTimer = true then s.joined.conclude else s

/-- An entry whose confirmation wait has run out (R110). -/
def State.unanswered (s : State) (e : Entry) : State :=
  if e.sends < 3 then s.changeEntry e.seq fun e => { e with stage := .sending }
  else (s.dropEntry e.seq).raise .submissionController (.unconfirmed e.ticket e.seq)

/-- R110. -/
def execConfirmationWaitExpiry (seq : Word) (s : State) : Host.Outcome State Fault Refusal :=
  .next <|
    match s.submission.entry? seq.toNat with
    | some e => if e.stage = .waiting then (s.unanswered e).conclude else s
    | none => s

/-- The repair wait of a slot runs (R132). -/
def SeekSlot.waits (sl : SeekSlot) : Bool := decide (sl.state = .asking true ∨ sl.state = .following)

/-- A slot that still has wants after its wait ran out (R138): its attempts rise, and it asks again
or declares. -/
def State.attempted (s : State) (i : Nat) (sl : SeekSlot) : State :=
  if sl.attempts + 1 < 3 then
    s.setSlot i (some { sl with attempts := sl.attempts + 1, state := .asking false })
  else if s.originPresent sl.origin || decide (s.mode = .joining) then
    s.setSlot i (some { sl with attempts := 0, state := .asking false })
  else declareSlot 17 (s.setSlot i (some { sl with attempts := 3, state := .declaring })) i

/-- The repair wait of a slot has run out (R136, R138). -/
def State.waitedOut (s : State) (i : Nat) (sl : SeekSlot) : State :=
  match s.tracker.narrowed sl with
  | none => s.setSlot i none
  | some sl => s.attempted i sl

/-- R138. -/
def execRepairWaitExpiry (slot : Fin 4) (s : State) : Host.Outcome State Fault Refusal :=
  .next <|
    match s.repair.slot? slot with
    | some sl => if sl.waits then (s.waitedOut slot sl).conclude else s
    | none => s

/-- An entry whose defer timer has run out turns to its GONE frame or takes its lowest seq (R142,
R143). One renewed while its read is in progress takes the seq when that read has completed, as R23
asks (log 44). -/
def State.deferred (s : State) (e : Responder) : State :=
  if e.gone.isSome then
    s.changeResponder e.requester e.origin fun e => { e with state := .readyGone }
  else s.takeNext e e.list

/-- R142. -/
def execDeferExpiry (requester origin : StationNumber) (s : State) :
    Host.Outcome State Fault Refusal :=
  .next <|
    match s.repair.responder? requester.toNat origin.toNat with
    | some e => if e.state = .deferring then (s.deferred e).conclude else s
    | none => s

end Sys2Proof.Machine
end

