-- ==== Sys2Proof/Machine/Transmit.lean ====
section
/-! DEFINITION. The transmitter: the selector, the start of a frame, arbitration, failures, breaks
and send completions (chapter 4, with the completions of chapters 5 to 8). -/

namespace Sys2Proof.Machine

/-! ### The transmit selector (R77, R78) -/

/-- The first origin with its HELD-due flag set, in ascending order from the one after the HELD
cursor (R77). -/
def State.heldRequest (s : State) : Option Nat :=
  ((List.range Config.originCount).map fun i => (s.line.heldCursor + 1 + i) % Config.originCount).find?
    fun o => (s.tracker.holding o).due

/-- The SENDING entry with the lowest own seq, while ACTIVE (R77, R78). Entries join in ascending
order of seq (R102). -/
def State.appendRequest (s : State) : Option Entry :=
  if s.mode = .active then s.submission.queue.find? fun e => decide (e.stage = .sending) else none

/-- The frame that a READY responder entry has ready (R143, R144). -/
def State.refillFrame (s : State) (e : Responder) : Option Frame :=
  match e.state with
  | .readyGone => e.gone.map fun g =>
    .gone s.key (natByte e.requester) (natByte e.origin) (BitVec.ofNat 32 g.1) (BitVec.ofNat 32 g.2)
  | .readyCopy r =>
    some (.copy s.key (natByte e.requester) (natByte e.origin) r.seq r.tag r.payload r.check)
  | .deferring | .fetching => none

/-- The READY entry nearest the head of the responder queue, with its frame (R77, R144). -/
def State.refillRequest (s : State) : Option (Request × Frame) :=
  s.repair.responders.findSome? fun e =>
    (s.refillFrame e).map fun f => (.refill e.requester e.origin true, f)

/-- The lowest-numbered slot whose SEEK is due, with its frame (R77, R134). -/
def State.seekRequest (s : State) : Option (Request × Frame) :=
  s.repair.slots.zipIdx.findSome? fun e => e.1.bind fun sl =>
    if sl.state = .asking false then
      some (.seek e.2 true,
        .seek s.key (natByte sl.origin) (BitVec.ofNat 32 sl.first) (BitVec.ofNat 32 sl.last))
    else none

/-- The content of a PRESENCE as it is formed (R119, R120). -/
def State.presenceFrame (s : State) (mode : PresenceMode) : Frame :=
  .presence s.key mode s.segments.full
    ((List.range s.clusterSize).map fun o => BitVec.ofNat 32 (s.tracker.holding o).through)

/-- The ordinary presence request, with its frame (R77, R119). -/
def State.presenceRequest (s : State) : Option (Request × Frame) :=
  if s.presence.request then
    some (.presence true, s.presenceFrame (if s.mode = .active then .active else .joining))
  else none

/-- The request that the selector chooses, with the frame formed for it (R67, R77, R78). -/
def State.chosen (s : State) : Option (Request × Frame) :=
  if s.mode = .quiet then
    if s.presence.quieting then some (.quieting true, s.presenceFrame .quieting) else none
  else
    ((s.heldRequest.map fun o => (.held o, .held s.key (natByte o)
        (BitVec.ofNat 32 (s.tracker.holding o).through))).or
      (s.appendRequest.map fun e => (.append e.seq,
        .append s.key (BitVec.ofNat 32 e.seq) e.tag e.payload e.check))).or
    (s.refillRequest.or (s.seekRequest.or s.presenceRequest))

/-- R67, R77. The framer is FREE only while the line interface is on. -/
def execFrameStart (s : State) : Host.Outcome State Fault Refusal :=
  .next <|
    if s.line.framer = .free ∧ s.line.transmitter = .idle ∧ s.line.muted = false then
      match s.chosen with
      | some (r, f) => (s.setFramer .frame).setTransmitter (.arbitrating r f)
      | none => s
    else s

/-! ### Arbitration and failures (R67, R68, R75) -/

/-- R67. -/
def execArbitrationLoss (s : State) : Host.Outcome State Fault Refusal :=
  .next <|
    match s.line.transmitter with
    | .arbitrating .. => s.setTransmitter .idle
    | _ => s

/-- R68, R75. -/
def execTransmitFailure (s : State) : Host.Outcome State Fault Refusal :=
  .next <|
    match s.line.transmitter.onLine? with
    | some (r, _) => s.setLine { s.line with
        transmitter := .breaking r
        failures := min Config.muteLimit (s.line.failures + 1) }
    | none => s

/-- MUTED is set with its notice; in QUIET the line interface is turned off at that moment and no
QUIETING PRESENCE is sent (R75, R78; log 20). -/
def State.enterMuted (s : State) : State :=
  let t := (s.setLine { s.line with muted := true }).raise .lineInterface .muted
  (if t.mode = .quiet then (t.setPresence { t.presence with quieting := false }).lineOff else t).flush

/-- The own framer after the own break: one that still followed the broken frame is in HUNT (R68;
log 12). -/
def State.leaveBroken (s : State) : State := s.moveFramer .frame .hunt

/-- R68, R75. A LINE RESUME taken between the sixteenth failure and the end of its break has cleared the
count (R76, R164), so that MUTED is not entered at that end (DEDUCED, log 41). -/
def execBreakComplete (s : State) : Host.Outcome State Fault Refusal :=
  .next <|
    match s.line.transmitter with
    | .breaking _ =>
      let t := (s.setTransmitter .idle).leaveBroken
      if s.line.failures = Config.muteLimit then t.enterMuted else t
    | _ => s

/-! ### Send completions (R70, R72) -/

/-- R70, R94. -/
def execHeldSendCompletion (s : State) : Host.Outcome State Fault Refusal :=
  .next <|
    match s.line.transmitter.onLine? with
    | some (.held o, .held _ _ value) =>
      let t := s.frameSent
      (t.setLine { t.line with heldCursor := o }).setTracker (t.tracker.reportSent o value.toNat)
    | _ => s

/-- The entry whose APPEND has been sent: it leaves the queue when declared, and waits for its
confirmation otherwise (R106, R109). -/
def State.appendSent (s : State) (seq : Nat) : State :=
  match s.submission.entry? seq with
  | none => s
  | some e =>
    if e.declared then s.dropEntry seq
    else s.changeEntry seq fun e => { e with stage := .waiting, sends := e.sends + 1 }

/-- R70, R106, R109. -/
def execAppendSendCompletion (s : State) : Host.Outcome State Fault Refusal :=
  .next <|
    match s.line.transmitter.onLine? with
    | some (.append seq, _) => (s.frameSent.appendSent seq).conclude
    | _ => s

/-- The responder entry whose COPY of a seq has been sent; a seq no longer in its list changes
nothing (R144). -/
def State.copySent (s : State) (q o seq : Nat) : State :=
  match s.repair.responder? q o with
  | none => s
  | some e => if e.list.contains seq then s.skipSeq q o seq else s

/-- The responder entry whose GONE has been sent (R143). -/
def State.goneSent (s : State) (q o : Nat) : State :=
  match s.repair.responder? q o with
  | none => s
  | some e =>
    (s.changeResponder q o fun e => { e with gone := none }).takeNext { e with gone := none } e.list

/-- R70, R143, R144. -/
def execRefillSendCompletion (s : State) : Host.Outcome State Fault Refusal :=
  .next <|
    match s.line.transmitter.onLine? with
    | some (.refill q o live, f) =>
      let t := s.frameSent
      if live then
        match f with
        | .copy _ _ _ seq _ _ _ => (t.copySent q o seq.toNat).conclude
        | _ => (t.goneSent q o).conclude
      else t
    | _ => s

/-- The slot whose SEEK has been sent: its repair wait starts (R134). -/
def SeekSlot.sent (sl : SeekSlot) : SeekSlot :=
  match sl.state with
  | .asking _ => { sl with state := .asking true }
  | .following | .declaring => sl

/-- R70, R134. -/
def execSeekSendCompletion (s : State) : Host.Outcome State Fault Refusal :=
  .next <|
    match s.line.transmitter.onLine? with
    | some (.seek i live, _) =>
      let t := s.frameSent
      if live then t.setRepair { t.repair with slots := t.repair.slots.modify i (·.map SeekSlot.sent) }
      else t
    | _ => s

/-- The values that a PRESENCE carried (R119). -/
def Frame.vector : Frame → List Word
  | .presence _ _ _ vector => vector
  | _ => []

/-- R70, R94, R118, R120. The completion of a PRESENCE that QUIET has overtaken starts no timer and
clears no request. -/
def execPresenceSendCompletion (s : State) : Host.Outcome State Fault Refusal :=
  .next <|
    match s.line.transmitter.onLine? with
    | some (.presence live, f) =>
      let t := s.frameSent
      let t := t.setTracker (t.tracker.reportsSent 0 f.vector)
      if live then t.setPresence { t.presence with request := false, presenceTimer := true } else t
    | _ => s

/-- R70, R78, R94, R120. A WAKE taken while the frame was on the line leaves the line interface on. -/
def execQuietingPresenceSendCompletion (s : State) : Host.Outcome State Fault Refusal :=
  .next <|
    match s.line.transmitter.onLine? with
    | some (.quieting live, f) =>
      let t := s.frameSent
      let t := t.setTracker (t.tracker.reportsSent 0 f.vector)
      if live then (t.setPresence { t.presence with quieting := false }).lineOff else t
    | _ => s

end Sys2Proof.Machine
end

