-- ==== Sys2Proof/Machine/Dispatch.lean ====
section
/-! DEFINITION. The effect of each command, one arm per constructor. -/

namespace Sys2Proof.Machine

def exec (i : Instr) (s : State) : Host.Outcome State Fault Refusal :=
  match i with
  | .stationReset cut => Sys2Proof.Machine.execStationReset cut s
  | .status moment => Sys2Proof.Machine.execStatus moment s
  | .result moment => Sys2Proof.Machine.execResult moment s
  | .readBuffer moment => Sys2Proof.Machine.execReadBuffer moment s
  | .nextNotice moment => Sys2Proof.Machine.execNextNotice moment s
  | .readPosition position moment => Sys2Proof.Machine.execReadPosition position s moment
  | .readRecord origin seq moment => Sys2Proof.Machine.execReadRecord origin seq s moment
  | .submit tag payload moment => Sys2Proof.Machine.execSubmit tag payload s moment
  | .release position moment => Sys2Proof.Machine.execRelease position s moment
  | .enlist station n w rate p moment => Sys2Proof.Machine.execEnlist station n w rate p s moment
  | .format moment => Sys2Proof.Machine.execFormat s moment
  | .quiet moment => Sys2Proof.Machine.execQuiet s moment
  | .wake moment => Sys2Proof.Machine.execWake s moment
  | .lineResume moment => Sys2Proof.Machine.execLineResume s moment
  | .reset cut moment => Sys2Proof.Machine.execReset cut s moment
  | .unknownCode code moment => Sys2Proof.Machine.execUnknownCode code s moment
  | .commandDiscarded how => Sys2Proof.Machine.execCommandDiscarded how s
  | .hold asserted => Sys2Proof.Machine.execHold asserted s
  | .heldFrame sender origin value => Sys2Proof.Machine.execHeldFrame sender origin value s
  | .presenceFrame sender joining full vector => Sys2Proof.Machine.execPresenceFrame sender joining full vector s
  | .quietingPresenceFrame sender full vector => Sys2Proof.Machine.execQuietingPresenceFrame sender full vector s
  | .appendFrame sender seq tag payload check => Sys2Proof.Machine.execAppendFrame sender seq tag payload check s
  | .refillCopyFrame sender requester origin seq tag payload check => Sys2Proof.Machine.execRefillCopyFrame sender requester origin seq tag payload check s
  | .refillGoneFrame sender requester origin first last => Sys2Proof.Machine.execRefillGoneFrame sender requester origin first last s
  | .seekFrame sender origin first last => Sys2Proof.Machine.execSeekFrame sender origin first last s
  | .frameDiscarded bytes => Sys2Proof.Machine.execFrameDiscarded bytes s
  | .separatorDominant => Sys2Proof.Machine.execSeparatorDominant s
  | .dominantRunEnd => Sys2Proof.Machine.execDominantRunEnd s
  | .gapEnd => Sys2Proof.Machine.execGapEnd s
  | .huntIdleRun => Sys2Proof.Machine.execHuntIdleRun s
  | .frameStart => Sys2Proof.Machine.execFrameStart s
  | .arbitrationLoss => Sys2Proof.Machine.execArbitrationLoss s
  | .transmitFailure => Sys2Proof.Machine.execTransmitFailure s
  | .breakComplete => Sys2Proof.Machine.execBreakComplete s
  | .heldSendCompletion => Sys2Proof.Machine.execHeldSendCompletion s
  | .appendSendCompletion => Sys2Proof.Machine.execAppendSendCompletion s
  | .refillSendCompletion => Sys2Proof.Machine.execRefillSendCompletion s
  | .seekSendCompletion => Sys2Proof.Machine.execSeekSendCompletion s
  | .presenceSendCompletion => Sys2Proof.Machine.execPresenceSendCompletion s
  | .quietingPresenceSendCompletion => Sys2Proof.Machine.execQuietingPresenceSendCompletion s
  | .presenceTimerExpiry => Sys2Proof.Machine.execPresenceTimerExpiry s
  | .silenceTimerExpiry peers => Sys2Proof.Machine.execSilenceTimerExpiry peers s
  | .joiningEnd => Sys2Proof.Machine.execJoiningEnd s
  | .confirmationWaitExpiry seq => Sys2Proof.Machine.execConfirmationWaitExpiry seq s
  | .repairWaitExpiry slot => Sys2Proof.Machine.execRepairWaitExpiry slot s
  | .deferExpiry requester origin => Sys2Proof.Machine.execDeferExpiry requester origin s
  | .recordProgramCompletion outcome => Sys2Proof.Machine.execRecordProgramCompletion outcome s
  | .headerProgramCompletion outcome => Sys2Proof.Machine.execHeaderProgramCompletion outcome s
  | .hostReadCompletion flaw => Sys2Proof.Machine.execHostReadCompletion flaw s
  | .fetchCompletion flaw => Sys2Proof.Machine.execFetchCompletion flaw s
  | .blankCheckCompletion => Sys2Proof.Machine.execBlankCheckCompletion s
  | .mountReadCompletion => Sys2Proof.Machine.execMountReadCompletion s
  | .eraseCompletion outcome => Sys2Proof.Machine.execEraseCompletion outcome s
  | .resumeMinimumReached => Sys2Proof.Machine.execResumeMinimumReached s
  | .suspensionCompletion => Sys2Proof.Machine.execSuspensionCompletion s
  | .startBitSeen => Sys2Proof.Machine.execStartBitSeen s
  | .dominantBitInGap => Sys2Proof.Machine.execDominantBitInGap s

end Sys2Proof.Machine
end

