-- ==== Sys2Proof/Safety.lean ====
section
/-! DEFINITION. The terms in which claims are stated: what an event's end leaves alone, the limits of
the queues and tables, the order of the holdings, and the mode changes of R171. -/

namespace Sys2Proof.Machine

/-! ### Frames -/

/-- What the consequences at an event's end never change: the mode and the enlistment, the Presence
Unit and the Submission Controller, flash, the positions, the Host Port but for its notices and its
read slot, and the Line Interface but for the transmitter. -/
structure State.Keeps (s t : State) : Prop where
  pending : t.pending = s.pending
  mode : t.mode = s.mode
  enlistment : t.enlistment = s.enlistment
  presence : t.presence = s.presence
  submission : t.submission = s.submission
  flash : t.flash = s.flash
  scan : t.scan = s.scan
  formatNext : t.formatNext = s.formatNext
  nextPosition : t.writer.nextPosition = s.writer.nextPosition
  releaseMark : t.writer.releaseMark = s.writer.releaseMark
  result : t.port.result = s.port.result
  buffer : t.port.buffer = s.port.buffer
  portError : t.port.portError = s.port.portError
  returned : t.port.returned = s.port.returned
  selIgnored : t.port.selIgnored = s.port.selIgnored
  holdPin : t.port.holdPin = s.port.holdPin
  framer : t.line.framer = s.line.framer
  failures : t.line.failures = s.line.failures
  muted : t.line.muted = s.line.muted
  heldCursor : t.line.heldCursor = s.line.heldCursor

/-- The holdings table, the gap table and the excess list are as they were. -/
structure State.KeepsTables (s t : State) : Prop where
  holdings : t.tracker.holdings = s.tracker.holdings
  gaps : t.tracker.gaps = s.tracker.gaps
  excess : t.tracker.excess = s.tracker.excess

/-- What a frame that is handed on never changes: as State.Keeps, but for the Presence Unit, the
Submission Controller's queue and durable mark, and the framer. -/
structure State.Rests (s t : State) : Prop where
  pending : t.pending = s.pending
  mode : t.mode = s.mode
  enlistment : t.enlistment = s.enlistment
  nextSeq : t.submission.nextSeq = s.submission.nextSeq
  ticket : t.submission.ticket = s.submission.ticket
  kept : t.submission.kept = s.submission.kept
  flash : t.flash = s.flash
  scan : t.scan = s.scan
  formatNext : t.formatNext = s.formatNext
  nextPosition : t.writer.nextPosition = s.writer.nextPosition
  releaseMark : t.writer.releaseMark = s.writer.releaseMark
  result : t.port.result = s.port.result
  buffer : t.port.buffer = s.port.buffer
  portError : t.port.portError = s.port.portError
  returned : t.port.returned = s.port.returned
  selIgnored : t.port.selIgnored = s.port.selIgnored
  holdPin : t.port.holdPin = s.port.holdPin
  failures : t.line.failures = s.line.failures
  muted : t.line.muted = s.line.muted
  heldCursor : t.line.heldCursor = s.line.heldCursor

/-! ### The host port -/

/-- No selection is in progress and HOLD# is not asserted, so that a complete command is taken at its
release (R149). -/
structure State.PortReady (s : State) : Prop where
  selection : s.port.selection = none
  holdPin : s.port.holdPin = false

/-- UNENLISTED, JOINING or ACTIVE, the modes in which the commands for reading and for space are
taken (R152). -/
def Mode.serves (m : Mode) : Prop := m = .unenlisted ∨ m = .joining ∨ m = .active

/-- The state after a command that wrote the command result, and changed nothing else but what its
selection returned. -/
def State.replied (s : State) (returned : Sdo) (code : Code) (command : Byte) : State :=
  { s with port := { s.port with
      returned := returned
      selIgnored := false
      result := ⟨code, some command, none⟩ } }

/-- The state with a frame of this station begun on the line (R67), and nothing else changed. -/
def State.begun (s : State) (r : Request) (f : Frame) : State :=
  { s with line := { s.line with framer := .frame, transmitter := .arbitrating r f } }

/-! ### The array -/

/-- An IDLE array has no claim waiting but the erase claim, since each is served as it joins (R25). -/
def State.Served (s : State) : Prop := s.array.activity = .idle → s.array.demand = false

/-! ### The record space (R13, R15, 12.1) -/

/-- The fields of a body are in the ranges that its record's bytes can carry, and a DATA record's check
agrees with them (R13, R186, 12.1). -/
def JobBody.Storable : JobBody → Prop
  | .data origin tag seq payload check => origin ≤ 255 ∧ seq ≤ 0xFFFFFFFF ∧ 1 ≤ payload.length ∧
      payload.length ≤ 200 ∧
      check = recordCheck .data (natByte origin) tag (BitVec.ofNat 32 seq) payload
  | .hole origin first last => origin ≤ 255 ∧ first ≤ 0xFFFFFFFF ∧ last ≤ 0xFFFFFFFF
  | .release mark => mark ≤ 0xFFFFFFFF

/-- What the mount scan takes a record for that stands at a place (R15): its locator, the last seq that
it covers or the mark that it states, and its check. -/
def JobBody.scannedAs (body : JobBody) (p : Place) : Scanned where
  locator := body.locator p
  last := match body with
    | .data _ _ seq _ _ => seq
    | .hole _ _ last => last
    | .release mark => mark
  check := match body with
    | .data _ _ _ _ check => check
    | .hole origin first last =>
      recordCheck .hole (natByte origin) 0 (BitVec.ofNat 32 first) (natBytes last)
    | .release mark => recordCheck .release 0 0 0 (natBytes mark)

/-! ### Limits (R46, R75, R84, R99, R132, R141) -/

/-- The bounds of the queues and tables. -/
structure State.LimitsOk (s : State) : Prop where
  incoming : s.writer.incomingCount ≤ 15
  release : s.writer.jobs.countP (·.body.isRelease) ≤ 1
  submits : s.submission.queue.length ≤ 8
  gaps : s.tracker.gaps.length ≤ 32
  responders : s.repair.responders.length ≤ 4
  slots : s.repair.slots.length = 4
  failures : s.line.failures ≤ 16

/-- The notice queue and the lost-notice count (R167, R168). -/
structure State.NoticesOk (s : State) : Prop where
  length : s.port.notices.length ≤ 16
  arrivals : s.port.notices.countP Notice.isArrival ≤ 1
  lost : s.port.lost ≤ 255

/-! ### Tracking (R80, R84) -/

/-- Held-through, highest accepted and known high stand in their order, and no gap entry passes the
highest accepted of its origin (R80, R84), in a station whose enlistment passed the checks of
R156. -/
structure State.TrackingOk (s : State) : Prop where
  length : s.tracker.holdings.length = 16
  order : ∀ h ∈ s.tracker.holdings, h.through ≤ h.accepted ∧ h.accepted ≤ h.known
  gaps : ∀ r ∈ s.tracker.gaps, r.origin < 16 ∧ r.last ≤ (s.tracker.holding r.origin).accepted
  enlistment : ∀ e, s.enlistment = some e → e.station < e.n ∧ e.n ≤ 16

/-- The peer table has an entry for each station number, with a value for each origin (R121). -/
structure State.PeersOk (s : State) : Prop where
  length : s.presence.peers.length = 16
  reported : ∀ e ∈ s.presence.peers, e.reported.length = 16

/-! ### Modes (R171) -/

/-- FORMAT's progress is present only while FORMATTING (R178, R179). -/
def State.FormatOk (s : State) : Prop := s.formatNext.isSome = true → s.mode = .formatting

end Sys2Proof.Machine

namespace Sys2Proof

open Machine

/-! ### Commands told apart -/

/-- The host commands, each with the moment of its selection (R148). -/
def Instr.hostCommand : Instr → Option (HostCommand × Moment)
  | .status m => some (.status, m)
  | .result m => some (.result, m)
  | .readBuffer m => some (.readBuffer, m)
  | .nextNotice m => some (.nextNotice, m)
  | .readPosition _ m => some (.readPosition, m)
  | .readRecord _ _ m => some (.readRecord, m)
  | .submit _ _ m => some (.submit, m)
  | .release _ m => some (.release, m)
  | .enlist _ _ _ _ _ m => some (.enlist, m)
  | .format m => some (.format, m)
  | .quiet m => some (.quiet, m)
  | .wake m => some (.wake, m)
  | .lineResume m => some (.lineResume, m)
  | .reset _ m => some (.reset, m)
  | _ => none

/-- The same host command at another moment of its selection; other commands are left as they are. -/
def Instr.atMoment (m : Moment) : Instr → Instr
  | .status _ => .status m
  | .result _ => .result m
  | .readBuffer _ => .readBuffer m
  | .nextNotice _ => .nextNotice m
  | .readPosition position _ => .readPosition position m
  | .readRecord origin seq _ => .readRecord origin seq m
  | .submit tag payload _ => .submit tag payload m
  | .release position _ => .release position m
  | .enlist station n w rate p _ => .enlist station n w rate p m
  | .format _ => .format m
  | .quiet _ => .quiet m
  | .wake _ => .wake m
  | .lineResume _ => .lineResume m
  | .reset cut _ => .reset cut m
  | .unknownCode code _ => .unknownCode code m
  | i => i

/-- A command is taken at its release (R149). -/
def Moment.takes : Moment → Bool
  | .whole | .release => true
  | .select | .complete => false

/-- The mode changes that a command can make, by the table of R171 and R179. -/
def Instr.mayEnter : Instr → Mode → Mode → Bool
  | .stationReset _, _, .mounting => true
  | .reset _ m, .unenlisted, .mounting | .reset _ m, .joining, .mounting
  | .reset _ m, .active, .mounting => m.takes
  | .mountReadCompletion, .mounting, .unenlisted | .blankCheckCompletion, .mounting, .unenlisted => true
  | .enlist _ _ _ _ _ m, .unenlisted, .joining => m.takes
  | .format m, .unenlisted, .formatting => m.takes
  | .eraseCompletion _, .formatting, .unenlisted => true
  | .joiningEnd, .joining, .active => true
  | .quiet m, .joining, .quiet | .quiet m, .active, .quiet => m.takes
  | .wake m, .quiet, .joining => m.takes
  | _, _, _ => false

/-- The commands at which flash can change: the completions of programs and erases, and a station
reset that cuts one short (R18, R22). -/
def Instr.touchesFlash : Instr → Bool
  | .stationReset _ | .reset _ _ | .recordProgramCompletion _ | .headerProgramCompletion _
  | .eraseCompletion _ => true
  | _ => false

/-- The commands at which the release mark can fall: a station reset, the mount that follows it, and
FORMAT (R5, R52). -/
def Instr.lowersMark : Instr → Bool
  | .stationReset _ | .reset _ _ | .mountReadCompletion | .blankCheckCompletion | .format _ => true
  | _ => false

end Sys2Proof
end

