-- ==== Sys2Proof/Certificates/Slice0/Obligations.lean ====
section
/-! DEFINITION. The statements for the provers. -/

section

open Sys2Proof Sys2Proof.Machine

/-! ### The step and reset -/

/-- The command at the front of the queue is run on the state with the queue's rest; an empty queue
idles (log 1). -/
def Obligations.StepTakesFrontCommand : Prop :=
  (∀ (s : State) (c : Instr) (rest : List Instr), s.pending = c :: rest →
    Machine.step s = exec c { s with pending := rest }) ∧
  ∀ s : State, s.pending = [] → Machine.step s = .next s

/-- What a station reset leaves in the blocks (R22, R62, R79, R97, R114, R130, R147, R170, R172), with the
values from which STATUS reads 0 in MOUNTING (R172; the empty segment table, log 29), and that it changes
no byte of flash outside the segment of a header program or an erase in hand. That a record program cut
short changes no byte either, its torn record being held as a damage mark, is the model's choice (log 5),
as is what the segments excepted hold. -/
def Obligations.StationResetState : Prop :=
  ∀ (cut : CutShort) (s : State), ∃ t, exec (.stationReset cut) s = .next t ∧
    t.mode = .mounting ∧ t.enlistment = none ∧
    t.line = ⟨.off, .off, 0, false, 15⟩ ∧
    t.presence.peers = List.replicate 16 ⟨.unknown, false, List.replicate 16 0, false, false⟩ ∧
    t.presence.presenceTimer = false ∧ t.presence.request = false ∧
    t.presence.quieting = false ∧ t.presence.joiningTimer = false ∧
    t.submission.queue = [] ∧ t.submission.nextSeq = none ∧ t.submission.ticket = 0 ∧
    t.submission.durable = 0 ∧
    t.repair.slots = [none, none, none, none] ∧ t.repair.responders = [] ∧
    t.tracker.pending = [] ∧ t.writer.jobs = [] ∧ t.writer.place = none ∧
    t.writer.nextPosition = 1 ∧ t.writer.releaseMark = 0 ∧ t.segments.table = [] ∧
    t.segments.full = false ∧ t.segments.ownFloor = 0 ∧
    t.array = ⟨.idle, none, none, none, []⟩ ∧ t.formatNext = none ∧
    t.port.result = ⟨.ok, none, none⟩ ∧ t.port.slot = .idle ∧ t.port.buffer = [] ∧
    t.port.notices = [] ∧ t.port.lost = 0 ∧ t.port.portError = false ∧ t.port.selection = none ∧
    t.pending = s.pending ∧
    ∀ a, (∀ c, s.array.context = some c → segmentOf a ≠ c.segment) →
      (∀ k, s.array.activity = .program (.header k) → segmentOf a ≠ k) →
      t.flash.readByte a = s.flash.readByte a

/-- The RESET command (R166). -/
def Obligations.ResetCommand : Prop :=
  (∀ cut, decodeSelection cut [0xEE] = .reset cut .whole) ∧
  (∀ (cut : CutShort) (s : State), s.PortReady → s.port.selIgnored = false →
    (s.mode.serves → exec (.reset cut .whole) s = exec (.stationReset cut) s) ∧
    (s.mode = .mounting ∨ s.mode = .formatting →
      exec (.reset cut .whole) s = .next (s.replied .highImpedance .busy 0xEE)) ∧
    (s.mode = .quiet →
      exec (.reset cut .whole) s = .next { s with port := { s.port with returned := .highImpedance } })) ∧
  ∀ (cut : CutShort) (s : State), ∃ t, exec (.stationReset cut) s = .next t ∧ t.mode = .mounting

/-! ### The host port (chapter 9) -/

/-- The rows of R152's table that refuse a command or leave no trace of it. That STATUS is among those
of which QUIET leaves none is R152's word against R131's (log 42). -/
def Obligations.ModeRefusals : Prop :=
  ∀ (i : Instr) (c : HostCommand) (s : State), i.hostCommand = some (c, .whole) → s.PortReady →
    (s.mode = .mounting ∨ s.mode = .formatting → c ≠ .status →
      exec i s = .next (s.replied .highImpedance .busy c.code)) ∧
    (s.mode = .unenlisted → c = .quiet ∨ c = .lineResume ∨ c = .wake →
      exec i s = .next (s.replied (.drives [] []) .refusedMode c.code)) ∧
    (s.mode = .joining ∨ s.mode = .active → c = .enlist ∨ c = .format ∨ c = .wake →
      exec i s = .next (s.replied (.drives [] []) .refusedMode c.code)) ∧
    (s.mode = .quiet → c ≠ .wake →
      exec i s = .next { s with port := { s.port with returned := .highImpedance, selIgnored := false } })

/-- STATUS, RESULT and READ BUFFER where they are taken (R148, R151, R153, R155, R160): the response is
formed when the command is complete, the port-error flag is cleared at the release of STATUS, nothing
else changes; the bytes of RESULT and of the READ BUFFER header, and the result codes (12.4, R188). -/
def Obligations.ReportsReturned : Prop :=
  (∀ r : CommandResult, r.bytes = r.code.byte :: r.command.getD 0x00 ::
    match r.details with
      | some (ticket, seq) => ticket :: natBytes seq
      | none => [0, 0, 0, 0, 0]) ∧
  (∀ (slot : ReadSlot) (buffer : List Byte), bufferHeader slot buffer = (match slot with
      | .idle => [0, 0, 0, 0, 0, 0, 0, 0]
      | .pending (.position p) => [1, 1, 0] ++ natBytes p ++ [1]
      | .pending (.record o q) => [1, 2, natByte o] ++ natBytes q ++ [1]
      | .done (.position p) code => [2, 1, 0] ++ natBytes p ++ [code.byte]
      | .done (.record o q) code => [2, 2, natByte o] ++ natBytes q ++ [code.byte])
      ++ [natByte buffer.length]) ∧
  (Code.ok.byte = 0x00 ∧ Code.busy.byte = 0x02 ∧ Code.refusedMode.byte = 0x03 ∧
    Code.queueFull.byte = 0x04 ∧ Code.journalFull.byte = 0x05 ∧ Code.badArg.byte = 0x06 ∧
    Code.exhausted.byte = 0x07 ∧ Code.notFound.byte = 0x08 ∧ Code.hole.byte = 0x09 ∧
    Code.reclaimed.byte = 0x0A) ∧
  ∀ s : State, s.PortReady →
    (s.mode ≠ .quiet →
      exec (.status .whole) s = .next { s with port := { s.port with
        returned := .drives s.statusBytes []
        selIgnored := false
        portError := false } } ∧
      exec (.status .complete) { s with port := { s.port with selection := some .shifting } }
        = .next { s with port := { s.port with
          returned := .drives s.statusBytes []
          selection := some (.completed ⟨0x51, true, none, 0, false⟩) } } ∧
      ∀ c : Completed, c.code = 0x51 →
        exec (.status .release) { s with port := { s.port with selection := some (.completed c) } }
          = .next { s with port := { s.port with portError := false } }) ∧
    (s.mode.serves →
      exec (.result .whole) s = .next { s with port := { s.port with
        returned := .drives s.port.result.bytes []
        selIgnored := false } } ∧
      exec (.readBuffer .whole) s = .next { s with port := { s.port with
        returned := .drives (bufferHeader s.port.slot s.port.buffer) s.port.buffer
        selIgnored := false } })

/-- The layout of the STATUS report (R155, R188, 12.4). That its code field carries PENDING while the slot
is PENDING is the model's choice (log 50). -/
def Obligations.StatusLayout : Prop :=
  (Mode.mounting.byte = 0x11 ∧ Mode.unenlisted.byte = 0x12 ∧ Mode.formatting.byte = 0x13 ∧
    Mode.joining.byte = 0x14 ∧ Mode.active.byte = 0x15) ∧
  (Liveness.unknown.byte = 0x00 ∧ Liveness.present.byte = 0x01 ∧ Liveness.silent.byte = 0x02 ∧
    Liveness.absent.byte = 0x03) ∧
  (Rate.kbit125.byte = 0x01 ∧ Rate.kbit250.byte = 0x02 ∧ Rate.kbit500.byte = 0x03 ∧
    Rate.kbit1000.byte = 0x04) ∧
  ∀ s : State,
    s.flagsByte = (if s.line.muted then 0x01 else 0x00) ||| (if s.segments.full then 0x02 else 0x00)
      ||| (if s.port.portError then 0x04 else 0x00) ∧
    s.statusBytes.length = 35 + 2 * s.clusterSize ∧
    s.statusBytes.take 7 = s.mode.byte ::
      (match s.enlistment with
        | some e => [natByte e.station, natByte e.n, natByte e.w, e.rate.byte, natByte e.p]
        | none => [0, 0, 0, 0, 0]) ++ [s.flagsByte] ∧
    (s.statusBytes.drop 7).take 8 = (match s.port.slot with
      | .idle => [0, 0, 0, 0, 0, 0, 0, 0]
      | .pending (.position p) => [1, 1, 0] ++ natBytes p ++ [1]
      | .pending (.record o q) => [1, 2, natByte o] ++ natBytes q ++ [1]
      | .done (.position p) code => [2, 1, 0] ++ natBytes p ++ [code.byte]
      | .done (.record o q) code => [2, 2, natByte o] ++ natBytes q ++ [code.byte]) ∧
    s.statusBytes.drop 35 = (List.range s.clusterSize).flatMap (fun p =>
      if s.isOwn p then [s.mode.byte, 0x00]
      else [(s.presence.peer p).state.byte,
        match (s.presence.peer p).full, (s.presence.peer p).quiet with
        | false, false => 0x00
        | true, false => 0x01
        | false, true => 0x02
        | true, true => 0x03]) ∧
    (s.statusBytes.drop 15).take 3
      = [natByte s.port.notices.length, natByte s.port.lost, natByte s.submission.queue.length] ∧
    (s.statusBytes.drop 18).take 17
      = natBytes s.submission.durable ++ natBytes (s.writer.nextPosition - 1)
        ++ natBytes s.oldestPosition ++ natBytes s.writer.releaseMark
        ++ [natByte s.segments.erasedCount]

/-- NEXT NOTICE (R169), in one selection, at its completion and at its release after notices have come
and gone, with the bytes of its response (12.4, R188); ATTN# and a selection that is discarded; and a
notice that joins, one that a full queue discards, an ARRIVAL that finds one waiting (R167, R168). -/
def Obligations.NextNoticeTaken : Prop :=
  (∀ cut, decodeSelection cut [0x53] = .nextNotice .whole) ∧
  (∀ (lost : Nat) (head : Option Notice), noticeResponse lost head = natByte lost ::
    match head with
      | none => List.replicate 10 0x00
      | some (.durable ticket seq) => 0x01 :: ticket :: natBytes seq ++ List.replicate 4 0x00
      | some (.unconfirmed ticket seq) => 0x02 :: ticket :: natBytes seq ++ List.replicate 4 0x00
      | some (.hole origin first last) => 0x03 :: natByte origin :: natBytes first ++ natBytes last
      | some (.divergent origin seq sender) =>
        0x04 :: natByte origin :: natBytes seq ++ natByte sender :: List.replicate 3 0x00
      | some (.peer station state) =>
        0x05 :: natByte station :: state.byte :: List.replicate 7 0x00
      | some (.full entered) =>
        0x06 :: (if entered then 0x01 else 0x00) :: List.replicate 8 0x00
      | some (.media segment erase) =>
        0x07 :: natByte segment :: (if erase then 0x02 else 0x01) :: List.replicate 7 0x00
      | some .muted => 0x08 :: List.replicate 9 0x00
      | some (.arrival position) => 0x09 :: natBytes position ++ List.replicate 5 0x00) ∧
  (∀ s : State, s.attn = true ↔ s.port.notices ≠ []) ∧
  (∀ (s : State) (how : Discard), ∃ t, exec (.commandDiscarded how) s = .next t ∧
    t.port.notices = s.port.notices ∧ t.port.lost = s.port.lost) ∧
  (∀ (s : State) (c : Selection), s.port.holdPin = true → s.port.selection = some c →
    ∃ t, exec (.nextNotice .release) s = .next t ∧
      t.port.notices = s.port.notices ∧ t.port.lost = s.port.lost) ∧
  (∀ s : State, s.mode.serves → s.port.holdPin = false →
    (s.port.selection = none →
      exec (.nextNotice .whole) s = .next { s with port := { s.port with
        returned := .drives (noticeResponse s.port.lost s.port.notices.head?) []
        selIgnored := false
        lost := 0
        notices := s.port.notices.tail } }) ∧
    (s.port.selection = some .shifting →
      exec (.nextNotice .complete) s = .next { s with port := { s.port with
        returned := .drives (noticeResponse s.port.lost s.port.notices.head?) []
        selection := some (.completed ⟨0x53, true, s.port.notices.head?, 0, false⟩) } }) ∧
    ∀ shown discarded replaced,
      s.port.selection = some (.completed ⟨0x53, true, shown, discarded, replaced⟩) →
      exec (.nextNotice .release) s = .next { s with port := { s.port with
        selection := none
        lost := min 255 discarded
        notices := match shown with
          | none => s.port.notices
          | some n => if n.isArrival ∧ replaced = true then s.port.notices else s.port.notices.tail } }) ∧
  ∀ (p : Port) (n : Notice),
    (n.isArrival = false ∨ p.notices.any Notice.isArrival = false →
      (p.notices.length < 16 → (p.take n).notices = p.notices ++ [n] ∧ (p.take n).lost = p.lost) ∧
      (16 ≤ p.notices.length →
        (p.take n).notices = p.notices ∧ (p.take n).lost = min 255 (p.lost + 1))) ∧
    ∀ v, p.notices.any Notice.isArrival = true →
      (p.take (.arrival v)).notices
        = p.notices.map (fun m => if m.isArrival then .arrival v else m) ∧
      (p.take (.arrival v)).lost = p.lost

/-- A read that its lookup answers without flash, or that a PENDING slot turns away (R43, R154, R158,
R159). That R159's candidate is among the entries R43 has a lookup examine, so that a seq above every hole
high is answered NOT_FOUND at once, is the model's inference (log 40). -/
def Obligations.ReadsAnswered : Prop :=
  ∀ (s : State), s.PortReady → s.mode.serves →
    (∀ (position : Word) (code : Code), (∀ t, s.port.slot ≠ .pending t) →
      (position = 0 ∧ code = .badArg ∨
        position ≠ 0 ∧ s.writer.nextPosition ≤ position.toNat ∧ code = .notFound ∨
        position ≠ 0 ∧ position.toNat < s.writer.nextPosition ∧ position.toNat < s.oldestPosition ∧
          code = .reclaimed) →
      ∃ t, exec (.readPosition position .whole) s = .next t ∧
        t.port.slot = .done (.position position.toNat) code ∧
        State.Keeps { s with port := { s.port with returned := .drives [] [], selIgnored := false } } t ∧
        s.KeepsTables t) ∧
    (∀ (origin : Byte) (seq : Word) (code : Code), (∀ t, s.port.slot ≠ .pending t) →
      (15 < origin.toNat ∨ seq = 0) ∧ code = .badArg ∨
        origin.toNat ≤ 15 ∧ seq ≠ 0 ∧ s.segments.findData origin.toNat seq.toNat = none ∧
          (seq.toNat ≤ s.oldestFloor origin.toNat ∧ code = .reclaimed ∨
            s.oldestFloor origin.toNat < seq.toNat ∧
              (s.segments.findHole origin.toNat seq.toNat = none ∨
                ∀ e ∈ s.segments.inUse, ∀ h ∈ e.2.holes, h.origin = origin.toNat →
                  h.high < seq.toNat) ∧ code = .notFound) →
      ∃ t, exec (.readRecord origin seq .whole) s = .next t ∧
        t.port.slot = .done (.record origin.toNat seq.toNat) code ∧
        State.Keeps { s with port := { s.port with returned := .drives [] [], selIgnored := false } } t ∧
        s.KeepsTables t) ∧
    ∀ target, s.port.slot = .pending target →
      (∀ position : Word, ∃ t, exec (.readPosition position .whole) s = .next t ∧
        State.Keeps (s.replied (.drives [] []) .busy 0xB1) t ∧ s.KeepsTables t) ∧
      ∀ (origin : Byte) (seq : Word), ∃ t, exec (.readRecord origin seq .whole) s = .next t ∧
        State.Keeps (s.replied (.drives [] []) .busy 0xB2) t ∧ s.KeepsTables t

/-- A read that needs flash, while the array is not IDLE: the slot becomes PENDING and the claim names
the record that the segment table gives (R23, R32, R43, R158, R159). That R159's candidate is among the
entries R43 has a lookup examine is the model's inference (log 40). -/
def Obligations.ReadsClaimed : Prop :=
  ∀ (s : State), s.PortReady → s.mode.serves → s.array.activity ≠ .idle →
    (∀ t, s.port.slot ≠ .pending t) →
    (∀ (position : Word) (k : Nat) (l : Locator), position ≠ 0 →
      position.toNat < s.writer.nextPosition → s.oldestPosition ≤ position.toNat →
      s.segments.findPosition position.toNat = some (k, l) →
      ∃ t, exec (.readPosition position .whole) s = .next t ∧
        t.port.slot = .pending (.position position.toNat) ∧
        t.array.hostClaim = some ⟨k, l.page, l.offset, l.size, none⟩ ∧
        State.Keeps { s with port := { s.port with returned := .drives [] [], selIgnored := false } } t ∧
        s.KeepsTables t) ∧
    (∀ (origin : Byte) (seq : Word) (k : Nat) (l : Locator), origin.toNat ≤ 15 → seq ≠ 0 →
      s.segments.findData origin.toNat seq.toNat = some (k, l) →
      ∃ t, exec (.readRecord origin seq .whole) s = .next t ∧
        t.port.slot = .pending (.record origin.toNat seq.toNat) ∧
        t.array.hostClaim = some ⟨k, l.page, l.offset, l.size, none⟩ ∧
        State.Keeps { s with port := { s.port with returned := .drives [] [], selIgnored := false } } t ∧
        s.KeepsTables t) ∧
    ∀ (origin : Byte) (seq : Word) (k : Nat) (l : Locator), origin.toNat ≤ 15 → seq ≠ 0 →
      s.segments.findData origin.toNat seq.toNat = none →
      s.oldestFloor origin.toNat < seq.toNat →
      s.segments.findHole origin.toNat seq.toNat = some (k, l) →
      ∃ t, exec (.readRecord origin seq .whole) s = .next t ∧
        t.port.slot = .pending (.record origin.toNat seq.toNat) ∧
        t.array.hostClaim = some ⟨k, l.page, l.offset, l.size, some seq.toNat⟩ ∧
        State.Keeps { s with port := { s.port with returned := .drives [] [], selIgnored := false } } t ∧
        s.KeepsTables t

/-- A SUBMIT that every condition of R101 admits (R93, R102): its ticket and seq, its entry, its job,
the holdings of the own origin, and what stays as it was. -/
def Obligations.SubmitTaken : Prop :=
  ∀ (s : State) (e : Enlistment) (tag : Byte) (payload : List Byte) (next : Nat),
    s.PortReady → s.TrackingOk → s.enlistment = some e → s.mode = .active → s.line.muted = false →
    1 ≤ payload.length → payload.length ≤ 200 →
    s.submission.nextSeq = some next → next ≤ 0xFFFFFFFF → s.segments.full = false →
    s.submission.queue.length < 8 →
    (next = (s.tracker.holding e.station).accepted + 1 ∨
      (s.tracker.holding e.station).accepted + 1 < next ∧ s.tracker.gaps.length < 32) →
    ∃ t, exec (.submit tag payload .whole) s = .next t ∧
      t.port.result = ⟨.ok, some 0xA4, some (s.submission.ticket, next)⟩ ∧
      t.submission.nextSeq = some (next + 1) ∧ t.submission.ticket = s.submission.ticket + 1 ∧
      (⟨s.submission.ticket, next, tag, payload,
        recordCheck .data (natByte e.station) tag (BitVec.ofNat 32 next) payload,
        .committing, 0, false⟩ : Entry) ∈ t.submission.queue ∧
      (⟨.data e.station tag next payload
        (recordCheck .data (natByte e.station) tag (BitVec.ofNat 32 next) payload), .commit⟩ : Job)
          ∈ t.writer.jobs ∧
      t.tracker.holding e.station = { s.tracker.holding e.station with
        accepted := next, known := max (s.tracker.holding e.station).known next } ∧
      (∀ o, o ≠ e.station → t.tracker.holding o = s.tracker.holding o) ∧
      (next = (s.tracker.holding e.station).accepted + 1 → t.tracker.gaps = s.tracker.gaps) ∧
      ((s.tracker.holding e.station).accepted + 1 < next → t.tracker.gaps = insertRun
        ⟨e.station, (s.tracker.holding e.station).accepted + 1, next - 1⟩ s.tracker.gaps) ∧
      t.tracker.excess = s.tracker.excess ∧
      s.submission.durable ≤ t.submission.durable ∧ t.submission.kept = s.submission.kept ∧
      State.Keeps { s with
        submission := t.submission
        port := { s.port with
          returned := .drives [] []
          selIgnored := false
          result := ⟨.ok, some 0xA4, some (s.submission.ticket, next)⟩ } } t

/-- A SUBMIT that a condition of R101 refuses: the code of the first that fails, and nothing else
changed. -/
def Obligations.SubmitRefused : Prop :=
  ∀ (s : State) (tag : Byte) (payload : List Byte), s.PortReady → s.mode.serves →
    (s.mode ≠ .active ∨ s.line.muted = true →
      exec (.submit tag payload .whole) s = .next (s.replied (.drives [] []) .refusedMode 0xA4)) ∧
    (s.mode = .active → s.line.muted = false →
      (payload.length = 0 ∨ 200 < payload.length →
        exec (.submit tag payload .whole) s = .next (s.replied (.drives [] []) .badArg 0xA4)) ∧
      (1 ≤ payload.length → payload.length ≤ 200 → ∀ next, s.submission.nextSeq = some next →
        (0xFFFFFFFF < next →
          exec (.submit tag payload .whole) s = .next (s.replied (.drives [] []) .exhausted 0xA4)) ∧
        (next ≤ 0xFFFFFFFF →
          (s.segments.full = true →
            exec (.submit tag payload .whole) s = .next (s.replied (.drives [] []) .journalFull 0xA4)) ∧
          (s.segments.full = false →
            (8 ≤ s.submission.queue.length →
              exec (.submit tag payload .whole) s = .next (s.replied (.drives [] []) .queueFull 0xA4)) ∧
            (s.submission.queue.length < 8 →
              (s.tracker.holding s.ownNumber).accepted + 1 < next → 32 ≤ s.tracker.gaps.length →
              exec (.submit tag payload .whole) s = .next (s.replied (.drives [] []) .queueFull 0xA4))))))

/-- The RELEASE command (R161, R52, R47). While the head is a RELEASE job being programmed and no other
waits, none is queued (the model's choice between two sentences of R47, log 18). -/
def Obligations.ReleaseCommand : Prop :=
  (∀ cut a b c d, decodeSelection cut [0xA6, a, b, c, d] = .release (a ++ b ++ c ++ d) .whole) ∧
  ∀ (s : State) (position : Word), s.PortReady → s.mode.serves →
    (s.writer.nextPosition ≤ position.toNat →
      exec (.release position .whole) s = .next (s.replied (.drives [] []) .badArg 0xA6)) ∧
    (position.toNat < s.writer.nextPosition → position.toNat ≤ s.writer.releaseMark →
      exec (.release position .whole) s = .next (s.replied (.drives [] []) .ok 0xA6)) ∧
    (position.toNat < s.writer.nextPosition → s.writer.releaseMark < position.toNat →
      ∃ t, exec (.release position .whole) s = .next t ∧
        t.port.result = ⟨.ok, some 0xA6, none⟩ ∧ t.writer.releaseMark = position.toNat ∧
        (s.array.recordInProgress = false ∨ s.writer.jobs.any (·.body.isRelease) = false ∨
            s.writer.jobs.tail.any (·.body.isRelease) = true →
          ∃ j ∈ t.writer.jobs, j.body = .release position.toNat) ∧
        (s.array.recordInProgress = true → s.writer.jobs.head?.any (·.body.isRelease) = true →
          s.writer.jobs.tail.any (·.body.isRelease) = false →
          t.writer.jobs.countP (·.body.isRelease) = s.writer.jobs.countP (·.body.isRelease)) ∧
        State.Keeps { s.replied (.drives [] []) .ok 0xA6 with
          writer := { s.writer with releaseMark := position.toNat } } t ∧ s.KeepsTables t)

/-- ENLIST: the arguments that R156 refuses, and what a taken one sets in the blocks (R79, R98, R130,
R176, R180, R181). The own reclaimed floor becomes the oldest floor of the own origin (R58, R180), which
a reclaim start in the same event can raise. -/
def Obligations.EnlistCommand : Prop :=
  ∀ (s : State) (station n w rate p : Byte), s.PortReady → s.mode = .unenlisted →
    (¬ (2 ≤ n.toNat ∧ n.toNat ≤ 16) ∨ n.toNat ≤ station.toNat ∨ n.toNat ≤ w.toNat ∨
        ¬ (1 ≤ rate.toNat ∧ rate.toNat ≤ 4) ∨ p = 0 ∨
        rate = 0x01 ∧ p.toNat < 8 ∨ rate = 0x02 ∧ p.toNat < 4 ∨ rate = 0x03 ∧ p.toNat < 2 →
      exec (.enlist station n w rate p .whole) s = .next (s.replied (.drives [] []) .badArg 0xA1)) ∧
    ∀ r, 2 ≤ n.toNat → n.toNat ≤ 16 → station.toNat < n.toNat → w.toNat < n.toNat →
      (rate = 0x01 ∧ r = .kbit125 ∧ 8 ≤ p.toNat ∨ rate = 0x02 ∧ r = .kbit250 ∧ 4 ≤ p.toNat ∨
        rate = 0x03 ∧ r = .kbit500 ∧ 2 ≤ p.toNat ∨ rate = 0x04 ∧ r = .kbit1000 ∧ 1 ≤ p.toNat) →
      s.PeersOk → s.TrackingOk →
      ∃ t, exec (.enlist station n w rate p .whole) s = .next t ∧
        t.mode = .joining ∧
        t.enlistment = some ⟨station.toNat, n.toNat, w.toNat, r, p.toNat⟩ ∧
        t.port.result = ⟨.ok, some 0xA1, none⟩ ∧
        t.line.framer = .hunt ∧ t.line.transmitter = .idle ∧
        s.oldestFloor station.toNat ≤ t.segments.ownFloor ∧
        (s.array.context ≠ none ∨ s.segments.firstDirty ≠ none →
          t.segments.ownFloor = s.oldestFloor station.toNat) ∧
        t.line.failures = s.line.failures ∧ t.line.muted = s.line.muted ∧
        t.line.heldCursor = s.line.heldCursor ∧
        (∀ k < 16, t.presence.peer k = ⟨.unknown, decide (k < n.toNat ∧ k ≠ station.toNat),
          List.replicate 16 0, false, false⟩) ∧
        t.presence.request = true ∧ t.presence.presenceTimer = false ∧
        t.presence.joiningTimer = true ∧
        t.presence.quieting = s.presence.quieting ∧
        t.submission = { s.submission with durable := s.submission.kept.getD station.toNat 0 } ∧
        (∀ o < n.toNat, t.tracker.holding o = { s.tracker.holding o with
          known := (s.tracker.holding o).accepted, due := false }) ∧
        (∀ o, n.toNat ≤ o → t.tracker.holding o = ⟨0, 0, 0, false⟩) ∧
        t.tracker.gaps = s.tracker.gaps.filter (fun r => decide (r.origin < n.toNat)) ∧
        t.tracker.excess = s.tracker.excess.filter (fun r => decide (r.origin < n.toNat)) ∧
        (∀ x ∈ s.tracker.pending, x ∈ t.tracker.pending) ∧
        (s.array.context ≠ none ∨ s.segments.firstDirty ≠ none →
          t.tracker.index = s.tracker.index.filter (fun e => decide (e.origin < n.toNat))) ∧
        t.flash = s.flash ∧ t.writer.nextPosition = s.writer.nextPosition ∧
        t.writer.releaseMark = s.writer.releaseMark ∧ t.port.buffer = s.port.buffer

/-- FORMAT: refused while a job waits or the read slot is PENDING (R165), and what a taken one clears in
the blocks and the erase it requests first, the lowest-numbered segment's that is not RETIRED, or the one
in hand that it waits for (R178, R179). -/
def Obligations.FormatCommand : Prop :=
  ∀ (s : State), s.PortReady → s.mode = .unenlisted →
    (s.writer.jobs ≠ [] ∨ (∃ t, s.port.slot = .pending t) →
      exec (.format .whole) s = .next (s.replied (.drives [] []) .busy 0xE7)) ∧
    (s.writer.jobs = [] → (∀ t, s.port.slot ≠ .pending t) →
      ∃ t, exec (.format .whole) s = .next t ∧
        t.port.result = ⟨.ok, some 0xE7, none⟩ ∧
        t.mode = (if s.array.context = none ∧ s.segments.table.all (·.state.isRetired) = true
          then .unenlisted else .formatting) ∧
        (∀ o, t.tracker.holding o = ⟨0, 0, 0, false⟩) ∧ t.tracker.gaps = [] ∧ t.tracker.excess = [] ∧
        t.tracker.pending = [] ∧ t.tracker.index = [] ∧
        (s.array.demand = false → s.array.context ≠ none →
          t.formatNext = some 0 ∧ t.segments.table = s.segments.table) ∧
        (s.array.demand = false → s.array.context = none → ∀ k e,
          s.segments.table[k]? = some e → e.state ≠ .retired →
          (∀ i x, i < k → s.segments.table[i]? = some x → x.state = .retired) →
          t.formatNext = some (k + 1) ∧
          t.segments.table = s.segments.table.set k { e with state := .erasing } ∧
          (∃ c, t.array.context = some c ∧ c.segment = k) ∧
          (s.array.activity = .idle → t.array.activity = .erase)) ∧
        t.writer.nextPosition = 1 ∧ t.writer.releaseMark = 0 ∧ t.segments.ownFloor = 0 ∧
        t.submission = { s.submission with
          durable := 0, kept := List.replicate 16 0, ticket := 0 } ∧
        t.flash = s.flash ∧ t.presence = s.presence ∧ t.enlistment = s.enlistment ∧
        t.line.framer = s.line.framer)

/-- QUIET: refused while one of its three conditions fails, and what a taken one leaves (R78, R120,
R131, R146, R162, R183); a frame on the line stays there, its completion finding nothing of what was
withdrawn. -/
def Obligations.QuietCommand : Prop :=
  ∀ (s : State), s.PortReady → s.mode = .joining ∨ s.mode = .active →
    (s.submission.queue ≠ [] ∨ s.writer.jobs ≠ [] ∨ s.array.context ≠ none →
      exec (.quiet .whole) s = .next (s.replied (.drives [] []) .busy 0xC5)) ∧
    (s.submission.queue = [] → s.writer.jobs = [] → s.array.context = none →
      ∃ t, exec (.quiet .whole) s = .next t ∧
        t.mode = .quiet ∧ t.port.result = ⟨.ok, some 0xC5, none⟩ ∧
        t.repair.slots = [none, none, none, none] ∧ t.repair.responders = [] ∧
        t.array.fetchClaims = [] ∧ t.array.hostClaim = s.array.hostClaim ∧
        t.presence.peers = s.presence.peers.map (fun e => { e with timer := false }) ∧
        t.presence.presenceTimer = false ∧ t.presence.joiningTimer = false ∧
        t.presence.request = false ∧ t.presence.quieting = !s.line.muted ∧
        t.line.framer = (if s.line.muted then .off else s.line.framer) ∧
        (s.line.muted = true → t.line.transmitter = .off) ∧
        (s.line.muted = false → t.line.transmitter = s.line.transmitter.mapRequest (fun r => match r with
          | .seek i _ => .seek i false
          | .refill q o _ => .refill q o false
          | .presence _ => .presence false
          | r => r)) ∧
        t.line.failures = s.line.failures ∧ t.line.muted = s.line.muted ∧
        t.line.heldCursor = s.line.heldCursor ∧
        t.tracker = s.tracker ∧ t.writer = s.writer ∧ t.segments = s.segments ∧
        t.submission = s.submission ∧ t.flash = s.flash ∧ t.enlistment = s.enlistment ∧
        t.port.notices = s.port.notices ∧ t.port.slot = s.port.slot)

/-- WAKE (R163): its code, the modes that refuse it, the command result through QUIET; and taken in
QUIET, the mode becomes JOINING, the peer table is forgotten and the timers of JOINING start; a line
interface that is off turns on, one that is on stays on (R78, R131, R184). -/
def Obligations.WakeCommand : Prop :=
  (∀ cut, decodeSelection cut [0xC6] = .wake .whole) ∧
  (∀ (s : State), s.PortReady →
    (s.mode.serves → exec (.wake .whole) s = .next (s.replied (.drives [] []) .refusedMode 0xC6)) ∧
    (s.mode = .mounting ∨ s.mode = .formatting →
      exec (.wake .whole) s = .next (s.replied .highImpedance .busy 0xC6))) ∧
  (∀ (s : State) (i : Instr), s.mode = .quiet →
    ((∃ c m, i.hostCommand = some (c, m) ∧ c ≠ .wake) ∨ (∃ code m, i = .unknownCode code m) ∨
      (∃ how, i = .commandDiscarded how)) →
    ∃ t, exec i s = .next t ∧ t.port.result = s.port.result) ∧
  ∀ (s : State), s.PortReady → s.mode = .quiet → s.PeersOk →
    ∃ t, exec (.wake .whole) s = .next t ∧
      t.mode = .joining ∧ t.port.result = ⟨.ok, some 0xC6, none⟩ ∧
      t.presence.request = true ∧ t.presence.presenceTimer = false ∧
      t.presence.joiningTimer = true ∧ t.presence.quieting = false ∧
      (∀ k < 16, t.presence.peer k = ⟨.unknown, s.isPeer k, List.replicate 16 0, false, false⟩) ∧
      t.line.framer = (if s.line.framer = .off then .hunt else s.line.framer) ∧
      (s.array.fetchClaims = [] → t.line.transmitter =
        if s.line.framer = .off then .idle else s.line.transmitter.mapRequest (fun r => match r with
          | .quieting _ => .quieting false
          | r => r)) ∧
      t.line.failures = s.line.failures ∧ t.line.muted = s.line.muted ∧
      t.line.heldCursor = s.line.heldCursor ∧
      s.KeepsTables t ∧
      t.submission.nextSeq = s.submission.nextSeq ∧ t.submission.ticket = s.submission.ticket ∧
      s.submission.durable ≤ t.submission.durable ∧ t.submission.kept = s.submission.kept ∧
      t.flash = s.flash ∧ t.writer.nextPosition = s.writer.nextPosition ∧
      t.writer.releaseMark = s.writer.releaseMark ∧ t.enlistment = s.enlistment

/-- LINE RESUME (R164, R76). -/
def Obligations.LineResumeCommand : Prop :=
  (∀ cut, decodeSelection cut [0xC9] = .lineResume .whole) ∧
  ∀ (s : State), s.PortReady →
    (s.mode = .joining ∨ s.mode = .active →
      exec (.lineResume .whole) s = .next { s.replied (.drives [] []) .ok 0xC9 with
        line := { s.line with muted := false, failures := 0 } }) ∧
    (s.mode = .unenlisted →
      exec (.lineResume .whole) s = .next (s.replied (.drives [] []) .refusedMode 0xC9)) ∧
    (s.mode = .quiet → ∃ t, exec (.lineResume .whole) s = .next t ∧ t.line = s.line)

/-- The three moments of a selection, which together have the effect of the whole, with what SDO carries
at each (R148, R149); a code that names no command, the releases that discard, a reset during a
selection, and HOLD# (R149 to R152). That the result of an unknown code holds that code is the model's
choice (log 26), as is the level of HOLD# (log 10), and that a release with no bit shifted does nothing
while HOLD# is asserted too (log 51). -/
def Obligations.PortEvents : Prop :=
  (∀ (i : Instr) (c : HostCommand) (s : State), i.hostCommand = some (c, .whole) → s.PortReady →
    let t := { s with port := { s.port with selection := some .shifting, selIgnored := false } }
    let u := { t with port := { t.port with
      selection := some (.completed (s.completed c)), returned := s.drives c } }
    exec (i.atMoment .select) s = .next t ∧ t.port.sdo = .highImpedance ∧
    exec (i.atMoment .complete) t = .next u ∧ u.port.sdo = s.drives c ∧
    exec (i.atMoment .release) u = exec i s) ∧
  (∀ (s : State) (selection : Selection) (cut : CutShort), s.port.selection = some selection →
    ∃ t, exec (.stationReset cut) s = .next t ∧ t.port.selection = none ∧ t.port.selIgnored = true) ∧
  (∀ (s : State) (code : Byte), s.PortReady → HostCommand.ofCode code = none →
    (s.mode = .mounting ∨ s.mode = .formatting →
      exec (.unknownCode code .whole) s = .next (s.replied .highImpedance .busy code)) ∧
    (s.mode.serves →
      exec (.unknownCode code .whole) s = .next (s.replied (.drives [] []) .badArg code)) ∧
    (s.mode = .quiet → exec (.unknownCode code .whole) s
      = .next { s with port := { s.port with returned := .highImpedance, selIgnored := false } })) ∧
  (∀ (s : State), s.port.selIgnored = false →
    exec (.commandDiscarded .noBit) s = .next { s with port := { s.port with selection := none } } ∧
    (s.mode ≠ .quiet →
      exec (.commandDiscarded .offBoundary) s
        = .next { s with port := { s.port with selection := none, portError := true } } ∧
      exec (.commandDiscarded .duringHold) s
        = .next { s with port := { s.port with selection := none, portError := true } } ∧
      ∀ code,
        (s.port.holdPin = true → exec (.commandDiscarded (.incomplete code)) s
          = .next { s with port := { s.port with selection := none, portError := true } }) ∧
        (s.port.holdPin = false → (HostCommand.ofCode code).isSome = true →
          exec (.commandDiscarded (.incomplete code)) s = .next { s with port := { s.port with
            selection := none, result := ⟨.badArg, some code, none⟩ } })) ∧
    (s.mode = .quiet → ∀ how, exec (.commandDiscarded how) s
      = .next { s with port := { s.port with selection := none } })) ∧
  (∀ (s : State) (how : Discard), s.port.selIgnored = true →
    exec (.commandDiscarded how) s
      = .next { s with port := { s.port with selection := none, selIgnored := false } }) ∧
  ∀ (s : State) (asserted : Bool), ∃ t,
    exec (.hold asserted) s = .next t ∧ t = { s with port := { s.port with holdPin := asserted } } ∧
    (asserted = true → t.port.sdo = .highImpedance)

/-! ### Frames received (chapters 4, 5, 7 and 8) -/

/-- A valid HELD frame (R65, R74, R92, R123, R124, R127): the framer, the sender's entry, the known high
of its origin, and what stays. -/
def Obligations.HeldFrameTaken : Prop :=
  ∀ (s : State) (sender : StationNumber) (origin : Byte) (value : Word),
    s.PeersOk → s.TrackingOk → s.follows = true → s.mode.onLine = true →
    (Machine.Frame.held sender origin value).fieldsGood s.clusterSize = true →
    ∃ t, exec (.heldFrame sender origin value) s = .next t ∧ t.line.framer = .gap ∧
      (s.isPeer sender.toNat = true →
        (t.presence.peer sender.toNat).state = .present ∧
        (t.presence.peer sender.toNat).timer = true ∧
        (t.presence.peer sender.toNat).quiet = false ∧
        ((s.presence.peer sender.toNat).state = .unknown ∨
            (s.presence.peer sender.toNat).state = .absent →
          (t.presence.peer sender.toNat).full = false ∧
          (t.presence.peer sender.toNat).reported
            = (List.replicate 16 0).set origin.toNat value.toNat) ∧
        ((s.presence.peer sender.toNat).state = .present ∨
            (s.presence.peer sender.toNat).state = .silent →
          (t.presence.peer sender.toNat).full = (s.presence.peer sender.toNat).full ∧
          (t.presence.peer sender.toNat).reported
            = (s.presence.peer sender.toNat).reported.modify origin.toNat (max value.toNat))) ∧
      (∀ p, p ≠ sender.toNat ∨ s.isPeer sender.toNat = false →
        t.presence.peer p = s.presence.peer p) ∧
      t.tracker.holding origin.toNat = { s.tracker.holding origin.toNat with
        known := max (s.tracker.holding origin.toNat).known (s.learnable origin.toNat value.toNat) } ∧
      (∀ o, o ≠ origin.toNat → t.tracker.holding o = s.tracker.holding o) ∧
      t.tracker.gaps = s.tracker.gaps ∧ t.tracker.excess = s.tracker.excess ∧ s.Rests t

/-- A valid PRESENCE frame, QUIETING or not (R92, R123 to R125, R127). -/
def Obligations.PresenceFrameTaken : Prop :=
  ∀ (s : State) (sender : StationNumber) (full : Bool) (vector : List Word) (i : Instr)
    (mode : PresenceMode),
    (i = .presenceFrame sender true full vector ∧ mode = .joining ∨
      i = .presenceFrame sender false full vector ∧ mode = .active ∨
      i = .quietingPresenceFrame sender full vector ∧ mode = .quieting) →
    s.PeersOk → s.TrackingOk → s.follows = true → s.mode.onLine = true →
    (Machine.Frame.presence sender mode full vector).fieldsGood s.clusterSize = true →
    ∃ t, exec i s = .next t ∧ t.line.framer = .gap ∧
      (s.isPeer sender.toNat = true →
        (t.presence.peer sender.toNat).state
          = (if mode = .quieting then .silent else .present) ∧
        (t.presence.peer sender.toNat).timer = true ∧
        (t.presence.peer sender.toNat).full = full ∧
        (t.presence.peer sender.toNat).quiet = decide (mode = .quieting) ∧
        ((s.presence.peer sender.toNat).state = .unknown ∨
            (s.presence.peer sender.toNat).state = .absent →
          ∀ o < 16, (t.presence.peer sender.toNat).reported.getD o 0
            = (vector.map BitVec.toNat).getD o 0) ∧
        ((s.presence.peer sender.toNat).state = .present ∨
            (s.presence.peer sender.toNat).state = .silent →
          ∀ o < 16, (t.presence.peer sender.toNat).reported.getD o 0
            = max ((vector.map BitVec.toNat).getD o 0)
              ((s.presence.peer sender.toNat).reported.getD o 0))) ∧
      (∀ p, p ≠ sender.toNat ∨ s.isPeer sender.toNat = false →
        t.presence.peer p = s.presence.peer p) ∧
      (∀ o < s.clusterSize, t.tracker.holding o = { s.tracker.holding o with
        known := max (s.tracker.holding o).known
          (s.learnable o ((vector.map BitVec.toNat).getD o 0)) }) ∧
      (∀ o, s.clusterSize ≤ o → t.tracker.holding o = s.tracker.holding o) ∧
      t.tracker.gaps = s.tracker.gaps ∧ t.tracker.excess = s.tracker.excess ∧ s.Rests t

/-- A valid APPEND of another station whose seq this station lacks, under open admission, with room in
the gap table for what it leaves open: it is accepted (R88 to R90). -/
def Obligations.AppendFrameAccepted : Prop :=
  ∀ (s : State) (sender : StationNumber) (seq : Word) (tag : Byte) (payload : List Byte)
    (check : Word) (gaps : List Run),
    s.PeersOk → s.TrackingOk → s.follows = true → s.mode.onLine = true →
    (Machine.Frame.append sender seq tag payload check).fieldsGood s.clusterSize = true →
    s.isOwn sender.toNat = false → s.admissionOpen = true →
    s.tracker.checkOf sender.toNat seq.toNat = none →
    s.tracker.heldOtherwise sender.toNat seq.toNat = false →
    s.tracker.gapsAfter sender.toNat seq.toNat = some gaps →
    ∃ t, exec (.appendFrame sender seq tag payload check) s = .next t ∧ t.line.framer = .gap ∧
      (⟨.data sender.toNat tag seq.toNat payload check, .append⟩ : Job) ∈ t.writer.jobs ∧
      (.data sender.toNat seq.toNat check false : Machine.Pending) ∈ t.tracker.pending ∧
      t.tracker.holding sender.toNat = { s.tracker.holding sender.toNat with
        accepted := max (s.tracker.holding sender.toNat).accepted seq.toNat
        known := max (s.tracker.holding sender.toNat).known seq.toNat } ∧
      (∀ o, o ≠ sender.toNat → t.tracker.holding o = s.tracker.holding o) ∧
      t.tracker.gaps = gaps ∧
      (s.isPeer sender.toNat = true → (t.presence.peer sender.toNat).state = .present) ∧
      (∀ p, p ≠ sender.toNat → t.presence.peer p = s.presence.peer p) ∧ s.Rests t

/-- The gap table entry changes of an acceptance (R88, R89): none for the seq above highest accepted;
a new entry below a later one; an entry removed, trimmed or split by a fill. A fill that splits no entry
is always admitted, one that splits an entry exactly while the table has fewer than 32. -/
def Obligations.GapsAfterAcceptance : Prop :=
  ∀ (t : Tracker) (o seq : Nat), t.gaps.length ≤ 32 → seq ≠ 0 →
    (seq = (t.holding o).accepted + 1 → t.gapsAfter o seq = some t.gaps) ∧
    ((t.holding o).accepted + 1 < seq → t.gaps.length < 32 →
      ∃ gaps, t.gapsAfter o seq = some gaps ∧
        gaps.Perm (⟨o, (t.holding o).accepted + 1, seq - 1⟩ :: t.gaps)) ∧
    ((t.holding o).accepted + 1 < seq → t.gaps.length = 32 → t.gapsAfter o seq = none) ∧
    (seq ≤ (t.holding o).accepted → ∀ gaps, t.gapsAfter o seq = some gaps →
      ∀ p x, gaps.any (·.contains p x) = true ↔
        t.gaps.any (·.contains p x) = true ∧ ¬ (p = o ∧ x = seq)) ∧
    (seq ≤ (t.holding o).accepted →
      (∀ r ∈ t.gaps, r.origin = o → ¬ (r.first < seq ∧ seq < r.last)) →
      ∃ gaps, t.gapsAfter o seq = some gaps) ∧
    ∀ (before after : List Run) (r : Run), t.gaps = before ++ r :: after →
      seq ≤ (t.holding o).accepted → r.origin = o → r.first < seq → seq < r.last →
      (∀ x ∈ before ++ after, x.contains o seq = false) →
      (t.gaps.length < 32 → t.gapsAfter o seq
        = some (before ++ [⟨o, r.first, seq - 1⟩, ⟨o, seq + 1, r.last⟩] ++ after)) ∧
      (t.gaps.length = 32 → t.gapsAfter o seq = none)

/-- The other fates of an arriving record (R86 to R88, R92): a clash of numbers, a duplicate, a
divergent copy, an own seq not yet given, a seq held without a check, closed admission: none queues a
job, and only those beside the clash learn the seq. A DIVERGENT notice is raised once per entry; that a
seq without one raises it each time is the model's choice (log 24). -/
def Obligations.ArrivalDropped : Prop :=
  (∀ (s : State) (a : Arrival),
    (a.refill = false → s.isOwn a.sender = true → s.arrive a
      = (s.markDivergent a.origin a.seq a.sender, false)) ∧
    (a.refill = true ∨ s.isOwn a.sender = false →
      (s.isOwn a.origin = true → s.mode = .active →
        ∀ next, s.submission.nextSeq = some next → next ≤ a.seq →
        s.arrive a = ((s.learn a.origin a.seq).raise .streamTracker
          (.divergent a.origin a.seq a.sender), false)) ∧
      (s.isOwn a.origin = false ∨ s.mode ≠ .active →
        (s.tracker.checkOf a.origin a.seq = some a.check →
          s.arrive a = (s.learn a.origin a.seq, false)) ∧
        (∀ check, s.tracker.checkOf a.origin a.seq = some check → check ≠ a.check →
          s.arrive a
            = ((s.learn a.origin a.seq).markDivergent a.origin a.seq a.sender, false)) ∧
        (s.tracker.checkOf a.origin a.seq = none →
          s.tracker.heldOtherwise a.origin a.seq = true ∨ s.admissionOpen = false →
          s.arrive a = (s.learn a.origin a.seq, false))))) ∧
  ∀ (s : State) (o seq sender : Nat),
    (s.tracker.markOf o seq = some false →
      (s.markDivergent o seq sender).raised
        = s.raised ++ [(.streamTracker, .divergent o seq sender)] ∧
      (s.markDivergent o seq sender).tracker.markOf o seq = some true) ∧
    (s.tracker.markOf o seq = some true → s.markDivergent o seq sender = s) ∧
    (s.tracker.markOf o seq = none →
      s.markDivergent o seq sender = s.raise .streamTracker (.divergent o seq sender))

/-- A valid REFILL COPY (R90, R136, R145): accepted when the seq is lacked, admission is open and the
gap table has room, whoever asked for it, and the slots of its origin narrow, or leave use and may be
filled anew; and its seq leaves every responder list of its origin. -/
def Obligations.RefillCopyTaken : Prop :=
  ∀ (s : State) (sender : StationNumber) (requester origin : Byte) (seq : Word) (tag : Byte)
    (payload : List Byte) (check : Word),
    s.PeersOk → s.TrackingOk → s.follows = true → s.mode.onLine = true →
    (Machine.Frame.copy sender requester origin seq tag payload check).fieldsGood s.clusterSize = true →
    ∃ t, exec (.refillCopyFrame sender requester origin seq tag payload check) s = .next t ∧
      t.line.framer = .gap ∧
      (s.isOwn origin.toNat = false → s.admissionOpen = true →
        s.tracker.checkOf origin.toNat seq.toNat = none →
        s.tracker.heldOtherwise origin.toNat seq.toNat = false →
        ∀ gaps, s.tracker.gapsAfter origin.toNat seq.toNat = some gaps →
          (⟨.data origin.toNat tag seq.toNat payload check, .refill⟩ : Job) ∈ t.writer.jobs ∧
          (t.tracker.holding origin.toNat).accepted
            = max (s.tracker.holding origin.toNat).accepted seq.toNat ∧
          t.tracker.gaps = gaps ∧
          ∀ i < 4, ∀ sl, s.repair.slots[i]? = some (some sl) →
            (sl.origin ≠ origin.toNat → t.repair.slots[i]? = some (some sl)) ∧
            (sl.origin = origin.toNat →
              (∀ nl, t.tracker.narrowed sl = some nl → t.repair.slots[i]? = some (some nl)) ∧
              (t.tracker.narrowed sl = none → ∀ x, t.repair.slots[i]? = some (some x) →
                x.state = .asking false ∧ x.attempts = 0))) ∧
      (t.tracker.holding origin.toNat).through = (s.tracker.holding origin.toNat).through ∧
      (∀ o, o ≠ origin.toNat → t.tracker.holding o = s.tracker.holding o) ∧
      (∀ e ∈ t.repair.responders, e.origin = origin.toNat → seq.toNat ∉ e.list) ∧
      (∀ p, p ≠ sender.toNat → t.presence.peer p = s.presence.peer p) ∧ s.Rests t

/-- A valid REFILL GONE of another station's stream (R92, R140, R145): its range leaves every responder
list, known high is raised to its last, and a range that is wholly in the tail gap becomes a HOLE job
when admission is open and the gap table has room. That known high rises before the range is offered is
the model's choice (log 17). -/
def Obligations.RefillGoneTaken : Prop :=
  ∀ (s : State) (sender : StationNumber) (requester origin : Byte) (first last : Word),
    s.PeersOk → s.TrackingOk → s.follows = true → s.mode.onLine = true →
    (Machine.Frame.gone sender requester origin first last).fieldsGood s.clusterSize = true →
    s.isOwn origin.toNat = false →
    ∃ t, exec (.refillGoneFrame sender requester origin first last) s = .next t ∧
      t.line.framer = .gap ∧
      (t.tracker.holding origin.toNat).known
        = max (s.tracker.holding origin.toNat).known last.toNat ∧
      (t.tracker.holding origin.toNat).through = (s.tracker.holding origin.toNat).through ∧
      (∀ o, o ≠ origin.toNat → t.tracker.holding o = s.tracker.holding o) ∧
      (∀ e ∈ t.repair.responders, e.origin = origin.toNat → ∀ seq ∈ e.list,
        ¬ (first.toNat ≤ seq ∧ seq ≤ last.toNat)) ∧
      ((s.tracker.holding origin.toNat).accepted < first.toNat → s.admissionOpen = true →
        s.tracker.gaps.length < 32 →
        (⟨.hole origin.toNat first.toNat last.toNat, .declared⟩ : Job) ∈ t.writer.jobs ∧
        (t.tracker.holding origin.toNat).accepted = last.toNat) ∧
      s.Rests t

/-- A valid SEEK (R135, R141 to R143, R146): due slots that overlap it become FOLLOWING; when the
station stores what is asked, is not MUTED and has an entry, one stands for the range; tables stay.
That the entry of the origin itself, of rank 0, starts DEFERRING (log 22), and that a SEEK bearing the
station's own number makes an entry, of rank N (log 36), are the model's choices. -/
def Obligations.SeekFrameTaken : Prop :=
  ∀ (s : State) (sender : StationNumber) (origin : Byte) (first last : Word),
    s.PeersOk → s.TrackingOk → s.follows = true → s.mode.onLine = true → s.Served →
    (Machine.Frame.seek sender origin first last).fieldsGood s.clusterSize = true →
    ∃ t, exec (.seekFrame sender origin first last) s = .next t ∧ t.line.framer = .gap ∧
      (∀ i < 4, ∀ sl, s.repair.slots[i]? = some (some sl) → sl.origin = origin.toNat →
        sl.state = .asking false → sl.first ≤ last.toNat → first.toNat ≤ sl.last →
        t.repair.slots[i]? = some (some { sl with state := .following })) ∧
      (s.line.muted = false →
        s.storedSeqs origin.toNat first.toNat last.toNat ≠ [] ∨
          s.goneRange origin.toNat first.toNat last.toNat ≠ none →
        (∃ e ∈ s.repair.responders, e.requester = sender.toNat ∧ e.origin = origin.toNat) ∨
          s.repair.responders.length < 4 →
        ∃ e ∈ t.repair.responders, e.requester = sender.toNat ∧ e.origin = origin.toNat ∧
          e.first = first.toNat ∧ e.last = last.toNat ∧ e.state = .deferring ∧
          e.list = s.storedSeqs origin.toNat first.toNat last.toNat ∧
          e.gone = s.goneRange origin.toNat first.toNat last.toNat ∧
          e.rank = rankOf s.ownNumber s.clusterSize sender.toNat origin.toNat) ∧
      (s.line.muted = true → s.array.activity ≠ .idle →
        t.repair.responders = s.repair.responders) ∧
      s.KeepsTables t ∧ (∀ p, p ≠ sender.toNat → t.presence.peer p = s.presence.peer p) ∧ s.Rests t

/-- The framer's moves at the line events and at the end of a frame that fails a check (R65, R66, R69,
R73), each changing nothing else; and what fails a check: a key with its leading bit set or a kind of
5 to 7, a length that disagrees, a CRC-16 that disagrees, a sender from N on. -/
def Obligations.FramerMoves : Prop :=
  (∀ (s : State),
    (s.line.framer = .frame →
      exec .separatorDominant s = .next { s with line := { s.line with framer := .hunt } }) ∧
    (s.line.framer = .hunt →
      exec .dominantRunEnd s = .next { s with line := { s.line with framer := .gap } } ∧
      exec .huntIdleRun s = .next { s with line := { s.line with framer := .free } }) ∧
    (s.line.framer = .gap →
      exec .gapEnd s = .next { s with line := { s.line with framer := .free } } ∧
      exec .dominantBitInGap s = .next { s with line := { s.line with framer := .hunt } }) ∧
    (s.line.framer = .free →
      exec .startBitSeen s = .next { s with line := { s.line with framer := .frame } }) ∧
    ∀ bytes, s.follows = true → passes s.clusterSize bytes = false →
      exec (.frameDiscarded bytes) s = .next { s with line := { s.line with framer := .gap } }) ∧
  ∀ (n : Nat) (key length : Byte) (rest : List Byte),
    (0x50 ≤ key.toNat → passes n (key :: length :: rest) = false) ∧
    (rest.length ≠ length.toNat + 2 → passes n (key :: length :: rest) = false) ∧
    (∀ crc : BitVec 16, crc ≠ crc16 (key :: length :: rest) →
      passes n (key :: length :: rest ++ [crc.extractLsb' 8 8, crc.extractLsb' 0 8]) = false) ∧
    ∀ f : Machine.Frame, n ≤ f.sender.toNat → f.fieldsGood n = false

/-! ### Frames sent (chapter 4) -/

/-- The start of a frame (R67, R75, R77, R78): the request that the selector chooses, with its frame;
none while MUTED, while the line is not free or while the transmitter is busy. -/
def Obligations.FrameStartChooses : Prop :=
  (∀ (s : State), s.line.framer = .free → s.line.transmitter = .idle → s.line.muted = false →
    (s.mode = .quiet → s.presence.quieting = true →
      exec .frameStart s = .next (s.begun (.quieting true) (s.presenceFrame .quieting))) ∧
    (s.mode = .quiet → s.presence.quieting = false → exec .frameStart s = .next s) ∧
    (s.mode ≠ .quiet → ∀ (o d : Nat), d < 16 → o = (s.line.heldCursor + 1 + d) % 16 →
      (s.tracker.holding o).due = true →
      (∀ e < d, (s.tracker.holding ((s.line.heldCursor + 1 + e) % 16)).due = false) →
      exec .frameStart s = .next (s.begun (.held o)
        (.held s.key (natByte o) (BitVec.ofNat 32 (s.tracker.holding o).through)))) ∧
    (s.mode ≠ .quiet → (∀ o < 16, (s.tracker.holding o).due = false) →
      (∀ (before after : List Entry) (e : Entry), s.mode = .active →
        s.submission.queue = before ++ e :: after → e.stage = .sending →
        (∀ x ∈ before, x.stage ≠ .sending) →
        exec .frameStart s = .next (s.begun (.append e.seq)
          (.append s.key (BitVec.ofNat 32 e.seq) e.tag e.payload e.check))) ∧
      (s.mode ≠ .active ∨ (∀ e ∈ s.submission.queue, e.stage ≠ .sending) →
        (∀ (before after : List Responder) (e : Responder) (f : Machine.Frame),
          s.repair.responders = before ++ e :: after → (∀ x ∈ before, s.refillFrame x = none) →
          (∃ r : Content, e.state = .readyCopy r ∧ f = .copy s.key (natByte e.requester)
              (natByte e.origin) r.seq r.tag r.payload r.check) ∨
            (∃ g : Nat × Nat, e.state = .readyGone ∧ e.gone = some g ∧
              f = .gone s.key (natByte e.requester) (natByte e.origin) (BitVec.ofNat 32 g.1)
                (BitVec.ofNat 32 g.2)) →
          exec .frameStart s = .next (s.begun (.refill e.requester e.origin true) f)) ∧
        ((∀ e ∈ s.repair.responders, s.refillFrame e = none) →
          (∀ (i : Nat) (sl : SeekSlot), s.repair.slots[i]? = some (some sl) →
            sl.state = .asking false →
            (∀ (j : Nat) (x : SeekSlot), j < i → s.repair.slots[j]? = some (some x) →
              x.state ≠ .asking false) →
            exec .frameStart s = .next (s.begun (.seek i true) (.seek s.key (natByte sl.origin)
              (BitVec.ofNat 32 sl.first) (BitVec.ofNat 32 sl.last)))) ∧
          ((∀ sl : SeekSlot, some sl ∈ s.repair.slots → sl.state ≠ .asking false) →
            (s.presence.request = true → exec .frameStart s = .next (s.begun (.presence true)
              (s.presenceFrame (if s.mode = .active then .active else .joining)))) ∧
            (s.presence.request = false → exec .frameStart s = .next s)))))) ∧
  (∀ (s : State) (mode : PresenceMode), s.presenceFrame mode = .presence s.key mode s.segments.full
    ((List.range s.clusterSize).map fun o => BitVec.ofNat 32 (s.tracker.holding o).through)) ∧
  ∀ (s : State), s.line.muted = true ∨ s.line.framer ≠ .free ∨ s.line.transmitter ≠ .idle →
    exec .frameStart s = .next s

/-- A loss of arbitration, a transmit failure and the end of a break (R67, R68, R75). That a framer still
in FRAME goes to HUNT at the end of the own break (log 12), and that MUTED set in QUIET turns the line
interface off (log 20), are the model's choices. -/
def Obligations.ArbitrationAndFailure : Prop :=
  ∀ (s : State) (r : Request) (f : Machine.Frame),
    (s.line.transmitter = .arbitrating r f →
      exec .arbitrationLoss s = .next { s with line := { s.line with transmitter := .idle } }) ∧
    (s.line.transmitter = .arbitrating r f ∨ s.line.transmitter = .sending r f →
      exec .transmitFailure s = .next { s with line := { s.line with
        transmitter := .breaking r, failures := min 16 (s.line.failures + 1) } }) ∧
    (s.line.transmitter = .breaking r → s.line.failures < 16 → s.line.framer ≠ .frame →
      exec .breakComplete s = .next { s with line := { s.line with transmitter := .idle } }) ∧
    (s.line.transmitter = .breaking r → s.line.failures < 16 → s.line.framer = .frame →
      exec .breakComplete s = .next { s with line := { s.line with
        transmitter := .idle, framer := .hunt } }) ∧
    (s.line.transmitter = .breaking r → s.line.failures = 16 → s.line.framer ≠ .frame →
      s.raised = [] → s.port.notices.length < 16 →
      ∃ t, exec .breakComplete s = .next t ∧ t.line.muted = true ∧ t.line.failures = 16 ∧
        t.line.transmitter = (if s.mode = .quiet then .off else .idle) ∧
        t.line.framer = (if s.mode = .quiet then .off else s.line.framer) ∧
        t.port.notices = s.port.notices ++ [.muted] ∧
        t.tracker = s.tracker ∧ t.submission = s.submission ∧ t.repair = s.repair ∧
        t.writer = s.writer ∧ t.segments = s.segments ∧ t.array = s.array ∧ t.flash = s.flash ∧
        t.mode = s.mode)

/-- The completion of a HELD frame (R70, R94). That a completion is taken while ARBITRATING too is the
model's choice (log 11). -/
def Obligations.HeldSent : Prop :=
  ∀ (s : State) (o : Nat) (k : StationNumber) (b : Byte) (value : Word),
    s.TrackingOk → o < 16 → s.line.framer = .frame →
    s.line.transmitter = .sending (.held o) (.held k b value) ∨
      s.line.transmitter = .arbitrating (.held o) (.held k b value) →
    ∃ t, exec .heldSendCompletion s = .next t ∧
      t.line = { s.line with transmitter := .idle, framer := .gap, failures := 0, heldCursor := o } ∧
      t.tracker.holding o = { s.tracker.holding o with
        due := (s.tracker.holding o).due && decide ((s.tracker.holding o).through ≠ value.toNat) } ∧
      (∀ p, p ≠ o → t.tracker.holding p = s.tracker.holding p) ∧
      { t with line := s.line, tracker := s.tracker } = s ∧
      { t.tracker with holdings := s.tracker.holdings } = s.tracker

/-- The completion of an APPEND (R106). That a completion is taken while ARBITRATING too is the model's
choice (log 11), and that the confirmation wait runs exactly in WAITING is log 2's. -/
def Obligations.AppendSent : Prop :=
  ∀ (s : State) (seq : Nat) (f : Machine.Frame),
    s.line.transmitter = .sending (.append seq) f ∨ s.line.transmitter = .arbitrating (.append seq) f →
    ∃ t, exec .appendSendCompletion s = .next t ∧
      ((∀ e ∈ s.submission.queue, e.seq ≠ seq) → t.submission = s.submission) ∧
      (∀ e, s.submission.queue.find? (fun e => decide (e.seq = seq)) = some e →
        (e.declared = true → t.submission
          = { s.submission with queue := s.submission.queue.filter fun e => e.seq ≠ seq }) ∧
        (e.declared = false → t.submission = { s.submission with
          queue := s.submission.queue.map fun e =>
            if e.seq = seq then { e with stage := .waiting, sends := e.sends + 1 } else e })) ∧
      (s.line.framer = .frame → State.Keeps { s with
        submission := t.submission
        line := { s.line with transmitter := .idle, failures := 0, framer := .gap } } t) ∧
      s.KeepsTables t

/-- The completion of a REFILL (R143, R144): a COPY's seq leaves its entry's list, a GONE's range leaves
its entry; of a SEEK (R134): its slot's wait starts. What was renewed or freed meanwhile is found by
neither. That a completion is taken while ARBITRATING too is the model's choice (log 11). -/
def Obligations.RefillAndSeekSent : Prop :=
  (∀ (s : State) (q o : Nat) (k : StationNumber) (a b : Byte),
    (∀ seq tag payload check,
      s.line.transmitter = .sending (.refill q o true) (.copy k a b seq tag payload check) ∨
        s.line.transmitter = .arbitrating (.refill q o true) (.copy k a b seq tag payload check) →
      s.line.framer = .frame →
      ∃ t, exec .refillSendCompletion s = .next t ∧
        ((∃ e, s.repair.responder? q o = some e ∧ seq.toNat ∈ e.list) →
          ∀ e ∈ t.repair.responders, e.requester = q → e.origin = o → seq.toNat ∉ e.list) ∧
        State.Keeps { s with line := { s.line with
          transmitter := .idle, failures := 0, framer := .gap } } t ∧ s.KeepsTables t) ∧
    (∀ first last,
      s.line.transmitter = .sending (.refill q o true) (.gone k a b first last) ∨
        s.line.transmitter = .arbitrating (.refill q o true) (.gone k a b first last) →
      s.line.framer = .frame →
      ∃ t, exec .refillSendCompletion s = .next t ∧
        (∀ e ∈ t.repair.responders, e.requester = q → e.origin = o → e.gone = none) ∧
        State.Keeps { s with line := { s.line with
          transmitter := .idle, failures := 0, framer := .gap } } t ∧ s.KeepsTables t) ∧
    ∀ f, s.line.transmitter = .sending (.refill q o false) f ∨
        s.line.transmitter = .arbitrating (.refill q o false) f → s.line.framer = .frame →
      exec .refillSendCompletion s = .next { s with line := { s.line with
        transmitter := .idle, failures := 0, framer := .gap } }) ∧
  ∀ (s : State) (i : Nat) (f : Machine.Frame), s.line.framer = .frame →
    (∀ sl, s.line.transmitter = .sending (.seek i true) f ∨
        s.line.transmitter = .arbitrating (.seek i true) f → s.repair.slots[i]? = some (some sl) →
      sl.state = .asking false →
      exec .seekSendCompletion s = .next { s with
        line := { s.line with transmitter := .idle, failures := 0, framer := .gap }
        repair := { s.repair with
          slots := s.repair.slots.set i (some { sl with state := .asking true }) } }) ∧
    (s.line.transmitter = .sending (.seek i false) f ∨
        s.line.transmitter = .arbitrating (.seek i false) f →
      exec .seekSendCompletion s = .next { s with
        line := { s.line with transmitter := .idle, failures := 0, framer := .gap } })

/-- The completions of a PRESENCE and of the QUIETING PRESENCE (R94, R118, R120, R78). One that QUIET,
or WAKE, has overtaken only clears HELD-due flags (for the ordinary one after a WAKE, log 23). That a
completion is taken while ARBITRATING too is the model's choice (log 11). -/
def Obligations.PresenceSent : Prop :=
  ∀ (s : State) (k : StationNumber) (mode : PresenceMode) (full : Bool) (vector : List Word),
    s.TrackingOk → vector.length ≤ 16 → s.line.framer = .frame →
    (∀ live, s.line.transmitter = .sending (.presence live) (.presence k mode full vector) ∨
        s.line.transmitter = .arbitrating (.presence live) (.presence k mode full vector) →
      ∃ t, exec .presenceSendCompletion s = .next t ∧
        t.line = { s.line with transmitter := .idle, framer := .gap, failures := 0 } ∧
        t.presence = (if live then { s.presence with request := false, presenceTimer := true }
          else s.presence) ∧
        (∀ o v, vector[o]? = some v → t.tracker.holding o = { s.tracker.holding o with
          due := (s.tracker.holding o).due && decide ((s.tracker.holding o).through ≠ v.toNat) }) ∧
        (∀ o, vector.length ≤ o → t.tracker.holding o = s.tracker.holding o) ∧
        { t.tracker with holdings := s.tracker.holdings } = s.tracker ∧
        { t with line := s.line, tracker := s.tracker, presence := s.presence } = s) ∧
    (∀ live, s.line.transmitter = .sending (.quieting live) (.presence k mode full vector) ∨
        s.line.transmitter = .arbitrating (.quieting live) (.presence k mode full vector) →
      ∃ t, exec .quietingPresenceSendCompletion s = .next t ∧
        t.line = { s.line with
          transmitter := if live then .off else .idle
          framer := if live then .off else .gap
          failures := 0 } ∧
        t.presence = { s.presence with quieting := if live then false else s.presence.quieting } ∧
        (∀ o v, vector[o]? = some v → t.tracker.holding o = { s.tracker.holding o with
          due := (s.tracker.holding o).due && decide ((s.tracker.holding o).through ≠ v.toNat) }) ∧
        (∀ o, vector.length ≤ o → t.tracker.holding o = s.tracker.holding o) ∧
        { t.tracker with holdings := s.tracker.holdings } = s.tracker ∧
        { t with line := s.line, tracker := s.tracker, presence := s.presence } = s)

/-! ### Timers -/

/-- The presence timer and the silence timers of some peers run out (R118, R126): those named whose
timers run change, in ascending order of station number, each with its PEER notice (R122, R129). That
with one UNKNOWN peer every other whose timer runs changes in the same event is the model's inference
(log 45). -/
def Obligations.PresenceAndSilenceTimers : Prop :=
  ∀ (s : State),
    (s.presence.presenceTimer = true →
      exec .presenceTimerExpiry s = .next { s with
        presence := { s.presence with presenceTimer := false, request := true } }) ∧
    ∀ (peers : List StationNumber), s.PeersOk → s.mode.onLine = true →
      let runs := fun p => s.isPeer p && (s.presence.peer p).timer
      let unknown := fun p => decide ((s.presence.peer p).state = .unknown)
      let named := fun p => decide (p ∈ peers.map BitVec.toNat)
      let ends := fun p => decide (p < 16) && runs p && (named p || unknown p &&
        (List.range 16).any fun q => runs q && named q && unknown q)
      let aged := fun p =>
        if (s.presence.peer p).state = .present then Liveness.silent else Liveness.absent
      ∃ t, exec (.silenceTimerExpiry peers) s = .next t ∧
        (∀ p, ends p = true → t.presence.peer p = { s.presence.peer p with
          state := aged p
          timer := decide ((s.presence.peer p).state = .present) }) ∧
        (∀ p, ends p = false → t.presence.peer p = s.presence.peer p) ∧
        (s.raised = [] → s.writer.jobs = [] → s.tracker.excess = [] →
          s.port.notices.length + ((List.range 16).filter ends).length ≤ 16 →
          t.port.notices = s.port.notices
            ++ ((List.range 16).filter ends).map (fun p => .peer p (aged p)) ∧
          t.port.lost = s.port.lost) ∧
        State.Keeps { s with presence := t.presence } t ∧ s.KeepsTables t

/-- JOINING ends: the mode becomes ACTIVE and the own next seq is adopted (R182). -/
def Obligations.JoiningEnds : Prop :=
  ∀ (s : State) (e : Enlistment), s.mode = .joining → s.presence.joiningTimer = true →
    s.enlistment = some e →
    ∃ t, exec .joiningEnd s = .next t ∧ t.mode = .active ∧
      t.presence = { s.presence with joiningTimer := false } ∧
      t.submission = { s.submission with nextSeq := some ((max
        (s.tracker.holding e.station).accepted (s.tracker.holding e.station).known) + 1) } ∧
      s.KeepsTables t ∧
      State.Keeps { s with mode := .active, presence := t.presence, submission := t.submission } t

/-- The confirmation wait of an entry runs out (R110). -/
def Obligations.ConfirmationWaitEnds : Prop :=
  ∀ (s : State) (seq : Word) (e : Entry),
    s.submission.queue.find? (fun e => decide (e.seq = seq.toNat)) = some e → e.stage = .waiting →
    ∃ t, exec (.confirmationWaitExpiry seq) s = .next t ∧
      (e.sends < 3 → t.submission = { s.submission with
        queue := s.submission.queue.map fun e =>
          if e.seq = seq.toNat then { e with stage := .sending } else e }) ∧
      (3 ≤ e.sends → t.submission = { s.submission with
        queue := s.submission.queue.filter fun e => e.seq ≠ seq.toNat }) ∧
      s.KeepsTables t ∧ State.Keeps { s with submission := t.submission } t

/-- The repair wait of a slot runs out (R136, R138, R139): it asks again, or declares what it lacks as a
HOLE, with its notice, when admission is open and its wants are one run. How a slot narrows (R136), and
the filling of the lowest free slot with the lowest uncovered run of wants, at most 16 seqs (R133). -/
def Obligations.RepairWaitEnds : Prop :=
  (∀ (t : Tracker) (sl : SeekSlot),
    (t.narrowed sl = none ↔ ∀ x, sl.first ≤ x → x ≤ sl.last → t.isWant sl.origin x = false) ∧
    ∀ nl, t.narrowed sl = some nl →
      nl = { sl with first := nl.first, last := nl.last } ∧ sl.first ≤ nl.first ∧ nl.last ≤ sl.last ∧
      nl.first ≤ nl.last ∧ t.isWant sl.origin nl.first = true ∧ t.isWant sl.origin nl.last = true ∧
      ∀ x, sl.first ≤ x → x ≤ sl.last → t.isWant sl.origin x = true → nl.first ≤ x ∧ x ≤ nl.last) ∧
  (∀ s : State, s.fillSlots
    = if s.mode.onLine then s.fillSlot.fillSlot.fillSlot.fillSlot else s) ∧
  (∀ (s : State) (i o seq : Nat) (before after : List Run) (r : Run),
    let covered := fun p x => ∃ sl : SeekSlot, some sl ∈ s.repair.slots ∧ sl.origin = p ∧
      sl.first ≤ x ∧ x ≤ sl.last
    s.repair.slots[i]? = some none → (∀ j < i, s.repair.slots[j]? ≠ some none) →
    o < s.clusterSize → s.tracker.wantsOf o = before ++ r :: after →
    (∀ p < o, ∀ x ∈ s.tracker.wantsOf p, ∀ y, x.first ≤ y → y ≤ x.last → covered p y) →
    (∀ x ∈ before, ∀ y, x.first ≤ y → y ≤ x.last → covered o y) →
    r.first ≤ seq → seq ≤ r.last → ¬ covered o seq →
    (∀ y, r.first ≤ y → y < seq → covered o y) →
    ∃ last, s.fillSlot = { s with repair := { s.repair with
        slots := s.repair.slots.set i (some ⟨o, seq, last, 0, .asking false⟩) } } ∧
      seq ≤ last ∧ last ≤ r.last ∧ last ≤ seq + 15 ∧
      (∀ y, seq ≤ y → y ≤ last → ¬ covered o y) ∧
      (last = r.last ∨ last = seq + 15 ∨
        ∃ sl : SeekSlot, some sl ∈ s.repair.slots ∧ sl.origin = o ∧ sl.first = last + 1)) ∧
  ∀ (s : State) (i : Fin 4) (sl : SeekSlot), s.LimitsOk →
    s.repair.slots[i.val]? = some (some sl) → sl.waits = true →
    ∃ t, exec (.repairWaitExpiry i) s = .next t ∧
      (s.tracker.narrowed sl = none → ∀ x, t.repair.slots[i.val]? = some (some x) →
        x.state = .asking false ∧ x.attempts = 0) ∧
      (s.tracker.narrowed sl = none → t.repair.slots = (State.fillSlots { s with
        repair := { s.repair with slots := s.repair.slots.set i.val none } }).repair.slots) ∧
      (∀ nl, s.tracker.narrowed sl = some nl →
        (sl.attempts + 1 < 3 → t.repair.slots[i.val]?
          = some (some { nl with attempts := sl.attempts + 1, state := .asking false })) ∧
        (3 ≤ sl.attempts + 1 → s.originPresent sl.origin = true ∨ s.mode = .joining →
          t.repair.slots[i.val]? = some (some { nl with attempts := 0, state := .asking false })) ∧
        (3 ≤ sl.attempts + 1 → s.originPresent sl.origin = false → s.mode ≠ .joining →
          s.admissionOpen = false →
          t.repair.slots[i.val]? = some (some { nl with attempts := 3, state := .declaring })) ∧
        (3 ≤ sl.attempts + 1 → s.originPresent sl.origin = false → s.mode ≠ .joining →
          s.admissionOpen = true → s.TrackingOk →
          (∀ x, nl.first ≤ x → x ≤ nl.last → s.tracker.isWant sl.origin x = true) →
          s.tracker.rangeWanted sl.origin nl.first nl.last = true →
          (s.tracker.gapsAfterHole sl.origin nl.first nl.last).length ≤ 32 →
          (⟨.hole sl.origin nl.first nl.last, .declared⟩ : Job) ∈ t.writer.jobs ∧
          (.hole sl.origin nl.first nl.last : Machine.Pending) ∈ t.tracker.pending ∧
          t.tracker.holding sl.origin = { s.tracker.holding sl.origin with
            accepted := max (s.tracker.holding sl.origin).accepted nl.last } ∧
          t.tracker.gaps = s.tracker.gapsAfterHole sl.origin nl.first nl.last ∧
          (∀ x, nl.first ≤ x → x ≤ nl.last → t.tracker.isWant sl.origin x = false) ∧
          (s.raised = [] → s.port.notices.length ≤ 14 →
            (.hole sl.origin nl.first nl.last : Notice) ∈ t.port.notices))) ∧
      s.Keeps t

/-- A defer timer runs out (R142 to R144): the entry turns to its GONE frame, or fetches its lowest seq
still stored, but for a withdrawn fetch of its own that is still being read, whose completion it awaits
(R23; when it takes the seq then is the model's choice, log 44). That MUTED does not stop a defer timer
is the model's choice (log 30). -/
def Obligations.DeferEnds : Prop :=
  ∀ (s : State) (q o : StationNumber) (e : Responder), s.Served →
    s.repair.responder? q.toNat o.toNat = some e → e.state = .deferring →
    let reads := ∃ c : FetchClaim, s.array.activity = .read (.fetch c .withdrawn) ∧
      c.requester = q.toNat ∧ c.origin = o.toNat
    ∃ t, exec (.deferExpiry q o) s = .next t ∧
      (e.gone ≠ none →
        ∃ x ∈ t.repair.responders, x.requester = q.toNat ∧ x.origin = o.toNat ∧
          x.state = .readyGone ∧ x.gone = e.gone) ∧
      (∀ list k l, e.gone = none → ¬ reads →
        s.segments.firstStored e.origin e.list = some (list, k, l) → s.array.activity ≠ .idle →
        t.array.fetchClaims = s.array.fetchClaims ++
          [⟨e.requester, e.origin, l.seq, k, l.page, l.offset, l.size⟩] ∧
        ∃ x ∈ t.repair.responders, x.requester = q.toNat ∧ x.origin = o.toNat ∧
          x.state = .fetching ∧ x.list = list) ∧
      (e.gone = none → reads → e.list ≠ [] →
        t.array.fetchClaims = s.array.fetchClaims ∧
        ∃ x ∈ t.repair.responders, x.requester = q.toNat ∧ x.origin = o.toNat ∧
          x.state = .fetching ∧ x.list = e.list) ∧
      s.Keeps t ∧ s.KeepsTables t

/-! ### The array (chapters 2 and 3) and mount (chapter 10) -/

/-- A record program GOOD (R7, R27, R44): the bytes of the head job stand at its place and every other
byte of flash reads as before; its position is final; the job leaves the queue; what stays. What is handed
on: the Stream Tracker's pending entry leaves, held-through advances, with the HELD-due flag of another
station's origin, and the check index takes a DATA record (R83, R91); a commit's entry goes on as
State.commitDone says (R104, R109); a RELEASE whose mark has been raised since is followed by another
(R47). -/
def Obligations.RecordProgrammed : Prop :=
  ∀ (s : State) (j : Job) (rest : List Job) (p : Place),
    s.array.activity = .program .record → s.writer.jobs = j :: rest → s.writer.place = some p →
    s.flash.wf = true → p.segment < 64 → p.page < 256 →
    p.offset + (j.body.bytes p.position).length ≤ 256 → s.array.programClaim = none →
    ∃ t, exec (.recordProgramCompletion .good) s = .next t ∧
      (∀ a, t.flash.readByte a =
        if (p.segment * 256 + p.page) * 256 + p.offset ≤ a ∧
            a < (p.segment * 256 + p.page) * 256 + p.offset + (j.body.bytes p.position).length then
          (j.body.bytes p.position).getD (a - ((p.segment * 256 + p.page) * 256 + p.offset)) 0xFF
        else s.flash.readByte a) ∧
      t.writer.nextPosition = p.position + 1 ∧
      (∃ more, t.writer.jobs = rest ++ more) ∧
      (∀ u c n g r, s.segments.table[p.segment]? = some ⟨.opened u c n, g, r⟩ →
        ∃ e, t.segments.table[p.segment]? = some e ∧ e.generation = g ∧
          (e.state.use? = some (u.addRecord (j.body.locator p) j.body.holeLast) ∨
            e.state = .erasing)) ∧
      (∀ o tag seq payload check, j.body = .data o tag seq payload check →
        let left := { s.tracker with pending := s.tracker.pending.filter fun p => !p.isData o seq }
        (t.tracker.holding o).through = left.advanced o ∧
        (t.tracker.holding o).due = ((s.tracker.holding o).due ||
          (decide ((s.tracker.holding o).through < left.advanced o) && !s.isOwn o)) ∧
        (∀ p, p ≠ o → (t.tracker.holding p).through = (s.tracker.holding p).through ∧
          (t.tracker.holding p).due = (s.tracker.holding p).due) ∧
        (∀ p ∈ t.tracker.pending, p.isData o seq = false) ∧
        t.tracker.excess = s.tracker.excess ∧
        (s.array.context ≠ none → t.tracker.index =
          if o < s.clusterSize then s.tracker.index ++
            [⟨o, seq, check, ((s.tracker.pendingData o seq).map (·.2)).getD false⟩]
          else s.tracker.index) ∧
        (j.source = .commit → t.submission = (s.commitDone seq).submission)) ∧
      (∀ o first last, j.body = .hole o first last →
        let left : Tracker := { s.tracker with
          pending := s.tracker.pending.filter fun p => p ≠ .hole o first last
          excess := if j.source = .excess then s.tracker.excess.filter fun r => r ≠ ⟨o, first, last⟩
            else s.tracker.excess }
        (t.tracker.holding o).through = left.advanced o ∧
        (t.tracker.holding o).due = ((s.tracker.holding o).due ||
          (decide ((s.tracker.holding o).through < left.advanced o) && !s.isOwn o)) ∧
        (∀ p, p ≠ o → (t.tracker.holding p).through = (s.tracker.holding p).through ∧
          (t.tracker.holding p).due = (s.tracker.holding p).due) ∧
        ((∀ sl : SeekSlot, some sl ∈ s.repair.slots → sl.state ≠ .declaring) →
          ⟨o, first, last⟩ ∉ left.excess → .hole o first last ∉ t.tracker.pending) ∧
        t.tracker.excess = left.excess ∧ t.submission = s.submission) ∧
      (∀ mark, j.body = .release mark →
        (∀ p, (t.tracker.holding p).through = (s.tracker.holding p).through ∧
          (t.tracker.holding p).due = (s.tracker.holding p).due) ∧
        (mark < s.writer.releaseMark →
          ∃ x ∈ t.writer.jobs, x.body = .release s.writer.releaseMark) ∧
        t.submission = s.submission) ∧
      (j.source ≠ .commit → t.submission = s.submission) ∧
      t.submission.nextSeq = s.submission.nextSeq ∧ t.submission.ticket = s.submission.ticket ∧
      t.submission.kept = s.submission.kept ∧ t.writer.releaseMark = s.writer.releaseMark ∧
      State.Keeps { s with flash := t.flash, submission := t.submission, writer := t.writer } t

/-- A record program FAILED (R14, R29, R30, R51): the job stays at the head with its position not
consumed, no byte that reads is changed; the first failure of a segment places the job at the next page,
or, on page 255, seals the segment SEALED; the second seals it FAULTY, or makes it DIRTY when it holds no
record, with its retire flag and a MEDIA notice (an erase being in hand, so that no other starts in the
event). That the remains are a damage mark and no byte is the model's choice (log 5). -/
def Obligations.RecordProgramFails : Prop :=
  ∀ (s : State) (j : Job) (rest : List Job) (p : Place),
    s.array.activity = .program .record → s.writer.jobs = j :: rest → s.writer.place = some p →
    ∃ t, exec (.recordProgramCompletion .failed) s = .next t ∧
      t.writer.nextPosition = s.writer.nextPosition ∧ t.writer.jobs.head? = some j ∧
      (∀ a, t.flash.readByte a = s.flash.readByte a) ∧
      t.flash.spoiledAt p.segment p.page p.offset = true ∧
      (∀ u c, s.segments.open? = some (p.segment, u, c, 0) → p.page < 255 →
        s.segments.full = false → s.array.programClaim = none → j.body.size ≤ 256 →
        t.writer.place = some ⟨s.writer.nextPosition, p.segment, p.page + 1, 0⟩) ∧
      (∀ u c g r, s.segments.open? = some (p.segment, u, c, 0) →
        s.segments.table[p.segment]? = some ⟨.opened u c 0, g, r⟩ → 255 ≤ p.page →
        s.segments.full = false → s.array.programClaim = none → s.array.context ≠ none →
        t.segments.table[p.segment]? = some ⟨.sealed u, g, r⟩ ∧ t.writer.place = none) ∧
      (∀ u c n g r, s.segments.table[p.segment]? = some ⟨.opened u c (n + 1), g, r⟩ →
        s.array.programClaim = none → s.array.context ≠ none →
        t.segments.table[p.segment]? = some ⟨if 1 ≤ u.count then .faulty u else .dirty, g, true⟩ ∧
        (s.raised = [] → s.port.notices.length ≤ 14 →
          (.media p.segment false : Notice) ∈ t.port.notices)) ∧
      State.Keeps { s with flash := t.flash } t ∧ s.KeepsTables t

/-- A header program (R10, R28, R30, R49): GOOD writes the header that its serving formed; FAILED
retires the segment. -/
def Obligations.HeaderProgrammed : Prop :=
  ∀ (s : State) (k : Nat), s.array.activity = .program (.header k) →
    (∀ u c n g r, s.segments.table[k]? = some ⟨.opened u c n, g, r⟩ → k < 64 →
      s.flash.wf = true → u.floor.length = 16 →
      ∃ t, exec (.headerProgramCompletion .good) s = .next t ∧
        (∀ a, t.flash.readByte a =
          if k * 65536 ≤ a ∧ a < k * 65536 + 80 then
            (headerBytes g u.firstPosition u.floor).getD (a - k * 65536) 0xFF
          else s.flash.readByte a) ∧
        State.Keeps { s with flash := t.flash } t ∧ s.KeepsTables t) ∧
    (s.array.programClaim = none → (∃ e, s.segments.table[k]? = some e) →
      ∃ t, exec (.headerProgramCompletion .failed) s = .next t ∧
        (t.segments.table[k]?.map (·.state)) = some .retired ∧
        (∀ a, segmentOf a ≠ k → t.flash.readByte a = s.flash.readByte a) ∧
        State.Keeps { s with flash := t.flash } t ∧ s.KeepsTables t)

/-- A host read completes (R32, R154, R159): the code and the buffer, by the check and, for a HOLE
candidate, by the range that it covers. The bytes delivered are the event's (log 6). -/
def Obligations.HostReadCompletes : Prop :=
  ∀ (s : State) (c : HostClaim) (target : Target) (flaw : Option (List Byte)),
    s.array.activity = .read (.host c) → s.port.slot = .pending target →
    ∃ t, exec (.hostReadCompletion flaw) s = .next t ∧
      let bytes := s.delivered c.segment c.page c.offset c.size flaw
      let reaches := ∀ seq, c.sought = some seq → seq ≤ (frontWord (bytes.drop 12)).toNat
      (checkGood bytes = false →
        t.port.slot = .done target .notFound ∧ t.port.buffer = s.port.buffer) ∧
      (checkGood bytes = true → reaches →
        t.port.slot = .done target (if c.sought.isSome then .hole else .ok) ∧
        t.port.buffer = bytes) ∧
      (checkGood bytes = true → ¬ reaches →
        t.port.slot = .done target .notFound ∧ t.port.buffer = s.port.buffer) ∧
      State.Keeps { s with port := { s.port with buffer := t.port.buffer } } t ∧ s.KeepsTables t

/-- A fetch completes (R26, R33, R144), no other claim of its entry waiting: GOOD makes the entry READY
with the record; BAD takes the seq out of the entry's list; a withdrawn fetch is discarded, and an entry
that awaited it takes its next seq (R23, R145; log 44). -/
def Obligations.FetchCompletes : Prop :=
  ∀ (s : State) (c : FetchClaim) (use : FetchUse) (flaw : Option (List Byte)) (e : Responder),
    s.array.activity = .read (.fetch c use) → s.array.fetchClaims = [] →
    s.repair.responder? c.requester c.origin = some e →
    ∃ t, exec (.fetchCompletion flaw) s = .next t ∧
      let bytes := s.delivered c.segment c.page c.offset c.size flaw
      (use = .wanted → checkGood bytes = true →
        ∃ x ∈ t.repair.responders, x.requester = c.requester ∧ x.origin = c.origin ∧
          x.list = e.list ∧ x.state = .readyCopy (contentOf bytes)) ∧
      (use = .wanted → checkGood bytes = false →
        ∀ x ∈ t.repair.responders, x.requester = c.requester → x.origin = c.origin →
          c.seq ∉ x.list) ∧
      (use = .orphaned ∨ use = .withdrawn ∧ e.state ≠ .fetching →
        t.repair.responders = s.repair.responders) ∧
      (use = .withdrawn → e.state = .fetching →
        s.array.context ≠ none ∨ s.segments.firstDirty = none ∧ 2 ≤ s.segments.erasedCount →
        ∀ list k l, s.segments.firstStored c.origin e.list = some (list, k, l) →
        ∃ x ∈ t.repair.responders, x.requester = c.requester ∧ x.origin = c.origin ∧
          x.state = .fetching ∧ x.list = list) ∧
      s.Keeps t ∧ s.KeepsTables t

/-- The steps of the mount scan (R173, R15): a header read and a blank check record what they found and
go on; a page of record space is taken by the rule of R15. What a header read and a blank check find in a
segment without damage marks (R10, R35, R173, R186); a page that holds records at the positions expected
is accepted with their locators, and a record that failed before it is skipped; a page that begins with
no such record is a failed one, and ends the extent after a failed one or when it is blank (R13, R15,
R186). That a kind out of range counts as failed is the model's inference (log 19). -/
def Obligations.MountScans : Prop :=
  (∀ (s : State) (c : Scan), s.mode = .mounting → s.scan = some c →
    (∀ k, c.step = .headers k → k < 63 →
      exec .mountReadCompletion s = .next { s with
        scan := some { c with step := .headers (k + 1), found := c.found.set k (s.flash.readHeader k) }
        array := { s.array with activity := .read .mountPage } }) ∧
    (∀ k j, c.step = .blankChecks k →
      (c.found.set k (if s.flash.segmentBlank k then .blank else .notBlank)).findIdx?
        (fun f => decide (f = .blankPage)) = some j →
      exec .blankCheckCompletion s = .next { s with
        scan := some { c with
          step := .blankChecks j
          found := c.found.set k (if s.flash.segmentBlank k then .blank else .notBlank) }
        array := { s.array with activity := .read .blankCheck } }) ∧
    (∀ x page, c.step = .records x page → (s.flash.extend x page).2 = true →
      exec .mountReadCompletion s = .next { s with
        scan := some { c with step := .records (s.flash.extend x page).1 (page + 1) }
        array := { s.array with activity := .read .mountPage } })) ∧
  (∀ (f : Flash) (k : Nat), f.wf = true → (∀ d ∈ f.damage, d.segmentOf ≠ k) →
    (f.segmentBlank k = true ↔ ∀ a, segmentOf a = k → f.readByte a = 0xFF) ∧
    ((∀ i < 256, f.readByte (k * 65536 + i) = 0xFF) → f.readHeader k = .blankPage) ∧
    (∀ (generation : Word) (first : Nat) (floor : List Nat), first ≤ 0xFFFFFFFF →
      floor.length = 16 → (∀ v ∈ floor, v ≤ 0xFFFFFFFF) →
      f.read (k * 65536) 80 = headerBytes generation first floor →
      f.readHeader k = .header generation first floor) ∧
    ((∃ i < 256, f.readByte (k * 65536 + i) ≠ 0xFF) →
      (frontWord (f.read (k * 65536) 80) ≠ 0xA55A0F41 ∨
        crc32 (f.read (k * 65536) 76) ≠ frontWord (f.read (k * 65536 + 76) 4)) →
      f.readHeader k = .badHeader)) ∧
  (∀ (f : Flash) (x : Extent) (page : Nat) (bodies : List JobBody) (tail : List Byte),
    (∀ b ∈ bodies, b.Storable) → bodies ≠ [] → x.expected + bodies.length ≤ 0xFFFFFFFF →
    f.read ((x.segment * 256 + page) * 256) 256
      = (bodies.zipIdx.flatMap fun b => b.1.bytes (x.expected + b.2)) ++ tail →
    tail.length < 17 ∨ tail.head? = some 0xFF →
    (∀ offset, f.spoiledAt x.segment page offset = false) →
    ∃ new, f.extend x page = ({ x with
        records := x.records ++ new
        failedBefore := false
        skipped := x.skipped || x.failedBefore }, decide (page < 255)) ∧
      new.length = bodies.length ∧
      ∀ (i : Nat) (b : JobBody), bodies[i]? = some b → new[i]? = some (b.scannedAs
        ⟨x.expected + i, x.segment, page, ((bodies.take i).map JobBody.size).sum⟩)) ∧
  ∀ (f : Flash) (x : Extent) (page : Nat),
    let b := f.read ((x.segment * 256 + page) * 256) 256
    let length := (b.getD 3 0).toNat
    (f.spoiledAt x.segment page 0 = false → b.head? = some 0xFF → f.extend x page = (x, false)) ∧
    (f.spoiledAt x.segment page 0 = true ∨ b.head? ≠ some 0xFF ∧
        (b.head? ≠ some 0x01 ∧ b.head? ≠ some 0x02 ∧ b.head? ≠ some 0x03 ∨
          b.head? = some 0x01 ∧ ¬ (1 ≤ length ∧ length ≤ 200) ∨
          (b.head? = some 0x02 ∨ b.head? = some 0x03) ∧ length ≠ 4 ∨
          crc32 (b.take 8 ++ (b.drop 12).take length) ≠ frontWord (b.drop (12 + length)) ∨
          frontWord (b.drop 8) ≠ BitVec.ofNat 32 x.expected) →
      f.extend x page
        = if x.failedBefore then (x, false) else ({ x with failedBefore := true }, decide (page < 255)))

/-- The mount completion (R175, R176): by whichever completion it comes, the mode becomes UNENLISTED,
the scan ends, the kept values are held-through, and nothing in flash changes. For extents that join in
one chain (R16, R174), what is handed over: the segment table (R60), the next local position (R7), the
release mark (R5), the holdings and what they lack (R97). -/
def Obligations.MountCompletes : Prop :=
  ∀ (s : State) (c : Scan), s.mode = .mounting → s.scan = some c →
    (∀ k, c.step = .blankChecks k → c.found.length = 64 →
      (∀ f ∈ c.found.set k (if s.flash.segmentBlank k then .blank else .notBlank),
        f = .blank ∨ f = .notBlank ∨ f = .badHeader) → c.extents = [] →
      ∃ t, exec .blankCheckCompletion s = .next t ∧ t.mode = .unenlisted ∧ t.scan = none ∧
        t.segments.table.length = 64 ∧ t.writer.nextPosition = 1 ∧ t.writer.releaseMark = 0 ∧
        (∀ o, t.tracker.holding o = ⟨0, 0, 0, false⟩) ∧ t.tracker.gaps = [] ∧
        t.submission.kept = List.replicate 16 0 ∧ t.flash = s.flash) ∧
    (∀ x page, c.step = .records x page → (s.flash.extend x page).2 = false → c.todo = [] →
      ∃ t, exec .mountReadCompletion s = .next t ∧ t.mode = .unenlisted ∧ t.scan = none ∧
        t.submission.kept = t.tracker.holdings.map (·.through) ∧
        t.submission.durable = s.submission.durable ∧ t.tracker.gaps.length ≤ 32 ∧
        t.flash = s.flash ∧ t.line.framer = s.line.framer ∧ t.presence = s.presence ∧
        ∀ (older : List Extent) (newest : Extent),
          c.extents ++ [(s.flash.extend x page).1] = older ++ [newest] →
          (∀ y ∈ older, y.records ≠ []) →
          newest.records ≠ [] ∨ s.flash.pageBlank newest.segment 1 = true →
          List.IsChain (fun y z => z.firstPosition = y.firstPosition + y.records.length)
            (older ++ [newest]) →
          ((older ++ [newest]).map (·.segment)).Nodup →
          c.found.length = 64 → (∀ y ∈ older ++ [newest], y.segment < 64) →
          (∀ r ∈ (older ++ [newest]).flatMap (·.records), r.locator.seq ≤ r.last) →
          s.array.programClaim = none → s.writer.jobs = [] →
          let records := (older ++ [newest]).flatMap (·.records)
          let oldest := (older ++ [newest]).head?.getD newest
          let covered := fun o seq => ∃ r ∈ records, r.locator.kind ≠ .release ∧
            r.locator.origin = o ∧ r.locator.seq ≤ seq ∧ seq ≤ r.last
          t.segments.table.length = 64 ∧
          (∀ y ∈ older, t.segments.table[y.segment]? = some ⟨.sealed y.use, y.generation, false⟩) ∧
          t.segments.table[newest.segment]? = some ⟨
            if s.flash.lastPage newest.segment < 255 then
              .opened newest.use (.place (s.flash.lastPage newest.segment + 1) 0)
                (if newest.skipped then 1 else 0)
            else .sealed newest.use, newest.generation, false⟩ ∧
          (∀ k f, c.found[k]? = some f → (∀ y ∈ older ++ [newest], y.segment ≠ k) →
            ∃ e, t.segments.table[k]? = some e ∧ e.generation = 0 ∧ e.retire = false ∧
              (f = .blank → e.state = .erased) ∧
              (f ≠ .blank → e.state = .dirty ∨ e.state = .erasing)) ∧
          t.writer.nextPosition = newest.firstPosition + newest.records.length ∧
          t.writer.releaseMark = max (oldest.firstPosition - 1)
            (((records.filter fun r => decide (r.locator.kind = .release)).getLast?.map
              (·.last)).getD 0) ∧
          ∀ o < 16,
            (t.tracker.holding o).known = (t.tracker.holding o).accepted ∧
            (t.tracker.holding o).due = false ∧
            oldest.floor.getD o 0 ≤ (t.tracker.holding o).through ∧
            (t.tracker.holding o).through ≤ (t.tracker.holding o).accepted ∧
            (∀ seq, covered o seq → seq ≤ (t.tracker.holding o).accepted) ∧
            ((t.tracker.holding o).accepted = oldest.floor.getD o 0 ∨
              covered o (t.tracker.holding o).accepted) ∧
            (∀ seq, oldest.floor.getD o 0 < seq → seq ≤ (t.tracker.holding o).through →
              covered o seq) ∧
            ((t.tracker.holding o).through < (t.tracker.holding o).accepted →
              ¬ covered o ((t.tracker.holding o).through + 1)) ∧
            ∀ seq, (t.tracker.gaps ++ t.tracker.excess).any (·.contains o seq) = true ↔
              oldest.floor.getD o 0 < seq ∧ seq ≤ (t.tracker.holding o).accepted ∧ ¬ covered o seq)

/-- An erase completes (R37, R55, R59): GOOD leaves the segment blank and every other byte as before;
FAILED retires it; the generation rises. In FORMATTING (R178, R179) the same, and the next segment that is
not RETIRED is erased at once; with none left FORMAT ends in UNENLISTED, also when it has erased none yet,
which is the model's inference (log 48). -/
def Obligations.EraseCompletes : Prop :=
  ∀ (s : State) (c : EraseContext) (e : Segment), s.array.activity = .erase →
    s.array.context = some c → s.segments.table[c.segment]? = some e → s.array.programClaim = none →
    (s.formatNext = none → ∃ t, exec (.eraseCompletion .good) s = .next t ∧
      (∀ a, t.flash.readByte a = if segmentOf a = c.segment then 0xFF else s.flash.readByte a) ∧
      (t.segments.table[c.segment]?.map (·.generation)) = some (e.generation + 1) ∧
      (e.retire = true → (t.segments.table[c.segment]?.map (·.state)) = some .retired) ∧
      (e.retire = false → (s.segments.full = true → t.segments.full = false) ∧
        ∃ x, t.segments.table[c.segment]? = some x ∧
          (x.state = .erased ∨ x.state.isOpen = true)) ∧
      State.Keeps { s with flash := t.flash } t) ∧
    (s.formatNext = none → ∀ page0, ∃ t, exec (.eraseCompletion (.failed page0)) s = .next t ∧
      (t.segments.table[c.segment]?.map (·.state)) = some .retired ∧
      (t.segments.table[c.segment]?.map (·.generation)) = some (e.generation + 1) ∧
      (∀ a, segmentOf a ≠ c.segment → t.flash.readByte a = s.flash.readByte a) ∧
      State.Keeps { s with flash := t.flash } t) ∧
    ∀ (k : Nat) (outcome : EraseOutcome), s.mode = .formatting → s.formatNext = some k →
      s.array.demand = false → s.writer.jobs = [] →
      let table := s.segments.table.set c.segment
        ⟨if outcome = .good ∧ e.retire = false then .erased else .retired, e.generation + 1, false⟩
      ∃ t, exec (.eraseCompletion outcome) s = .next t ∧
        (∀ a, segmentOf a ≠ c.segment → t.flash.readByte a = s.flash.readByte a) ∧
        (outcome = .good → ∀ a, segmentOf a = c.segment → t.flash.readByte a = 0xFF) ∧
        (∀ j x, k ≤ j → table[j]? = some x → x.state ≠ .retired →
          (∀ i y, k ≤ i → i < j → table[i]? = some y → y.state = .retired) →
          t.mode = .formatting ∧ t.formatNext = some (j + 1) ∧ t.array.activity = .erase ∧
          t.array.context = some ⟨j, true, true, false, false⟩ ∧
          t.segments.table = table.set j { x with state := .erasing } ∧
          State.Keeps { s with flash := t.flash, formatNext := t.formatNext } t) ∧
        ((∀ i y, k ≤ i → table[i]? = some y → y.state = .retired) →
          t.mode = .unenlisted ∧ t.formatNext = none ∧
          State.Keeps { s with flash := t.flash, formatNext := none, mode := .unenlisted } t)

/-- The suspension of an erase (R38 to R40): taken when a claim waits and the current run reaches the
resume minimum, or has reached it; before that the suspend request stands while a claim waits, and is
withdrawn when none does. At its completion the erase is held and the first claim is served, a host read,
a header or record program, a fetch (R25); it is resumed at once when no claim waits. That the minimum is
marked as reached also while no suspend request waits is the model's choice (log 2), as is the program
fault count of a segment whose header program is served (log 39). -/
def Obligations.EraseSuspends : Prop :=
  ∀ (s : State) (c : EraseContext), s.array.context = some c →
    (s.array.activity = .erase → c.minimumReached = false →
      (s.array.demand = true →
        exec .resumeMinimumReached s = .next { s with array := { s.array with
          activity := .suspending
          context := some { c with minimumReached := true, suspendRequest := false } } }) ∧
      (s.array.demand = false →
        exec .resumeMinimumReached s = .next { s with array := { s.array with
          context := some { c with minimumReached := true, suspendRequest := false } } })) ∧
    (s.array.activity = .erase →
      (s.array.demand = true → c.minimumReached = true →
        s.checkSuspend = { s with array := { s.array with
          activity := .suspending, context := some { c with suspendRequest := false } } }) ∧
      (s.array.demand = true → c.minimumReached = false →
        s.checkSuspend = { s with array := { s.array with
          context := some { c with suspendRequest := true } } }) ∧
      (s.array.demand = false →
        s.checkSuspend = { s with array := { s.array with
          context := some { c with suspendRequest := false } } })) ∧
    (s.array.activity = .suspending →
      (∀ h, s.array.hostClaim = some h → (s.segments.use? h.segment).isSome = true →
        ∃ t, exec .suspensionCompletion s = .next t ∧ t.array.activity = .read (.host h) ∧
          t.array.hostClaim = none ∧ t.array.context = some { c with running := false } ∧
          s.Keeps t ∧ s.KeepsTables t) ∧
      (∀ k e, s.array.hostClaim = none → s.array.programClaim = some (.header k) →
        s.segments.table[k]? = some e →
        ∃ t, exec .suspensionCompletion s = .next t ∧ t.array.activity = .program (.header k) ∧
          t.array.context = some { c with running := false } ∧
          t.segments.table[k]? = some ⟨
            .opened ⟨s.writer.nextPosition, none, 0, s.floorVector, [], [], []⟩ (.place 1 0) 0,
            e.generation, e.retire⟩ ∧
          s.Keeps t ∧ s.KeepsTables t) ∧
      (∀ f rest, s.array.hostClaim = none → s.array.programClaim = none →
        s.array.fetchClaims = f :: rest → (s.segments.use? f.segment).isSome = true →
        s.writer.jobs = [] → s.tracker.excess = [] →
        ∃ t, exec .suspensionCompletion s = .next t ∧ t.array.activity = .read (.fetch f .wanted) ∧
          t.array.fetchClaims = rest ∧ t.array.context = some { c with running := false } ∧
          s.Keeps t ∧ s.KeepsTables t) ∧
      (s.array.demand = true → s.array.hostClaim = none →
        s.array.programClaim = some .record →
        ∃ t, exec .suspensionCompletion s = .next t ∧
          t.array.activity = .program .record ∧ t.array.context = some { c with running := false } ∧
          s.Keeps t ∧ s.KeepsTables t) ∧
      (s.array.demand = false → s.writer.jobs = [] → s.tracker.excess = [] →
        ∃ t, exec .suspensionCompletion s = .next t ∧ t.array.activity = .erase ∧
          t.array.context = some ⟨c.segment, true, true, false, false⟩ ∧
          s.Keeps t ∧ s.KeepsTables t))

/-- The placement of the head job (R12, R48): its place, the sealing of the OPEN segment, the choice of
the ERASED one with the lowest generation, FULL when there is none (R49, R50, R53). And the order in which
an IDLE array serves (R25, R34): the host read first, then the program, then the first fetch, and the
erase last; a header program served makes its segment OPEN with the fields of its header (R11, R28, R49);
a read claim of a segment that is no longer readable is refused. The model's choices are the program fault
count from the serving on (log 39), and that a refused fetch's entry makes its next claim ahead of the
erase (log 46). -/
def Obligations.ClaimsServedInOrder : Prop :=
  (∀ (s : State) (j : Job) (rest : List Job), s.writer.jobs = j :: rest →
    s.array.programBusy = false →
    (s.segments.full = true → s.placeHead = s) ∧
    (s.segments.full = false →
      (∀ k u page offset faults, s.segments.open? = some (k, u, .place page offset, faults) →
        let placed := fun page offset => { s with
          segments := { s.segments with table := s.segments.table.modify k fun e =>
            { e with state := .opened u (.place page offset) faults } }
          writer := { s.writer with place := some ⟨s.writer.nextPosition, k, page, offset⟩ }
          array := { s.array with programClaim := some .record } }
        (offset + j.body.size ≤ 256 → s.placeHead = placed page offset) ∧
        (256 < offset + j.body.size → page < 255 → s.placeHead = placed (page + 1) 0)) ∧
      (s.segments.open? = none ∨ (∃ k u faults, s.segments.open? = some (k, u, .past, faults)) ∨
          (∃ k u page offset faults, s.segments.open? = some (k, u, .place page offset, faults) ∧
            256 < offset + j.body.size ∧ 255 ≤ page) →
        let table := match s.segments.open? with
          | some (k, u, _, _) => s.segments.table.modify k fun e => { e with state := .sealed u }
          | none => s.segments.table
        (∀ k e, table[k]? = some e → e.state = .erased →
          (∀ i x, table[i]? = some x → x.state = .erased →
            e.generation.toNat < x.generation.toNat ∨ e.generation = x.generation ∧ k ≤ i) →
          s.placeHead = { s with
            segments := { s.segments with table := table }
            array := { s.array with programClaim := some (.header k) } }) ∧
        ((∀ e ∈ table, e.state ≠ .erased) →
          s.placeHead = { s with
            segments := { s.segments with table := table, full := true }
            raised := s.raised ++ [(.segmentManager, .full true)] })))) ∧
  (∀ s : State, s.floorVector = (List.range 16).map fun o =>
    if s.enlistment = none ∨ o < s.clusterSize then (s.tracker.holding o).through else 0) ∧
  ∀ (s : State), s.array.activity = .idle →
    (∀ c, s.array.hostClaim = some c → (s.segments.use? c.segment).isSome = true →
      s.serve = { s with array := { s.array with
        hostClaim := none, activity := .read (.host c) } }) ∧
    (∀ c, s.array.hostClaim = some c → s.segments.use? c.segment = none →
      s.serve.array.hostClaim = none ∧
      (∀ target, s.port.slot = .pending target → s.serve.port.slot = .done target .reclaimed) ∧
      (s.array.programClaim = some .record → s.serve.array.activity = .program .record)) ∧
    (s.array.hostClaim = none →
      (s.array.programClaim = some .record →
        s.serve = { s with array := { s.array with
          programClaim := none, activity := .program .record } }) ∧
      (∀ k, s.array.programClaim = some (.header k) →
        s.serve = { s with
          array := { s.array with programClaim := none, activity := .program (.header k) }
          segments := { s.segments with table := s.segments.table.modify k fun e => ⟨
            .opened ⟨s.writer.nextPosition, none, 0, s.floorVector, [], [], []⟩ (.place 1 0) 0,
            e.generation, e.retire⟩ } }) ∧
      (s.array.programClaim = none →
        (∀ c rest, s.array.fetchClaims = c :: rest → (s.segments.use? c.segment).isSome = true →
          s.serve = { s with array := { s.array with
            fetchClaims := rest, activity := .read (.fetch c .wanted) } }) ∧
        (∀ c rest, s.array.fetchClaims = c :: rest → s.segments.use? c.segment = none →
          (∀ x ∈ s.serve.repair.responders, x.requester = c.requester → x.origin = c.origin →
            c.seq ∉ x.list) ∧
          (∀ e list k l, rest = [] → s.repair.responder? c.requester c.origin = some e →
            s.segments.firstStored c.origin (e.list.filter (· ≠ c.seq)) = some (list, k, l) →
            s.serve.array.activity = .read (.fetch
              ⟨c.requester, c.origin, l.seq, k, l.page, l.offset, l.size⟩ .wanted) ∧
            ∃ x ∈ s.serve.repair.responders, x.requester = c.requester ∧ x.origin = c.origin ∧
              x.state = .fetching ∧ x.list = list)) ∧
        (s.array.fetchClaims = [] → ∀ c, s.array.context = some c → c.running = false →
          s.serve = { s with array := { s.array with
            activity := .erase, context := some ⟨c.segment, true, true, false, false⟩ } })))

/-! ### Rules of one block -/

/-- Held-through after a completion (R91): the greatest seq up to highest accepted, not below the old
value, with nothing in a gap entry, pending or in the excess list up to it. -/
def Obligations.HeldThroughAdvances : Prop :=
  ∀ (t : Tracker) (o : Nat), (t.holding o).through ≤ (t.holding o).accepted →
    (∀ r ∈ t.gaps, r.first ≤ r.last) → (∀ r ∈ t.excess, r.first ≤ r.last) →
    (∀ a b c, .hole a b c ∈ t.pending → b ≤ c) →
    let lacks := fun seq => t.gaps.any (·.contains o seq) = true ∨
      t.excess.any (·.contains o seq) = true ∨ t.pending.any (·.coversHole o seq) = true ∨
      t.pending.any (·.isData o seq) = true
    (t.holding o).through ≤ t.advanced o ∧ t.advanced o ≤ (t.holding o).accepted ∧
    (∀ seq, (t.holding o).through < seq → seq ≤ t.advanced o → ¬ lacks seq) ∧
    (t.advanced o < (t.holding o).accepted → lacks (t.advanced o + 1))

/-- The confirmation test (R107, R108) and the commit completion (R104, R109): with W of 1 or more,
exactly the tested entries that at least W peers report are declared, in the order of the queue, with
one DURABLE notice each; the mark rises. -/
def Obligations.ConfirmationTest : Prop :=
  (∀ (s : State) (next : Nat), 1 ≤ s.replicationTarget → s.submission.nextSeq = some next →
    let holds := fun (e : Entry) => decide (e.stage ≠ .committing) && !e.declared &&
      decide (s.replicationTarget ≤ ((List.range s.clusterSize).filter fun p => !s.isOwn p &&
        decide (e.seq ≤ (s.presence.peer p).reported.getD s.ownNumber 0) &&
        decide ((s.presence.peer p).reported.getD s.ownNumber 0 < next)).length)
    s.confirmTest.submission.queue = s.submission.queue.filter (fun e => !holds e) ∧
    s.confirmTest.raised = s.raised ++ (s.submission.queue.filter holds).map (fun e =>
      (.submissionController, .durable e.ticket e.seq)) ∧
    (∀ e ∈ s.submission.queue, holds e = true → e.seq ≤ s.confirmTest.submission.durable) ∧
    s.submission.durable ≤ s.confirmTest.submission.durable ∧
    s.confirmTest.submission.nextSeq = s.submission.nextSeq) ∧
  ∀ (s : State) (seq : Nat) (e : Entry), s.submission.entry? seq = some e →
    (1 ≤ s.replicationTarget → s.commitDone seq
      = State.confirmTest { s with submission := { s.submission with
          queue := s.submission.queue.map fun x =>
            if x.seq = seq then { x with stage := .sending } else x } }) ∧
    (s.replicationTarget = 0 → s.commitDone seq = { s with
      submission := { s.submission with
        queue := s.submission.queue.map fun x =>
          if x.seq = seq then { x with stage := .sending, declared := true } else x
        durable := max s.submission.durable e.seq }
      raised := s.raised ++ [(.submissionController, .durable e.ticket e.seq)] })

/-- The Segment Manager's erase requests while none is in hand (R56): of the lowest-numbered DIRTY
segment; without one, a reclaim start exactly of the oldest segment in use, not OPEN, under the four
conditions of R57, which raises the own reclaimed floor to the own span's high seq (R58) and takes the
segment's records out of the check index (R83). -/
def Obligations.ReclaimConditions : Prop :=
  ∀ (s : State), s.array.context = none →
    (∀ k e, s.segments.table[k]? = some e → e.state = .dirty →
      (∀ i x, i < k → s.segments.table[i]? = some x → x.state ≠ .dirty) →
      s.mode = .unenlisted ∨ s.mode = .joining ∨ s.mode = .active →
      s.scheduleErase = { s with
        segments := { s.segments with table := s.segments.table.set k { e with state := .erasing } }
        array := { s.array with context := some ⟨k, false, false, false, false⟩ } }) ∧
    (s.segments.firstDirty = none →
      let may := fun (k : Nat) (u : InUse) =>
        s.segments.oldest = some (k, u) ∧ s.segments.erasedCount < 2 ∧ s.mode.onLine = true ∧
        (s.segments.table[k]?.map (·.state.isOpen)) = some false ∧
        u.lastPosition.getD (u.firstPosition - 1) ≤ s.writer.releaseMark ∧
        (∀ sp ∈ u.spans, sp.origin < s.clusterSize → ∀ p < s.clusterSize, s.isOwn p = false →
          (s.presence.peer p).state ≠ .absent →
          sp.high ≤ (s.presence.peer p).reported.getD sp.origin 0) ∧
        (∀ sp ∈ u.spans, s.isOwn sp.origin = true → ∀ e ∈ s.submission.queue, sp.high < e.seq) ∧
        ∃ j v, s.segments.following u.firstPosition = some (j, v) ∧
          (∀ sp ∈ u.spans, sp.origin < s.clusterSize → sp.high ≤ v.floor.getD sp.origin 0) ∧
          ∀ h ∈ u.holes, h.origin < s.clusterSize → h.high ≤ v.floor.getD h.origin 0
      (s.scheduleErase ≠ s → ∃ k u, may k u) ∧
      ∀ k u, may k u →
        s.scheduleErase.array.context = some ⟨k, false, false, false, false⟩ ∧
        (s.scheduleErase.segments.table[k]?.map (·.state)) = some .erasing ∧
        (∀ i, i ≠ k → s.scheduleErase.segments.table[i]? = s.segments.table[i]?) ∧
        s.segments.ownFloor ≤ s.scheduleErase.segments.ownFloor ∧
        (∀ sp ∈ u.spans, s.isOwn sp.origin = true → sp.high ≤ s.scheduleErase.segments.ownFloor) ∧
        (s.scheduleErase.segments.ownFloor = s.segments.ownFloor ∨
          ∃ sp ∈ u.spans, s.isOwn sp.origin = true ∧
            s.scheduleErase.segments.ownFloor = sp.high) ∧
        s.scheduleErase.tracker.holdings = s.tracker.holdings ∧
        s.scheduleErase.tracker.index = s.tracker.index.filter (fun e => !u.locators.any fun l =>
          l.kind = .data && l.origin = e.origin && l.seq = e.seq))

/-! ### Invariants and rules of the whole machine -/

/-- The state after reset meets every invariant below; that its flash lists nothing is the model's choice
(log 7). -/
def Obligations.ResetMeetsInvariants : Prop :=
  State.reset.LimitsOk ∧ State.reset.NoticesOk ∧ State.reset.TrackingOk ∧ State.reset.PeersOk ∧
    State.reset.FormatOk ∧ State.reset.flash.wf = true

/-- Every step keeps the bounds of the queues and tables (R46, R75, R84, R99, R132, R141). That one
RELEASE job at most is in the queue is the model's choice (log 18). -/
def Obligations.StepKeepsLimits : Prop :=
  ∀ s t : State, s.LimitsOk → Machine.step s = .next t → t.LimitsOk

/-- Every step keeps the notice queue at no more than 16 notices with at most one ARRIVAL, and the
lost-notice count at no more than 255 (R167, R168), whatever the free order of notices is (log 4). -/
def Obligations.StepKeepsNotices : Prop :=
  ∀ s t : State, s.NoticesOk → Machine.step s = .next t → t.NoticesOk

/-- Every step keeps held-through at or below highest accepted and that at or below known high (R80),
no gap entry above the highest accepted of its origin (R84), and the peer table's shape (R121). -/
def Obligations.StepKeepsHoldings : Prop :=
  ∀ s t : State, Machine.step s = .next t →
    (s.TrackingOk → t.TrackingOk) ∧ (s.PeersOk → t.PeersOk)

/-- Every step keeps the canonical form of flash, and only the completions of programs and erases and a
station reset change flash at all (R18, R22); that bytes change at a completion is the model's choice
(log 35). -/
def Obligations.StepKeepsFlash : Prop :=
  ∀ s t : State, Machine.step s = .next t →
    (s.flash.wf = true → t.flash.wf = true) ∧
    ((∀ c rest, s.pending = c :: rest → c.touchesFlash = false) → t.flash = s.flash)

/-- The mode changes only as the table of R171 gives, and FORMAT's progress stays with FORMATTING. -/
def Obligations.ModeChangesByTable : Prop :=
  ∀ (s t : State) (i : Instr), s.FormatOk → exec i s = .next t →
    t.FormatOk ∧ (t.mode = s.mode ∨ i.mayEnter s.mode t.mode = true)

/-- The release mark never falls but at a station reset, its mount and FORMAT (R52). -/
def Obligations.ReleaseMarkRises : Prop :=
  ∀ (s t : State) (i : Instr), i.lowersMark = false → exec i s = .next t →
    s.writer.releaseMark ≤ t.writer.releaseMark

/-- Decoding the data bytes of any frame that passes the field checks gives the frame back (R63, R64,
R185, R187). -/
def Obligations.FrameRoundTrip : Prop :=
  ∀ (n : Nat) (f : Machine.Frame), n ≤ 16 → f.fieldsGood n = true → f.body.length ≤ 255 →
    parseFrame f.bytes = some f

/-- Decoding the bytes of a host command's selection gives the command back (R148, R153 to R166,
R169). -/
def Obligations.SelectionRoundTrip : Prop :=
  ∀ (cut : CutShort) (i : Instr) (bytes : List Byte), i.wellFormed = true →
    (∀ c m, i = .reset c m → c = cut) → encodeSelection i = some bytes → decodeSelection cut bytes = i

end
end

