-- ==== Sys2Proof/Laws/State.lean ====
section
/-! SUPPORT. One lemma per field per update of State, true by unfolding, for simp. -/

namespace Sys2Proof.Machine

@[simp] theorem State.setPending_pending (s : State) (v : List Instr) : (s.setPending v).pending = v := rfl
@[simp] theorem State.setPending_mode (s : State) (v : List Instr) : (s.setPending v).mode = s.mode := rfl
@[simp] theorem State.setPending_enlistment (s : State) (v : List Instr) : (s.setPending v).enlistment = s.enlistment := rfl
@[simp] theorem State.setPending_port (s : State) (v : List Instr) : (s.setPending v).port = s.port := rfl
@[simp] theorem State.setPending_line (s : State) (v : List Instr) : (s.setPending v).line = s.line := rfl
@[simp] theorem State.setPending_tracker (s : State) (v : List Instr) : (s.setPending v).tracker = s.tracker := rfl
@[simp] theorem State.setPending_presence (s : State) (v : List Instr) : (s.setPending v).presence = s.presence := rfl
@[simp] theorem State.setPending_submission (s : State) (v : List Instr) : (s.setPending v).submission = s.submission := rfl
@[simp] theorem State.setPending_repair (s : State) (v : List Instr) : (s.setPending v).repair = s.repair := rfl
@[simp] theorem State.setPending_writer (s : State) (v : List Instr) : (s.setPending v).writer = s.writer := rfl
@[simp] theorem State.setPending_segments (s : State) (v : List Instr) : (s.setPending v).segments = s.segments := rfl
@[simp] theorem State.setPending_array (s : State) (v : List Instr) : (s.setPending v).array = s.array := rfl
@[simp] theorem State.setPending_scan (s : State) (v : List Instr) : (s.setPending v).scan = s.scan := rfl
@[simp] theorem State.setPending_formatNext (s : State) (v : List Instr) : (s.setPending v).formatNext = s.formatNext := rfl
@[simp] theorem State.setPending_flash (s : State) (v : List Instr) : (s.setPending v).flash = s.flash := rfl
@[simp] theorem State.setPending_raised (s : State) (v : List Instr) : (s.setPending v).raised = s.raised := rfl
@[simp] theorem State.setPending_freeIndex (s : State) (v : List Instr) : (s.setPending v).freeIndex = s.freeIndex := rfl
@[simp] theorem State.setMode_pending (s : State) (v : Mode) : (s.setMode v).pending = s.pending := rfl
@[simp] theorem State.setMode_mode (s : State) (v : Mode) : (s.setMode v).mode = v := rfl
@[simp] theorem State.setMode_enlistment (s : State) (v : Mode) : (s.setMode v).enlistment = s.enlistment := rfl
@[simp] theorem State.setMode_port (s : State) (v : Mode) : (s.setMode v).port = s.port := rfl
@[simp] theorem State.setMode_line (s : State) (v : Mode) : (s.setMode v).line = s.line := rfl
@[simp] theorem State.setMode_tracker (s : State) (v : Mode) : (s.setMode v).tracker = s.tracker := rfl
@[simp] theorem State.setMode_presence (s : State) (v : Mode) : (s.setMode v).presence = s.presence := rfl
@[simp] theorem State.setMode_submission (s : State) (v : Mode) : (s.setMode v).submission = s.submission := rfl
@[simp] theorem State.setMode_repair (s : State) (v : Mode) : (s.setMode v).repair = s.repair := rfl
@[simp] theorem State.setMode_writer (s : State) (v : Mode) : (s.setMode v).writer = s.writer := rfl
@[simp] theorem State.setMode_segments (s : State) (v : Mode) : (s.setMode v).segments = s.segments := rfl
@[simp] theorem State.setMode_array (s : State) (v : Mode) : (s.setMode v).array = s.array := rfl
@[simp] theorem State.setMode_scan (s : State) (v : Mode) : (s.setMode v).scan = s.scan := rfl
@[simp] theorem State.setMode_formatNext (s : State) (v : Mode) : (s.setMode v).formatNext = s.formatNext := rfl
@[simp] theorem State.setMode_flash (s : State) (v : Mode) : (s.setMode v).flash = s.flash := rfl
@[simp] theorem State.setMode_raised (s : State) (v : Mode) : (s.setMode v).raised = s.raised := rfl
@[simp] theorem State.setMode_freeIndex (s : State) (v : Mode) : (s.setMode v).freeIndex = s.freeIndex := rfl
@[simp] theorem State.setEnlistment_pending (s : State) (v : Option Enlistment) : (s.setEnlistment v).pending = s.pending := rfl
@[simp] theorem State.setEnlistment_mode (s : State) (v : Option Enlistment) : (s.setEnlistment v).mode = s.mode := rfl
@[simp] theorem State.setEnlistment_enlistment (s : State) (v : Option Enlistment) : (s.setEnlistment v).enlistment = v := rfl
@[simp] theorem State.setEnlistment_port (s : State) (v : Option Enlistment) : (s.setEnlistment v).port = s.port := rfl
@[simp] theorem State.setEnlistment_line (s : State) (v : Option Enlistment) : (s.setEnlistment v).line = s.line := rfl
@[simp] theorem State.setEnlistment_tracker (s : State) (v : Option Enlistment) : (s.setEnlistment v).tracker = s.tracker := rfl
@[simp] theorem State.setEnlistment_presence (s : State) (v : Option Enlistment) : (s.setEnlistment v).presence = s.presence := rfl
@[simp] theorem State.setEnlistment_submission (s : State) (v : Option Enlistment) : (s.setEnlistment v).submission = s.submission := rfl
@[simp] theorem State.setEnlistment_repair (s : State) (v : Option Enlistment) : (s.setEnlistment v).repair = s.repair := rfl
@[simp] theorem State.setEnlistment_writer (s : State) (v : Option Enlistment) : (s.setEnlistment v).writer = s.writer := rfl
@[simp] theorem State.setEnlistment_segments (s : State) (v : Option Enlistment) : (s.setEnlistment v).segments = s.segments := rfl
@[simp] theorem State.setEnlistment_array (s : State) (v : Option Enlistment) : (s.setEnlistment v).array = s.array := rfl
@[simp] theorem State.setEnlistment_scan (s : State) (v : Option Enlistment) : (s.setEnlistment v).scan = s.scan := rfl
@[simp] theorem State.setEnlistment_formatNext (s : State) (v : Option Enlistment) : (s.setEnlistment v).formatNext = s.formatNext := rfl
@[simp] theorem State.setEnlistment_flash (s : State) (v : Option Enlistment) : (s.setEnlistment v).flash = s.flash := rfl
@[simp] theorem State.setEnlistment_raised (s : State) (v : Option Enlistment) : (s.setEnlistment v).raised = s.raised := rfl
@[simp] theorem State.setEnlistment_freeIndex (s : State) (v : Option Enlistment) : (s.setEnlistment v).freeIndex = s.freeIndex := rfl
@[simp] theorem State.setPort_pending (s : State) (v : Port) : (s.setPort v).pending = s.pending := rfl
@[simp] theorem State.setPort_mode (s : State) (v : Port) : (s.setPort v).mode = s.mode := rfl
@[simp] theorem State.setPort_enlistment (s : State) (v : Port) : (s.setPort v).enlistment = s.enlistment := rfl
@[simp] theorem State.setPort_port (s : State) (v : Port) : (s.setPort v).port = v := rfl
@[simp] theorem State.setPort_line (s : State) (v : Port) : (s.setPort v).line = s.line := rfl
@[simp] theorem State.setPort_tracker (s : State) (v : Port) : (s.setPort v).tracker = s.tracker := rfl
@[simp] theorem State.setPort_presence (s : State) (v : Port) : (s.setPort v).presence = s.presence := rfl
@[simp] theorem State.setPort_submission (s : State) (v : Port) : (s.setPort v).submission = s.submission := rfl
@[simp] theorem State.setPort_repair (s : State) (v : Port) : (s.setPort v).repair = s.repair := rfl
@[simp] theorem State.setPort_writer (s : State) (v : Port) : (s.setPort v).writer = s.writer := rfl
@[simp] theorem State.setPort_segments (s : State) (v : Port) : (s.setPort v).segments = s.segments := rfl
@[simp] theorem State.setPort_array (s : State) (v : Port) : (s.setPort v).array = s.array := rfl
@[simp] theorem State.setPort_scan (s : State) (v : Port) : (s.setPort v).scan = s.scan := rfl
@[simp] theorem State.setPort_formatNext (s : State) (v : Port) : (s.setPort v).formatNext = s.formatNext := rfl
@[simp] theorem State.setPort_flash (s : State) (v : Port) : (s.setPort v).flash = s.flash := rfl
@[simp] theorem State.setPort_raised (s : State) (v : Port) : (s.setPort v).raised = s.raised := rfl
@[simp] theorem State.setPort_freeIndex (s : State) (v : Port) : (s.setPort v).freeIndex = s.freeIndex := rfl
@[simp] theorem State.setLine_pending (s : State) (v : Line) : (s.setLine v).pending = s.pending := rfl
@[simp] theorem State.setLine_mode (s : State) (v : Line) : (s.setLine v).mode = s.mode := rfl
@[simp] theorem State.setLine_enlistment (s : State) (v : Line) : (s.setLine v).enlistment = s.enlistment := rfl
@[simp] theorem State.setLine_port (s : State) (v : Line) : (s.setLine v).port = s.port := rfl
@[simp] theorem State.setLine_line (s : State) (v : Line) : (s.setLine v).line = v := rfl
@[simp] theorem State.setLine_tracker (s : State) (v : Line) : (s.setLine v).tracker = s.tracker := rfl
@[simp] theorem State.setLine_presence (s : State) (v : Line) : (s.setLine v).presence = s.presence := rfl
@[simp] theorem State.setLine_submission (s : State) (v : Line) : (s.setLine v).submission = s.submission := rfl
@[simp] theorem State.setLine_repair (s : State) (v : Line) : (s.setLine v).repair = s.repair := rfl
@[simp] theorem State.setLine_writer (s : State) (v : Line) : (s.setLine v).writer = s.writer := rfl
@[simp] theorem State.setLine_segments (s : State) (v : Line) : (s.setLine v).segments = s.segments := rfl
@[simp] theorem State.setLine_array (s : State) (v : Line) : (s.setLine v).array = s.array := rfl
@[simp] theorem State.setLine_scan (s : State) (v : Line) : (s.setLine v).scan = s.scan := rfl
@[simp] theorem State.setLine_formatNext (s : State) (v : Line) : (s.setLine v).formatNext = s.formatNext := rfl
@[simp] theorem State.setLine_flash (s : State) (v : Line) : (s.setLine v).flash = s.flash := rfl
@[simp] theorem State.setLine_raised (s : State) (v : Line) : (s.setLine v).raised = s.raised := rfl
@[simp] theorem State.setLine_freeIndex (s : State) (v : Line) : (s.setLine v).freeIndex = s.freeIndex := rfl
@[simp] theorem State.setTracker_pending (s : State) (v : Tracker) : (s.setTracker v).pending = s.pending := rfl
@[simp] theorem State.setTracker_mode (s : State) (v : Tracker) : (s.setTracker v).mode = s.mode := rfl
@[simp] theorem State.setTracker_enlistment (s : State) (v : Tracker) : (s.setTracker v).enlistment = s.enlistment := rfl
@[simp] theorem State.setTracker_port (s : State) (v : Tracker) : (s.setTracker v).port = s.port := rfl
@[simp] theorem State.setTracker_line (s : State) (v : Tracker) : (s.setTracker v).line = s.line := rfl
@[simp] theorem State.setTracker_tracker (s : State) (v : Tracker) : (s.setTracker v).tracker = v := rfl
@[simp] theorem State.setTracker_presence (s : State) (v : Tracker) : (s.setTracker v).presence = s.presence := rfl
@[simp] theorem State.setTracker_submission (s : State) (v : Tracker) : (s.setTracker v).submission = s.submission := rfl
@[simp] theorem State.setTracker_repair (s : State) (v : Tracker) : (s.setTracker v).repair = s.repair := rfl
@[simp] theorem State.setTracker_writer (s : State) (v : Tracker) : (s.setTracker v).writer = s.writer := rfl
@[simp] theorem State.setTracker_segments (s : State) (v : Tracker) : (s.setTracker v).segments = s.segments := rfl
@[simp] theorem State.setTracker_array (s : State) (v : Tracker) : (s.setTracker v).array = s.array := rfl
@[simp] theorem State.setTracker_scan (s : State) (v : Tracker) : (s.setTracker v).scan = s.scan := rfl
@[simp] theorem State.setTracker_formatNext (s : State) (v : Tracker) : (s.setTracker v).formatNext = s.formatNext := rfl
@[simp] theorem State.setTracker_flash (s : State) (v : Tracker) : (s.setTracker v).flash = s.flash := rfl
@[simp] theorem State.setTracker_raised (s : State) (v : Tracker) : (s.setTracker v).raised = s.raised := rfl
@[simp] theorem State.setTracker_freeIndex (s : State) (v : Tracker) : (s.setTracker v).freeIndex = s.freeIndex := rfl
@[simp] theorem State.setPresence_pending (s : State) (v : Presence) : (s.setPresence v).pending = s.pending := rfl
@[simp] theorem State.setPresence_mode (s : State) (v : Presence) : (s.setPresence v).mode = s.mode := rfl
@[simp] theorem State.setPresence_enlistment (s : State) (v : Presence) : (s.setPresence v).enlistment = s.enlistment := rfl
@[simp] theorem State.setPresence_port (s : State) (v : Presence) : (s.setPresence v).port = s.port := rfl
@[simp] theorem State.setPresence_line (s : State) (v : Presence) : (s.setPresence v).line = s.line := rfl
@[simp] theorem State.setPresence_tracker (s : State) (v : Presence) : (s.setPresence v).tracker = s.tracker := rfl
@[simp] theorem State.setPresence_presence (s : State) (v : Presence) : (s.setPresence v).presence = v := rfl
@[simp] theorem State.setPresence_submission (s : State) (v : Presence) : (s.setPresence v).submission = s.submission := rfl
@[simp] theorem State.setPresence_repair (s : State) (v : Presence) : (s.setPresence v).repair = s.repair := rfl
@[simp] theorem State.setPresence_writer (s : State) (v : Presence) : (s.setPresence v).writer = s.writer := rfl
@[simp] theorem State.setPresence_segments (s : State) (v : Presence) : (s.setPresence v).segments = s.segments := rfl
@[simp] theorem State.setPresence_array (s : State) (v : Presence) : (s.setPresence v).array = s.array := rfl
@[simp] theorem State.setPresence_scan (s : State) (v : Presence) : (s.setPresence v).scan = s.scan := rfl
@[simp] theorem State.setPresence_formatNext (s : State) (v : Presence) : (s.setPresence v).formatNext = s.formatNext := rfl
@[simp] theorem State.setPresence_flash (s : State) (v : Presence) : (s.setPresence v).flash = s.flash := rfl
@[simp] theorem State.setPresence_raised (s : State) (v : Presence) : (s.setPresence v).raised = s.raised := rfl
@[simp] theorem State.setPresence_freeIndex (s : State) (v : Presence) : (s.setPresence v).freeIndex = s.freeIndex := rfl
@[simp] theorem State.setSubmission_pending (s : State) (v : Submission) : (s.setSubmission v).pending = s.pending := rfl
@[simp] theorem State.setSubmission_mode (s : State) (v : Submission) : (s.setSubmission v).mode = s.mode := rfl
@[simp] theorem State.setSubmission_enlistment (s : State) (v : Submission) : (s.setSubmission v).enlistment = s.enlistment := rfl
@[simp] theorem State.setSubmission_port (s : State) (v : Submission) : (s.setSubmission v).port = s.port := rfl
@[simp] theorem State.setSubmission_line (s : State) (v : Submission) : (s.setSubmission v).line = s.line := rfl
@[simp] theorem State.setSubmission_tracker (s : State) (v : Submission) : (s.setSubmission v).tracker = s.tracker := rfl
@[simp] theorem State.setSubmission_presence (s : State) (v : Submission) : (s.setSubmission v).presence = s.presence := rfl
@[simp] theorem State.setSubmission_submission (s : State) (v : Submission) : (s.setSubmission v).submission = v := rfl
@[simp] theorem State.setSubmission_repair (s : State) (v : Submission) : (s.setSubmission v).repair = s.repair := rfl
@[simp] theorem State.setSubmission_writer (s : State) (v : Submission) : (s.setSubmission v).writer = s.writer := rfl
@[simp] theorem State.setSubmission_segments (s : State) (v : Submission) : (s.setSubmission v).segments = s.segments := rfl
@[simp] theorem State.setSubmission_array (s : State) (v : Submission) : (s.setSubmission v).array = s.array := rfl
@[simp] theorem State.setSubmission_scan (s : State) (v : Submission) : (s.setSubmission v).scan = s.scan := rfl
@[simp] theorem State.setSubmission_formatNext (s : State) (v : Submission) : (s.setSubmission v).formatNext = s.formatNext := rfl
@[simp] theorem State.setSubmission_flash (s : State) (v : Submission) : (s.setSubmission v).flash = s.flash := rfl
@[simp] theorem State.setSubmission_raised (s : State) (v : Submission) : (s.setSubmission v).raised = s.raised := rfl
@[simp] theorem State.setSubmission_freeIndex (s : State) (v : Submission) : (s.setSubmission v).freeIndex = s.freeIndex := rfl
@[simp] theorem State.setRepair_pending (s : State) (v : Repair) : (s.setRepair v).pending = s.pending := rfl
@[simp] theorem State.setRepair_mode (s : State) (v : Repair) : (s.setRepair v).mode = s.mode := rfl
@[simp] theorem State.setRepair_enlistment (s : State) (v : Repair) : (s.setRepair v).enlistment = s.enlistment := rfl
@[simp] theorem State.setRepair_port (s : State) (v : Repair) : (s.setRepair v).port = s.port := rfl
@[simp] theorem State.setRepair_line (s : State) (v : Repair) : (s.setRepair v).line = s.line := rfl
@[simp] theorem State.setRepair_tracker (s : State) (v : Repair) : (s.setRepair v).tracker = s.tracker := rfl
@[simp] theorem State.setRepair_presence (s : State) (v : Repair) : (s.setRepair v).presence = s.presence := rfl
@[simp] theorem State.setRepair_submission (s : State) (v : Repair) : (s.setRepair v).submission = s.submission := rfl
@[simp] theorem State.setRepair_repair (s : State) (v : Repair) : (s.setRepair v).repair = v := rfl
@[simp] theorem State.setRepair_writer (s : State) (v : Repair) : (s.setRepair v).writer = s.writer := rfl
@[simp] theorem State.setRepair_segments (s : State) (v : Repair) : (s.setRepair v).segments = s.segments := rfl
@[simp] theorem State.setRepair_array (s : State) (v : Repair) : (s.setRepair v).array = s.array := rfl
@[simp] theorem State.setRepair_scan (s : State) (v : Repair) : (s.setRepair v).scan = s.scan := rfl
@[simp] theorem State.setRepair_formatNext (s : State) (v : Repair) : (s.setRepair v).formatNext = s.formatNext := rfl
@[simp] theorem State.setRepair_flash (s : State) (v : Repair) : (s.setRepair v).flash = s.flash := rfl
@[simp] theorem State.setRepair_raised (s : State) (v : Repair) : (s.setRepair v).raised = s.raised := rfl
@[simp] theorem State.setRepair_freeIndex (s : State) (v : Repair) : (s.setRepair v).freeIndex = s.freeIndex := rfl
@[simp] theorem State.setWriter_pending (s : State) (v : Writer) : (s.setWriter v).pending = s.pending := rfl
@[simp] theorem State.setWriter_mode (s : State) (v : Writer) : (s.setWriter v).mode = s.mode := rfl
@[simp] theorem State.setWriter_enlistment (s : State) (v : Writer) : (s.setWriter v).enlistment = s.enlistment := rfl
@[simp] theorem State.setWriter_port (s : State) (v : Writer) : (s.setWriter v).port = s.port := rfl
@[simp] theorem State.setWriter_line (s : State) (v : Writer) : (s.setWriter v).line = s.line := rfl
@[simp] theorem State.setWriter_tracker (s : State) (v : Writer) : (s.setWriter v).tracker = s.tracker := rfl
@[simp] theorem State.setWriter_presence (s : State) (v : Writer) : (s.setWriter v).presence = s.presence := rfl
@[simp] theorem State.setWriter_submission (s : State) (v : Writer) : (s.setWriter v).submission = s.submission := rfl
@[simp] theorem State.setWriter_repair (s : State) (v : Writer) : (s.setWriter v).repair = s.repair := rfl
@[simp] theorem State.setWriter_writer (s : State) (v : Writer) : (s.setWriter v).writer = v := rfl
@[simp] theorem State.setWriter_segments (s : State) (v : Writer) : (s.setWriter v).segments = s.segments := rfl
@[simp] theorem State.setWriter_array (s : State) (v : Writer) : (s.setWriter v).array = s.array := rfl
@[simp] theorem State.setWriter_scan (s : State) (v : Writer) : (s.setWriter v).scan = s.scan := rfl
@[simp] theorem State.setWriter_formatNext (s : State) (v : Writer) : (s.setWriter v).formatNext = s.formatNext := rfl
@[simp] theorem State.setWriter_flash (s : State) (v : Writer) : (s.setWriter v).flash = s.flash := rfl
@[simp] theorem State.setWriter_raised (s : State) (v : Writer) : (s.setWriter v).raised = s.raised := rfl
@[simp] theorem State.setWriter_freeIndex (s : State) (v : Writer) : (s.setWriter v).freeIndex = s.freeIndex := rfl
@[simp] theorem State.setSegments_pending (s : State) (v : Segments) : (s.setSegments v).pending = s.pending := rfl
@[simp] theorem State.setSegments_mode (s : State) (v : Segments) : (s.setSegments v).mode = s.mode := rfl
@[simp] theorem State.setSegments_enlistment (s : State) (v : Segments) : (s.setSegments v).enlistment = s.enlistment := rfl
@[simp] theorem State.setSegments_port (s : State) (v : Segments) : (s.setSegments v).port = s.port := rfl
@[simp] theorem State.setSegments_line (s : State) (v : Segments) : (s.setSegments v).line = s.line := rfl
@[simp] theorem State.setSegments_tracker (s : State) (v : Segments) : (s.setSegments v).tracker = s.tracker := rfl
@[simp] theorem State.setSegments_presence (s : State) (v : Segments) : (s.setSegments v).presence = s.presence := rfl
@[simp] theorem State.setSegments_submission (s : State) (v : Segments) : (s.setSegments v).submission = s.submission := rfl
@[simp] theorem State.setSegments_repair (s : State) (v : Segments) : (s.setSegments v).repair = s.repair := rfl
@[simp] theorem State.setSegments_writer (s : State) (v : Segments) : (s.setSegments v).writer = s.writer := rfl
@[simp] theorem State.setSegments_segments (s : State) (v : Segments) : (s.setSegments v).segments = v := rfl
@[simp] theorem State.setSegments_array (s : State) (v : Segments) : (s.setSegments v).array = s.array := rfl
@[simp] theorem State.setSegments_scan (s : State) (v : Segments) : (s.setSegments v).scan = s.scan := rfl
@[simp] theorem State.setSegments_formatNext (s : State) (v : Segments) : (s.setSegments v).formatNext = s.formatNext := rfl
@[simp] theorem State.setSegments_flash (s : State) (v : Segments) : (s.setSegments v).flash = s.flash := rfl
@[simp] theorem State.setSegments_raised (s : State) (v : Segments) : (s.setSegments v).raised = s.raised := rfl
@[simp] theorem State.setSegments_freeIndex (s : State) (v : Segments) : (s.setSegments v).freeIndex = s.freeIndex := rfl
@[simp] theorem State.setArray_pending (s : State) (v : ArrayEngine) : (s.setArray v).pending = s.pending := rfl
@[simp] theorem State.setArray_mode (s : State) (v : ArrayEngine) : (s.setArray v).mode = s.mode := rfl
@[simp] theorem State.setArray_enlistment (s : State) (v : ArrayEngine) : (s.setArray v).enlistment = s.enlistment := rfl
@[simp] theorem State.setArray_port (s : State) (v : ArrayEngine) : (s.setArray v).port = s.port := rfl
@[simp] theorem State.setArray_line (s : State) (v : ArrayEngine) : (s.setArray v).line = s.line := rfl
@[simp] theorem State.setArray_tracker (s : State) (v : ArrayEngine) : (s.setArray v).tracker = s.tracker := rfl
@[simp] theorem State.setArray_presence (s : State) (v : ArrayEngine) : (s.setArray v).presence = s.presence := rfl
@[simp] theorem State.setArray_submission (s : State) (v : ArrayEngine) : (s.setArray v).submission = s.submission := rfl
@[simp] theorem State.setArray_repair (s : State) (v : ArrayEngine) : (s.setArray v).repair = s.repair := rfl
@[simp] theorem State.setArray_writer (s : State) (v : ArrayEngine) : (s.setArray v).writer = s.writer := rfl
@[simp] theorem State.setArray_segments (s : State) (v : ArrayEngine) : (s.setArray v).segments = s.segments := rfl
@[simp] theorem State.setArray_array (s : State) (v : ArrayEngine) : (s.setArray v).array = v := rfl
@[simp] theorem State.setArray_scan (s : State) (v : ArrayEngine) : (s.setArray v).scan = s.scan := rfl
@[simp] theorem State.setArray_formatNext (s : State) (v : ArrayEngine) : (s.setArray v).formatNext = s.formatNext := rfl
@[simp] theorem State.setArray_flash (s : State) (v : ArrayEngine) : (s.setArray v).flash = s.flash := rfl
@[simp] theorem State.setArray_raised (s : State) (v : ArrayEngine) : (s.setArray v).raised = s.raised := rfl
@[simp] theorem State.setArray_freeIndex (s : State) (v : ArrayEngine) : (s.setArray v).freeIndex = s.freeIndex := rfl
@[simp] theorem State.setScan_pending (s : State) (v : Option Scan) : (s.setScan v).pending = s.pending := rfl
@[simp] theorem State.setScan_mode (s : State) (v : Option Scan) : (s.setScan v).mode = s.mode := rfl
@[simp] theorem State.setScan_enlistment (s : State) (v : Option Scan) : (s.setScan v).enlistment = s.enlistment := rfl
@[simp] theorem State.setScan_port (s : State) (v : Option Scan) : (s.setScan v).port = s.port := rfl
@[simp] theorem State.setScan_line (s : State) (v : Option Scan) : (s.setScan v).line = s.line := rfl
@[simp] theorem State.setScan_tracker (s : State) (v : Option Scan) : (s.setScan v).tracker = s.tracker := rfl
@[simp] theorem State.setScan_presence (s : State) (v : Option Scan) : (s.setScan v).presence = s.presence := rfl
@[simp] theorem State.setScan_submission (s : State) (v : Option Scan) : (s.setScan v).submission = s.submission := rfl
@[simp] theorem State.setScan_repair (s : State) (v : Option Scan) : (s.setScan v).repair = s.repair := rfl
@[simp] theorem State.setScan_writer (s : State) (v : Option Scan) : (s.setScan v).writer = s.writer := rfl
@[simp] theorem State.setScan_segments (s : State) (v : Option Scan) : (s.setScan v).segments = s.segments := rfl
@[simp] theorem State.setScan_array (s : State) (v : Option Scan) : (s.setScan v).array = s.array := rfl
@[simp] theorem State.setScan_scan (s : State) (v : Option Scan) : (s.setScan v).scan = v := rfl
@[simp] theorem State.setScan_formatNext (s : State) (v : Option Scan) : (s.setScan v).formatNext = s.formatNext := rfl
@[simp] theorem State.setScan_flash (s : State) (v : Option Scan) : (s.setScan v).flash = s.flash := rfl
@[simp] theorem State.setScan_raised (s : State) (v : Option Scan) : (s.setScan v).raised = s.raised := rfl
@[simp] theorem State.setScan_freeIndex (s : State) (v : Option Scan) : (s.setScan v).freeIndex = s.freeIndex := rfl
@[simp] theorem State.setFormatNext_pending (s : State) (v : Option Nat) : (s.setFormatNext v).pending = s.pending := rfl
@[simp] theorem State.setFormatNext_mode (s : State) (v : Option Nat) : (s.setFormatNext v).mode = s.mode := rfl
@[simp] theorem State.setFormatNext_enlistment (s : State) (v : Option Nat) : (s.setFormatNext v).enlistment = s.enlistment := rfl
@[simp] theorem State.setFormatNext_port (s : State) (v : Option Nat) : (s.setFormatNext v).port = s.port := rfl
@[simp] theorem State.setFormatNext_line (s : State) (v : Option Nat) : (s.setFormatNext v).line = s.line := rfl
@[simp] theorem State.setFormatNext_tracker (s : State) (v : Option Nat) : (s.setFormatNext v).tracker = s.tracker := rfl
@[simp] theorem State.setFormatNext_presence (s : State) (v : Option Nat) : (s.setFormatNext v).presence = s.presence := rfl
@[simp] theorem State.setFormatNext_submission (s : State) (v : Option Nat) : (s.setFormatNext v).submission = s.submission := rfl
@[simp] theorem State.setFormatNext_repair (s : State) (v : Option Nat) : (s.setFormatNext v).repair = s.repair := rfl
@[simp] theorem State.setFormatNext_writer (s : State) (v : Option Nat) : (s.setFormatNext v).writer = s.writer := rfl
@[simp] theorem State.setFormatNext_segments (s : State) (v : Option Nat) : (s.setFormatNext v).segments = s.segments := rfl
@[simp] theorem State.setFormatNext_array (s : State) (v : Option Nat) : (s.setFormatNext v).array = s.array := rfl
@[simp] theorem State.setFormatNext_scan (s : State) (v : Option Nat) : (s.setFormatNext v).scan = s.scan := rfl
@[simp] theorem State.setFormatNext_formatNext (s : State) (v : Option Nat) : (s.setFormatNext v).formatNext = v := rfl
@[simp] theorem State.setFormatNext_flash (s : State) (v : Option Nat) : (s.setFormatNext v).flash = s.flash := rfl
@[simp] theorem State.setFormatNext_raised (s : State) (v : Option Nat) : (s.setFormatNext v).raised = s.raised := rfl
@[simp] theorem State.setFormatNext_freeIndex (s : State) (v : Option Nat) : (s.setFormatNext v).freeIndex = s.freeIndex := rfl
@[simp] theorem State.setFlash_pending (s : State) (v : Flash) : (s.setFlash v).pending = s.pending := rfl
@[simp] theorem State.setFlash_mode (s : State) (v : Flash) : (s.setFlash v).mode = s.mode := rfl
@[simp] theorem State.setFlash_enlistment (s : State) (v : Flash) : (s.setFlash v).enlistment = s.enlistment := rfl
@[simp] theorem State.setFlash_port (s : State) (v : Flash) : (s.setFlash v).port = s.port := rfl
@[simp] theorem State.setFlash_line (s : State) (v : Flash) : (s.setFlash v).line = s.line := rfl
@[simp] theorem State.setFlash_tracker (s : State) (v : Flash) : (s.setFlash v).tracker = s.tracker := rfl
@[simp] theorem State.setFlash_presence (s : State) (v : Flash) : (s.setFlash v).presence = s.presence := rfl
@[simp] theorem State.setFlash_submission (s : State) (v : Flash) : (s.setFlash v).submission = s.submission := rfl
@[simp] theorem State.setFlash_repair (s : State) (v : Flash) : (s.setFlash v).repair = s.repair := rfl
@[simp] theorem State.setFlash_writer (s : State) (v : Flash) : (s.setFlash v).writer = s.writer := rfl
@[simp] theorem State.setFlash_segments (s : State) (v : Flash) : (s.setFlash v).segments = s.segments := rfl
@[simp] theorem State.setFlash_array (s : State) (v : Flash) : (s.setFlash v).array = s.array := rfl
@[simp] theorem State.setFlash_scan (s : State) (v : Flash) : (s.setFlash v).scan = s.scan := rfl
@[simp] theorem State.setFlash_formatNext (s : State) (v : Flash) : (s.setFlash v).formatNext = s.formatNext := rfl
@[simp] theorem State.setFlash_flash (s : State) (v : Flash) : (s.setFlash v).flash = v := rfl
@[simp] theorem State.setFlash_raised (s : State) (v : Flash) : (s.setFlash v).raised = s.raised := rfl
@[simp] theorem State.setFlash_freeIndex (s : State) (v : Flash) : (s.setFlash v).freeIndex = s.freeIndex := rfl
@[simp] theorem State.setRaised_pending (s : State) (v : List (Block × Notice)) : (s.setRaised v).pending = s.pending := rfl
@[simp] theorem State.setRaised_mode (s : State) (v : List (Block × Notice)) : (s.setRaised v).mode = s.mode := rfl
@[simp] theorem State.setRaised_enlistment (s : State) (v : List (Block × Notice)) : (s.setRaised v).enlistment = s.enlistment := rfl
@[simp] theorem State.setRaised_port (s : State) (v : List (Block × Notice)) : (s.setRaised v).port = s.port := rfl
@[simp] theorem State.setRaised_line (s : State) (v : List (Block × Notice)) : (s.setRaised v).line = s.line := rfl
@[simp] theorem State.setRaised_tracker (s : State) (v : List (Block × Notice)) : (s.setRaised v).tracker = s.tracker := rfl
@[simp] theorem State.setRaised_presence (s : State) (v : List (Block × Notice)) : (s.setRaised v).presence = s.presence := rfl
@[simp] theorem State.setRaised_submission (s : State) (v : List (Block × Notice)) : (s.setRaised v).submission = s.submission := rfl
@[simp] theorem State.setRaised_repair (s : State) (v : List (Block × Notice)) : (s.setRaised v).repair = s.repair := rfl
@[simp] theorem State.setRaised_writer (s : State) (v : List (Block × Notice)) : (s.setRaised v).writer = s.writer := rfl
@[simp] theorem State.setRaised_segments (s : State) (v : List (Block × Notice)) : (s.setRaised v).segments = s.segments := rfl
@[simp] theorem State.setRaised_array (s : State) (v : List (Block × Notice)) : (s.setRaised v).array = s.array := rfl
@[simp] theorem State.setRaised_scan (s : State) (v : List (Block × Notice)) : (s.setRaised v).scan = s.scan := rfl
@[simp] theorem State.setRaised_formatNext (s : State) (v : List (Block × Notice)) : (s.setRaised v).formatNext = s.formatNext := rfl
@[simp] theorem State.setRaised_flash (s : State) (v : List (Block × Notice)) : (s.setRaised v).flash = s.flash := rfl
@[simp] theorem State.setRaised_raised (s : State) (v : List (Block × Notice)) : (s.setRaised v).raised = v := rfl
@[simp] theorem State.setRaised_freeIndex (s : State) (v : List (Block × Notice)) : (s.setRaised v).freeIndex = s.freeIndex := rfl
@[simp] theorem State.setFreeIndex_pending (s : State) (v : Nat) : (s.setFreeIndex v).pending = s.pending := rfl
@[simp] theorem State.setFreeIndex_mode (s : State) (v : Nat) : (s.setFreeIndex v).mode = s.mode := rfl
@[simp] theorem State.setFreeIndex_enlistment (s : State) (v : Nat) : (s.setFreeIndex v).enlistment = s.enlistment := rfl
@[simp] theorem State.setFreeIndex_port (s : State) (v : Nat) : (s.setFreeIndex v).port = s.port := rfl
@[simp] theorem State.setFreeIndex_line (s : State) (v : Nat) : (s.setFreeIndex v).line = s.line := rfl
@[simp] theorem State.setFreeIndex_tracker (s : State) (v : Nat) : (s.setFreeIndex v).tracker = s.tracker := rfl
@[simp] theorem State.setFreeIndex_presence (s : State) (v : Nat) : (s.setFreeIndex v).presence = s.presence := rfl
@[simp] theorem State.setFreeIndex_submission (s : State) (v : Nat) : (s.setFreeIndex v).submission = s.submission := rfl
@[simp] theorem State.setFreeIndex_repair (s : State) (v : Nat) : (s.setFreeIndex v).repair = s.repair := rfl
@[simp] theorem State.setFreeIndex_writer (s : State) (v : Nat) : (s.setFreeIndex v).writer = s.writer := rfl
@[simp] theorem State.setFreeIndex_segments (s : State) (v : Nat) : (s.setFreeIndex v).segments = s.segments := rfl
@[simp] theorem State.setFreeIndex_array (s : State) (v : Nat) : (s.setFreeIndex v).array = s.array := rfl
@[simp] theorem State.setFreeIndex_scan (s : State) (v : Nat) : (s.setFreeIndex v).scan = s.scan := rfl
@[simp] theorem State.setFreeIndex_formatNext (s : State) (v : Nat) : (s.setFreeIndex v).formatNext = s.formatNext := rfl
@[simp] theorem State.setFreeIndex_flash (s : State) (v : Nat) : (s.setFreeIndex v).flash = s.flash := rfl
@[simp] theorem State.setFreeIndex_raised (s : State) (v : Nat) : (s.setFreeIndex v).raised = s.raised := rfl
@[simp] theorem State.setFreeIndex_freeIndex (s : State) (v : Nat) : (s.setFreeIndex v).freeIndex = v := rfl

end Sys2Proof.Machine
end

