-- ==== Sys2Proof/Laws/Keeps.lean ====
section
/-! SUPPORT. What the shared operations leave as it is: State.Keeps and State.KeepsTables of each
operation that an event's end is made of. -/

namespace Sys2Proof.Machine

theorem State.Keeps.refl (s : State) : s.Keeps s := by constructor <;> rfl

theorem State.Keeps.trans {s t u : State} (a : s.Keeps t) (b : t.Keeps u) : s.Keeps u := by
  obtain ⟨⟩ := a
  obtain ⟨⟩ := b
  constructor <;> simp_all

theorem State.KeepsTables.refl (s : State) : s.KeepsTables s := by constructor <;> rfl

theorem State.KeepsTables.trans {s t u : State} (a : s.KeepsTables t) (b : t.KeepsTables u) :
    s.KeepsTables u := ⟨b.1.trans a.1, b.2.trans a.2, b.3.trans a.3⟩

/-! ### Notices -/

theorem Port.take_fields (p : Port) (n : Notice) :
    (p.take n).result = p.result ∧ (p.take n).slot = p.slot ∧ (p.take n).buffer = p.buffer ∧
    (p.take n).portError = p.portError ∧ (p.take n).returned = p.returned ∧
    (p.take n).selIgnored = p.selIgnored ∧ (p.take n).holdPin = p.holdPin := by
  unfold Port.take Port.join
  split <;> (repeat' split) <;> simp

theorem Port.takes_fields (l : List Notice) (p : Port) :
    (l.foldl Port.take p).result = p.result ∧ (l.foldl Port.take p).slot = p.slot ∧
    (l.foldl Port.take p).buffer = p.buffer ∧
    (l.foldl Port.take p).portError = p.portError ∧ (l.foldl Port.take p).returned = p.returned ∧
    (l.foldl Port.take p).selIgnored = p.selIgnored ∧ (l.foldl Port.take p).holdPin = p.holdPin := by
  induction l generalizing p with
  | nil => simp
  | cons n l ih => simpa [Port.take_fields] using ih (p.take n)

theorem State.raise_keeps (s : State) (b : Block) (n : Notice) : s.Keeps (s.raise b n) := by
  constructor <;> rfl

theorem State.raise_tables (s : State) (b : Block) (n : Notice) : s.KeepsTables (s.raise b n) := by
  constructor <;> rfl

theorem State.flush_keeps (s : State) : s.Keeps s.flush := by
  constructor <;> simp [State.flush, Port.takes_fields]

theorem State.flush_tables (s : State) : s.KeepsTables s.flush := by
  constructor <;> simp [State.flush]

/-! ### Jobs and segments -/

theorem State.queueJob_keeps (s : State) (j : Job) : s.Keeps (s.queueJob j) := by
  constructor <;> rfl

theorem State.queueJob_tables (s : State) (j : Job) : s.KeepsTables (s.queueJob j) := by
  constructor <;> rfl

theorem State.queueRelease_keeps (s : State) (mark : Nat) : s.Keeps (s.queueRelease mark) := by
  unfold State.queueRelease
  split
  · constructor <;> simp
  · split
    · exact .refl s
    · exact s.queueJob_keeps _

theorem State.queueRelease_tables (s : State) (mark : Nat) : s.KeepsTables (s.queueRelease mark) := by
  unfold State.queueRelease
  split
  · constructor <;> simp
  · split
    · exact .refl s
    · exact s.queueJob_tables _

theorem State.excessTest_keeps (s : State) : s.Keeps s.excessTest := by
  unfold State.excessTest
  split
  · exact .refl s
  · split
    · constructor <;> simp [State.queueJob]
    · exact .refl s

theorem State.excessTest_tables (s : State) : s.KeepsTables s.excessTest := by
  unfold State.excessTest
  split
  · exact .refl s
  · split
    · constructor <;> simp [State.queueJob]
    · exact .refl s

theorem State.askRoom_keeps (s : State) : s.Keeps s.askRoom := by
  unfold State.askRoom
  dsimp only
  split <;> constructor <;> rfl

theorem State.claimRecord_keeps (s : State) (k : Nat) (u : InUse) (faults page offset : Nat) :
    s.Keeps (s.claimRecord k u faults page offset) := by
  constructor <;> rfl

theorem State.placeHead_keeps (s : State) : s.Keeps s.placeHead := by
  unfold State.placeHead
  repeat' split
  all_goals first | exact .refl s | exact s.askRoom_keeps | exact s.claimRecord_keeps _ _ _ _ _

theorem State.askRoom_tables (s : State) : s.KeepsTables s.askRoom := by
  unfold State.askRoom
  dsimp only
  split <;> constructor <;> rfl

theorem State.claimRecord_tables (s : State) (k : Nat) (u : InUse) (faults page offset : Nat) :
    s.KeepsTables (s.claimRecord k u faults page offset) := by
  constructor <;> rfl

theorem State.placeHead_tables (s : State) : s.KeepsTables s.placeHead := by
  unfold State.placeHead
  repeat' split
  all_goals first | exact .refl s | exact s.askRoom_tables | exact s.claimRecord_tables _ _ _ _ _

theorem State.requestErase_keeps (s : State) (k : Nat) : s.Keeps (s.requestErase k) := by
  constructor <;> rfl

theorem State.requestErase_tables (s : State) (k : Nat) : s.KeepsTables (s.requestErase k) := by
  constructor <;> rfl

theorem State.reclaimStart_keeps (s : State) (k : Nat) (u : InUse) :
    s.Keeps (s.reclaimStart k u) := by
  constructor <;> rfl

theorem State.reclaimStart_tables (s : State) (k : Nat) (u : InUse) :
    s.KeepsTables (s.reclaimStart k u) := by
  constructor <;> rfl

theorem State.scheduleErase_keeps (s : State) : s.Keeps s.scheduleErase := by
  unfold State.scheduleErase
  repeat' split
  all_goals
    first
      | exact .refl s
      | exact s.requestErase_keeps _
      | (dsimp only; split <;> first | exact .refl s | exact s.reclaimStart_keeps _ _)

theorem State.scheduleErase_tables (s : State) : s.KeepsTables s.scheduleErase := by
  unfold State.scheduleErase
  repeat' split
  all_goals
    first
      | exact .refl s
      | exact s.requestErase_tables _
      | (dsimp only; split <;> first | exact .refl s | exact s.reclaimStart_tables _ _)

/-! ### Repair -/

theorem State.mapRequest_keeps (s : State) (f : Request → Request) : s.Keeps (s.mapRequest f) := by
  constructor <;> rfl

theorem State.mapRequest_tables (s : State) (f : Request → Request) :
    s.KeepsTables (s.mapRequest f) := by
  constructor <;> rfl

theorem State.setSlot_keeps (s : State) (i : Nat) (v : Option SeekSlot) : s.Keeps (s.setSlot i v) := by
  unfold State.setSlot
  dsimp only
  split <;> constructor <;> rfl

theorem State.setSlot_tables (s : State) (i : Nat) (v : Option SeekSlot) :
    s.KeepsTables (s.setSlot i v) := by
  unfold State.setSlot
  dsimp only
  split <;> constructor <;> rfl

theorem State.fillSlot_keeps (s : State) : s.Keeps s.fillSlot := by
  unfold State.fillSlot
  split
  · exact s.setSlot_keeps _ _
  · exact .refl s

theorem State.fillSlot_tables (s : State) : s.KeepsTables s.fillSlot := by
  unfold State.fillSlot
  split
  · exact s.setSlot_tables _ _
  · exact .refl s

/-- What each application of an operation keeps, its repetition keeps. -/
theorem repeat_rel {R : State → State → Prop} (refl : ∀ s, R s s)
    (trans : ∀ {s t u}, R s t → R t u → R s u) {f : State → State} (h : ∀ s, R s (f s)) (n : Nat)
    (s : State) : R s (Nat.repeat f n s) := by
  induction n generalizing s with
  | zero => exact refl s
  | succ n ih => exact trans (ih s) (h _)

/-- What each step of a fold keeps, the fold keeps. -/
theorem foldl_rel {α : Type} {R : State → State → Prop} (refl : ∀ s, R s s)
    (trans : ∀ {s t u}, R s t → R t u → R s u) {f : State → α → State} (h : ∀ s a, R s (f s a))
    (l : List α) (s : State) : R s (l.foldl f s) := by
  induction l generalizing s with
  | nil => exact refl s
  | cons a l ih => exact trans (h s a) (ih _)

theorem State.fillSlots_keeps (s : State) : s.Keeps s.fillSlots := by
  unfold State.fillSlots
  split
  · exact repeat_rel .refl .trans State.fillSlot_keeps 4 s
  · exact .refl s

theorem State.fillSlots_tables (s : State) : s.KeepsTables s.fillSlots := by
  unfold State.fillSlots
  split
  · exact repeat_rel .refl .trans State.fillSlot_tables 4 s
  · exact .refl s

theorem State.narrowSlot_keeps (s : State) (i : Nat) : s.Keeps (s.narrowSlot i) := by
  unfold State.narrowSlot
  split
  · exact s.setSlot_keeps _ _
  · exact .refl s

theorem State.narrowSlot_tables (s : State) (i : Nat) : s.KeepsTables (s.narrowSlot i) := by
  unfold State.narrowSlot
  split
  · exact s.setSlot_tables _ _
  · exact .refl s

theorem State.narrowOrigin_keeps (s : State) (o : Nat) : s.Keeps (s.narrowOrigin o) := by
  unfold State.narrowOrigin
  exact foldl_rel .refl .trans (fun s i => by split; exact s.narrowSlot_keeps _; exact .refl s) _ s

theorem State.narrowOrigin_tables (s : State) (o : Nat) : s.KeepsTables (s.narrowOrigin o) := by
  unfold State.narrowOrigin
  exact foldl_rel .refl .trans (fun s i => by split; exact s.narrowSlot_tables _; exact .refl s) _ s

theorem State.offerHole_keeps {s t : State} {o first last : Nat}
    (h : s.offerHole o first last = some t) : s.Keeps t := by
  unfold State.offerHole at h
  split at h
  · cases h
    constructor <;> rfl
  · cases h

theorem State.holeAdmitted_keeps (s : State) (o first last : Nat) :
    s.Keeps (s.holeAdmitted o first last) :=
  (s.raise_keeps _ _).trans (State.narrowOrigin_keeps _ _)

theorem State.holeAdmitted_tables (s : State) (o first last : Nat) :
    s.KeepsTables (s.holeAdmitted o first last) :=
  (s.raise_tables _ _).trans (State.narrowOrigin_tables _ _)

theorem declareSlot_keeps (fuel : Nat) (s : State) (i : Nat) : s.Keeps (declareSlot fuel s i) := by
  induction fuel generalizing s with
  | zero => exact .refl s
  | succ fuel ih =>
    unfold declareSlot
    repeat' split
    all_goals first | exact .refl s | exact s.setSlot_keeps _ _ | skip
    dsimp only
    split
    · exact s.setSlot_keeps _ _
    · split
      · next h => exact ((State.offerHole_keeps h).trans (State.holeAdmitted_keeps _ _ _ _)).trans (ih _)
      · exact s.setSlot_keeps _ _

theorem State.offerHoles_keeps (s : State) : s.Keeps s.offerHoles := by
  unfold State.offerHoles
  exact foldl_rel .refl .trans (fun s i => declareSlot_keeps 17 s i) _ s

theorem State.declareGone_keeps (s : State) (o first last : Nat) :
    s.Keeps (s.declareGone o first last) := by
  unfold State.declareGone
  refine foldl_rel .refl .trans (fun s r => ?_) _ s
  split
  · next h => exact (State.offerHole_keeps h).trans (State.holeAdmitted_keeps _ _ _ _)
  · exact .refl s

theorem State.changeResponder_keeps (s : State) (q o : Nat) (f : Responder → Responder) :
    s.Keeps (s.changeResponder q o f) := by
  constructor <;> rfl

theorem State.changeResponder_tables (s : State) (q o : Nat) (f : Responder → Responder) :
    s.KeepsTables (s.changeResponder q o f) := by
  constructor <;> rfl

theorem State.freeResponder_keeps (s : State) (q o : Nat) : s.Keeps (s.freeResponder q o) := by
  constructor <;> rfl

theorem State.freeResponder_tables (s : State) (q o : Nat) :
    s.KeepsTables (s.freeResponder q o) := by
  constructor <;> rfl

theorem State.takeNext_keeps (s : State) (e : Responder) (l : List Nat) : s.Keeps (s.takeNext e l) := by
  unfold State.takeNext
  split
  · exact s.changeResponder_keeps _ _ _
  · split
    · constructor <;> rfl
    · split
      · exact s.changeResponder_keeps _ _ _
      · exact s.freeResponder_keeps _ _

theorem State.takeNext_tables (s : State) (e : Responder) (l : List Nat) :
    s.KeepsTables (s.takeNext e l) := by
  unfold State.takeNext
  split
  · exact s.changeResponder_tables _ _ _
  · split
    · constructor <;> rfl
    · split
      · exact s.changeResponder_tables _ _ _
      · exact s.freeResponder_tables _ _

theorem State.skipSeq_keeps (s : State) (q o seq : Nat) : s.Keeps (s.skipSeq q o seq) := by
  unfold State.skipSeq
  split
  · exact s.takeNext_keeps _ _
  · exact .refl s

theorem State.skipSeq_tables (s : State) (q o seq : Nat) : s.KeepsTables (s.skipSeq q o seq) := by
  unfold State.skipSeq
  split
  · exact s.takeNext_tables _ _
  · exact .refl s

theorem State.withdrawFetch_keeps (s : State) (q o : Nat) : s.Keeps (s.withdrawFetch q o) := by
  constructor <;> rfl

theorem State.withdrawFetch_tables (s : State) (q o : Nat) :
    s.KeepsTables (s.withdrawFetch q o) := by
  constructor <;> rfl

theorem State.cancelIn_keeps (s : State) (gone : Nat → Bool) (e : Responder) :
    s.Keeps (s.cancelIn gone e) := by
  unfold State.cancelIn
  dsimp only
  repeat' split
  all_goals
    first
      | exact .refl s
      | exact s.changeResponder_keeps _ _ _
      | exact s.freeResponder_keeps _ _
      | exact s.takeNext_keeps _ _
      | exact (s.withdrawFetch_keeps _ _).trans (State.takeNext_keeps _ _ _)

theorem State.cancelIn_tables (s : State) (gone : Nat → Bool) (e : Responder) :
    s.KeepsTables (s.cancelIn gone e) := by
  unfold State.cancelIn
  dsimp only
  repeat' split
  all_goals
    first
      | exact .refl s
      | exact s.changeResponder_tables _ _ _
      | exact s.freeResponder_tables _ _
      | exact s.takeNext_tables _ _
      | exact (s.withdrawFetch_tables _ _).trans (State.takeNext_tables _ _ _)

theorem State.cancelRefill_keeps (s : State) (o : Nat) (gone : Nat → Bool) :
    s.Keeps (s.cancelRefill o gone) := by
  unfold State.cancelRefill
  exact foldl_rel .refl .trans (fun s e => s.cancelIn_keeps gone e) _ s

theorem State.cancelRefill_tables (s : State) (o : Nat) (gone : Nat → Bool) :
    s.KeepsTables (s.cancelRefill o gone) := by
  unfold State.cancelRefill
  exact foldl_rel .refl .trans (fun s e => s.cancelIn_tables gone e) _ s

theorem State.answerSeek_keeps (s : State) (q o first last : Nat) :
    s.Keeps (s.answerSeek q o first last) := by
  unfold State.answerSeek
  dsimp only
  repeat' split
  all_goals first | exact .refl s | (constructor <;> rfl)

theorem State.answerSeek_tables (s : State) (q o first last : Nat) :
    s.KeepsTables (s.answerSeek q o first last) := by
  unfold State.answerSeek
  dsimp only
  repeat' split
  all_goals first | exact .refl s | (constructor <;> rfl)

/-! ### The array -/

theorem State.openSegment_keeps (s : State) (k : Nat) : s.Keeps (s.openSegment k) := by
  constructor <;> rfl

theorem State.openSegment_tables (s : State) (k : Nat) : s.KeepsTables (s.openSegment k) := by
  constructor <;> rfl

theorem Port.readDone_fields (p : Port) (c : Code) :
    (p.readDone c).result = p.result ∧ (p.readDone c).buffer = p.buffer ∧
    (p.readDone c).portError = p.portError ∧ (p.readDone c).returned = p.returned ∧
    (p.readDone c).selIgnored = p.selIgnored ∧ (p.readDone c).holdPin = p.holdPin ∧
    (p.readDone c).notices = p.notices ∧ (p.readDone c).lost = p.lost ∧
    (p.readDone c).selection = p.selection := by
  unfold Port.readDone
  split <;> simp

theorem State.setArray_keeps (s : State) (a : ArrayEngine) : s.Keeps (s.setArray a) := by
  constructor <;> rfl

theorem State.setArray_tables (s : State) (a : ArrayEngine) : s.KeepsTables (s.setArray a) := by
  constructor <;> rfl

theorem State.readDone_keeps (s : State) (c : Code) : s.Keeps (s.setPort (s.port.readDone c)) := by
  constructor <;> simp [Port.readDone_fields]

theorem State.readDone_tables (s : State) (c : Code) :
    s.KeepsTables (s.setPort (s.port.readDone c)) := by
  constructor <;> rfl

theorem serveClaims_keeps (fuel : Nat) (s : State) : s.Keeps (serveClaims fuel s) := by
  induction fuel generalizing s with
  | zero => exact .refl s
  | succ fuel ih =>
    unfold serveClaims
    repeat' split
    all_goals try dsimp only
    all_goals
      first
        | exact .refl s
        | exact s.setArray_keeps _
        | exact (s.setArray_keeps _).trans (State.setArray_keeps _ _)
        | exact (s.setArray_keeps _).trans (State.openSegment_keeps _ _)
        | exact ((s.setArray_keeps _).trans (State.readDone_keeps _ _)).trans (ih _)
        | exact ((s.setArray_keeps _).trans (State.skipSeq_keeps _ _ _ _)).trans (ih _)

theorem serveClaims_tables (fuel : Nat) (s : State) : s.KeepsTables (serveClaims fuel s) := by
  induction fuel generalizing s with
  | zero => exact .refl s
  | succ fuel ih =>
    unfold serveClaims
    repeat' split
    all_goals try dsimp only
    all_goals
      first
        | exact .refl s
        | exact s.setArray_tables _
        | exact (s.setArray_tables _).trans (State.setArray_tables _ _)
        | exact (s.setArray_tables _).trans (State.openSegment_tables _ _)
        | exact ((s.setArray_tables _).trans (State.readDone_tables _ _)).trans (ih _)
        | exact ((s.setArray_tables _).trans (State.skipSeq_tables _ _ _ _)).trans (ih _)

theorem State.serve_keeps (s : State) : s.Keeps s.serve := serveClaims_keeps _ s

theorem State.serve_tables (s : State) : s.KeepsTables s.serve := serveClaims_tables _ s

theorem State.checkSuspend_keeps (s : State) : s.Keeps s.checkSuspend := by
  unfold State.checkSuspend
  repeat' split
  all_goals first | exact .refl s | exact s.setArray_keeps _

theorem State.checkSuspend_tables (s : State) : s.KeepsTables s.checkSuspend := by
  unfold State.checkSuspend
  repeat' split
  all_goals first | exact .refl s | exact s.setArray_tables _

/-! ### The end of an event -/

theorem State.settle_keeps (s : State) : s.Keeps s.settle :=
  s.excessTest_keeps.trans <| (State.fillSlots_keeps _).trans <| (State.placeHead_keeps _).trans <|
    (State.scheduleErase_keeps _).trans <| (State.serve_keeps _).trans <|
    (State.scheduleErase_keeps _).trans <| (State.serve_keeps _).trans (State.checkSuspend_keeps _)

theorem State.settle_tables (s : State) : s.KeepsTables s.settle :=
  s.excessTest_tables.trans <| (State.fillSlots_tables _).trans <| (State.placeHead_tables _).trans <|
    (State.scheduleErase_tables _).trans <| (State.serve_tables _).trans <|
    (State.scheduleErase_tables _).trans <| (State.serve_tables _).trans (State.checkSuspend_tables _)

/-- The end of an event keeps all that State.Keeps lists. -/
theorem State.conclude_keeps (s : State) : s.Keeps s.conclude := s.settle_keeps.trans (State.flush_keeps _)

/-- The end of an event keeps the holdings table, the gap table and the excess list. -/
theorem State.conclude_tables (s : State) : s.KeepsTables s.conclude :=
  s.settle_tables.trans (State.flush_tables _)

end Sys2Proof.Machine
end

