-- ==== Sys2Proof/Laws/Still.lean ====
section
/-! SUPPORT. Which operations leave the queues and tables within their limits: State.Still of those
that add nothing to any, and the limits of those that do (R46, R84, R141, R167). -/

namespace Sys2Proof.Machine

/-- Nothing is added to the job queue, the notice queue, the seek slots or the responder queue. -/
structure State.Still (s t : State) : Prop where
  jobs : t.writer.jobs = s.writer.jobs
  notices : t.port.notices = s.port.notices
  lost : t.port.lost = s.port.lost
  slots : t.repair.slots.length = s.repair.slots.length
  responders : t.repair.responders.length ≤ s.repair.responders.length

theorem State.Still.refl (s : State) : s.Still s := ⟨rfl, rfl, rfl, rfl, le_rfl⟩

theorem State.Still.trans {s t u : State} (a : s.Still t) (b : t.Still u) : s.Still u :=
  ⟨b.1.trans a.1, b.2.trans a.2, b.3.trans a.3, b.4.trans a.4, b.5.trans a.5⟩

/-- Equal job queue, host port queue and repair tables are still. -/
theorem State.Still.of_eq {s t : State} (a : t.writer.jobs = s.writer.jobs) (b : t.port = s.port)
    (c : t.repair = s.repair) : s.Still t :=
  ⟨a, by rw [b], by rw [b], by rw [c], by rw [c]⟩

theorem State.raise_still (s : State) (b : Block) (n : Notice) : s.Still (s.raise b n) :=
  .of_eq rfl rfl rfl

theorem State.askRoom_still (s : State) : s.Still s.askRoom := by
  unfold State.askRoom
  dsimp only
  split <;> exact .of_eq rfl rfl rfl

theorem State.placeHead_still (s : State) : s.Still s.placeHead := by
  unfold State.placeHead
  repeat' split
  all_goals first | exact .refl s | exact s.askRoom_still | exact .of_eq rfl rfl rfl

theorem State.scheduleErase_still (s : State) : s.Still s.scheduleErase := by
  unfold State.scheduleErase
  repeat' split
  all_goals
    first
      | exact .refl s
      | exact .of_eq rfl rfl rfl
      | (dsimp only; split <;> first | exact .refl s | exact .of_eq rfl rfl rfl)

theorem State.setSlot_still (s : State) (i : Nat) (v : Option SeekSlot) : s.Still (s.setSlot i v) := by
  unfold State.setSlot
  dsimp only
  split <;> exact ⟨rfl, rfl, rfl, by simp [State.mapRequest, State.setTransmitter], le_rfl⟩

theorem State.fillSlot_still (s : State) : s.Still s.fillSlot := by
  unfold State.fillSlot
  split
  · exact s.setSlot_still _ _
  · exact .refl s

theorem State.fillSlots_still (s : State) : s.Still s.fillSlots := by
  unfold State.fillSlots
  split
  · exact repeat_rel .refl .trans State.fillSlot_still 4 s
  · exact .refl s

theorem State.narrowSlot_still (s : State) (i : Nat) : s.Still (s.narrowSlot i) := by
  unfold State.narrowSlot
  split
  · exact s.setSlot_still _ _
  · exact .refl s

theorem State.narrowOrigin_still (s : State) (o : Nat) : s.Still (s.narrowOrigin o) := by
  unfold State.narrowOrigin
  exact foldl_rel .refl .trans (fun s i => by split; exact s.narrowSlot_still _; exact .refl s) _ s

theorem State.changeResponder_still (s : State) (q o : Nat) (f : Responder → Responder) :
    s.Still (s.changeResponder q o f) := ⟨rfl, rfl, rfl, rfl, by simp [State.changeResponder]⟩

theorem State.freeResponder_still (s : State) (q o : Nat) : s.Still (s.freeResponder q o) :=
  ⟨rfl, rfl, rfl, rfl, List.length_filter_le _ _⟩

theorem State.takeNext_still (s : State) (e : Responder) (l : List Nat) : s.Still (s.takeNext e l) := by
  unfold State.takeNext
  split
  · exact s.changeResponder_still _ _ _
  · split
    · exact ⟨rfl, rfl, rfl, rfl, by simp [State.changeResponder]⟩
    · split
      · exact s.changeResponder_still _ _ _
      · exact s.freeResponder_still _ _

theorem State.skipSeq_still (s : State) (q o seq : Nat) : s.Still (s.skipSeq q o seq) := by
  unfold State.skipSeq
  split
  · exact s.takeNext_still _ _
  · exact .refl s

theorem State.withdrawFetch_still (s : State) (q o : Nat) : s.Still (s.withdrawFetch q o) :=
  .of_eq rfl rfl rfl

theorem State.cancelIn_still (s : State) (gone : Nat → Bool) (e : Responder) :
    s.Still (s.cancelIn gone e) := by
  unfold State.cancelIn
  dsimp only
  repeat' split
  all_goals
    first
      | exact .refl s
      | exact s.changeResponder_still _ _ _
      | exact s.freeResponder_still _ _
      | exact s.takeNext_still _ _
      | exact (s.withdrawFetch_still _ _).trans (State.takeNext_still _ _ _)

theorem State.cancelRefill_still (s : State) (o : Nat) (gone : Nat → Bool) :
    s.Still (s.cancelRefill o gone) := by
  unfold State.cancelRefill
  exact foldl_rel .refl .trans (fun s e => s.cancelIn_still gone e) _ s

theorem State.setArray_still (s : State) (a : ArrayEngine) : s.Still (s.setArray a) :=
  .of_eq rfl rfl rfl

theorem State.readDone_still (s : State) (c : Code) : s.Still (s.setPort (s.port.readDone c)) :=
  ⟨rfl, by simp [Port.readDone_fields], by simp [Port.readDone_fields], rfl, le_rfl⟩

theorem serveClaims_still (fuel : Nat) (s : State) : s.Still (serveClaims fuel s) := by
  induction fuel generalizing s with
  | zero => exact .refl s
  | succ fuel ih =>
    unfold serveClaims
    repeat' split
    all_goals try dsimp only
    all_goals
      first
        | exact .refl s
        | exact .of_eq rfl rfl rfl
        | exact ((s.setArray_still _).trans (State.readDone_still _ _)).trans (ih _)
        | exact ((s.setArray_still _).trans (State.skipSeq_still _ _ _ _)).trans (ih _)

theorem State.serve_still (s : State) : s.Still s.serve := serveClaims_still _ s

theorem State.checkSuspend_still (s : State) : s.Still s.checkSuspend := by
  unfold State.checkSuspend
  repeat' split
  all_goals first | exact .refl s | exact s.setArray_still _

/-! ### Limits kept -/

/-- An operation that keeps the line, the submit queue and the tables, and adds nothing to a queue,
keeps the limits. -/
theorem State.LimitsOk.still {s t : State} (h : s.LimitsOk) (a : s.Still t) (k : s.Keeps t)
    (g : s.KeepsTables t) : t.LimitsOk where
  incoming := by simpa [Writer.incomingCount, a.jobs] using h.incoming
  release := by simpa [a.jobs] using h.release
  submits := by simpa [k.submission] using h.submits
  gaps := by simpa [g.gaps] using h.gaps
  responders := a.responders.trans h.responders
  slots := a.slots.trans h.slots
  failures := by simpa [k.failures] using h.failures

theorem State.admission_count {s : State} (h : s.admissionOpen = true) :
    s.writer.incomingCount < 15 := by
  simp [State.admissionOpen] at h
  exact h.1

theorem Writer.incomingCount_append (w : Writer) (j : Job) :
    ({ w with jobs := w.jobs ++ [j] } : Writer).incomingCount
      = w.incomingCount + if j.source.incoming then 1 else 0 := by
  simp [Writer.incomingCount, List.countP_append, List.countP_cons]

/-- A job queued under open admission, or of the local class, that is no RELEASE keeps the limits of
the job queue (R46). -/
theorem State.LimitsOk.queueJob {s : State} (h : s.LimitsOk) (j : Job)
    (a : j.source.incoming = true → s.admissionOpen = true) (r : j.body.isRelease = false) :
    (s.queueJob j).LimitsOk where
  incoming := by
    have hc := h.incoming
    show ({ s.writer with jobs := s.writer.jobs ++ [j] } : Writer).incomingCount ≤ 15
    rw [Writer.incomingCount_append]
    split
    · next hi => exact State.admission_count (a hi)
    · exact hc
  release := by
    show List.countP _ (s.writer.jobs ++ [j]) ≤ 1
    simpa [List.countP_append, List.countP_cons, r] using h.release
  submits := h.submits
  gaps := h.gaps
  responders := h.responders
  slots := h.slots
  failures := h.failures

/-- A new set of tables with a gap table of at most 32 entries keeps the limits. -/
theorem State.LimitsOk.setTracker {s : State} (h : s.LimitsOk) (t : Tracker)
    (g : t.gaps.length ≤ 32) : (s.setTracker t).LimitsOk :=
  ⟨h.incoming, h.release, h.submits, g, h.responders, h.slots, h.failures⟩

theorem State.excessTest_limits {s : State} (h : s.LimitsOk) : s.excessTest.LimitsOk := by
  unfold State.excessTest
  split
  · exact h
  · split
    · next hc =>
      refine State.LimitsOk.queueJob (h.setTracker _ ?_) _ ?_ ?_
      · exact h.gaps
      · intro _
        rw [Bool.and_eq_true] at hc
        exact hc.2
      · rfl
    · exact h

theorem State.settle_limits {s : State} (h : s.LimitsOk) : s.settle.LimitsOk := by
  unfold State.settle
  have h := State.excessTest_limits h
  have h := h.still (State.fillSlots_still _) (State.fillSlots_keeps _) (State.fillSlots_tables _)
  have h := h.still (State.placeHead_still _) (State.placeHead_keeps _) (State.placeHead_tables _)
  have h := h.still (State.scheduleErase_still _) (State.scheduleErase_keeps _)
    (State.scheduleErase_tables _)
  have h := h.still (State.serve_still _) (State.serve_keeps _) (State.serve_tables _)
  have h := h.still (State.scheduleErase_still _) (State.scheduleErase_keeps _)
    (State.scheduleErase_tables _)
  have h := h.still (State.serve_still _) (State.serve_keeps _) (State.serve_tables _)
  exact h.still (State.checkSuspend_still _) (State.checkSuspend_keeps _) (State.checkSuspend_tables _)

theorem State.flush_limits {s : State} (h : s.LimitsOk) : s.flush.LimitsOk :=
  ⟨h.incoming, h.release, h.submits, h.gaps, h.responders, h.slots, h.failures⟩

theorem State.conclude_limits {s : State} (h : s.LimitsOk) : s.conclude.LimitsOk :=
  State.flush_limits (State.settle_limits h)

/-! ### The notice queue kept within its limits (R167, R168) -/

/-- The part of the Host Port that holds the notice queue is within its limits. -/
structure Port.NoticesOk (p : Port) : Prop where
  length : p.notices.length ≤ 16
  arrivals : p.notices.countP Notice.isArrival ≤ 1
  lost : p.lost ≤ 255

theorem countP_replace (l : List Notice) (v : Nat) :
    (l.map fun m => if m.isArrival then Notice.arrival v else m).countP Notice.isArrival
      = l.countP Notice.isArrival := by
  induction l with
  | nil => rfl
  | cons m l ih =>
    simp only [List.map_cons, List.countP_cons, ih]
    cases m <;> simp [Notice.isArrival]

theorem Port.NoticesOk.join {p : Port} (h : p.NoticesOk) (n : Notice)
    (a : n.isArrival = true → p.notices.any Notice.isArrival = false) : (p.join n).NoticesOk := by
  obtain ⟨h1, h2, h3⟩ := h
  unfold Port.join
  split
  · next hl =>
    refine ⟨by simpa using hl, ?_, h3⟩
    simp only [List.countP_append, List.countP_cons, List.countP_nil]
    by_cases hn : n.isArrival = true
    · have : p.notices.countP Notice.isArrival = 0 := by
        rw [List.countP_eq_zero]
        simpa using a hn
      simp [hn, this]
    · simpa [hn] using h2
  · exact ⟨h1, h2, Nat.min_le_left _ _⟩

theorem Port.NoticesOk.take {p : Port} (h : p.NoticesOk) (n : Notice) : (p.take n).NoticesOk := by
  unfold Port.take
  split
  · split
    · exact ⟨by simpa using h.length, by rw [countP_replace]; exact h.arrivals, h.lost⟩
    · next hn => exact h.join _ fun _ => by simpa using hn
  · next hn =>
    refine h.join _ fun ha => ?_
    cases n <;> simp_all [Notice.isArrival]

theorem Port.NoticesOk.takes (l : List Notice) {p : Port} (h : p.NoticesOk) :
    (l.foldl Port.take p).NoticesOk := by
  induction l generalizing p with
  | nil => exact h
  | cons n l ih => exact ih (h.take n)

theorem State.settle_notices (s : State) :
    s.settle.port.notices = s.port.notices ∧ s.settle.port.lost = s.port.lost := by
  have e : s.excessTest.port = s.port := by
    unfold State.excessTest
    split
    · rfl
    · split <;> rfl
  have h := ((((((State.fillSlots_still s.excessTest).trans (State.placeHead_still _)).trans
    (State.scheduleErase_still _)).trans (State.serve_still _)).trans
    (State.scheduleErase_still _)).trans (State.serve_still _)).trans (State.checkSuspend_still _)
  exact ⟨h.notices.trans (by rw [e]), h.lost.trans (by rw [e])⟩

theorem State.flush_notices {s : State} (h : s.NoticesOk) : s.flush.NoticesOk := by
  have := Port.NoticesOk.takes (joinOrder s.raised.length s.raised s.freeIndex).1
    (p := s.port) ⟨h.length, h.arrivals, h.lost⟩
  exact ⟨this.length, this.arrivals, this.lost⟩

theorem State.conclude_notices {s : State} (h : s.NoticesOk) : s.conclude.NoticesOk := by
  apply State.flush_notices
  obtain ⟨a, b⟩ := s.settle_notices
  exact ⟨by simpa [a] using h.length, by simpa [a] using h.arrivals, by simpa [b] using h.lost⟩

end Sys2Proof.Machine
end

