-- ==== Sys2Proof/Laws/Conclude.lean ====
section
/-! SUPPORT. What the consequences at an event's end leave of the queues, the seek slots, the
responder queue and the array. -/

namespace Sys2Proof.Machine

/-- Jobs and pending entries only join at the tail, and a slot in use stays as it is. -/
structure State.Grows (s t : State) : Prop where
  jobs : s.writer.jobs <+: t.writer.jobs
  pending : s.tracker.pending <+: t.tracker.pending
  slots : ∀ (i : Nat) sl, s.repair.slots[i]? = some (some sl) → t.repair.slots[i]? = some (some sl)

theorem State.Grows.refl (s : State) : s.Grows s :=
  ⟨List.prefix_rfl, List.prefix_rfl, fun _ _ h => h⟩

theorem State.Grows.trans {s t u : State} (a : s.Grows t) (b : t.Grows u) : s.Grows u :=
  ⟨a.1.trans b.1, a.2.trans b.2, fun i sl h => b.3 i sl (a.3 i sl h)⟩

/-- Equal jobs, pending list and slots grow. -/
theorem State.Grows.of_eq {s t : State} (a : t.writer.jobs = s.writer.jobs)
    (b : t.tracker.pending = s.tracker.pending) (c : t.repair.slots = s.repair.slots) : s.Grows t :=
  ⟨by rw [a], by rw [b], fun i sl h => by rw [c]; exact h⟩

theorem State.excessTest_grows (s : State) : s.Grows s.excessTest := by
  unfold State.excessTest
  split
  · exact .refl s
  · split
    · exact ⟨List.prefix_append _ _, List.prefix_append _ _, fun _ _ h => h⟩
    · exact .refl s

theorem State.fillSlot_grows (s : State) : s.Grows s.fillSlot := by
  unfold State.fillSlot
  split
  · next i r hi _ =>
    refine ⟨List.prefix_rfl, List.prefix_rfl, fun j sl h => ?_⟩
    have hn : ∃ x, s.repair.slots[i]? = some x ∧ x.isNone = true := by
      obtain ⟨hlt, hp, _⟩ := List.findIdx?_eq_some_iff_getElem.1 hi
      exact ⟨_, List.getElem?_eq_getElem hlt, hp⟩
    have hij : i ≠ j := by
      rintro rfl
      obtain ⟨x, hx, hxn⟩ := hn
      rw [h] at hx
      cases hx
      cases hxn
    show (s.repair.slots.set i _)[j]? = _
    rw [List.getElem?_set_ne hij]
    exact h
  · exact .refl s

theorem State.fillSlots_grows (s : State) : s.Grows s.fillSlots := by
  unfold State.fillSlots
  split
  · exact repeat_rel .refl .trans State.fillSlot_grows 4 s
  · exact .refl s

theorem State.askRoom_grows (s : State) : s.Grows s.askRoom := by
  unfold State.askRoom
  dsimp only
  split <;> exact .of_eq rfl rfl rfl

theorem State.placeHead_grows (s : State) : s.Grows s.placeHead := by
  unfold State.placeHead
  repeat' split
  all_goals first | exact .refl s | exact s.askRoom_grows | exact .of_eq rfl rfl rfl

theorem State.scheduleErase_grows (s : State) : s.Grows s.scheduleErase := by
  unfold State.scheduleErase
  repeat' split
  all_goals first | exact .refl s | exact .of_eq rfl rfl rfl | skip
  dsimp only
  split
  · exact .of_eq rfl rfl rfl
  · exact .refl s

theorem State.takeNext_grows (s : State) (e : Responder) (l : List Nat) : s.Grows (s.takeNext e l) := by
  unfold State.takeNext
  repeat' split
  all_goals exact .of_eq rfl rfl rfl

theorem State.skipSeq_grows (s : State) (q o seq : Nat) : s.Grows (s.skipSeq q o seq) := by
  unfold State.skipSeq
  split
  · exact s.takeNext_grows _ _
  · exact .refl s

theorem State.setArray_grows (s : State) (a : ArrayEngine) : s.Grows (s.setArray a) :=
  .of_eq rfl rfl rfl

theorem State.readDone_grows (s : State) (c : Code) : s.Grows (s.setPort (s.port.readDone c)) :=
  .of_eq rfl rfl rfl

theorem serveClaims_grows (fuel : Nat) (s : State) : s.Grows (serveClaims fuel s) := by
  induction fuel generalizing s with
  | zero => exact .refl s
  | succ fuel ih =>
    unfold serveClaims
    repeat' split
    all_goals try dsimp only
    all_goals
      first
      | exact .refl s
      | exact .of_eq rfl rfl rfl
      | exact ((s.setArray_grows _).trans (State.readDone_grows _ _)).trans (ih _)
      | exact ((s.setArray_grows _).trans (State.skipSeq_grows _ _ _ _)).trans (ih _)

theorem State.checkSuspend_grows (s : State) : s.Grows s.checkSuspend := by
  unfold State.checkSuspend
  repeat' split
  all_goals first | exact .refl s | exact .of_eq rfl rfl rfl

/-- The end of an event only appends to the job queue and the pending list, and leaves the slots in
use. -/
theorem State.conclude_grows (s : State) : s.Grows s.conclude :=
  State.Grows.trans
    (s.excessTest_grows.trans <| (State.fillSlots_grows _).trans <| (State.placeHead_grows _).trans <|
      (State.scheduleErase_grows _).trans <| (serveClaims_grows _ _).trans <|
      (State.scheduleErase_grows _).trans <| (serveClaims_grows _ _).trans (State.checkSuspend_grows _))
    (.of_eq rfl rfl rfl)

/-! ### The responder queue -/

/-- Responder entries only leave, and lists only shrink. -/
def State.Shrinks (s t : State) : Prop :=
  ∀ x ∈ t.repair.responders,
    (∃ e ∈ s.repair.responders, e.requester = x.requester ∧ e.origin = x.origin ∧ x.list ⊆ e.list) ∧
    ∃ e ∈ s.repair.responders, e.requester = x.requester ∧ e.origin = x.origin ∧ e.gone = x.gone

theorem State.Shrinks.of_eq {s t : State} (h : t.repair.responders = s.repair.responders) :
    s.Shrinks t := fun x hx =>
  ⟨⟨x, h ▸ hx, rfl, rfl, fun _ h => h⟩, x, h ▸ hx, rfl, rfl, rfl⟩

theorem State.Shrinks.refl (s : State) : s.Shrinks s := .of_eq rfl

theorem State.Shrinks.trans {s t u : State} (a : s.Shrinks t) (b : t.Shrinks u) : s.Shrinks u := by
  intro x hx
  obtain ⟨⟨y, hy, hq, ho, hl⟩, z, hz, hq', ho', hg⟩ := b x hx
  obtain ⟨⟨e, he, h1, h2, h3⟩, -⟩ := a y hy
  obtain ⟨-, f, hf, h4, h5, h6⟩ := a z hz
  exact ⟨⟨e, he, h1.trans hq, h2.trans ho, List.Subset.trans hl h3⟩, f, hf, h4.trans hq', h5.trans ho', h6.trans hg⟩

/-- An entry of a key whose list is replaced by a part of a list of that key. -/
theorem State.changeResponder_shrinks {s : State} {e : Responder} {f : Responder → Responder}
    (he : e ∈ s.repair.responders)
    (hf : ∀ x, (f x).requester = x.requester ∧ (f x).origin = x.origin ∧ (f x).gone = x.gone ∧
      ((f x).list = x.list ∨ (f x).list ⊆ e.list)) :
    s.Shrinks (s.changeResponder e.requester e.origin f) := by
  intro x hx
  obtain ⟨y, hy, rfl⟩ := List.mem_map.1 hx
  split
  · next hk =>
    obtain ⟨h1, h2, h3, h4⟩ := hf y
    refine ⟨?_, y, hy, h1.symm, h2.symm, h3.symm⟩
    rcases h4 with h4 | h4
    · exact ⟨y, hy, h1.symm, h2.symm, by rw [h4]; exact List.Subset.refl _⟩
    · exact ⟨e, he, by rw [h1, hk.1], by rw [h2, hk.2], h4⟩
  · exact ⟨⟨y, hy, rfl, rfl, List.Subset.refl _⟩, y, hy, rfl, rfl, rfl⟩

theorem Segments.firstStored_suffix {m : Segments} {o : Nat} {l r : List Nat} {k : Nat} {x : Locator}
    (h : m.firstStored o l = some (r, k, x)) : r <:+ l := by
  induction l with
  | nil => cases h
  | cons a l ih =>
    unfold Segments.firstStored at h
    split at h
    · cases h; exact List.suffix_rfl
    · exact (ih h).trans (List.suffix_cons a l)

theorem State.takeNext_shrinks {s : State} {e : Responder} {l : List Nat}
    (he : e ∈ s.repair.responders) (hl : l ⊆ e.list) : s.Shrinks (s.takeNext e l) := by
  unfold State.takeNext
  split
  · exact s.changeResponder_shrinks he fun y => ⟨rfl, rfl, rfl, .inr hl⟩
  · split
    · next r k x h =>
      exact s.changeResponder_shrinks he fun y =>
        ⟨rfl, rfl, rfl, .inr (List.Subset.trans (Segments.firstStored_suffix h).subset hl)⟩
    · split
      · exact s.changeResponder_shrinks he fun y => ⟨rfl, rfl, rfl, .inr (List.nil_subset _)⟩
      · intro x hx
        have := List.mem_of_mem_filter hx
        exact ⟨⟨x, this, rfl, rfl, List.Subset.refl _⟩, x, this, rfl, rfl, rfl⟩

theorem Repair.responder?_mem {r : Repair} {q o : Nat} {e : Responder} (h : r.responder? q o = some e) :
    e ∈ r.responders ∧ e.requester = q ∧ e.origin = o := by
  refine ⟨List.mem_of_find?_eq_some h, ?_⟩
  have := List.find?_some h
  simpa using this

theorem State.skipSeq_shrinks (s : State) (q o seq : Nat) : s.Shrinks (s.skipSeq q o seq) := by
  unfold State.skipSeq
  split
  · next e h =>
    exact State.takeNext_shrinks (Repair.responder?_mem h).1 (List.filter_subset_self _)
  · exact .refl s

theorem State.fillSlots_responders (s : State) :
    s.fillSlots.repair.responders = s.repair.responders := by
  have h : ∀ s : State, s.fillSlot.repair.responders = s.repair.responders := fun s => by
    unfold State.fillSlot
    split
    · unfold State.setSlot
      dsimp only
      split <;> rfl
    · rfl
  unfold State.fillSlots
  split
  · exact repeat_rel (R := fun s t : State => t.repair.responders = s.repair.responders)
      (fun _ => rfl) (fun a b => b.trans a) h 4 s
  · rfl

theorem State.setArray_shrinks (s : State) (a : ArrayEngine) : s.Shrinks (s.setArray a) :=
  .of_eq rfl

theorem State.readDone_shrinks (s : State) (c : Code) : s.Shrinks (s.setPort (s.port.readDone c)) :=
  .of_eq rfl

theorem serveClaims_shrinks (fuel : Nat) (s : State) : s.Shrinks (serveClaims fuel s) := by
  induction fuel generalizing s with
  | zero => exact .refl s
  | succ fuel ih =>
    unfold serveClaims
    repeat' split
    all_goals try dsimp only
    all_goals
      first
      | exact .refl s
      | exact .of_eq rfl
      | exact ((s.setArray_shrinks _).trans (State.readDone_shrinks _ _)).trans (ih _)
      | exact ((s.setArray_shrinks _).trans (State.skipSeq_shrinks _ _ _ _)).trans (ih _)

theorem State.excessTest_repair (s : State) : s.excessTest.repair = s.repair := by
  unfold State.excessTest
  split
  · rfl
  · split <;> rfl

theorem State.placeHead_repair (s : State) : s.placeHead.repair = s.repair := by
  unfold State.placeHead
  repeat' split
  all_goals first | rfl | (unfold State.askRoom; dsimp only; split <;> rfl)

theorem State.scheduleErase_repair (s : State) : s.scheduleErase.repair = s.repair := by
  unfold State.scheduleErase
  repeat' split
  all_goals first | rfl | skip
  dsimp only
  split <;> rfl

theorem State.checkSuspend_repair (s : State) : s.checkSuspend.repair = s.repair := by
  unfold State.checkSuspend
  repeat' split
  all_goals rfl

theorem State.checkSuspend_shrinks (s : State) : s.Shrinks s.checkSuspend :=
  .of_eq (by rw [State.checkSuspend_repair])

theorem State.excessTest_shrinks (s : State) : s.Shrinks s.excessTest :=
  .of_eq (by rw [State.excessTest_repair])

theorem State.fillSlots_shrinks (s : State) : s.Shrinks s.fillSlots := .of_eq s.fillSlots_responders

theorem State.placeHead_shrinks (s : State) : s.Shrinks s.placeHead :=
  .of_eq (by rw [State.placeHead_repair])

theorem State.scheduleErase_shrinks (s : State) : s.Shrinks s.scheduleErase :=
  .of_eq (by rw [State.scheduleErase_repair])

theorem State.serve_shrinks (s : State) : s.Shrinks s.serve := serveClaims_shrinks _ s

/-- At the end of an event responder entries only leave, and their lists only shrink. -/
theorem State.conclude_shrinks (s : State) : s.Shrinks s.conclude :=
  s.excessTest_shrinks.trans <| (State.fillSlots_shrinks _).trans <|
    (State.placeHead_shrinks _).trans <| (State.scheduleErase_shrinks _).trans <|
    (State.serve_shrinks _).trans <| (State.scheduleErase_shrinks _).trans <|
    (State.serve_shrinks _).trans <| (State.checkSuspend_shrinks _).trans (.of_eq rfl)

/-! ### The array -/

/-- No fetch claim can be served at the event's end: the array is not IDLE, or none waits. -/
def State.Quiescent (s : State) : Prop := s.array.activity ≠ .idle ∨ s.array.fetchClaims = []

/-- Without a fetch claim to serve the responder queue stays. -/
structure State.Rested (s t : State) : Prop where
  responders : t.repair.responders = s.repair.responders
  quiescent : t.Quiescent

theorem State.Rested.trans {s t u : State} (a : s.Rested t) (b : t.Rested u) : s.Rested u :=
  ⟨b.1.trans a.1, b.2⟩

theorem State.Rested.of_array {s t : State} (h : s.Quiescent)
    (r : t.repair.responders = s.repair.responders) (a : t.array.activity = s.array.activity)
    (f : t.array.fetchClaims = s.array.fetchClaims) : s.Rested t :=
  ⟨r, by rw [State.Quiescent, a, f]; exact h⟩

theorem State.excessTest_array (s : State) : s.excessTest.array = s.array := by
  unfold State.excessTest
  split
  · rfl
  · split <;> rfl

theorem State.fillSlots_array (s : State) : s.fillSlots.array = s.array := by
  have h : ∀ s : State, s.fillSlot.array = s.array := fun s => by
    unfold State.fillSlot
    split
    · unfold State.setSlot
      dsimp only
      split <;> rfl
    · rfl
  unfold State.fillSlots
  split
  · exact repeat_rel (R := fun s t : State => t.array = s.array) (fun _ => rfl)
      (fun a b => b.trans a) h 4 s
  · rfl

/-- Placement touches the program claim alone. -/
theorem State.placeHead_array (s : State) :
    s.placeHead.array = { s.array with programClaim := s.placeHead.array.programClaim } := by
  unfold State.placeHead
  repeat' split
  all_goals first | rfl | (unfold State.askRoom; dsimp only; split <;> rfl)

/-- The Segment Manager's decision touches the erase context alone. -/
theorem State.scheduleErase_array (s : State) :
    s.scheduleErase.array = { s.array with context := s.scheduleErase.array.context } := by
  unfold State.scheduleErase
  repeat' split
  all_goals first | rfl | skip
  dsimp only
  split <;> rfl

theorem State.serve_rested {s : State} (h : s.Quiescent) : s.Rested s.serve := by
  unfold State.serve
  generalize 2 * s.array.fetchClaims.length + 3 = fuel
  induction fuel generalizing s with
  | zero => exact ⟨rfl, h⟩
  | succ fuel ih =>
    unfold serveClaims
    dsimp only
    by_cases hi : s.array.activity = .idle
    · rw [if_neg (by simpa using hi)]
      have hf : s.array.fetchClaims = [] := h.resolve_left (by simpa using hi)
      split
      · split
        · exact ⟨rfl, .inl (by simp)⟩
        · have := ih (s := (s.setArray { s.array with hostClaim := none }).setPort
            (s.port.readDone .reclaimed)) (.inr hf)
          exact ⟨this.1, this.2⟩
      · split
        · split <;> exact ⟨rfl, .inl (by simp [State.openSegment])⟩
        · rw [hf]
          dsimp only
          split
          · split
            · exact ⟨rfl, h⟩
            · exact ⟨rfl, .inl (by simp)⟩
          · exact ⟨rfl, h⟩
    · rw [if_pos (by simpa using hi)]
      exact ⟨rfl, h⟩

/-- At the end of an event without a fetch claim to serve the responder queue stays. -/
theorem State.conclude_rested {s : State} (h : s.Quiescent) :
    s.conclude.repair.responders = s.repair.responders := by
  have h1 : s.Rested s.excessTest :=
    .of_array h (by rw [State.excessTest_repair]) (by rw [State.excessTest_array])
      (by rw [State.excessTest_array])
  have h2 := State.Rested.of_array h1.2 (State.fillSlots_responders _)
    (by rw [State.fillSlots_array]) (by rw [State.fillSlots_array])
  have h3 := State.Rested.of_array h2.2 (by rw [State.placeHead_repair])
    (by rw [State.placeHead_array]) (by rw [State.placeHead_array])
  have h4 := State.Rested.of_array h3.2 (by rw [State.scheduleErase_repair])
    (by rw [State.scheduleErase_array]) (by rw [State.scheduleErase_array])
  have h5 := State.serve_rested h4.2
  have h6 := State.Rested.of_array h5.2 (by rw [State.scheduleErase_repair])
    (by rw [State.scheduleErase_array]) (by rw [State.scheduleErase_array])
  have h7 := State.serve_rested h6.2
  have h8 := (h1.trans <| h2.trans <| h3.trans <| h4.trans <| h5.trans <| h6.trans h7).1
  show (State.checkSuspend _).repair.responders = _
  rw [State.checkSuspend_repair]
  exact h8

theorem State.serve_busy {s : State} (h : s.array.activity ≠ .idle) : s.serve = s := by
  unfold State.serve serveClaims
  rw [if_pos h]

/-- While the array is not IDLE, the end of an event serves no claim. -/
theorem State.conclude_busy {s : State} (h : s.array.activity ≠ .idle) :
    s.conclude.array.hostClaim = s.array.hostClaim ∧
    s.conclude.array.fetchClaims = s.array.fetchClaims ∧ s.conclude.array.activity ≠ .idle := by
  have h3 : (s.excessTest.fillSlots.placeHead.scheduleErase).array.activity = s.array.activity := by
    rw [State.scheduleErase_array, State.placeHead_array, State.fillSlots_array,
      State.excessTest_array]
  have h4 : (s.excessTest.fillSlots.placeHead.scheduleErase.scheduleErase).array.activity
      = s.array.activity := by
    rw [State.scheduleErase_array]; exact h3
  have e : s.conclude
      = (s.excessTest.fillSlots.placeHead.scheduleErase.scheduleErase).checkSuspend.flush := by
    unfold State.conclude State.settle
    have a := State.serve_busy (s := s.excessTest.fillSlots.placeHead.scheduleErase)
      (by rw [h3]; exact h)
    have b := State.serve_busy (s := s.excessTest.fillSlots.placeHead.scheduleErase.scheduleErase)
      (by rw [h4]; exact h)
    rw [a, b]
  have hf : (s.excessTest.fillSlots.placeHead.scheduleErase.scheduleErase).array.fetchClaims
      = s.array.fetchClaims := by
    rw [State.scheduleErase_array, State.scheduleErase_array, State.placeHead_array,
      State.fillSlots_array, State.excessTest_array]
  have hh : (s.excessTest.fillSlots.placeHead.scheduleErase.scheduleErase).array.hostClaim
      = s.array.hostClaim := by
    rw [State.scheduleErase_array, State.scheduleErase_array, State.placeHead_array,
      State.fillSlots_array, State.excessTest_array]
  rw [e]
  generalize s.excessTest.fillSlots.placeHead.scheduleErase.scheduleErase = t at h4 hf hh
  show t.checkSuspend.array.hostClaim = _ ∧ t.checkSuspend.array.fetchClaims = _ ∧
    t.checkSuspend.array.activity ≠ .idle
  unfold State.checkSuspend
  repeat' split
  all_goals refine ⟨hh, hf, ?_⟩
  all_goals first | (rw [h4]; exact h) | simp_all

end Sys2Proof.Machine
end

