-- ==== Sys2Proof/Laws/Flash.lean ====
section
/-! SUPPORT. The flash array: a read after a write, and the canonical form kept by every operation on
it. -/

namespace Sys2Proof.Machine

/-! ### The canonical form as a property of every cell -/

/-- The addresses of some cells all lie above one. -/
def CellsAbove (a : Nat) (cells : List Host.Cell) : Prop := ∀ c ∈ cells, a < c.1

/-- The canonical form, cell by cell. -/
theorem cellsOk_cons {a : Nat} {v : Byte} {rest : List Host.Cell} :
    cellsOk ((a, v) :: rest) = true ↔
      a < flashBytes ∧ v ≠ blankByte ∧ CellsAbove a rest ∧ cellsOk rest = true := by
  induction rest generalizing a v with
  | nil => simp [cellsOk, CellsAbove]
  | cons c rest ih =>
    obtain ⟨b, w⟩ := c
    constructor
    · intro h
      simp only [cellsOk, Bool.and_eq_true, decide_eq_true_eq] at h
      obtain ⟨⟨hab, hv⟩, hr⟩ := h
      obtain ⟨hb, hw, habove, hrest⟩ := ih.mp hr
      refine ⟨by omega, hv, ?_, hr⟩
      intro c hc
      rcases List.mem_cons.mp hc with rfl | hc
      · exact hab
      · have := habove c hc
        omega
    · rintro ⟨_, hv, habove, hr⟩
      simp only [cellsOk, Bool.and_eq_true, decide_eq_true_eq]
      exact ⟨⟨habove _ List.mem_cons_self, hv⟩, hr⟩

/-! ### Writes -/

/-- An address below every listed one reads blank. -/
theorem readCell_above {a : Nat} {cells : List Host.Cell} (h : CellsAbove a cells) :
    readCell cells a = blankByte := by
  induction cells with
  | nil => rfl
  | cons c rest ih =>
    obtain ⟨b, w⟩ := c
    have hb : a < b := h (b, w) List.mem_cons_self
    simp only [readCell, show a ≠ b by omega, if_false]
    exact ih fun c hc => h c (List.mem_cons_of_mem _ hc)

theorem CellsAbove.trans {a b : Nat} {cells : List Host.Cell} (h : CellsAbove b cells) (hab : a < b) :
    CellsAbove a cells := fun c hc => lt_trans hab (h c hc)

theorem writeCell_above {a b : Nat} {v : Byte} {cells : List Host.Cell} (h : CellsAbove b cells)
    (hab : b < a) : CellsAbove b (writeCell cells a v) := by
  induction cells with
  | nil =>
    unfold writeCell
    split
    · exact h
    · intro c hc
      simp at hc
      subst hc
      exact hab
  | cons c rest ih =>
    obtain ⟨d, w⟩ := c
    have hd : b < d := h (d, w) List.mem_cons_self
    have hr : CellsAbove b rest := fun c hc => h c (List.mem_cons_of_mem _ hc)
    unfold writeCell
    repeat' split
    · exact h
    · intro c hc
      rcases List.mem_cons.mp hc with rfl | hc
      · exact hab
      · exact h c hc
    · exact hr
    · intro c hc
      rcases List.mem_cons.mp hc with rfl | hc
      · exact hab
      · exact hr c hc
    · intro c hc
      rcases List.mem_cons.mp hc with rfl | hc
      · exact hd
      · exact ih hr c hc

/-- A write of one byte keeps the canonical form. -/
theorem writeCell_ok {a : Nat} {v : Byte} {cells : List Host.Cell} (h : cellsOk cells = true)
    (ha : a < flashBytes) : cellsOk (writeCell cells a v) = true := by
  induction cells with
  | nil =>
    unfold writeCell
    split
    · rfl
    · next hv => simp only [cellsOk, Bool.and_eq_true, decide_eq_true_eq]; exact ⟨ha, hv⟩
  | cons c rest ih =>
    obtain ⟨d, w⟩ := c
    obtain ⟨hd, hw, habove, hrest⟩ := cellsOk_cons.mp h
    unfold writeCell
    repeat' split
    · exact h
    · next hlt hv =>
      refine cellsOk_cons.mpr ⟨ha, hv, ?_, h⟩
      intro c hc
      rcases List.mem_cons.mp hc with rfl | hc
      · exact hlt
      · exact lt_trans hlt (habove c hc)
    · exact hrest
    · next heq hv =>
      subst heq
      exact cellsOk_cons.mpr ⟨ha, hv, habove, hrest⟩
    · next hlt hne =>
      exact cellsOk_cons.mpr ⟨hd, hw, writeCell_above habove (by omega), ih hrest⟩

/-- A read after a write of one byte: the byte written at its address, what stood there elsewhere. -/
theorem readCell_writeCell {cells : List Host.Cell} (h : cellsOk cells = true) (a b : Nat) (v : Byte) :
    readCell (writeCell cells a v) b = if b = a then v else readCell cells b := by
  induction cells with
  | nil =>
    unfold writeCell
    split
    · next hv => subst hv; simp [readCell]
    · by_cases hb : b = a <;> simp [readCell, hb]
  | cons c rest ih =>
    obtain ⟨d, w⟩ := c
    obtain ⟨_, _, habove, hrest⟩ := cellsOk_cons.mp h
    have below : ∀ {x}, x < d → readCell ((d, w) :: rest) x = blankByte := fun {x} hx =>
      readCell_above fun c hc => by
        rcases List.mem_cons.mp hc with rfl | hc
        · exact hx
        · exact lt_trans hx (habove c hc)
    rcases lt_trichotomy a d with hlt | rfl | hgt
    · by_cases hv : v = blankByte
      · simp only [writeCell, hlt, hv, if_true]
        split
        · next hb => exact hb ▸ below hlt
        · rfl
      · simp only [writeCell, hlt, hv, if_true, if_false]
        rfl
    · by_cases hv : v = blankByte
      · simp only [writeCell, lt_irrefl, hv, if_true, if_false]
        split
        · next hb => exact hb ▸ readCell_above habove
        · next hb => simp [readCell, hb]
      · simp only [writeCell, lt_irrefl, hv, if_true, if_false, readCell]
        split <;> simp_all
    · have h1 : ¬ a < d := by omega
      have h2 : a ≠ d := by omega
      simp only [writeCell, h1, h2, if_false, readCell, ih hrest]
      by_cases hb : b = d
      · have : b ≠ a := by omega
        simp [hb]
        omega
      · simp [hb]

/-- A write of some bytes keeps the canonical form. -/
theorem writeCells_ok {cells : List Host.Cell} (h : cellsOk cells = true) (a : Nat)
    (bytes : List Byte) : cellsOk (writeCells cells a bytes) = true := by
  induction bytes generalizing cells a with
  | nil => exact h
  | cons v bytes ih =>
    unfold writeCells
    split
    · next ha => exact ih (writeCell_ok h ha) _
    · exact ih h _

/-- A read after a write of some bytes within the array: the byte written where one was, what stood
there elsewhere. -/
theorem readCell_writeCells {cells : List Host.Cell} (h : cellsOk cells = true) (a : Nat)
    (bytes : List Byte) (b : Nat) (fits : a + bytes.length ≤ flashBytes) :
    readCell (writeCells cells a bytes) b
      = if a ≤ b ∧ b < a + bytes.length then bytes.getD (b - a) blankByte else readCell cells b := by
  induction bytes generalizing cells a with
  | nil => simp [writeCells]
  | cons v bytes ih =>
    simp only [List.length_cons] at fits ⊢
    have ha : a < flashBytes := by omega
    unfold writeCells
    rw [if_pos ha, ih (writeCell_ok h ha) _ (by omega), readCell_writeCell h]
    by_cases hb : b = a
    · subst hb
      simp
    · by_cases hin : a ≤ b ∧ b < a + (bytes.length + 1)
      · obtain ⟨d, rfl⟩ : ∃ d, b = a + 1 + d := ⟨b - a - 1, by omega⟩
        rw [if_pos (by omega), if_pos hin, show a + 1 + d - (a + 1) = d by omega,
          show a + 1 + d - a = d + 1 by omega]
        rfl
      · rw [if_neg (by omega), if_neg hin, if_neg hb]

/-! ### Erases -/

theorem filter_ok {cells : List Host.Cell} (p : Host.Cell → Bool) (h : cellsOk cells = true) :
    cellsOk (cells.filter p) = true := by
  induction cells with
  | nil => rfl
  | cons c rest ih =>
    obtain ⟨d, w⟩ := c
    obtain ⟨hd, hw, habove, hrest⟩ := cellsOk_cons.mp h
    rw [List.filter_cons]
    split
    · refine cellsOk_cons.mpr ⟨hd, hw, ?_, ih hrest⟩
      intro c hc
      exact habove c (List.mem_of_mem_filter hc)
    · exact ih hrest

/-! ### Every operation on the array keeps its canonical form -/

theorem Flash.program_wf {f : Flash} (h : f.wf = true) (a : Nat) (bytes : List Byte) :
    (f.program a bytes).wf = true := writeCells_ok h a bytes

theorem Flash.eraseSegment_wf {f : Flash} (h : f.wf = true) (k : Nat) : (f.eraseSegment k).wf = true :=
  filter_ok _ h

theorem Flash.spoilSegment_wf {f : Flash} (h : f.wf = true) (k : Nat) (b : Bool) :
    (f.spoilSegment k b).wf = true := filter_ok _ h

theorem Flash.spoilRecord_wf {f : Flash} (h : f.wf = true) (k page offset : Nat) :
    (f.spoilRecord k page offset).wf = true := h

theorem Flash.cutProgram_wf {f : Flash} (h : f.wf = true) (a : ArrayEngine) (w : Writer)
    (cut : CutShort) : (f.cutProgram a w cut).wf = true := by
  unfold Flash.cutProgram
  split
  · split
    · exact f.spoilRecord_wf h _ _ _
    · exact h
  · exact f.spoilSegment_wf h _ _
  · exact h

theorem Flash.cutErase_wf {f : Flash} (h : f.wf = true) (a : ArrayEngine) (cut : CutShort) :
    (f.cutErase a cut).wf = true := by
  unfold Flash.cutErase
  split
  · split
    · exact f.spoilSegment_wf h _ _
    · exact h
  · exact h

/-- The array after reset has the canonical form. -/
theorem reset_flash_wf : State.reset.flash.wf = true := rfl

/-- A record or header programmed reads back, and every other byte of the array reads as before. -/
theorem Flash.readByte_program {f : Flash} (h : f.wf = true) (a : Nat) (bytes : List Byte) (b : Nat)
    (fits : a + bytes.length ≤ flashBytes) :
    (f.program a bytes).readByte b
      = if a ≤ b ∧ b < a + bytes.length then bytes.getD (b - a) blankByte else f.readByte b :=
  readCell_writeCells h a bytes b fits

@[simp] theorem Flash.length_read (f : Flash) (a n : Nat) : (f.read a n).length = n := by
  simp [Flash.read]

/-- A read in two parts. -/
theorem Flash.read_add (f : Flash) (a m n : Nat) : f.read a (m + n) = f.read a m ++ f.read (a + m) n := by
  simp [Flash.read, List.range_add, Nat.add_assoc]

/-- The bytes of a read, one by one. -/
theorem Flash.read_eq {f : Flash} {a : Nat} {bytes : List Byte}
    (h : ∀ i < bytes.length, f.readByte (a + i) = bytes.getD i blankByte) :
    f.read a bytes.length = bytes := by
  refine List.ext_getElem (by simp) fun i h1 h2 => ?_
  simp [Flash.read, h i h2, List.getD_eq_getElem?_getD, h2]

/-- What is programmed at an address is read back from it. -/
theorem Flash.read_program {f : Flash} (h : f.wf = true) (a : Nat) (bytes : List Byte)
    (fits : a + bytes.length ≤ flashBytes) : (f.program a bytes).read a bytes.length = bytes := by
  refine Flash.read_eq fun i hi => ?_
  rw [Flash.readByte_program h a bytes _ fits, if_pos (by omega), Nat.add_sub_cancel_left]

/-- A read that a program does not touch. -/
theorem Flash.read_program_other {f : Flash} (h : f.wf = true) (a : Nat) (bytes : List Byte)
    (fits : a + bytes.length ≤ flashBytes) (b n : Nat) (apart : b + n ≤ a ∨ a + bytes.length ≤ b) :
    (f.program a bytes).read b n = f.read b n := by
  refine List.map_congr_left fun i hi => ?_
  have := List.mem_range.mp hi
  rw [Flash.readByte_program h a bytes _ fits, if_neg (by omega)]

/-- A read of the blank array. -/
theorem Flash.read_blank (a n : Nat) (d : List Damage) :
    Flash.read ⟨[], d⟩ a n = List.replicate n blankByte := by
  refine List.ext_getElem (by simp) fun i h1 h2 => ?_
  simp [Flash.read, Flash.readByte, readCell]

theorem readCell_filter (cells : List Host.Cell) (k b : Nat) :
    readCell (cells.filter fun c => decide (segmentOf c.1 ≠ k)) b
      = if segmentOf b = k then blankByte else readCell cells b := by
  induction cells with
  | nil => simp [readCell]
  | cons c rest ih =>
    obtain ⟨d, w⟩ := c
    rw [List.filter_cons]
    by_cases hd : segmentOf d = k
    · simp only [hd, ne_eq, not_true_eq_false, decide_false, Bool.false_eq_true, if_false, ih]
      by_cases hb : segmentOf b = k
      · simp [hb]
      · have : b ≠ d := fun e => hb (e ▸ hd)
        simp [hb, readCell, this]
    · simp only [ne_eq, hd, not_false_eq_true, decide_true, if_true, readCell, ih]
      by_cases hb : b = d
      · subst hb; simp [hd]
      · simp [hb]

/-- An erased segment reads blank throughout, and every byte of another segment reads as before. -/
theorem Flash.readByte_eraseSegment (f : Flash) (k b : Nat) :
    (f.eraseSegment k).readByte b = if segmentOf b = k then blankByte else f.readByte b :=
  readCell_filter f.cells k b

theorem Flash.readByte_spoilSegment (f : Flash) (k b : Nat) (p : Bool) :
    (f.spoilSegment k p).readByte b = if segmentOf b = k then blankByte else f.readByte b :=
  readCell_filter f.cells k b

end Sys2Proof.Machine
end

