-- ==== Sys2Proof/Laws/Limits.lean ====
section
/-! SUPPORT. The limits of the queues and tables under the operations that add to them (R46, R84,
R88, R95, R96, R99, R141), and the frames of those operations. -/

namespace Sys2Proof.Machine

/-! ### The gap table (R84, R88, R89, R96) -/

theorem Tracker.gapsAfter_length {t : Tracker} {o seq : Nat} {gaps : List Run}
    (h : t.gapsAfter o seq = some gaps) : gaps.length ≤ max 32 t.gaps.length := by
  simp only [Tracker.gapsAfter, Option.ite_none_right_eq_some, Option.some.injEq] at h
  obtain ⟨hl, rfl⟩ := h
  exact hl

/-- An offer that is admitted (R95, R96): the job queued under open admission, the gap table within
its limit, highest accepted raised. -/
theorem State.offerHole_some {s t : State} {o first last : Nat}
    (h : s.offerHole o first last = some t) :
    s.tracker.rangeWanted o first last = true ∧ s.admissionOpen = true ∧
    (s.tracker.gapsAfterHole o first last).length ≤ max 32 s.tracker.gaps.length ∧
    t = (s.setTracker { s.tracker.change o fun h => { h with accepted := max h.accepted last } with
      gaps := s.tracker.gapsAfterHole o first last
      pending := s.tracker.pending ++ [.hole o first last] }).queueJob
        ⟨.hole o first last, .declared⟩ := by
  unfold State.offerHole at h
  split at h
  · next hc =>
    simp only [Bool.and_eq_true, decide_eq_true_eq] at hc
    cases h
    exact ⟨hc.1.1, hc.1.2, hc.2, rfl⟩
  · cases h

theorem State.offerHole_limits {s t : State} {o first last : Nat} (hs : s.LimitsOk)
    (h : s.offerHole o first last = some t) : t.LimitsOk := by
  obtain ⟨-, ha, hg, rfl⟩ := State.offerHole_some h
  refine State.LimitsOk.queueJob (hs.setTracker _ ?_) _ (fun _ => ha) rfl
  have := hs.gaps
  show (s.tracker.gapsAfterHole o first last).length ≤ 32
  omega

theorem State.holeAdmitted_still (s : State) (o first last : Nat) :
    s.Still (s.holeAdmitted o first last) :=
  (s.raise_still _ _).trans (State.narrowOrigin_still _ _)

theorem State.holeAdmitted_limits {s : State} (h : s.LimitsOk) (o first last : Nat) :
    (s.holeAdmitted o first last).LimitsOk :=
  h.still (s.holeAdmitted_still _ _ _) (s.holeAdmitted_keeps _ _ _) (s.holeAdmitted_tables _ _ _)

theorem State.setSlot_limits {s : State} (h : s.LimitsOk) (i : Nat) (v : Option SeekSlot) :
    (s.setSlot i v).LimitsOk :=
  h.still (s.setSlot_still _ _) (s.setSlot_keeps _ _) (s.setSlot_tables _ _)

theorem declareSlot_limits (fuel : Nat) {s : State} (h : s.LimitsOk) (i : Nat) :
    (declareSlot fuel s i).LimitsOk := by
  induction fuel generalizing s with
  | zero => exact h
  | succ fuel ih =>
    unfold declareSlot
    repeat' split
    all_goals first | exact h | exact State.setSlot_limits h _ _ | skip
    dsimp only
    split
    · exact State.setSlot_limits h _ _
    · split
      · next ho => exact ih (State.holeAdmitted_limits (State.offerHole_limits h ho) _ _ _)
      · exact State.setSlot_limits h _ _

/-- What each step of a fold keeps of a state, the fold keeps. -/
theorem foldl_inv {α : Type} {P : State → Prop} {f : State → α → State}
    (h : ∀ s a, P s → P (f s a)) (l : List α) {s : State} (hs : P s) : P (l.foldl f s) := by
  induction l generalizing s with
  | nil => exact hs
  | cons a l ih => exact ih (h s a hs)

theorem State.offerHoles_limits {s : State} (h : s.LimitsOk) : s.offerHoles.LimitsOk := by
  unfold State.offerHoles
  exact foldl_inv (P := State.LimitsOk) (fun s i hs => declareSlot_limits 17 hs i) _ h

theorem State.declareGone_limits {s : State} (h : s.LimitsOk) (o first last : Nat) :
    (s.declareGone o first last).LimitsOk := by
  unfold State.declareGone
  refine foldl_inv (P := State.LimitsOk) (fun s r hs => ?_) _ h
  split
  · next ho => exact State.holeAdmitted_limits (State.offerHole_limits hs ho) _ _ _
  · exact hs

theorem State.narrowOrigin_limits {s : State} (h : s.LimitsOk) (o : Nat) :
    (s.narrowOrigin o).LimitsOk :=
  h.still (s.narrowOrigin_still _) (s.narrowOrigin_keeps _) (s.narrowOrigin_tables _)

theorem State.cancelRefill_limits {s : State} (h : s.LimitsOk) (o : Nat) (gone : Nat → Bool) :
    (s.cancelRefill o gone).LimitsOk :=
  h.still (s.cancelRefill_still _ _) (s.cancelRefill_keeps _ _) (s.cancelRefill_tables _ _)

/-! ### Arrivals and commits (R87 to R93) -/

theorem State.raise_limits {s : State} (h : s.LimitsOk) (b : Block) (n : Notice) :
    (s.raise b n).LimitsOk :=
  h.still (s.raise_still _ _) (s.raise_keeps _ _) (s.raise_tables _ _)

theorem State.learn_limits {s : State} (h : s.LimitsOk) (o v : Nat) : (s.learn o v).LimitsOk := by
  unfold State.learn
  exact h.setTracker _ h.gaps

theorem Tracker.setMark_gaps (t : Tracker) (o seq : Nat) : (t.setMark o seq).gaps = t.gaps := by
  unfold Tracker.setMark
  split <;> rfl

theorem Tracker.setMark_holdings (t : Tracker) (o seq : Nat) :
    (t.setMark o seq).holdings = t.holdings := by
  unfold Tracker.setMark
  split <;> rfl

theorem State.markDivergent_limits {s : State} (h : s.LimitsOk) (o seq p : Nat) :
    (s.markDivergent o seq p).LimitsOk := by
  unfold State.markDivergent State.divergent
  split
  · exact h
  · exact State.raise_limits (h.setTracker _ (by rw [Tracker.setMark_gaps]; exact h.gaps)) _ _
  · exact State.raise_limits h _ _

theorem State.decideArrival_limits {s : State} (h : s.LimitsOk) (a : Arrival) :
    (s.decideArrival a).1.LimitsOk := by
  unfold State.decideArrival
  split
  · split
    · exact h
    · exact State.markDivergent_limits h _ _ _
  · split
    · exact h
    · next hc =>
      split
      · next hg =>
        unfold State.accept
        refine State.LimitsOk.queueJob (h.setTracker _ ?_) _ (fun _ => ?_) rfl
        · have := Tracker.gapsAfter_length hg
          have := h.gaps
          show _ ≤ 32
          dsimp only
          omega
        · have := (Bool.or_eq_false_iff.mp (Bool.eq_false_iff.mpr hc)).2
          show s.admissionOpen = true
          simpa using this
      · exact h

theorem State.arrive_limits {s : State} (h : s.LimitsOk) (a : Arrival) : (s.arrive a).1.LimitsOk := by
  unfold State.arrive
  dsimp only
  split
  · exact State.markDivergent_limits h _ _ _
  · split
    · exact State.raise_limits (State.learn_limits h _ _) _ _
    · exact State.decideArrival_limits (State.learn_limits h _ _) a

theorem State.takeCommit_limits {s t : State} {a : Arrival} (h : s.LimitsOk)
    (hc : s.takeCommit a = some t) : t.LimitsOk := by
  unfold State.takeCommit at hc
  split at hc
  · cases hc
  · next hg =>
    cases hc
    refine State.LimitsOk.queueJob (h.setTracker _ ?_) _ (fun hi => by cases hi) rfl
    have := Tracker.gapsAfter_length hg
    have := h.gaps
    show _ ≤ 32
    dsimp only
    omega

/-! ### Responders (R142) -/

theorem State.answerSeek_limits {s : State} (h : s.LimitsOk) (q o first last : Nat) :
    (s.answerSeek q o first last).LimitsOk := by
  unfold State.answerSeek
  dsimp only
  repeat' split
  · exact h
  · refine ⟨h.incoming, h.release, h.submits, h.gaps, ?_, h.slots, h.failures⟩
    show (List.map _ _).length ≤ 4
    rw [List.length_map]
    exact h.responders
  · next hl =>
    refine ⟨h.incoming, h.release, h.submits, h.gaps, ?_, h.slots, h.failures⟩
    show (s.repair.responders ++ [_]).length ≤ 4
    simpa using hl
  · exact h

/-! ### Programs (R27, R47, R91) -/

theorem take_one_append_tail {α : Type} (l : List α) : l.take 1 ++ l.tail = l := by
  cases l <;> rfl

theorem countP_withMark (l : List Job) (mark : Nat) :
    (l.map (Job.withMark mark)).countP (·.body.isRelease) = l.countP (·.body.isRelease) := by
  induction l with
  | nil => rfl
  | cons j l ih =>
    simp only [List.map_cons, List.countP_cons, ih, Job.withMark]
    cases hb : j.body <;> simp [JobBody.isRelease, hb]

theorem incoming_withMark (l : List Job) (mark : Nat) :
    (l.map (Job.withMark mark)).countP (·.source.incoming) = l.countP (·.source.incoming) := by
  induction l with
  | nil => rfl
  | cons j l ih =>
    simp only [List.map_cons, List.countP_cons, ih, Job.withMark]
    cases hb : j.body <;> simp

/-- The job queue after a raised mark holds no more jobs of either kind, but for a first RELEASE job
(R47). -/
theorem State.queueRelease_limits {s : State} (h : s.LimitsOk) (mark : Nat) :
    (s.queueRelease mark).LimitsOk := by
  unfold State.queueRelease
  split
  · refine ⟨?_, ?_, h.submits, h.gaps, h.responders, h.slots, h.failures⟩
    · have hi := h.incoming
      show List.countP _ (if _ then _ else _) ≤ 15
      unfold Writer.incomingCount at hi
      split
      · rw [List.countP_append, incoming_withMark, ← List.countP_append]
        rw [take_one_append_tail]
        exact hi
      · rw [incoming_withMark]
        exact hi
    · have hr := h.release
      show List.countP _ (if _ then _ else _) ≤ 1
      split
      · rw [List.countP_append, countP_withMark, ← List.countP_append]
        rw [take_one_append_tail]
        exact hr
      · rw [countP_withMark]
        exact hr
  · split
    · exact h
    · next hn =>
      refine ⟨?_, ?_, h.submits, h.gaps, h.responders, h.slots, h.failures⟩
      · show ({ s.writer with jobs := s.writer.jobs ++ [_] } : Writer).incomingCount ≤ 15
        rw [Writer.incomingCount_append]
        simpa [Source.incoming] using h.incoming
      · show List.countP _ (s.writer.jobs ++ [_]) ≤ 1
        have : s.writer.jobs.countP (·.body.isRelease) = 0 := by
          rw [List.countP_eq_zero]
          simpa using hn
        rw [List.countP_append, this]
        rfl

end Sys2Proof.Machine
end

