-- ==== Sys2Proof/Laws/Forms.lean ====
section
/-! SUPPORT. The operations of chapters 6 and 7 as the updates they are made of: what each can change,
said once, for claims to cite in place of their definitions. -/

namespace Sys2Proof.Machine

/-! ### The Submission Controller (R107, R108) -/

/-- The declarations of one event raise the own durable mark and hand over notices, and change
nothing else. -/
theorem declareDurable_form (l : List Entry) (s : State) :
    ∃ d r, l.foldl State.declareDurable s
      = (s.setSubmission { s.submission with durable := d }).setRaised r ∧ s.submission.durable ≤ d := by
  induction l generalizing s with
  | nil => exact ⟨s.submission.durable, s.raised, rfl, le_rfl⟩
  | cons e l ih =>
    obtain ⟨d, r, h, hd⟩ := ih (s.declareDurable e)
    exact ⟨d, r, h, le_trans (Nat.le_max_left _ _) hd⟩

/-- The confirmation test changes the submit queue, by removal, the own durable mark, by raising, and
the notices handed over. -/
theorem State.confirmTest_form (s : State) :
    ∃ q d r, s.confirmTest
      = (s.setSubmission { s.submission with queue := q, durable := d }).setRaised r
      ∧ q.length ≤ s.submission.queue.length ∧ s.submission.durable ≤ d := by
  unfold State.confirmTest
  split
  · exact ⟨_, _, s.raised, rfl, le_rfl, le_rfl⟩
  · obtain ⟨d, r, h, hd⟩ := declareDurable_form (s.submission.queue.filter s.testHolds)
      (s.setSubmission { s.submission with queue := s.submission.queue.filter fun e => !s.testHolds e })
    exact ⟨_, d, r, h, List.length_filter_le _ _, hd⟩

/-! ### The Presence Unit (R123 to R125) -/

/-- A frame heard changes the peer table, and through its zeroing the submit queue. -/
theorem State.hearPeer_form (s : State) (p : Nat) (quieting : Bool) :
    ∃ q d r, s.hearPeer p quieting
      = ((s.setPresence (if s.isPeer p then s.presence.change p (·.heard quieting) else s.presence)).setSubmission
          { s.submission with queue := q, durable := d }).setRaised r
      ∧ q.length ≤ s.submission.queue.length ∧ s.submission.durable ≤ d := by
  unfold State.hearPeer
  split
  · dsimp only
    split <;> split
    · obtain ⟨q, d, r, h, hq, hd⟩ := (s.setPresence (s.presence.change p (·.heard quieting))).confirmTest_form
      exact ⟨q, d, r, h, hq, hd⟩
    · obtain ⟨q, d, r, h, hq, hd⟩ := State.confirmTest_form
        ((s.setPresence (s.presence.change p (·.heard quieting))).raise .presenceUnit
          (.peer p ((s.presence.peer p).heard quieting).state))
      exact ⟨q, d, r, h, hq, hd⟩
    · exact ⟨_, _, s.raised, rfl, le_rfl, le_rfl⟩
    · exact ⟨_, _, _, rfl, le_rfl, le_rfl⟩
  · exact ⟨_, _, s.raised, rfl, le_rfl, le_rfl⟩

/-- A merge changes the peer table, and through a raise for the own origin the submit queue. -/
theorem State.mergePeer_form (s : State) (p : Nat) (f : Peer → Peer) :
    ∃ q d r, s.mergePeer p f
      = ((s.setPresence (if s.isPeer p then s.presence.change p f else s.presence)).setSubmission
          { s.submission with queue := q, durable := d }).setRaised r
      ∧ q.length ≤ s.submission.queue.length ∧ s.submission.durable ≤ d := by
  unfold State.mergePeer
  split
  · dsimp only
    split
    · obtain ⟨q, d, r, h, hq, hd⟩ := (s.setPresence (s.presence.change p f)).confirmTest_form
      exact ⟨q, d, r, h, hq, hd⟩
    · exact ⟨_, _, s.raised, rfl, le_rfl, le_rfl⟩
  · exact ⟨_, _, s.raised, rfl, le_rfl, le_rfl⟩

/-- Learning changes the known high of its origin alone (R92). -/
theorem State.learn_form (s : State) (o v : Nat) :
    s.learn o v
      = s.setTracker (s.tracker.change o fun h => { h with known := max h.known (s.learnable o v) }) :=
  rfl

/-- Learning the values of a PRESENCE changes holdings alone. -/
theorem State.learnAll_form (l : List Word) (s : State) (o : Nat) :
    ∃ hs, s.learnAll o l = s.setTracker { s.tracker with holdings := hs } := by
  induction l generalizing s o with
  | nil => exact ⟨s.tracker.holdings, rfl⟩
  | cons v l ih =>
    obtain ⟨hs, h⟩ := ih (s.learn o v.toNat) (o + 1)
    exact ⟨hs, h⟩

/-! ### Holdings read after an update -/

theorem Tracker.holding_change (t : Tracker) (o p : Nat) (f : Holding → Holding)
    (h : o < t.holdings.length) :
    (t.change o f).holding p = if p = o then f (t.holding p) else t.holding p := by
  unfold Tracker.holding Tracker.change
  simp only [List.getD_eq_getElem?_getD, List.getElem?_modify]
  by_cases hp : p = o
  · subst hp
    simp [h]
  · have : ¬ o = p := fun h => hp h.symm
    simp only [this, hp, if_false]
    cases t.holdings[p]? <;> rfl

theorem Tracker.holding_change_ne (t : Tracker) (o p : Nat) (f : Holding → Holding) (h : p ≠ o) :
    (t.change o f).holding p = t.holding p := by
  unfold Tracker.holding Tracker.change
  simp only [List.getD_eq_getElem?_getD, List.getElem?_modify]
  have : ¬ o = p := fun e => h e.symm
  simp only [this, if_false]
  cases t.holdings[p]? <;> rfl

theorem Presence.peer_change (t : Presence) (k p : Nat) (f : Peer → Peer)
    (h : k < t.peers.length) :
    (t.change k f).peer p = if p = k then f (t.peer p) else t.peer p := by
  unfold Presence.peer Presence.change
  simp only [List.getD_eq_getElem?_getD, List.getElem?_modify]
  by_cases hp : p = k
  · subst hp
    simp [h]
  · have : ¬ k = p := fun h => hp h.symm
    simp only [this, hp, if_false]
    cases t.peers[p]? <;> rfl

theorem Presence.peer_change_ne (t : Presence) (k p : Nat) (f : Peer → Peer) (h : p ≠ k) :
    (t.change k f).peer p = t.peer p := by
  unfold Presence.peer Presence.change
  simp only [List.getD_eq_getElem?_getD, List.getElem?_modify]
  have : ¬ k = p := fun e => h e.symm
  simp only [this, if_false]
  cases t.peers[p]? <;> rfl

/-! ### Commit completions (R104) and tracker completions (R91) -/

theorem State.commitDone_form (s : State) (seq : Nat) :
    ∃ q d r, s.commitDone seq
      = (s.setSubmission { s.submission with queue := q, durable := d }).setRaised r
      ∧ q.length ≤ s.submission.queue.length ∧ s.submission.durable ≤ d := by
  unfold State.commitDone
  split
  · split
    · refine ⟨_, _, _, rfl, ?_, Nat.le_max_left _ _⟩
      simp [State.changeEntry]
    · next e _ _ =>
      obtain ⟨q, d, r, h, hq, hd⟩ :=
        (s.changeEntry seq fun e => { e with stage := .sending }).confirmTest_form
      refine ⟨q, d, r, h, hq.trans ?_, hd⟩
      simp [State.changeEntry]
  · exact ⟨_, _, s.raised, rfl, le_rfl, le_rfl⟩

theorem State.commitHandOn_form (s : State) (j : Job) :
    ∃ q d r, s.commitHandOn j
      = (s.setSubmission { s.submission with queue := q, durable := d }).setRaised r
      ∧ q.length ≤ s.submission.queue.length ∧ s.submission.durable ≤ d := by
  unfold State.commitHandOn
  split
  · exact s.commitDone_form _
  · exact ⟨_, _, s.raised, rfl, le_rfl, le_rfl⟩

/-- A program completion changes the tables of the Stream Tracker alone, and no gap entry. -/
theorem State.trackCompletion_form (s : State) (j : Job) :
    ∃ t, s.trackCompletion j = s.setTracker t ∧ t.gaps = s.tracker.gaps := by
  unfold State.trackCompletion
  split
  · exact ⟨_, rfl, rfl⟩
  · exact ⟨_, rfl, rfl⟩
  · exact ⟨s.tracker, rfl, rfl⟩

end Sys2Proof.Machine
end

