-- ==== Sys2Proof/Laws/PerInstr.lean ====
section
/-! SUPPORT. What a host port selection spells, command by command: a complete host command is spelt by
its code byte and what follows, and no selection that spells a command is longer than the longest
SUBMIT (R148, R157). -/

namespace Sys2Proof.Laws.Spelling

open Sys2Proof Machine

/-- A host command is spelt by a selection that begins with its code; a selection that spells a
well-formed command has at most 258 bytes. -/
def Statement (i : Instr) : Prop :=
  (∀ c, i.hostCommand = some (c, .whole) → ∃ rest, encodeSelection i = some (c.code :: rest)) ∧
  ∀ bytes, i.wellFormed = true → encodeSelection i = some bytes → bytes.length ≤ 258

/-- A command that no selection spells. -/
theorem unspelt {i : Instr} (h : ∀ c, i.hostCommand ≠ some (c, .whole)) (e : encodeSelection i = none) :
    Statement i :=
  ⟨fun c hc => absurd hc (h c), fun _ _ hb => by rw [e] at hb; cases hb⟩

/-- Some bytes that are no host command. -/
theorem spelt {i : Instr} {b : List Byte} (h : ∀ c, i.hostCommand ≠ some (c, .whole))
    (e : encodeSelection i = some b) (l : b.length ≤ 258) : Statement i :=
  ⟨fun c hc => absurd hc (h c), fun _ _ hb => by rw [e] at hb; cases hb; exact l⟩

/-- A host command. -/
theorem command {i : Instr} {c : HostCommand} {b : List Byte} (h : i.hostCommand = some (c, .whole))
    (e : encodeSelection i = some (c.code :: b)) (l : i.wellFormed = true → b.length ≤ 257) :
    Statement i :=
  ⟨fun _ hc => (by rw [h] at hc; cases hc; exact ⟨b, e⟩), fun _ hw hb => by
    rw [e] at hb; cases hb; exact Nat.succ_le_succ (l hw)⟩

theorem stationReset (cut : CutShort) :
    Statement (.stationReset cut) :=
  unspelt (fun _ h => nomatch h) rfl

theorem status (moment : Moment) :
    Statement (.status moment) :=
  match moment with
  | .whole => command rfl rfl fun _ => Nat.le_of_ble_eq_true rfl
  | .select => unspelt (fun _ h => nomatch h) rfl
  | .complete => unspelt (fun _ h => nomatch h) rfl
  | .release => unspelt (fun _ h => nomatch h) rfl

theorem result (moment : Moment) :
    Statement (.result moment) :=
  match moment with
  | .whole => command rfl rfl fun _ => Nat.le_of_ble_eq_true rfl
  | .select => unspelt (fun _ h => nomatch h) rfl
  | .complete => unspelt (fun _ h => nomatch h) rfl
  | .release => unspelt (fun _ h => nomatch h) rfl

theorem readBuffer (moment : Moment) :
    Statement (.readBuffer moment) :=
  match moment with
  | .whole => command rfl rfl fun _ => Nat.le_of_ble_eq_true rfl
  | .select => unspelt (fun _ h => nomatch h) rfl
  | .complete => unspelt (fun _ h => nomatch h) rfl
  | .release => unspelt (fun _ h => nomatch h) rfl

theorem nextNotice (moment : Moment) :
    Statement (.nextNotice moment) :=
  match moment with
  | .whole => command rfl rfl fun _ => Nat.le_of_ble_eq_true rfl
  | .select => unspelt (fun _ h => nomatch h) rfl
  | .complete => unspelt (fun _ h => nomatch h) rfl
  | .release => unspelt (fun _ h => nomatch h) rfl

theorem readPosition (position : Word) (moment : Moment) :
    Statement (.readPosition position moment) :=
  match moment with
  | .whole => command rfl rfl fun _ => Nat.le_of_ble_eq_true rfl
  | .select => unspelt (fun _ h => nomatch h) rfl
  | .complete => unspelt (fun _ h => nomatch h) rfl
  | .release => unspelt (fun _ h => nomatch h) rfl

theorem readRecord (origin : Byte) (seq : Word) (moment : Moment) :
    Statement (.readRecord origin seq moment) :=
  match moment with
  | .whole => command rfl rfl fun _ => Nat.le_of_ble_eq_true rfl
  | .select => unspelt (fun _ h => nomatch h) rfl
  | .complete => unspelt (fun _ h => nomatch h) rfl
  | .release => unspelt (fun _ h => nomatch h) rfl

theorem submit (tag : Byte) (payload : List Byte) (moment : Moment) :
    Statement (.submit tag payload moment) :=
  match moment with
  | .whole => command rfl rfl fun h => by
    have h : payload.length ≤ 255 := of_decide_eq_true h
    exact Nat.add_le_add_right h 2
  | .select => unspelt (fun _ h => nomatch h) rfl
  | .complete => unspelt (fun _ h => nomatch h) rfl
  | .release => unspelt (fun _ h => nomatch h) rfl

theorem release (position : Word) (moment : Moment) :
    Statement (.release position moment) :=
  match moment with
  | .whole => command rfl rfl fun _ => Nat.le_of_ble_eq_true rfl
  | .select => unspelt (fun _ h => nomatch h) rfl
  | .complete => unspelt (fun _ h => nomatch h) rfl
  | .release => unspelt (fun _ h => nomatch h) rfl

theorem enlist (station n w rate p : Byte) (moment : Moment) :
    Statement (.enlist station n w rate p moment) :=
  match moment with
  | .whole => command rfl rfl fun _ => Nat.le_of_ble_eq_true rfl
  | .select => unspelt (fun _ h => nomatch h) rfl
  | .complete => unspelt (fun _ h => nomatch h) rfl
  | .release => unspelt (fun _ h => nomatch h) rfl

theorem format (moment : Moment) :
    Statement (.format moment) :=
  match moment with
  | .whole => command rfl rfl fun _ => Nat.le_of_ble_eq_true rfl
  | .select => unspelt (fun _ h => nomatch h) rfl
  | .complete => unspelt (fun _ h => nomatch h) rfl
  | .release => unspelt (fun _ h => nomatch h) rfl

theorem quiet (moment : Moment) :
    Statement (.quiet moment) :=
  match moment with
  | .whole => command rfl rfl fun _ => Nat.le_of_ble_eq_true rfl
  | .select => unspelt (fun _ h => nomatch h) rfl
  | .complete => unspelt (fun _ h => nomatch h) rfl
  | .release => unspelt (fun _ h => nomatch h) rfl

theorem wake (moment : Moment) :
    Statement (.wake moment) :=
  match moment with
  | .whole => command rfl rfl fun _ => Nat.le_of_ble_eq_true rfl
  | .select => unspelt (fun _ h => nomatch h) rfl
  | .complete => unspelt (fun _ h => nomatch h) rfl
  | .release => unspelt (fun _ h => nomatch h) rfl

theorem lineResume (moment : Moment) :
    Statement (.lineResume moment) :=
  match moment with
  | .whole => command rfl rfl fun _ => Nat.le_of_ble_eq_true rfl
  | .select => unspelt (fun _ h => nomatch h) rfl
  | .complete => unspelt (fun _ h => nomatch h) rfl
  | .release => unspelt (fun _ h => nomatch h) rfl

theorem reset (cut : CutShort) (moment : Moment) :
    Statement (.reset cut moment) :=
  match moment with
  | .whole => command rfl rfl fun _ => Nat.le_of_ble_eq_true rfl
  | .select => unspelt (fun _ h => nomatch h) rfl
  | .complete => unspelt (fun _ h => nomatch h) rfl
  | .release => unspelt (fun _ h => nomatch h) rfl

theorem unknownCode (code : Byte) (moment : Moment) :
    Statement (.unknownCode code moment) :=
  match moment with
  | .whole => spelt (fun _ h => nomatch h) rfl (Nat.le_of_ble_eq_true rfl)
  | .select => unspelt (fun _ h => nomatch h) rfl
  | .complete => unspelt (fun _ h => nomatch h) rfl
  | .release => unspelt (fun _ h => nomatch h) rfl

theorem commandDiscarded (how : Discard) :
    Statement (.commandDiscarded how) :=
  match how with
  | .noBit => spelt (fun _ h => nomatch h) rfl (Nat.zero_le _)
  | .offBoundary => unspelt (fun _ h => nomatch h) rfl
  | .duringHold => unspelt (fun _ h => nomatch h) rfl
  | .incomplete _ => unspelt (fun _ h => nomatch h) rfl

theorem hold (asserted : Bool) :
    Statement (.hold asserted) :=
  unspelt (fun _ h => nomatch h) rfl

theorem heldFrame (sender : StationNumber) (origin : Byte) (value : Word) :
    Statement (.heldFrame sender origin value) :=
  unspelt (fun _ h => nomatch h) rfl

theorem presenceFrame (sender : StationNumber) (joining full : Bool) (vector : List Word) :
    Statement (.presenceFrame sender joining full vector) :=
  unspelt (fun _ h => nomatch h) rfl

theorem quietingPresenceFrame (sender : StationNumber) (full : Bool) (vector : List Word) :
    Statement (.quietingPresenceFrame sender full vector) :=
  unspelt (fun _ h => nomatch h) rfl

theorem appendFrame (sender : StationNumber) (seq : Word) (tag : Byte) (payload : List Byte) (check : Word) :
    Statement (.appendFrame sender seq tag payload check) :=
  unspelt (fun _ h => nomatch h) rfl

theorem refillCopyFrame (sender : StationNumber) (requester origin : Byte) (seq : Word) (tag : Byte) (payload : List Byte) (check : Word) :
    Statement (.refillCopyFrame sender requester origin seq tag payload check) :=
  unspelt (fun _ h => nomatch h) rfl

theorem refillGoneFrame (sender : StationNumber) (requester origin : Byte) (first last : Word) :
    Statement (.refillGoneFrame sender requester origin first last) :=
  unspelt (fun _ h => nomatch h) rfl

theorem seekFrame (sender : StationNumber) (origin : Byte) (first last : Word) :
    Statement (.seekFrame sender origin first last) :=
  unspelt (fun _ h => nomatch h) rfl

theorem frameDiscarded (bytes : List Byte) :
    Statement (.frameDiscarded bytes) :=
  unspelt (fun _ h => nomatch h) rfl

theorem separatorDominant :
    Statement .separatorDominant :=
  unspelt (fun _ h => nomatch h) rfl

theorem dominantRunEnd :
    Statement .dominantRunEnd :=
  unspelt (fun _ h => nomatch h) rfl

theorem gapEnd :
    Statement .gapEnd :=
  unspelt (fun _ h => nomatch h) rfl

theorem huntIdleRun :
    Statement .huntIdleRun :=
  unspelt (fun _ h => nomatch h) rfl

theorem frameStart :
    Statement .frameStart :=
  unspelt (fun _ h => nomatch h) rfl

theorem arbitrationLoss :
    Statement .arbitrationLoss :=
  unspelt (fun _ h => nomatch h) rfl

theorem transmitFailure :
    Statement .transmitFailure :=
  unspelt (fun _ h => nomatch h) rfl

theorem breakComplete :
    Statement .breakComplete :=
  unspelt (fun _ h => nomatch h) rfl

theorem heldSendCompletion :
    Statement .heldSendCompletion :=
  unspelt (fun _ h => nomatch h) rfl

theorem appendSendCompletion :
    Statement .appendSendCompletion :=
  unspelt (fun _ h => nomatch h) rfl

theorem refillSendCompletion :
    Statement .refillSendCompletion :=
  unspelt (fun _ h => nomatch h) rfl

theorem seekSendCompletion :
    Statement .seekSendCompletion :=
  unspelt (fun _ h => nomatch h) rfl

theorem presenceSendCompletion :
    Statement .presenceSendCompletion :=
  unspelt (fun _ h => nomatch h) rfl

theorem quietingPresenceSendCompletion :
    Statement .quietingPresenceSendCompletion :=
  unspelt (fun _ h => nomatch h) rfl

theorem presenceTimerExpiry :
    Statement .presenceTimerExpiry :=
  unspelt (fun _ h => nomatch h) rfl

theorem silenceTimerExpiry (peers : List StationNumber) :
    Statement (.silenceTimerExpiry peers) :=
  unspelt (fun _ h => nomatch h) rfl

theorem joiningEnd :
    Statement .joiningEnd :=
  unspelt (fun _ h => nomatch h) rfl

theorem confirmationWaitExpiry (seq : Word) :
    Statement (.confirmationWaitExpiry seq) :=
  unspelt (fun _ h => nomatch h) rfl

theorem repairWaitExpiry (slot : Fin 4) :
    Statement (.repairWaitExpiry slot) :=
  unspelt (fun _ h => nomatch h) rfl

theorem deferExpiry (requester origin : StationNumber) :
    Statement (.deferExpiry requester origin) :=
  unspelt (fun _ h => nomatch h) rfl

theorem recordProgramCompletion (outcome : ProgramOutcome) :
    Statement (.recordProgramCompletion outcome) :=
  unspelt (fun _ h => nomatch h) rfl

theorem headerProgramCompletion (outcome : ProgramOutcome) :
    Statement (.headerProgramCompletion outcome) :=
  unspelt (fun _ h => nomatch h) rfl

theorem hostReadCompletion (flaw : Option (List Byte)) :
    Statement (.hostReadCompletion flaw) :=
  unspelt (fun _ h => nomatch h) rfl

theorem fetchCompletion (flaw : Option (List Byte)) :
    Statement (.fetchCompletion flaw) :=
  unspelt (fun _ h => nomatch h) rfl

theorem blankCheckCompletion :
    Statement .blankCheckCompletion :=
  unspelt (fun _ h => nomatch h) rfl

theorem mountReadCompletion :
    Statement .mountReadCompletion :=
  unspelt (fun _ h => nomatch h) rfl

theorem eraseCompletion (outcome : EraseOutcome) :
    Statement (.eraseCompletion outcome) :=
  unspelt (fun _ h => nomatch h) rfl

theorem resumeMinimumReached :
    Statement .resumeMinimumReached :=
  unspelt (fun _ h => nomatch h) rfl

theorem suspensionCompletion :
    Statement .suspensionCompletion :=
  unspelt (fun _ h => nomatch h) rfl

theorem startBitSeen :
    Statement .startBitSeen :=
  unspelt (fun _ h => nomatch h) rfl

theorem dominantBitInGap :
    Statement .dominantBitInGap :=
  unspelt (fun _ h => nomatch h) rfl

end Sys2Proof.Laws.Spelling
end

