-- ==== Sys2Proof/Laws/Port.lean ====
section
/-! SUPPORT. What taking a host command does by the station mode (R149, R152), the phases of a
selection (R148), and the fields that the Host Port's small updates leave. -/

namespace Sys2Proof.Machine

@[simp] theorem State.setReturned_port (s : State) (o : Sdo) :
    (s.setReturned o).port = { s.port with returned := o, selIgnored := false } := rfl
@[simp] theorem State.setReturned_mode (s : State) (o : Sdo) :
    (s.setReturned o).mode = s.mode := rfl
@[simp] theorem State.setReturned_enlistment (s : State) (o : Sdo) :
    (s.setReturned o).enlistment = s.enlistment := rfl
@[simp] theorem State.setReturned_line (s : State) (o : Sdo) :
    (s.setReturned o).line = s.line := rfl
@[simp] theorem State.setReturned_tracker (s : State) (o : Sdo) :
    (s.setReturned o).tracker = s.tracker := rfl
@[simp] theorem State.setReturned_presence (s : State) (o : Sdo) :
    (s.setReturned o).presence = s.presence := rfl
@[simp] theorem State.setReturned_submission (s : State) (o : Sdo) :
    (s.setReturned o).submission = s.submission := rfl
@[simp] theorem State.setReturned_repair (s : State) (o : Sdo) :
    (s.setReturned o).repair = s.repair := rfl
@[simp] theorem State.setReturned_writer (s : State) (o : Sdo) :
    (s.setReturned o).writer = s.writer := rfl
@[simp] theorem State.setReturned_segments (s : State) (o : Sdo) :
    (s.setReturned o).segments = s.segments := rfl
@[simp] theorem State.setReturned_array (s : State) (o : Sdo) :
    (s.setReturned o).array = s.array := rfl
@[simp] theorem State.setReturned_flash (s : State) (o : Sdo) :
    (s.setReturned o).flash = s.flash := rfl
@[simp] theorem State.setReturned_raised (s : State) (o : Sdo) :
    (s.setReturned o).raised = s.raised := rfl

/-- A complete command of a ready port, by the verdict of R152. -/
theorem State.command_ready {s : State} (h : s.PortReady) (c : HostCommand)
    (body : Completed → State → State) :
    s.command c .whole body = match c.verdict s.mode with
      | .taken => body (s.completed c) (s.setReturned (s.drives c))
      | .busy => (s.setReturned .highImpedance).answer .busy c.code
      | .refusedMode => (s.setReturned Sdo.zeros).answer .refusedMode c.code
      | .noTrace => s.setReturned .highImpedance := by
  cases hv : c.verdict s.mode <;>
    simp [State.command, State.select, State.decode, State.drives, h.selection, h.holdPin, hv]

theorem State.command_taken {s : State} (h : s.PortReady) {c : HostCommand}
    (body : Completed → State → State) (hv : c.verdict s.mode = .taken) :
    s.command c .whole body = body (s.completed c) (s.setReturned (s.drives c)) := by
  rw [State.command_ready h, hv]

theorem State.command_busy {s : State} (h : s.PortReady) {c : HostCommand}
    (body : Completed → State → State) (hv : c.verdict s.mode = .busy) :
    s.command c .whole body = s.replied .highImpedance .busy c.code := by
  rw [State.command_ready h, hv]
  rfl

theorem State.command_refused {s : State} (h : s.PortReady) {c : HostCommand}
    (body : Completed → State → State) (hv : c.verdict s.mode = .refusedMode) :
    s.command c .whole body = s.replied (.drives [] []) .refusedMode c.code := by
  rw [State.command_ready h, hv]
  rfl

theorem State.command_noTrace {s : State} (h : s.PortReady) {c : HostCommand}
    (body : Completed → State → State) (hv : c.verdict s.mode = .noTrace) :
    s.command c .whole body
      = { s with port := { s.port with returned := .highImpedance, selIgnored := false } } := by
  rw [State.command_ready h, hv]
  rfl

/-- What a command without a response drives where it is taken. -/
theorem State.drives_zeros {s : State} {c : HostCommand} (hv : c.verdict s.mode = .taken)
    (hr : c.report? = none) : s.drives c = Sdo.zeros := by
  simp [State.drives, hv, hr]

/-- A selection of a ready port at its three moments, nothing between them, has the effect of the
selection as a whole (R148, R149). -/
theorem State.select_phases {s : State} (h : s.PortReady) (c : Completed) (o : Sdo)
    (effect : Completed → State → State) :
    ((s.select .select c o effect).select .complete c o effect).select .release c o effect
      = s.select .whole c o effect := by
  obtain ⟨hs, hp⟩ := h
  simp [State.select, State.beginSelection, State.completeSelection, State.releaseSelection,
    State.setReturned, State.setPort, hs, hp]

/-- A selection, at any of its moments, keeps what its effect and the Host Port's own updates keep. -/
theorem State.select_inv {P : State → Prop} {s : State} (h : P s) (m : Moment) (c : Completed) (o : Sdo)
    (effect : Completed → State → State) (port : ∀ t p, P t → P (State.setPort t p))
    (he : ∀ k t, P t → P (effect k t)) : P (s.select m c o effect) := by
  unfold State.select
  cases m with
  | whole =>
    dsimp only
    split
    · exact h
    · split
      · exact port _ _ h
      · exact he _ _ (port _ _ h)
  | select =>
    dsimp only [State.beginSelection]
    split
    · exact h
    · exact port _ _ h
  | complete =>
    dsimp only [State.completeSelection]
    split
    · exact port _ _ h
    · exact h
  | release =>
    dsimp only [State.releaseSelection]
    repeat' split
    all_goals first | exact port _ _ h | exact h | exact he _ _ (port _ _ h)

/-- A command keeps what its body, the answers and the Host Port's own updates keep. -/
theorem State.command_inv {P : State → Prop} {s : State} (h : P s) (c : HostCommand) (m : Moment)
    (body : Completed → State → State) (port : ∀ t p, P t → P (State.setPort t p))
    (hb : ∀ k t, P t → P (body k t)) : P (s.command c m body) := by
  refine State.select_inv h m _ _ _ port fun k t ht => ?_
  unfold State.decode
  split
  · exact hb _ _ ht
  · exact port _ _ ht
  · exact port _ _ ht
  · exact ht

end Sys2Proof.Machine
end

