-- ==== Sys2Proof/Laws/Segments.lean ====
section
/-! SUPPORT. What the lookups of the segment table find, and what the consequences at an event's end
leave of its entries. -/

namespace Sys2Proof.Machine

/-! ### Lookups -/

theorem Segments.open?_some {m : Segments} {k n : Nat} {u : InUse} {c : Cursor}
    (h : m.open? = some (k, u, c, n)) :
    ∃ e, m.table[k]? = some e ∧ e.state = .opened u c n := by
  obtain ⟨⟨e, i⟩, hm, hx⟩ := List.exists_of_findSome?_eq_some h
  dsimp only at hx
  split at hx
  · next hs =>
    cases hx
    exact ⟨e, List.mem_zipIdx_iff_getElem?.1 hm, hs⟩
  · cases hx

theorem Segments.firstDirty_some {m : Segments} {k : Nat} (h : m.firstDirty = some k) :
    ∃ e, m.table[k]? = some e ∧ e.state = .dirty := by
  obtain ⟨hlt, hp, -⟩ := List.findIdx?_eq_some_iff_getElem.1 h
  refine ⟨m.table[k], List.getElem?_eq_getElem hlt, ?_⟩
  generalize m.table[k].state = st at hp
  cases st <;> first | rfl | cases hp

theorem Segments.mem_inUse {m : Segments} {k : Nat} {u : InUse} (h : (k, u) ∈ m.inUse) :
    ∃ e, m.table[k]? = some e ∧ e.state.use? = some u := by
  obtain ⟨⟨e, i⟩, hm, hx⟩ := List.mem_filterMap.1 h
  obtain ⟨v, hv, he⟩ := Option.map_eq_some_iff.1 hx
  cases he
  exact ⟨e, List.mem_zipIdx_iff_getElem?.1 hm, hv⟩

/-- Of several candidates one is taken (R159). -/
theorem foldl_laterHole_mem (l : List (Nat × Locator)) (b : Option (Nat × Locator)) :
    l.foldl laterHole b = b ∨ ∃ e ∈ l, l.foldl laterHole b = some e := by
  induction l generalizing b with
  | nil => exact .inl rfl
  | cons a l ih =>
    rw [List.foldl_cons]
    obtain h | ⟨e, he, h⟩ := ih (laterHole b a)
    · rw [h]
      cases b with
      | none => exact .inr ⟨a, List.mem_cons_self, rfl⟩
      | some b =>
        by_cases hb : b.2.seq < a.2.seq
        · exact .inr ⟨a, List.mem_cons_self, if_pos hb⟩
        · exact .inl (if_neg hb)
    · exact .inr ⟨e, List.mem_cons_of_mem _ he, h⟩

/-- All that a HOLE lookup can answer (R43, R159): a HOLE record of the origin, its first seq at or below
the seq, of an entry whose hole list reaches the seq. -/
theorem Segments.findHole_some {m : Segments} {o seq k : Nat} {l : Locator}
    (h : m.findHole o seq = some (k, l)) :
    ∃ u, (k, u) ∈ m.inUse ∧ u.holesReach o seq = true ∧ l ∈ u.locators ∧
      l.kind = .hole ∧ l.origin = o ∧ l.seq ≤ seq := by
  unfold Segments.findHole at h
  obtain h2 | ⟨e, he, h2⟩ := foldl_laterHole_mem (((m.inUse.filter (·.2.holesReach o seq)).flatMap
    fun e => (e.2.locators.filter fun l =>
      l.kind = .hole && l.origin = o && decide (l.seq ≤ seq)).map fun l => (e.1, l))) none
  · rw [h2] at h; cases h
  · rw [h2] at h
    cases h
    obtain ⟨⟨k2, u⟩, hu, he⟩ := List.mem_flatMap.1 he
    obtain ⟨hu, hr⟩ := List.mem_filter.1 hu
    obtain ⟨l2, hl, he⟩ := List.mem_map.1 he
    obtain ⟨hl, hp⟩ := List.mem_filter.1 hl
    cases he
    simp only [Bool.and_eq_true, decide_eq_true_eq] at hp
    exact ⟨u, hu, hr, hl, hp.1.1, hp.1.2, hp.2⟩

/-- Above every hole high of an origin a lookup finds no HOLE record (R43). -/
theorem Segments.findHole_none {m : Segments} {o seq : Nat}
    (h : ∀ e ∈ m.inUse, ∀ x ∈ e.2.holes, x.origin = o → x.high < seq) :
    m.findHole o seq = none := by
  cases hf : m.findHole o seq with
  | none => rfl
  | some r =>
    obtain ⟨u, hu, hr, -⟩ := Segments.findHole_some (k := r.1) (l := r.2) hf
    simp only [InUse.holesReach, List.any_eq_true, Bool.and_eq_true, decide_eq_true_eq] at hr
    obtain ⟨x, hx, ho, hle⟩ := hr
    exact absurd (h _ hu x hx ho) (by omega)

theorem foldl_olderOf_mem (a : Nat × InUse) (l : List (Nat × InUse)) :
    l.foldl olderOf a = a ∨ l.foldl olderOf a ∈ l := by
  induction l generalizing a with
  | nil => exact .inl rfl
  | cons b l ih =>
    have hb : olderOf a b = a ∨ olderOf a b = b := by
      unfold olderOf
      split
      · exact .inr rfl
      · exact .inl rfl
    rw [List.foldl_cons]
    rcases ih (olderOf a b) with h | h
    · rcases hb with hb | hb
      · exact .inl (h.trans hb)
      · exact .inr (by rw [h, hb]; exact List.mem_cons_self)
    · exact .inr (List.mem_cons_of_mem _ h)

theorem Segments.oldest_some {m : Segments} {k : Nat} {u : InUse} (h : m.oldest = some (k, u)) :
    ∃ e, m.table[k]? = some e ∧ e.state.use? = some u := by
  unfold Segments.oldest at h
  split at h
  · cases h
  · next a l hl =>
    apply Segments.mem_inUse
    rw [hl]
    have h' := Option.some.inj h
    rcases foldl_olderOf_mem a l with h2 | h2
    · rw [← h', h2]; exact List.mem_cons_self
    · rw [← h']; exact List.mem_cons_of_mem _ h2

theorem foldl_erased_mem (l : List (Segment × Nat)) (b : Option (Nat × Word)) :
    let r := l.foldl (fun best e =>
      if e.1.state.isErased then
        match best with
        | none => some (e.2, e.1.generation)
        | some (k, g) => if e.1.generation.toNat < g.toNat then some (e.2, e.1.generation) else some (k, g)
      else best) b
    (r = b ∨ ∃ e ∈ l, e.1.state.isErased = true ∧ r = some (e.2, e.1.generation)) ∧
    (r = none → b = none ∧ ∀ e ∈ l, e.1.state.isErased = false) := by
  induction l generalizing b with
  | nil => exact ⟨.inl rfl, fun h => ⟨h, by simp⟩⟩
  | cons a l ih =>
    dsimp only at ih ⊢
    rw [List.foldl_cons]
    by_cases ha : a.1.state.isErased = true
    · rw [if_pos ha]
      rcases b with _ | ⟨k, g⟩
      · dsimp only
        obtain ⟨h1, h2⟩ := ih (some (a.2, a.1.generation))
        refine ⟨?_, fun h => absurd (h2 h).1 (by simp)⟩
        rcases h1 with h1 | ⟨e, he, h3⟩
        · exact .inr ⟨a, List.mem_cons_self, ha, h1⟩
        · exact .inr ⟨e, List.mem_cons_of_mem _ he, h3⟩
      · dsimp only
        split
        · obtain ⟨h1, h2⟩ := ih (some (a.2, a.1.generation))
          refine ⟨?_, fun h => absurd (h2 h).1 (by simp)⟩
          rcases h1 with h1 | ⟨e, he, h3⟩
          · exact .inr ⟨a, List.mem_cons_self, ha, h1⟩
          · exact .inr ⟨e, List.mem_cons_of_mem _ he, h3⟩
        · obtain ⟨h1, h2⟩ := ih (some (k, g))
          refine ⟨?_, fun h => absurd (h2 h).1 (by simp)⟩
          rcases h1 with h1 | ⟨e, he, h3⟩
          · exact .inl h1
          · exact .inr ⟨e, List.mem_cons_of_mem _ he, h3⟩
    · rw [if_neg ha]
      obtain ⟨h1, h2⟩ := ih b
      constructor
      · rcases h1 with h1 | ⟨e, he, h3⟩
        · exact .inl h1
        · exact .inr ⟨e, List.mem_cons_of_mem _ he, h3⟩
      · intro h
        obtain ⟨h3, h4⟩ := h2 h
        refine ⟨h3, fun e he => ?_⟩
        rcases List.mem_cons.1 he with rfl | he
        · simpa using ha
        · exact h4 e he

theorem Segments.chooseErased_some {m : Segments} {k : Nat} (h : m.chooseErased = some k) :
    ∃ e, m.table[k]? = some e ∧ e.state = .erased := by
  unfold Segments.chooseErased at h
  obtain ⟨⟨k', g⟩, hr, hk⟩ := Option.map_eq_some_iff.1 h
  cases hk
  obtain ⟨h1 | ⟨e, he, h2, h3⟩, -⟩ := foldl_erased_mem m.table.zipIdx none
  · exact absurd (h1.symm.trans hr) (by simp)
  · have h4 := h3.symm.trans hr
    cases h4
    refine ⟨e.1, List.mem_zipIdx_iff_getElem?.1 he, ?_⟩
    generalize e.1.state = st at h2
    cases st <;> first | rfl | cases h2

theorem Segments.chooseErased_none {m : Segments} (h : m.chooseErased = none) :
    ∀ e ∈ m.table, e.state ≠ .erased := by
  unfold Segments.chooseErased at h
  intro e he hs
  obtain ⟨i, hi, rfl⟩ := List.getElem_of_mem he
  obtain ⟨-, h2⟩ := foldl_erased_mem m.table.zipIdx none
  have := (h2 (Option.map_eq_none_iff.1 h)).2 (m.table[i], i)
    (List.mem_zipIdx_iff_getElem?.2 (List.getElem?_eq_getElem hi))
  simp [hs, SegmentState.isErased] at this

/-! ### Updates of one entry -/

theorem Segments.change_getElem? (m : Segments) (k j : Nat) (f : Segment → Segment) :
    (m.change k f).table[j]? = if k = j then m.table[j]?.map f else m.table[j]? := by
  simp only [Segments.change, List.getElem?_modify]
  by_cases h : k = j <;> simp [h]

theorem Segments.setState_getElem? (m : Segments) (k j : Nat) (v : SegmentState) :
    (m.setState k v).table[j]?
      = if k = j then m.table[j]?.map fun e => { e with state := v } else m.table[j]? :=
  m.change_getElem? k j _

theorem Segments.seal_cases (m : Segments) :
    m.seal = m ∨ ∃ k u c n, m.open? = some (k, u, c, n) ∧ m.seal = m.setState k (.sealed u) := by
  unfold Segments.seal
  split
  · next k u c n h => exact .inr ⟨k, u, c, n, h, rfl⟩
  · exact .inl rfl

/-! ### An entry through the end of an event -/

/-- The step from one entry of the table to a later one: the generation and the retire flag stay, an
OPEN, SEALED or FAULTY entry may be sealed or requested for erase, a DIRTY one requested, an ERASED one
opened; a RETIRED or ERASING one stays. -/
structure Segment.Turns (a b : Segment) : Prop where
  generation : b.generation = a.generation
  retire : b.retire = a.retire
  retired : a.state = .retired → b.state = .retired
  erasing : a.state = .erasing → b.state = .erasing
  dirty : a.state = .dirty → b.state = .dirty ∨ b.state = .erasing
  use : a.state.use?.isSome = true → b.state.use? = a.state.use? ∨ b.state = .erasing

theorem Segment.Turns.refl (a : Segment) : a.Turns a :=
  ⟨rfl, rfl, fun h => h, fun h => h, .inl, fun _ => .inl rfl⟩

theorem Segment.Turns.trans {a b c : Segment} (x : a.Turns b) (y : b.Turns c) : a.Turns c := by
  refine ⟨y.1.trans x.1, y.2.trans x.2, fun h => y.3 (x.3 h), fun h => y.4 (x.4 h), fun h => ?_,
    fun h => ?_⟩
  · rcases x.5 h with h | h
    · exact y.5 h
    · exact .inr (y.4 h)
  · rcases x.6 h with h2 | h2
    · rcases y.6 (by rw [h2]; exact h) with h3 | h3
      · exact .inl (h3.trans h2)
      · exact .inr h3
    · exact .inr (y.4 h2)

/-- Every entry of the table turns, and a header program is claimed of an ERASED segment alone. -/
structure State.TableTurns (s t : State) : Prop where
  length : t.segments.table.length = s.segments.table.length
  entry : ∀ (k : Nat) a, s.segments.table[k]? = some a →
    ∃ b, t.segments.table[k]? = some b ∧ a.Turns b

/-- A header program claim names an ERASED segment. -/
def State.HeaderClaimOk (s : State) : Prop :=
  ∀ k, s.array.programClaim = some (.header k) →
    ∃ e, s.segments.table[k]? = some e ∧ e.state = .erased

theorem State.TableTurns.of_eq {s t : State} (h : t.segments.table = s.segments.table) :
    s.TableTurns t := ⟨by rw [h], fun k a ha => ⟨a, by rw [h]; exact ha, .refl a⟩⟩

theorem State.TableTurns.refl (s : State) : s.TableTurns s := .of_eq rfl

theorem State.TableTurns.trans {s t u : State} (x : s.TableTurns t) (y : t.TableTurns u) :
    s.TableTurns u := by
  refine ⟨y.1.trans x.1, fun k a ha => ?_⟩
  obtain ⟨b, hb, h1⟩ := x.2 k a ha
  obtain ⟨c, hc, h2⟩ := y.2 k b hb
  exact ⟨c, hc, h1.trans h2⟩

/-- One entry set to a state that it may turn to. -/
theorem State.TableTurns.setState {s t : State} {k : Nat} {v : SegmentState}
    (h : t.segments.table = (s.segments.setState k v).table)
    (ok : ∀ a, s.segments.table[k]? = some a → a.Turns { a with state := v }) : s.TableTurns t := by
  refine ⟨by rw [h]; simp [Segments.setState, Segments.change], fun j a ha => ?_⟩
  rw [h, Segments.setState_getElem?]
  by_cases hk : k = j
  · subst hk
    exact ⟨_, by rw [if_pos rfl, ha]; rfl, ok a ha⟩
  · exact ⟨a, by rw [if_neg hk]; exact ha, .refl a⟩

theorem Segment.Turns.ofUse {a : Segment} {v : SegmentState} {u : InUse} (h : a.state.use? = some u)
    (hv : v.use? = some u ∨ v = .erasing) : a.Turns { a with state := v } := by
  refine ⟨rfl, rfl, ?_, ?_, ?_, ?_⟩
  · intro e; rw [e] at h; cases h
  · intro e; rw [e] at h; cases h
  · intro e; rw [e] at h; cases h
  · intro _
    rcases hv with hv | hv
    · exact .inl (hv.trans h.symm)
    · exact .inr hv

theorem State.claimRecord_turns {s : State} {k : Nat} {u : InUse} {c : Cursor} {n page offset : Nat}
    (h : s.segments.open? = some (k, u, c, n)) : s.TableTurns (s.claimRecord k u n page offset) := by
  refine .setState rfl fun a ha => ?_
  obtain ⟨e, he, hs⟩ := Segments.open?_some h
  rw [he] at ha
  cases ha
  exact .ofUse (u := u) (by rw [hs]; rfl) (.inl rfl)

theorem State.askRoom_turns (s : State) :
    s.TableTurns s.askRoom ∧ (s.HeaderClaimOk → s.askRoom.HeaderClaimOk) := by
  have hseal : ∀ t : State, t.segments.table = s.segments.seal.table → s.TableTurns t := by
    intro t ht
    rcases s.segments.seal_cases with h | ⟨k, u, c, n, ho, h⟩
    · exact .of_eq (by rw [ht, h])
    · refine .setState (k := k) (v := .sealed u) (by rw [ht, h]) fun a ha => ?_
      obtain ⟨e, he, hs⟩ := Segments.open?_some ho
      rw [he] at ha
      cases ha
      exact .ofUse (u := u) (by rw [hs]; rfl) (.inl rfl)
  unfold State.askRoom
  dsimp only
  split
  · next k hk =>
    refine ⟨hseal _ rfl, fun _ j hj => ?_⟩
    cases hj
    exact Segments.chooseErased_some hk
  · next hk =>
    refine ⟨hseal _ rfl, fun hc j hj => ?_⟩
    obtain ⟨e, he, hs⟩ := hc j hj
    obtain ⟨b, hb, ht⟩ := (hseal (s.setSegments s.segments.seal) rfl).2 j e he
    rcases s.segments.seal_cases with h | ⟨k, u, c, n, ho, h⟩
    · exact ⟨e, by show s.segments.seal.table[j]? = _; rw [h]; exact he, hs⟩
    · refine ⟨e, ?_, hs⟩
      show s.segments.seal.table[j]? = _
      rw [h, Segments.setState_getElem?, if_neg]
      · exact he
      · rintro rfl
        obtain ⟨e', he', hs'⟩ := Segments.open?_some ho
        rw [he] at he'
        cases he'
        rw [hs] at hs'
        cases hs'

theorem State.placeHead_turns (s : State) :
    s.TableTurns s.placeHead ∧ (s.HeaderClaimOk → s.placeHead.HeaderClaimOk) := by
  unfold State.placeHead
  repeat' split
  all_goals
    first
    | exact ⟨.refl s, fun h => h⟩
    | exact s.askRoom_turns
    | exact ⟨State.claimRecord_turns (by assumption), fun _ j hj => by cases hj⟩

theorem State.requestErase_turns {s : State} {k : Nat}
    (h : ∃ e, s.segments.table[k]? = some e ∧ (e.state = .dirty ∨ e.state.use?.isSome = true)) :
    s.TableTurns (s.requestErase k) ∧ (s.HeaderClaimOk → (s.requestErase k).HeaderClaimOk) := by
  obtain ⟨e, he, hs⟩ := h
  constructor
  · refine .setState rfl fun a ha => ?_
    rw [he] at ha
    cases ha
    rcases hs with hs | hs
    · exact ⟨rfl, rfl, by simp [hs], by simp, fun _ => .inr rfl, by simp [hs, SegmentState.use?]⟩
    · obtain ⟨u, hu⟩ := Option.isSome_iff_exists.1 hs
      exact .ofUse hu (.inr rfl)
  · intro hc j hj
    obtain ⟨x, hx, hxs⟩ := hc j hj
    refine ⟨x, ?_, hxs⟩
    show (s.segments.setState k .erasing).table[j]? = _
    rw [Segments.setState_getElem?, if_neg]
    · exact hx
    · rintro rfl
      rw [he] at hx
      cases hx
      rw [hxs] at hs
      rcases hs with hs | hs <;> cases hs

theorem State.scheduleErase_turns (s : State) :
    s.TableTurns s.scheduleErase ∧ (s.HeaderClaimOk → s.scheduleErase.HeaderClaimOk) := by
  unfold State.scheduleErase
  split
  · exact ⟨.refl s, fun h => h⟩
  · split
    · next k hk =>
      obtain ⟨e, he, hs⟩ := Segments.firstDirty_some hk
      exact State.requestErase_turns ⟨e, he, .inl hs⟩
    · split
      · split
        · next k u hk =>
          dsimp only
          split
          · obtain ⟨e, he, hs⟩ := Segments.oldest_some hk
            unfold State.reclaimStart
            have := State.requestErase_turns (k := k)
              (s := (s.setTracker { s.tracker with
                index := s.tracker.index.filter fun e => !u.stores e.origin e.seq }).setSegments
                { s.segments with ownFloor := max s.segments.ownFloor (s.ownSpanHigh u) })
              ⟨e, he, .inr (by rw [hs]; rfl)⟩
            exact ⟨⟨this.1.1, this.1.2⟩, fun h => this.2 h⟩
          · exact ⟨.refl s, fun h => h⟩
        · exact ⟨.refl s, fun h => h⟩
      · exact ⟨.refl s, fun h => h⟩

theorem State.takeNext_segments (s : State) (e : Responder) (l : List Nat) :
    (s.takeNext e l).segments = s.segments ∧
    (s.takeNext e l).array.programClaim = s.array.programClaim := by
  unfold State.takeNext
  repeat' split
  all_goals exact ⟨rfl, rfl⟩

theorem State.skipSeq_segments (s : State) (q o seq : Nat) :
    (s.skipSeq q o seq).segments = s.segments ∧
    (s.skipSeq q o seq).array.programClaim = s.array.programClaim := by
  unfold State.skipSeq
  split
  · exact s.takeNext_segments _ _
  · exact ⟨rfl, rfl⟩

theorem State.openSegment_turns {s : State} {k : Nat}
    (h : ∃ e, s.segments.table[k]? = some e ∧ e.state = .erased) : s.TableTurns (s.openSegment k) := by
  obtain ⟨e, he, hs⟩ := h
  refine .setState rfl fun a ha => ?_
  rw [he] at ha
  cases ha
  exact ⟨rfl, rfl, by simp [hs], by simp [hs], by simp [hs], by simp [hs, SegmentState.use?]⟩

theorem serveClaims_turns (fuel : Nat) (s : State) (h : s.HeaderClaimOk) :
    s.TableTurns (serveClaims fuel s) ∧ (serveClaims fuel s).HeaderClaimOk := by
  induction fuel generalizing s with
  | zero => exact ⟨.refl s, h⟩
  | succ fuel ih =>
    unfold serveClaims
    split
    · exact ⟨.refl s, h⟩
    · split
      · dsimp only
        split
        · exact ⟨.of_eq rfl, h⟩
        · have := ih ((s.setArray { s.array with hostClaim := none }).setPort
            (s.port.readDone .reclaimed)) h
          exact ⟨⟨this.1.1, this.1.2⟩, this.2⟩
      · split
        · next c hc =>
          dsimp only
          split
          · exact ⟨.of_eq rfl, fun j hj => by cases hj⟩
          · next k =>
            have := State.openSegment_turns (k := k)
              (s := s.setArray { s.array with programClaim := none, activity := .program (.header k) })
              (h k hc)
            exact ⟨⟨this.1, this.2⟩, fun j hj => by cases hj⟩
        · split
          · next c rest _ =>
            dsimp only
            split
            · exact ⟨.of_eq rfl, h⟩
            · obtain ⟨h1, h2⟩ := State.skipSeq_segments
                (s.setArray { s.array with fetchClaims := rest }) c.requester c.origin c.seq
              have := ih ((s.setArray { s.array with fetchClaims := rest }).skipSeq
                c.requester c.origin c.seq) (by
                  intro j hj
                  rw [h2] at hj
                  rw [h1]
                  exact h j hj)
              exact ⟨(State.TableTurns.of_eq (by rw [h1]; rfl)).trans this.1, this.2⟩
          · split
            · split
              · exact ⟨.refl s, h⟩
              · exact ⟨.of_eq rfl, h⟩
            · exact ⟨.refl s, h⟩

theorem State.fillSlots_segments (s : State) : s.fillSlots.segments = s.segments := by
  have h : ∀ s : State, s.fillSlot.segments = s.segments := fun s => by
    unfold State.fillSlot
    split
    · unfold State.setSlot
      dsimp only
      split <;> rfl
    · rfl
  unfold State.fillSlots
  split
  · exact repeat_rel (R := fun s t : State => t.segments = s.segments) (fun _ => rfl)
      (fun a b => b.trans a) h 4 s
  · rfl

theorem State.excessTest_segments (s : State) : s.excessTest.segments = s.segments := by
  unfold State.excessTest
  split
  · rfl
  · split <;> rfl

theorem State.checkSuspend_segments (s : State) : s.checkSuspend.segments = s.segments := by
  unfold State.checkSuspend
  repeat' split
  all_goals rfl

/-- Through the end of an event every segment table entry turns. -/
theorem State.conclude_turns {s : State} (h : s.HeaderClaimOk) : s.TableTurns s.conclude := by
  have e1 : s.excessTest.fillSlots.segments = s.segments := by
    rw [State.fillSlots_segments, State.excessTest_segments]
  have a1 : s.excessTest.fillSlots.array = s.array := by
    rw [State.fillSlots_array, State.excessTest_array]
  have h1 : s.excessTest.fillSlots.HeaderClaimOk := by
    unfold State.HeaderClaimOk
    rw [e1, a1]
    exact h
  have h2 := State.placeHead_turns s.excessTest.fillSlots
  have h3 := State.scheduleErase_turns s.excessTest.fillSlots.placeHead
  have h4 := serveClaims_turns (2 * s.excessTest.fillSlots.placeHead.scheduleErase.array.fetchClaims.length + 3)
    _ (h3.2 (h2.2 h1))
  have h5 := State.scheduleErase_turns s.excessTest.fillSlots.placeHead.scheduleErase.serve
  have h6 := serveClaims_turns
    (2 * s.excessTest.fillSlots.placeHead.scheduleErase.serve.scheduleErase.array.fetchClaims.length + 3)
    _ (h5.2 h4.2)
  have h7 := (State.TableTurns.of_eq (s := s) (t := s.excessTest.fillSlots) (by rw [e1])).trans <|
    h2.1.trans <| h3.1.trans <| h4.1.trans <| h5.1.trans h6.1
  exact h7.trans (.of_eq (by
    show (State.checkSuspend _).segments.table = _
    rw [State.checkSuspend_segments]
    rfl))

end Sys2Proof.Machine
end

