-- ==== Sys2Proof/Laws/Receive.lean ====
section
/-! SUPPORT. What the hand-on of a frame never changes (State.Rests), and what each part of a hand-on
does to the peer table and to the holdings. -/

namespace Sys2Proof.Machine

theorem State.Rests.refl (s : State) : s.Rests s := by constructor <;> rfl

theorem State.Rests.trans {s t u : State} (a : s.Rests t) (b : t.Rests u) : s.Rests u := by
  constructor <;> simp_all [a.pending, a.mode, a.enlistment, a.nextSeq, a.ticket, a.kept, a.flash, a.scan, a.formatNext, a.nextPosition, a.releaseMark, a.result, a.buffer, a.portError, a.returned, a.selIgnored, a.holdPin, a.failures, a.muted, a.heldCursor, b.pending, b.mode, b.enlistment, b.nextSeq, b.ticket, b.kept, b.flash, b.scan, b.formatNext, b.nextPosition, b.releaseMark, b.result, b.buffer, b.portError, b.returned, b.selIgnored, b.holdPin, b.failures, b.muted, b.heldCursor]

/-- What keeps all that State.Keeps names rests. -/
theorem State.Keeps.rests {s t : State} (h : s.Keeps t) : s.Rests t := by
  constructor
  · exact h.pending
  · exact h.mode
  · exact h.enlistment
  · rw [h.submission]
  · rw [h.submission]
  · rw [h.submission]
  · exact h.flash
  · exact h.scan
  · exact h.formatNext
  · exact h.nextPosition
  · exact h.releaseMark
  · exact h.result
  · exact h.buffer
  · exact h.portError
  · exact h.returned
  · exact h.selIgnored
  · exact h.holdPin
  · exact h.failures
  · exact h.muted
  · exact h.heldCursor

theorem State.hearPeer_rests (s : State) (p : Nat) (quieting : Bool) : s.Rests (s.hearPeer p quieting) := by
  obtain ⟨q, d, r, h, -, -⟩ := s.hearPeer_form p quieting
  rw [h]
  constructor <;> rfl

theorem State.hearPeer_tracker (s : State) (p : Nat) (quieting : Bool) :
    (s.hearPeer p quieting).tracker = s.tracker := by
  obtain ⟨q, d, r, h, -, -⟩ := s.hearPeer_form p quieting
  rw [h]
  rfl

theorem State.hearPeer_presence (s : State) (p : Nat) (quieting : Bool) :
    (s.hearPeer p quieting).presence
      = if s.isPeer p then s.presence.change p (·.heard quieting) else s.presence := by
  obtain ⟨q, d, r, h, -, -⟩ := s.hearPeer_form p quieting
  rw [h]
  rfl

theorem State.mergePeer_rests (s : State) (p : Nat) (f : Peer → Peer) : s.Rests (s.mergePeer p f) := by
  obtain ⟨q, d, r, h, -, -⟩ := s.mergePeer_form p f
  rw [h]
  constructor <;> rfl

theorem State.mergePeer_tracker (s : State) (p : Nat) (f : Peer → Peer) :
    (s.mergePeer p f).tracker = s.tracker := by
  obtain ⟨q, d, r, h, -, -⟩ := s.mergePeer_form p f
  rw [h]
  rfl

theorem State.mergePeer_presence (s : State) (p : Nat) (f : Peer → Peer) :
    (s.mergePeer p f).presence = if s.isPeer p then s.presence.change p f else s.presence := by
  obtain ⟨q, d, r, h, -, -⟩ := s.mergePeer_form p f
  rw [h]
  rfl

theorem State.learn_rests (s : State) (o v : Nat) : s.Rests (s.learn o v) := by constructor <;> rfl

theorem State.learnAll_rests (l : List Word) (s : State) (o : Nat) : s.Rests (s.learnAll o l) := by
  obtain ⟨hs, h⟩ := s.learnAll_form l o
  rw [h]
  constructor <;> rfl

theorem State.setFramer_rests (s : State) (f : Framer) : s.Rests (s.setFramer f) := by
  constructor <;> rfl

theorem State.markDivergent_rests (s : State) (o seq p : Nat) : s.Rests (s.markDivergent o seq p) := by
  unfold State.markDivergent
  repeat' split
  all_goals constructor <;> rfl

theorem State.decideArrival_rests (s : State) (a : Arrival) : s.Rests (s.decideArrival a).1 := by
  unfold State.decideArrival
  repeat' split
  all_goals first | exact .refl s | exact s.markDivergent_rests _ _ _ | (constructor <;> rfl)

theorem State.arrive_rests (s : State) (a : Arrival) : s.Rests (s.arrive a).1 := by
  unfold State.arrive
  dsimp only
  repeat' split
  · exact s.markDivergent_rests _ _ _
  · constructor <;> rfl
  · exact (s.learn_rests _ _).trans (State.decideArrival_rests _ _)

/-- Presence stays through an arrival. -/
theorem State.arrive_presence (s : State) (a : Arrival) : (s.arrive a).1.presence = s.presence := by
  have hm : ∀ (s : State) (o seq p : Nat), (s.markDivergent o seq p).presence = s.presence := by
    intro s o seq p
    unfold State.markDivergent
    repeat' split
    all_goals rfl
  unfold State.arrive
  dsimp only
  repeat' split
  · exact hm _ _ _ _
  · rfl
  · unfold State.decideArrival
    repeat' split
    all_goals first | rfl | exact hm _ _ _ _

/-! ### A frame that is handed on -/

/-- The end of a frame that is followed and handed on (R65, R74). -/
theorem State.hearFrame_eq {s : State} {f : Frame} {g : State → State} (h : s.follows = true)
    (hm : s.mode.onLine = true) (hf : f.fieldsGood s.clusterSize = true) :
    s.hearFrame f g = (g (s.setFramer .gap)).conclude := by
  unfold State.hearFrame State.handsOn
  rw [if_pos h, if_pos (by rw [hf, hm]; rfl)]

/-- The fields that a hand-on leaves survive the whole of the event. -/
theorem State.hearFrame_rests {s t : State} (h : s.Rests t) : s.Rests t.conclude :=
  h.trans t.conclude_keeps.rests

end Sys2Proof.Machine
end

