-- ==== Sys2Proof/Laws/Scan.lean ====
section
/-! SUPPORT. The record scan of mount reads back what a program wrote: the fields, the check and the
locator of every record of a page (R13, R15, R186). -/

namespace Sys2Proof.Machine

@[simp] theorem ofBytes_wordBytes (w : Word) :
    ofBytes (w.extractLsb' 24 8) (w.extractLsb' 16 8) (w.extractLsb' 8 8) (w.extractLsb' 0 8) = w := by
  refine BitVec.eq_of_getLsbD_eq fun i hi => ?_
  simp only [ofBytes, BitVec.getLsbD_append, BitVec.getLsbD_extractLsb']
  by_cases h1 : i < 8
  · simp [h1]
  · by_cases h2 : i - 8 < 8
    · simp [h1, h2, show 8 + (i - 8) = i by omega]
    · by_cases h3 : i - 8 - 8 < 8
      · simp [h1, h2, h3, show 16 + (i - 8 - 8) = i by omega]
      · simp [h1, h2, h3, show 24 + (i - 8 - 8 - 8) = i by omega, show i - 8 - 8 - 8 < 8 by omega]

@[simp] theorem length_wordBytes (w : Word) : (wordBytes w).length = 4 := rfl

@[simp] theorem frontWord_wordBytes (w : Word) (rest : List Byte) : frontWord (wordBytes w ++ rest) = w :=
  ofBytes_wordBytes w

@[simp] theorem RecordKind.ofByte_byte (k : RecordKind) : RecordKind.ofByte k.byte = some k := by
  cases k <;> rfl

theorem RecordKind.lengthOk_le {k : RecordKind} {n : Nat} (h : k.lengthOk n = true) : n ≤ 200 := by
  cases k <;> simp_all [RecordKind.lengthOk]

/-- The stored size of a record (1.2). -/
theorem length_recordBytes (kind : RecordKind) (origin tag : Byte) (seq : Word) (position : Nat)
    (payload : List Byte) (check : Word) :
    (recordBytes kind origin tag seq position payload check).length = 16 + payload.length := by
  simp [recordBytes, natBytes]; omega

/-- The check of a record's bytes is good exactly when they carry the record check of their fields. -/
theorem checkGood_recordBytes (kind : RecordKind) (origin tag : Byte) (seq : Word) (position : Nat)
    (payload : List Byte) (check : Word) :
    checkGood (recordBytes kind origin tag seq position payload check)
      = decide (recordCheck kind origin tag seq payload = check) := by
  have hl := length_recordBytes kind origin tag seq position payload check
  unfold checkGood
  rw [hl]
  have h8 : (recordBytes kind origin tag seq position payload check).take 8
      = [kind.byte, origin, tag, natByte payload.length] ++ wordBytes seq := rfl
  have h12 : (recordBytes kind origin tag seq position payload check).drop 12
      = payload ++ wordBytes check := rfl
  have hd : (recordBytes kind origin tag seq position payload check).drop (16 + payload.length - 4)
      = wordBytes check := by
    rw [show 16 + payload.length - 4 = 12 + payload.length by omega, ← List.drop_drop, h12]
    simp
  have hf := frontWord_wordBytes check []
  simp only [List.append_nil] at hf
  rw [h8, h12, hd, hf]
  simp only [recordCheck, Nat.le_add_right, decide_true, Bool.true_and, Nat.add_sub_cancel_left, List.take_left]
  rfl

/-- A record at the position expected is accepted with its fields (R15). -/
theorem scanRecord_recordBytes (kind : RecordKind) (origin tag : Byte) (seq : Word)
    (position page offset : Nat) (payload rest : List Byte) (h : kind.lengthOk payload.length = true) :
    scanRecord (recordBytes kind origin tag seq position payload
        (recordCheck kind origin tag seq payload) ++ rest) page offset position
      = some ⟨⟨position, page, offset, 16 + payload.length, kind, origin.toNat, seq.toNat⟩,
          if kind = .data then seq.toNat
          else (frontWord (payload ++ wordBytes (recordCheck kind origin tag seq payload))).toNat,
          recordCheck kind origin tag seq payload⟩ := by
  have hn : (natByte payload.length).toNat = payload.length := by
    have := RecordKind.lengthOk_le h
    simp [natByte]; omega
  generalize hc : recordCheck kind origin tag seq payload = c
  have hl := length_recordBytes kind origin tag seq position payload c
  have hg := checkGood_recordBytes kind origin tag seq position payload c
  have ht : (recordBytes kind origin tag seq position payload c ++ rest).take (16 + payload.length)
      = recordBytes kind origin tag seq position payload c := by
    rw [← hl, List.take_left]
  have h12 : (recordBytes kind origin tag seq position payload c).drop 12 = payload ++ wordBytes c := rfl
  have hd : (recordBytes kind origin tag seq position payload c).drop (12 + payload.length)
      = wordBytes c := by
    rw [← List.drop_drop, h12]; simp
  have hf := frontWord_wordBytes c []
  simp only [List.append_nil] at hf
  have e : recordBytes kind origin tag seq position payload c ++ rest
      = kind.byte :: origin :: tag :: natByte payload.length ::
        (wordBytes seq ++ natBytes position ++ payload ++ wordBytes c ++ rest) := by
    simp [recordBytes]
  have h4 : frontWord ((recordBytes kind origin tag seq position payload c).drop 4) = seq :=
    frontWord_wordBytes seq _
  have h8 : frontWord ((recordBytes kind origin tag seq position payload c).drop 8)
      = BitVec.ofNat 32 position := frontWord_wordBytes _ _
  rw [e]
  unfold scanRecord
  simp only [RecordKind.ofByte_byte, hn]
  rw [← e, ht, hg, h4, h8, h12, hd, hf]
  simp [h, hc, hl]

/-- What the scan takes the record of a body for, at the position that it carries. -/
theorem scanRecord_bytes {body : JobBody} (h : body.Storable) (p : Place) (rest : List Byte) :
    scanRecord (body.bytes p.position ++ rest) p.page p.offset p.position = some (body.scannedAs p) := by
  match body, h with
  | .data origin tag seq payload check, ⟨ho, hs, h1, h2, hc⟩ =>
    subst hc
    have e := scanRecord_recordBytes .data (natByte origin) tag (BitVec.ofNat 32 seq) p.position p.page
      p.offset payload rest (by simp [RecordKind.lengthOk, h1, h2])
    refine e.trans ?_
    simp [JobBody.scannedAs, JobBody.locator, JobBody.size, natByte, Nat.mod_eq_of_lt,
      show origin < 256 by omega, show seq < 4294967296 by omega]
  | .hole origin first last, ⟨ho, hf, hl⟩ =>
    have e := scanRecord_recordBytes .hole (natByte origin) 0 (BitVec.ofNat 32 first) p.position p.page
      p.offset (natBytes last) rest rfl
    refine e.trans ?_
    simp [JobBody.scannedAs, JobBody.locator, JobBody.size, natByte, natBytes, Nat.mod_eq_of_lt,
      show origin < 256 by omega, show first < 4294967296 by omega, show last < 4294967296 by omega]
  | .release mark, h =>
    have hm : mark ≤ 0xFFFFFFFF := h
    have e := scanRecord_recordBytes .release 0 0 0 p.position p.page p.offset (natBytes mark) rest rfl
    refine e.trans ?_
    simp [JobBody.scannedAs, JobBody.locator, JobBody.size, natBytes, Nat.mod_eq_of_lt,
      show mark < 4294967296 by omega]

theorem length_bytes (body : JobBody) (position : Nat) : (body.bytes position).length = body.size := by
  cases body <;> simp [JobBody.bytes, JobBody.size, length_recordBytes, natBytes]

theorem JobBody.Storable.size_ge {body : JobBody} (h : body.Storable) : 17 ≤ body.size := by
  match body, h with
  | .data _ _ _ payload _, ⟨_, _, h1, _⟩ => simp only [JobBody.size]; omega
  | .hole .., _ => simp [JobBody.size]
  | .release _, _ => simp [JobBody.size]

/-- The content of a page does not end where a record begins. -/
theorem contentEnds_bytes {body : JobBody} (h : body.Storable) (position : Nat) (rest : List Byte) :
    contentEnds (body.bytes position ++ rest) = false := by
  have hs := h.size_ge
  have hl := length_bytes body position
  have hk : ∃ k : RecordKind, ∃ l, body.bytes position = k.byte :: l := by
    cases body <;> exact ⟨_, _, rfl⟩
  obtain ⟨k, l, e⟩ := hk
  simp only [contentEnds, List.length_append, hl, Bool.or_eq_false_iff, decide_eq_false_iff_not]
  exact ⟨by omega, by simp [e]⟩

/-- Records written one after another from an offset of a page, at successive positions, are accepted in
order up to where the content of the page ends (R13, R15). -/
theorem scanPage_bodies (spoiled : Nat → Bool) (hsp : ∀ offset, spoiled offset = false)
    (segment page : Nat) (tail : List Byte) (ht : contentEnds tail = true) :
    ∀ (bodies : List JobBody) (fuel offset position : Nat), (∀ b ∈ bodies, b.Storable) →
      bodies.length < fuel →
      scanPage spoiled page fuel offset position
          ((bodies.zipIdx position).flatMap (fun b => b.1.bytes b.2) ++ tail)
        = ((bodies.zipIdx).map fun b => b.1.scannedAs ⟨position + b.2, segment, page,
            offset + ((bodies.take b.2).map JobBody.size).sum⟩, endsFailed tail) := by
  intro bodies
  induction bodies with
  | nil =>
    intro fuel offset position _ hf
    obtain ⟨fuel, rfl⟩ : ∃ n, fuel = n + 1 := ⟨fuel - 1, by simp at hf; omega⟩
    simp [scanPage, hsp, ht]
  | cons b rest ih =>
    intro fuel offset position hb hf
    obtain ⟨fuel, rfl⟩ : ∃ n, fuel = n + 1 := ⟨fuel - 1, by simp at hf; omega⟩
    have hs := hb b (List.mem_cons_self ..)
    have hsize : (b.scannedAs ⟨position, segment, page, offset⟩).locator.size = b.size := by
      cases b <;> rfl
    simp only [List.zipIdx_cons, List.flatMap_cons, List.append_assoc]
    rw [scanPage]
    simp only [hsp, Bool.and_false, Bool.false_eq_true, if_false, contentEnds_bytes hs]
    rw [scanRecord_bytes hs ⟨position, segment, page, offset⟩]
    dsimp only
    rw [hsize, ← length_bytes b position, List.drop_left, length_bytes,
      ih fuel (offset + b.size) (position + 1) (fun x hx => hb x (List.mem_cons_of_mem _ hx))
        (by simp at hf; omega)]
    simp only [List.map_cons, Nat.add_zero, List.take_zero, List.map_nil, List.sum_nil, Nat.zero_add,
      Prod.mk.injEq, List.cons.injEq, true_and, and_true]
    rw [List.zipIdx_succ, List.map_map]
    refine List.map_congr_left fun x _ => ?_
    simp only [Function.comp_apply, List.take_succ_cons, List.map_cons, List.sum_cons]
    congr 2 <;> omega

end Sys2Proof.Machine
end

