-- ==== Sys2Proof/Laws/Slots.lean ====
section
/-! SUPPORT. The seek slots: which run of wants a free slot takes, and the wants of a slot (R133,
R136). -/

namespace Sys2Proof.Machine

/-- A seek slot covers a seq of an origin (R133). -/
def SeekSlot.covers (o seq : Nat) (sl : SeekSlot) : Bool :=
  sl.origin = o && decide (sl.first ≤ seq) && decide (seq ≤ sl.last)

/-- A stronger test that one element fails counts fewer. -/
theorem countP_lt_countP {α : Type} {p q : α → Bool} {l : List α} (h : ∀ x ∈ l, p x = true → q x = true)
    {a : α} (ha : a ∈ l) (hq : q a = true) (hp : p a = false) : l.countP p < l.countP q := by
  obtain ⟨l1, l2, rfl⟩ := List.append_of_mem ha
  have h1 : l1.countP p ≤ l1.countP q := List.countP_mono_left fun x hx => h x (by simp [hx])
  have h2 : l2.countP p ≤ l2.countP q := List.countP_mono_left fun x hx => h x (by simp [hx])
  simp only [List.countP_append, List.countP_cons, hq, hp]
  simp only [if_true, Bool.false_eq_true, if_false]
  omega

/-- Skipping ends at the lowest seq from one on that no slot covers. -/
theorem skipCovered_spec (slots : List SeekSlot) (o : Nat) :
    ∀ (fuel seq : Nat), slots.countP (fun sl => decide (seq ≤ sl.last)) < fuel →
      let r := skipCovered slots o fuel seq
      seq ≤ r ∧ slots.any (·.covers o r) = false ∧
        ∀ y, seq ≤ y → y < r → slots.any (·.covers o y) = true := by
  intro fuel
  induction fuel with
  | zero => intro seq h; exact absurd h (Nat.not_lt_zero _)
  | succ fuel ih =>
    intro seq h
    simp only [skipCovered]
    split
    · rename_i sl hsl
      have hm := List.mem_of_find?_eq_some hsl
      have hp := List.find?_some hsl
      simp only [Bool.and_eq_true, decide_eq_true_eq] at hp
      obtain ⟨⟨h1, h2⟩, h3⟩ := hp
      have hc : slots.countP (fun x => decide (sl.last + 1 ≤ x.last))
          < slots.countP (fun x => decide (seq ≤ x.last)) := by
        refine countP_lt_countP (fun x _ hx => ?_) hm (decide_eq_true h3) (by simp)
        simp only [decide_eq_true_eq] at hx ⊢
        omega
      obtain ⟨a, b, c⟩ := ih (sl.last + 1) (by omega)
      refine ⟨by omega, b, fun y hy1 hy2 => ?_⟩
      by_cases hy : y ≤ sl.last
      · exact List.any_eq_true.mpr ⟨sl, hm, by simp [SeekSlot.covers, h1]; omega⟩
      · exact c y (by omega) hy2
    · rename_i hn
      refine ⟨le_rfl, ?_, fun y h1 h2 => by omega⟩
      simpa [SeekSlot.covers, List.find?_eq_none] using hn

/-- A lower limit that some elements set is a bound, below the start, and the start or one of them. -/
theorem foldl_limit {α : Type} (p : α → Prop) [DecidablePred p] (f : α → Nat) :
    ∀ (l : List α) (start : Nat),
      let m := l.foldl (fun limit x => if p x then min limit (f x) else limit) start
      m ≤ start ∧ (∀ x ∈ l, p x → m ≤ f x) ∧ (m = start ∨ ∃ x ∈ l, p x ∧ m = f x) := by
  intro l
  induction l with
  | nil => intro start; simp
  | cons a rest ih =>
    intro start
    simp only [List.foldl_cons]
    obtain ⟨h1, h2, h3⟩ := ih (if p a then min start (f a) else start)
    by_cases ha : p a
    · simp only [ha, if_true] at h1 h2 h3 ⊢
      refine ⟨by omega, ?_, ?_⟩
      · intro x hx hpx
        rcases List.mem_cons.mp hx with rfl | hx
        · omega
        · exact h2 x hx hpx
      · rcases h3 with h3 | ⟨x, hx, hpx, e⟩
        · rcases Nat.le_total start (f a) with h | h
          · exact .inl (by omega)
          · exact .inr ⟨a, List.mem_cons_self .., ha, by omega⟩
        · exact .inr ⟨x, List.mem_cons_of_mem _ hx, hpx, e⟩
    · simp only [ha, if_false] at h1 h2 h3 ⊢
      refine ⟨h1, ?_, ?_⟩
      · intro x hx hpx
        rcases List.mem_cons.mp hx with rfl | hx
        · exact absurd hpx ha
        · exact h2 x hx hpx
      · rcases h3 with h3 | ⟨x, hx, hpx, e⟩
        · exact .inl h3
        · exact .inr ⟨x, List.mem_cons_of_mem _ hx, hpx, e⟩

/-- A run of wants that is covered throughout gives no run. -/
theorem uncoveredRun_none {slots : List SeekSlot} {r : Run}
    (h : ∀ y, r.first ≤ y → y ≤ r.last → slots.any (·.covers r.origin y) = true) :
    uncoveredRun slots r = none := by
  obtain ⟨h1, h2, -⟩ := skipCovered_spec slots r.origin (slots.length + 1) r.first
    (Nat.lt_succ_of_le List.countP_le_length)
  unfold uncoveredRun
  refine if_pos (Nat.lt_of_not_le fun hle => ?_)
  rw [h _ h1 hle] at h2
  cases h2

/-- The run that a slot takes (R133): from the lowest uncovered seq of a run of wants, with nothing
covered in it, up to the end of the wants, 15 seqs beyond, or the next covered seq. -/
theorem uncoveredRun_some {slots : List SeekSlot} {r : Run} {seq : Nat} (h1 : r.first ≤ seq)
    (h2 : seq ≤ r.last) (hu : slots.any (·.covers r.origin seq) = false)
    (hc : ∀ y, r.first ≤ y → y < seq → slots.any (·.covers r.origin y) = true) :
    ∃ last, uncoveredRun slots r = some ⟨r.origin, seq, last⟩ ∧ seq ≤ last ∧ last ≤ r.last ∧
      last ≤ seq + 15 ∧ (∀ y, seq ≤ y → y ≤ last → slots.any (·.covers r.origin y) = false) ∧
      (last = r.last ∨ last = seq + 15 ∨ ∃ sl ∈ slots, sl.origin = r.origin ∧ sl.first = last + 1) := by
  obtain ⟨a, b, c⟩ := skipCovered_spec slots r.origin (slots.length + 1) r.first
    (Nat.lt_succ_of_le List.countP_le_length)
  unfold uncoveredRun
  generalize skipCovered slots r.origin (slots.length + 1) r.first = first at a b c
  obtain rfl : first = seq := by
    rcases Nat.lt_trichotomy first seq with h | h | h
    · rw [hc _ a h] at b; cases b
    · exact h
    · rw [c _ h1 h] at hu; cases hu
  obtain ⟨f1, f2, f3⟩ := foldl_limit (fun sl : SeekSlot => sl.origin = r.origin ∧ first < sl.first)
    (fun sl => sl.first - 1) slots (min r.last (first + 15))
  refine ⟨_, if_neg (by omega), ?_, by omega, by omega, fun y y1 y2 => ?_, ?_⟩
  · rcases f3 with f3 | ⟨sl, -, h, e⟩
    · omega
    · omega
  · by_contra hy
    rw [Bool.not_eq_false, List.any_eq_true] at hy
    obtain ⟨sl, hm, hsl⟩ := hy
    simp only [SeekSlot.covers, Bool.and_eq_true, decide_eq_true_eq] at hsl
    by_cases hf : sl.first ≤ first
    · have : slots.any (·.covers r.origin first) = true :=
        List.any_eq_true.mpr ⟨sl, hm, by simp [SeekSlot.covers, hsl.1.1, hf]; omega⟩
      rw [this] at hu; cases hu
    · have := f2 sl hm ⟨hsl.1.1, by omega⟩
      omega
  · rcases f3 with f3 | ⟨sl, hm, h, e⟩
    · omega
    · exact .inr (.inr ⟨sl, hm, h.1, by omega⟩)

/-- What a slot narrows to (R136). -/
theorem Tracker.mem_slotWants {t : Tracker} {sl : SeekSlot} {x : Nat} :
    x ∈ t.slotWants sl ↔ (sl.first ≤ x ∧ x ≤ sl.last) ∧ t.isWant sl.origin x = true := by
  simp only [Tracker.slotWants, List.mem_filter, List.mem_map, List.mem_range]
  refine and_congr_left fun _ => ⟨?_, fun h => ⟨x - sl.first, by omega, by omega⟩⟩
  rintro ⟨i, hi, rfl⟩
  omega

end Sys2Proof.Machine
end

