-- ==== Sys2Proof/Laws/Tracking.lean ====
section
/-! SUPPORT. The order of the holdings and the bound of the gap table (State.TrackingOk) kept by the
Stream Tracker's operations. -/

namespace Sys2Proof.Machine

/-- The part of State.TrackingOk that lies in the tracker. -/
structure Tracker.Ok (t : Tracker) : Prop where
  length : t.holdings.length = 16
  order : ∀ h ∈ t.holdings, h.through ≤ h.accepted ∧ h.accepted ≤ h.known
  gaps : ∀ r ∈ t.gaps, r.origin < 16 ∧ r.last ≤ (t.holding r.origin).accepted

theorem State.TrackingOk.tracker {s : State} (h : s.TrackingOk) : s.tracker.Ok :=
  ⟨h.length, h.order, h.gaps⟩

theorem State.TrackingOk.mk' {s t : State} (h : s.TrackingOk) (ht : t.tracker.Ok)
    (he : t.enlistment = s.enlistment) : t.TrackingOk :=
  ⟨ht.length, ht.order, ht.gaps, by rw [he]; exact h.enlistment⟩

/-- Holdings out of the table's range read as zero, so that the order holds of every number. -/
theorem Tracker.Ok.holding {t : Tracker} (h : t.Ok) (o : Nat) :
    (t.holding o).through ≤ (t.holding o).accepted ∧
      (t.holding o).accepted ≤ (t.holding o).known := by
  unfold Tracker.holding
  by_cases ho : o < t.holdings.length
  · rw [List.getD, List.getElem?_eq_getElem ho]
    exact h.order _ (List.getElem_mem ho)
  · rw [List.getD, List.getElem?_eq_none (by omega)]
    exact ⟨le_rfl, le_rfl⟩

/-- What does not touch the holdings and the gaps keeps the order. -/
theorem Tracker.Ok.of_eq {t u : Tracker} (h : t.Ok) (hh : u.holdings = t.holdings)
    (hg : u.gaps = t.gaps) : u.Ok := by
  refine ⟨by rw [hh]; exact h.length, by rw [hh]; exact h.order, ?_⟩
  rw [hg]
  unfold Tracker.holding
  rw [hh]
  exact h.gaps

/-- One origin's holdings changed so that the order holds and highest accepted does not fall. -/
theorem Tracker.Ok.change {t : Tracker} (h : t.Ok) (o : Nat) (f : Holding → Holding)
    (hf : (f (t.holding o)).through ≤ (f (t.holding o)).accepted ∧
      (f (t.holding o)).accepted ≤ (f (t.holding o)).known ∧
      (t.holding o).accepted ≤ (f (t.holding o)).accepted) : (t.change o f).Ok := by
  refine ⟨by simp [Tracker.change, h.length], fun x hx => ?_, fun r hr => ?_⟩
  · obtain ⟨i, hi, rfl⟩ := List.getElem_of_mem hx
    simp only [Tracker.change, List.length_modify] at hi
    simp only [Tracker.change, List.getElem_modify]
    split
    · next ho =>
      subst ho
      have e : t.holdings[o] = t.holding o := by
        simp [Tracker.holding, List.getD, hi]
      rw [e]
      exact ⟨hf.1, hf.2.1⟩
    · exact h.order _ (List.getElem_mem hi)
  · obtain ⟨h1, h2⟩ := h.gaps r hr
    refine ⟨h1, ?_⟩
    by_cases ho : o < t.holdings.length
    · rw [Tracker.holding_change _ _ _ _ ho]
      split
      · next e => rw [e] at h2 ⊢; exact h2.trans hf.2.2
      · exact h2
    · rw [Tracker.holding_change_ne]
      · exact h2
      · rintro rfl
        rw [h.length] at ho
        exact ho h1

/-- The gap table replaced by entries within the bound. -/
theorem Tracker.Ok.setGaps {t u : Tracker} (h : t.Ok) (hh : u.holdings = t.holdings)
    (hg : ∀ r ∈ u.gaps, r.origin < 16 ∧ r.last ≤ (t.holding r.origin).accepted) : u.Ok := by
  refine ⟨by rw [hh]; exact h.length, by rw [hh]; exact h.order, ?_⟩
  unfold Tracker.holding at hg ⊢
  rw [hh]
  exact hg

theorem mem_insertRun {r x : Run} {l : List Run} (h : x ∈ insertRun r l) : x = r ∨ x ∈ l := by
  induction l with
  | nil => exact .inl (List.mem_singleton.1 h)
  | cons a l ih =>
    unfold insertRun at h
    split at h
    · rcases List.mem_cons.1 h with h | h
      · exact .inl h
      · exact .inr h
    · rcases List.mem_cons.1 h with h | h
      · exact .inr (h ▸ List.mem_cons_self)
      · rcases ih h with h | h
        · exact .inl h
        · exact .inr (List.mem_cons_of_mem _ h)

/-- What a cut leaves lies within the entry that it comes from. -/
theorem mem_cutRuns {x : Run} {l : List Run} {o first last : Nat} (h : x ∈ cutRuns l o first last) :
    ∃ r ∈ l, x.origin = r.origin ∧ r.last ≥ x.last := by
  obtain ⟨r, hr, hx⟩ := List.mem_flatMap.1 h
  refine ⟨r, hr, ?_⟩
  split at hx
  · rcases List.mem_append.1 hx with hx | hx
    · split at hx
      · cases List.mem_singleton.1 hx
        exact ⟨rfl, by show first - 1 ≤ r.last; omega⟩
      · cases hx
    · split at hx
      · cases List.mem_singleton.1 hx
        exact ⟨rfl, le_rfl⟩
      · cases hx
  · cases List.mem_singleton.1 hx
    exact ⟨rfl, le_rfl⟩

/-- The gap table after an acceptance lies within the bound that the acceptance sets. -/
theorem Tracker.gapsAfter_bound {t : Tracker} (h : t.Ok) {o seq : Nat} (ho : o < 16)
    {gaps : List Run} (hg : t.gapsAfter o seq = some gaps) :
    ∀ r ∈ gaps, r.origin < 16 ∧ (r.last ≤ (t.holding r.origin).accepted ∨ r.origin = o ∧ r.last ≤ seq) := by
  have key : gaps = if seq = (t.holding o).accepted + 1 then t.gaps
      else if (t.holding o).accepted < seq then
        insertRun ⟨o, (t.holding o).accepted + 1, seq - 1⟩ t.gaps
      else cutRuns t.gaps o seq seq := by
    unfold Tracker.gapsAfter at hg
    dsimp only at hg
    generalize (if seq = (t.holding o).accepted + 1 then t.gaps
      else if (t.holding o).accepted < seq then
        insertRun ⟨o, (t.holding o).accepted + 1, seq - 1⟩ t.gaps
      else cutRuns t.gaps o seq seq) = l at hg
    split at hg
    · exact (Option.some.inj hg).symm
    · cases hg
  rw [key]
  intro r hr
  split at hr
  · exact ⟨(h.gaps r hr).1, .inl (h.gaps r hr).2⟩
  · split at hr
    · rcases mem_insertRun hr with rfl | hr
      · exact ⟨ho, .inr ⟨rfl, Nat.sub_le _ _⟩⟩
      · exact ⟨(h.gaps r hr).1, .inl (h.gaps r hr).2⟩
    · obtain ⟨x, hx, h1, h2⟩ := mem_cutRuns hr
      obtain ⟨h3, h4⟩ := h.gaps x hx
      rw [h1]
      exact ⟨h3, .inl (h2.trans h4)⟩

/-- The holdings and the gap table that an acceptance leaves (R88 to R90). -/
theorem Tracker.Ok.accept {t : Tracker} (h : t.Ok) {o seq : Nat} (ho : o < 16) {gaps : List Run}
    (hg : t.gapsAfter o seq = some gaps) (pending : List Pending) :
    ({ t.change o (fun h => { h with accepted := max h.accepted seq, known := max h.known seq }) with
      gaps := gaps, pending := pending } : Tracker).Ok := by
  have hc := h.change o (fun h => { h with accepted := max h.accepted seq, known := max h.known seq })
    (by
      have := h.holding o
      exact ⟨by show (t.holding o).through ≤ max _ _; omega, by
        show max _ _ ≤ max (t.holding o).known _; omega, Nat.le_max_left _ _⟩)
  refine hc.setGaps rfl fun r hr => ?_
  obtain ⟨h1, h2⟩ := Tracker.gapsAfter_bound h ho hg r hr
  refine ⟨h1, ?_⟩
  rw [Tracker.holding_change _ _ _ _ (by rw [h.length]; exact ho)]
  rcases h2 with h2 | ⟨rfl, h2⟩
  · split
    · next e => rw [e] at h2 ⊢; exact h2.trans (Nat.le_max_left _ _)
    · exact h2
  · rw [if_pos rfl]
    exact h2.trans (Nat.le_max_right _ _)

theorem State.learn_ok {s : State} (h : s.tracker.Ok) (o v : Nat) : (s.learn o v).tracker.Ok :=
  h.change o _ (by
    have := h.holding o
    exact ⟨this.1, this.2.trans (Nat.le_max_left _ _), le_rfl⟩)

theorem State.learnAll_ok (l : List Word) {s : State} (h : s.tracker.Ok) (o : Nat) :
    (s.learnAll o l).tracker.Ok := by
  induction l generalizing s o with
  | nil => exact h
  | cons v l ih => exact ih (State.learn_ok h _ _) _

theorem State.markDivergent_ok {s : State} (h : s.tracker.Ok) (o seq p : Nat) :
    (s.markDivergent o seq p).tracker.Ok := by
  unfold State.markDivergent
  repeat' split
  · exact h
  · exact h.of_eq (s.tracker.setMark_holdings o seq) (s.tracker.setMark_gaps o seq)
  · exact h

theorem State.decideArrival_ok {s : State} (h : s.tracker.Ok) {a : Arrival} (ho : a.origin < 16) :
    (s.decideArrival a).1.tracker.Ok := by
  unfold State.decideArrival
  split
  · split
    · exact h
    · exact State.markDivergent_ok h _ _ _
  · split
    · exact h
    · split
      · next hg => exact h.accept ho hg _
      · exact h

theorem State.arrive_ok {s : State} (h : s.tracker.Ok) {a : Arrival} (ho : a.origin < 16) :
    (s.arrive a).1.tracker.Ok := by
  unfold State.arrive
  dsimp only
  repeat' split
  · exact State.markDivergent_ok h _ _ _
  · exact State.learn_ok h _ _
  · exact State.decideArrival_ok (State.learn_ok h _ _) ho

theorem State.takeCommit_ok {s t : State} {a : Arrival} (h : s.tracker.Ok) (ho : a.origin < 16)
    (hc : s.takeCommit a = some t) : t.tracker.Ok := by
  unfold State.takeCommit at hc
  split at hc
  · cases hc
  · next hg =>
    cases hc
    exact h.accept ho hg _

/-- A range of wants ends at or below known high (R85). -/
theorem Tracker.rangeWanted_known {t : Tracker} (h : t.Ok) {o first last : Nat}
    (hw : t.rangeWanted o first last = true) : last ≤ (t.holding o).known := by
  unfold Tracker.rangeWanted at hw
  rcases Bool.or_eq_true _ _ ▸ hw with hw | hw
  · obtain ⟨r, hr, hx⟩ := List.any_eq_true.1 hw
    simp only [Bool.and_eq_true, decide_eq_true_eq] at hx
    obtain ⟨⟨rfl, -⟩, hx⟩ := hx
    exact hx.trans ((h.gaps r hr).2.trans (h.holding _).2)
  · simp only [Bool.and_eq_true, decide_eq_true_eq] at hw
    exact hw.2

/-- An origin with a range of wants has an entry. -/
theorem Tracker.rangeWanted_origin {t : Tracker} (h : t.Ok) {o first last : Nat}
    (hw : t.rangeWanted o first last = true) (hl : first ≤ last) : o < 16 := by
  unfold Tracker.rangeWanted at hw
  rcases Bool.or_eq_true _ _ ▸ hw with hw | hw
  · obtain ⟨r, hr, hx⟩ := List.any_eq_true.1 hw
    simp only [Bool.and_eq_true, decide_eq_true_eq] at hx
    obtain ⟨⟨rfl, -⟩, -⟩ := hx
    exact (h.gaps r hr).1
  · simp only [Bool.and_eq_true, decide_eq_true_eq] at hw
    by_contra ho
    have e : t.holding o = ⟨0, 0, 0, false⟩ := by
      unfold Tracker.holding
      rw [List.getD, List.getElem?_eq_none (by rw [h.length]; omega)]
      rfl
    rw [e] at hw
    dsimp only at hw
    omega

theorem State.offerHole_ok {s t : State} {o first last : Nat} (h : s.tracker.Ok)
    (hl : first ≤ last) (ht : s.offerHole o first last = some t) : t.tracker.Ok := by
  obtain ⟨hw, -, -, rfl⟩ := State.offerHole_some ht
  have hk := Tracker.rangeWanted_known h hw
  have ho := Tracker.rangeWanted_origin h hw hl
  have hc := h.change o (fun h => { h with accepted := max h.accepted last }) (by
    have := h.holding o
    exact ⟨by show (s.tracker.holding o).through ≤ max _ _; omega, by
      show max _ _ ≤ (s.tracker.holding o).known; omega, Nat.le_max_left _ _⟩)
  refine hc.setGaps rfl fun r hr => ?_
  have hb : r.origin < 16 ∧ (r.last ≤ (s.tracker.holding r.origin).accepted ∨ r.origin = o ∧ r.last ≤ last) := by
    have cut : ∀ r ∈ cutRuns s.tracker.gaps o first last, r.origin < 16 ∧
        (r.last ≤ (s.tracker.holding r.origin).accepted ∨ r.origin = o ∧ r.last ≤ last) := by
      intro r hr
      obtain ⟨x, hx, h1, h2⟩ := mem_cutRuns hr
      obtain ⟨h3, h4⟩ := h.gaps x hx
      rw [h1]
      exact ⟨h3, .inl (h2.trans h4)⟩
    have hr' : r ∈ s.tracker.gapsAfterHole o first last := hr
    unfold Tracker.gapsAfterHole at hr'
    dsimp only at hr'
    split at hr'
    · rcases mem_insertRun hr' with rfl | hr'
      · exact ⟨ho, .inr ⟨rfl, by show first - 1 ≤ last; omega⟩⟩
      · exact cut r hr'
    · exact cut r hr'
  refine ⟨hb.1, ?_⟩
  rw [Tracker.holding_change _ _ _ _ (by rw [h.length]; exact ho)]
  rcases hb.2 with h2 | ⟨rfl, h2⟩
  · split
    · next e => rw [e] at h2 ⊢; exact h2.trans (Nat.le_max_left _ _)
    · exact h2
  · rw [if_pos rfl]
    exact h2.trans (Nat.le_max_right _ _)

theorem State.KeepsTables.ok {s t : State} (k : s.KeepsTables t) (h : s.tracker.Ok) : t.tracker.Ok :=
  h.of_eq k.holdings k.gaps

theorem State.holeAdmitted_ok {s : State} (h : s.tracker.Ok) (o first last : Nat) :
    (s.holeAdmitted o first last).tracker.Ok := (s.holeAdmitted_tables o first last).ok h

theorem runEnd_ge (first : Nat) (l : List Nat) : first ≤ runEnd first l := by
  induction l generalizing first with
  | nil => exact le_rfl
  | cons a l ih =>
    unfold runEnd
    split
    · next h => exact (by omega : first ≤ a).trans (ih a)
    · exact le_rfl

theorem declareSlot_ok (fuel : Nat) {s : State} (h : s.tracker.Ok) (i : Nat) :
    (declareSlot fuel s i).tracker.Ok := by
  induction fuel generalizing s with
  | zero => exact h
  | succ fuel ih =>
    unfold declareSlot
    split
    · exact h
    · split
      · exact h
      · split
        · exact (s.setSlot_tables _ _).ok h
        · dsimp only
          split
          · exact (s.setSlot_tables _ _).ok h
          · split
            · next ht =>
              exact ih (State.holeAdmitted_ok (State.offerHole_ok h (runEnd_ge _ _) ht) _ _ _)
            · exact (s.setSlot_tables _ _).ok h

theorem State.offerHoles_ok {s : State} (h : s.tracker.Ok) : s.offerHoles.tracker.Ok :=
  foldl_inv (P := fun s => s.tracker.Ok) (fun _ i hs => declareSlot_ok _ hs i) _ h

theorem State.declareGone_ok {s : State} (h : s.tracker.Ok) (o first last : Nat) :
    (s.declareGone o first last).tracker.Ok := by
  unfold State.declareGone
  have hr : ∀ r ∈ (s.tracker.wantsOf o).filterMap (Run.within first last), r.first ≤ r.last := by
    intro r hr
    obtain ⟨x, -, hx⟩ := List.mem_filterMap.1 hr
    unfold Run.within at hx
    split at hx
    · cases hx; assumption
    · cases hx
  revert hr
  generalize (s.tracker.wantsOf o).filterMap (Run.within first last) = l
  intro hr
  induction l generalizing s with
  | nil => exact h
  | cons r l ih =>
    rw [List.foldl_cons]
    apply ih
    · split
      · next ht =>
        exact State.holeAdmitted_ok
          (State.offerHole_ok h (hr r List.mem_cons_self) ht) _ _ _
      · exact h
    · exact fun x hx => hr x (List.mem_cons_of_mem _ hx)

theorem foldl_min_le (l : List Run) (f : Run → Nat) (a : Nat) :
    l.foldl (fun limit r => min limit (f r)) a ≤ a := by
  induction l generalizing a with
  | nil => exact le_rfl
  | cons r l ih => exact (ih _).trans (Nat.min_le_left _ _)

/-- Held-through advances no further than highest accepted (R91). -/
theorem Tracker.advanced_le {t : Tracker} {o : Nat}
    (h : (t.holding o).through ≤ (t.holding o).accepted) : t.advanced o ≤ (t.holding o).accepted :=
  Nat.max_le.2 ⟨h, foldl_min_le _ _ _⟩

theorem State.advance_ok {s : State} (h : s.tracker.Ok) (o : Nat) : (s.advance o).tracker.Ok :=
  h.change o _ ⟨Tracker.advanced_le (h.holding o).1, (h.holding o).2, le_rfl⟩

theorem State.trackCompletion_ok {s : State} (h : s.tracker.Ok) (j : Job) :
    (s.trackCompletion j).tracker.Ok := by
  unfold State.trackCompletion
  split
  · dsimp only
    apply State.advance_ok
    exact h.of_eq rfl rfl
  · dsimp only
    apply State.advance_ok
    exact h.of_eq rfl rfl
  · exact h

theorem Tracker.Ok.reportSent {t : Tracker} (h : t.Ok) (o v : Nat) : (t.reportSent o v).Ok :=
  h.change o _ ⟨(h.holding o).1, (h.holding o).2, le_rfl⟩

theorem Tracker.Ok.reportsSent {t : Tracker} (h : t.Ok) (o : Nat) (l : List Word) :
    (t.reportsSent o l).Ok := by
  induction l generalizing t o with
  | nil => exact h
  | cons v l ih => exact ih (h.reportSent _ _) _

theorem Tracker.reset_ok : Tracker.reset.Ok := by
  refine ⟨rfl, ?_, by simp [Tracker.reset]⟩
  intro h hh
  cases List.eq_of_mem_replicate hh
  exact ⟨le_rfl, le_rfl⟩

theorem Tracker.Ok.enlisted {t : Tracker} (h : t.Ok) (n : Nat) : (t.enlisted n).Ok := by
  have hl : (t.enlisted n).holdings.length = 16 := by simp [Tracker.enlisted, h.length]
  refine ⟨hl, fun x hx => ?_, fun r hr => ?_⟩
  · obtain ⟨⟨y, i⟩, hy, rfl⟩ := List.mem_map.1 hx
    have hy' : y ∈ t.holdings := by
      have := List.mem_zipIdx_iff_getElem?.1 hy
      exact List.mem_of_getElem? this
    dsimp only
    split
    · exact ⟨(h.order y hy').1, le_rfl⟩
    · exact ⟨le_rfl, le_rfl⟩
  · obtain ⟨hr, hn⟩ := List.mem_filter.1 hr
    obtain ⟨h1, h2⟩ := h.gaps r hr
    refine ⟨h1, ?_⟩
    have hi : r.origin < t.holdings.length := by rw [h.length]; exact h1
    have e : ((t.enlisted n).holding r.origin).accepted = (t.holding r.origin).accepted := by
      simp only [Tracker.holding, Tracker.enlisted, List.getD, List.getElem?_map,
        List.getElem?_zipIdx, List.getElem?_eq_getElem hi, Option.map_some, Option.getD_some]
      rw [if_pos (by simpa using of_decide_eq_true hn)]
    rw [e]
    exact h2

/-! ### The tables that mount rebuilds (R97) -/

theorem mem_missing {o accepted : Nat} (l : List (Nat × Nat)) (runs : List Run)
    (h : ∀ r ∈ runs, r.origin = o ∧ r.last ≤ accepted ∧ r.first ≤ accepted + 1) :
    ∀ r ∈ l.foldl (fun runs c => cutRuns runs o c.1 c.2) runs,
      r.origin = o ∧ r.last ≤ accepted ∧ r.first ≤ accepted + 1 := by
  induction l generalizing runs with
  | nil => exact h
  | cons c l ih =>
    rw [List.foldl_cons]
    apply ih
    intro r hr
    obtain ⟨x, hx, hr⟩ := List.mem_flatMap.1 hr
    obtain ⟨h1, h2, h3⟩ := h x hx
    split at hr
    · rcases List.mem_append.1 hr with hr | hr
      · split at hr
        · cases List.mem_singleton.1 hr
          exact ⟨h1, by show c.1 - 1 ≤ accepted; omega, h3⟩
        · cases hr
      · split at hr
        · cases List.mem_singleton.1 hr
          exact ⟨h1, h2, by show c.2 + 1 ≤ accepted + 1; omega⟩
        · cases hr
    · cases List.mem_singleton.1 hr
      exact ⟨h1, h2, h3⟩

theorem rebuilt_ok (records : List Scanned) (floor : List Nat) (o : Nat) :
    (rebuilt records floor o).1.through ≤ (rebuilt records floor o).1.accepted ∧
    (rebuilt records floor o).1.accepted ≤ (rebuilt records floor o).1.known ∧
    ∀ r ∈ (rebuilt records floor o).2,
      r.origin = o ∧ r.last ≤ (rebuilt records floor o).1.accepted := by
  unfold rebuilt
  dsimp only
  generalize (records.filterMap (Scanned.covers o)).foldl (fun m c => max m c.2) (floor.getD o 0) = acc
  have hm := mem_missing (o := o) (accepted := acc) (records.filterMap (Scanned.covers o))
    (if floor.getD o 0 < acc then [⟨o, floor.getD o 0 + 1, acc⟩] else []) (by
      intro r hr
      split at hr
      · cases List.mem_singleton.1 hr
        exact ⟨rfl, le_rfl, by show floor.getD o 0 + 1 ≤ acc + 1; omega⟩
      · cases hr)
  refine ⟨?_, le_rfl, fun r hr => ⟨(hm r hr).1, (hm r hr).2.1⟩⟩
  split
  · exact le_rfl
  · next g l hg =>
    have := (hm g (by
      show g ∈ missing o (floor.getD o 0) acc (records.filterMap (Scanned.covers o))
      rw [hg]; exact List.mem_cons_self)).2.2
    show g.first - 1 ≤ acc
    omega

theorem mountTracker_ok (records : List Scanned) (floor : List Nat) : (mountTracker records floor).Ok := by
  refine ⟨by simp [mountTracker], fun x hx => ?_, fun r hr => ?_⟩
  · obtain ⟨y, hy, rfl⟩ := List.mem_map.1 hx
    obtain ⟨o, -, rfl⟩ := List.mem_map.1 hy
    exact ⟨(rebuilt_ok records floor o).1, (rebuilt_ok records floor o).2.1⟩
  · have hr := List.mem_of_mem_take hr
    obtain ⟨y, hy, hr⟩ := List.mem_flatMap.1 hr
    obtain ⟨o, ho, rfl⟩ := List.mem_map.1 hy
    obtain ⟨h1, h2⟩ := (rebuilt_ok records floor o).2.2 r hr
    have ho : o < 16 := List.mem_range.1 ho
    refine ⟨by rw [h1]; exact ho, ?_⟩
    have e : (mountTracker records floor).holding r.origin = (rebuilt records floor o).1 := by
      rw [h1]
      simp [Tracker.holding, mountTracker, List.getD, ho]
    rw [e]
    exact h2

end Sys2Proof.Machine
end

