-- ==== Sys2Proof/Tests/Slice0.lean ====
section
/-! SUPPORT. Smoke tests of WellFormed, one-step tests whose expected values are the manual's, and a
concrete state for the hypotheses of each obligation. -/

namespace Sys2Proof.Tests

open Sys2Proof Sys2Proof.Machine

set_option Elab.async false

/-! ### Small states -/

/-- The next state of a command. -/
def after (i : Instr) (s : State) : State :=
  match exec i s with
  | .next t => t
  | .refused _ => s
  | .fault f => nomatch f

/-- A used segment: two records of the own origin 1 at positions 5 and 6. -/
def used : InUse where
  firstPosition := 5
  lastPosition := some 6
  count := 2
  floor := List.replicate 16 2
  spans := [⟨1, 3, 4⟩]
  holes := []
  locators := [⟨5, 1, 0, 18, .data, 1, 3⟩, ⟨6, 1, 18, 18, .data, 1, 4⟩]

/-- A mounted station that is not enlisted, with one OPEN and two ERASED segments. -/
def mounted : State :=
  { State.reset with
    mode := .unenlisted
    scan := none
    segments := ⟨[⟨.opened used (.place 1 36) 0, 7, false⟩, ⟨.erased, 2, false⟩, ⟨.erased, 1, false⟩],
      false, 0⟩
    writer := ⟨[], none, 7, 0⟩ }

/-- Station 1 of a cluster of three with W of 1, in a mode. -/
def enlisted (m : Mode) : State :=
  { mounted with
    mode := m
    enlistment := some ⟨1, 3, 1, .kbit1000, 5⟩
    line := ⟨.idle, .free, 0, false, 15⟩ }

/-- The station ACTIVE, its own next seq 5. -/
def active : State :=
  { enlisted .active with
    submission := { Submission.reset with nextSeq := some 5 }
    tracker := { Tracker.reset with holdings := Tracker.reset.holdings.set 1 ⟨4, 4, 4, false⟩ } }

/-- The station JOINING. -/
def joining : State :=
  { active with mode := .joining, presence := { Presence.reset with joiningTimer := true } }

/-- The station in QUIET, its line interface off. -/
def quiet : State := { active with mode := .quiet, line := ⟨.off, .off, 2, false, 15⟩ }

/-- The station as its framer follows a frame. -/
def hearing : State := { active with line := ⟨.idle, .frame, 0, false, 15⟩ }

/-- The array busy with a read, so that no claim is served in an event. -/
def busy (s : State) : State := { s with array := { s.array with activity := .read .mountPage } }

/-- The record check of a one-byte DATA record. -/
def checkOf (origin tag : Byte) (seq : Word) (b : Byte) : Word := recordCheck .data origin tag seq [b]

theorem active_ready : active.PortReady := ⟨rfl, rfl⟩

theorem active_peers : active.PeersOk := ⟨by decide, by decide⟩

theorem active_tracking : active.TrackingOk :=
  ⟨by decide, by decide, by decide, fun _ h => by cases h; decide⟩

theorem hearing_peers : hearing.PeersOk := ⟨by decide, by decide⟩

theorem hearing_tracking : hearing.TrackingOk :=
  ⟨by decide, by decide, by decide, fun _ h => by cases h; decide⟩

/-! ### WellFormed refuses -/

theorem test_wf_submit_length : (Instr.submit 0 (List.replicate 256 0) .whole).wellFormed = false := by
  decide +kernel

theorem test_wf_silence_nobody : (Instr.silenceTimerExpiry []).wellFormed = false := by decide

theorem test_wf_unknown_named : (Instr.unknownCode 0x51 .whole).wellFormed = false := by decide

theorem test_wf_incomplete_no_arguments :
    (Instr.commandDiscarded (.incomplete 0xE7)).wellFormed = false := by decide

theorem test_wf_incomplete_no_command :
    (Instr.commandDiscarded (.incomplete 0x00)).wellFormed = false := by decide

theorem test_wf_held_own_origin : (Instr.heldFrame 2 2 5).wellFormed = false := by decide

theorem test_wf_held_origin : (Instr.heldFrame 2 16 5).wellFormed = false := by decide

theorem test_wf_presence_short : (Instr.presenceFrame 0 true false [1]).wellFormed = false := by decide

theorem test_wf_presence_long :
    (Instr.presenceFrame 0 true false (List.replicate 17 0)).wellFormed = false := by decide +kernel

theorem test_wf_presence_sender : (Instr.presenceFrame 3 false true [1, 2]).wellFormed = false := by
  decide

theorem test_wf_quieting_sender :
    (Instr.quietingPresenceFrame 2 false [1, 2]).wellFormed = false := by decide

theorem test_wf_append_seq :
    (Instr.appendFrame 0 0 1 [7] (checkOf 0 1 0 7)).wellFormed = false := by decide

theorem test_wf_append_empty :
    (Instr.appendFrame 0 1 1 [] (recordCheck .data 0 1 1 [])).wellFormed = false := by decide

theorem test_wf_append_check : (Instr.appendFrame 0 1 1 [7] 0).wellFormed = false := by
  decide +kernel

theorem test_wf_copy_requester :
    (Instr.refillCopyFrame 0 16 1 1 1 [7] (checkOf 1 1 1 7)).wellFormed = false := by decide +kernel

theorem test_wf_gone_sender : (Instr.refillGoneFrame 2 0 1 3 4).wellFormed = false := by decide

theorem test_wf_gone_order : (Instr.refillGoneFrame 1 0 1 4 3).wellFormed = false := by decide

theorem test_wf_seek_span : (Instr.seekFrame 2 0 1 17).wellFormed = false := by decide

theorem test_wf_seek_first : (Instr.seekFrame 2 0 0 3).wellFormed = false := by decide

theorem test_wf_discarded_length : (Instr.frameDiscarded [0x20, 5, 0, 0]).wellFormed = false := by decide

theorem test_wf_discarded_empty : (Instr.frameDiscarded []).wellFormed = false := by decide

theorem test_wf_host_flaw : (Instr.hostReadCompletion (some (List.replicate 16 0))).wellFormed = false := by
  decide

theorem test_wf_fetch_flaw :
    (Instr.fetchCompletion (some (List.replicate 217 0))).wellFormed = false := by
  decide +kernel

/-! ### Formats (chapter 12) -/

/-- R186. The value is the one commonly given for this generator over the bytes "123456789"
(PRESUMED: the spec gives no check value). -/
theorem test_crc32 : crc32 [0x31, 0x32, 0x33, 0x34, 0x35, 0x36, 0x37, 0x38, 0x39] = 0xFC891918 := by
  decide +kernel

/-- R187. As above. -/
theorem test_crc16 : crc16 [0x31, 0x32, 0x33, 0x34, 0x35, 0x36, 0x37, 0x38, 0x39] = 0x29B1 := by
  decide +kernel

/-- R64 and 4.8: the keys of the example, PRESENCE 0x40, APPEND 0x11, HELD 0x02. -/
theorem test_keys : (Machine.Frame.presence 0 .active false []).key = 0x40 ∧
    (Machine.Frame.append 1 57 0 [] 0).key = 0x11 ∧ (Machine.Frame.held 2 1 0).key = 0x02 := by decide

/-- 4.8: an APPEND of 24 bytes has a body of 34 bytes; a HELD one of 5. 8.5: a COPY of 40 has 53. -/
theorem test_bodies : (Machine.Frame.append 1 57 0 (List.replicate 24 0) 0).body.length = 34 ∧
    (Machine.Frame.held 2 1 0).body.length = 5 ∧
    (Machine.Frame.copy 2 1 0 20 0 (List.replicate 40 0) 0).body.length = 53 := by decide

/-- 12.1, 1.7: the fields of the HOLE record of origin 3, seqs 40 to 44, at position 302. -/
theorem test_hole_bytes : ((JobBody.hole 3 40 44).bytes 302).take 16
    = [0x02, 3, 0, 4, 0, 0, 0, 40, 0, 0, 1, 46, 0, 0, 0, 44] := by decide +kernel

/-- 12.4: STATUS begins with the mode code of ACTIVE and the enlistment items. -/
theorem test_status_bytes : active.statusBytes.take 7 = [0x15, 1, 3, 1, 0x04, 5, 0x00] := by
  decide +kernel

/-- 12.4: RESULT after 9.6's SUBMIT: OK, code 0xA4, ticket 12, seq 77. -/
theorem test_result_bytes :
    (CommandResult.bytes ⟨.ok, some 0xA4, some (12, 77)⟩) = [0, 0xA4, 12, 0, 0, 0, 77] := by decide

/-- R160 and 9.6: 40 bytes after the header give bytes 0 to 35 of the record and 0 to 3 again. -/
theorem test_buffer_wraps : (Sdo.drives (List.replicate 9 0) ((List.range 36).map natByte)).byteAt 45
    = some 0 ∧
    (Sdo.drives (List.replicate 9 0) ((List.range 36).map natByte)).byteAt 44 = some 35 := by decide +kernel

/-- R141 and 8.5: the ranks of stations 2 and 3 for requester 1, and of the origin itself. -/
theorem test_ranks : rankOf 2 4 1 0 = 1 ∧ rankOf 3 4 1 0 = 2 ∧ rankOf 2 4 1 2 = 0 := by decide

/-- R156: P of at least 20 ms at 500 kbit/s and of at least 80 ms at 125. -/
theorem test_long_enough : longEnough .kbit500 2 = true ∧ longEnough .kbit500 1 = false ∧
    longEnough .kbit125 8 = true ∧ longEnough .kbit125 7 = false := by decide

/-! ### One step of each command -/

/-- The slots and responders of a station that has asked for origin 0's seqs 20 to 22. -/
def asked (attempts : Nat) (state : SlotState) : List (Option SeekSlot) :=
  [some ⟨0, 20, 22, attempts, state⟩, none, none, none]

/-- Station 1 lacks origin 0's seqs 20 to 22 and holds seqs up to 25 otherwise (8.5). -/
def lacking (state : SlotState) (attempts : Nat) : State :=
  { busy hearing with
    tracker := { Tracker.reset with
      holdings := (Tracker.reset.holdings.set 0 ⟨19, 25, 25, false⟩).set 1 ⟨4, 4, 4, false⟩
      gaps := [⟨0, 20, 22⟩] }
    repair := { Repair.reset with slots := asked attempts state } }

/-- R148, R149: SDO carries RESULT's response from the completion to the release; a reset during the
selection has SEL# ignored until it is released. -/
theorem test_selection :
    let t := after (.result .select) active
    let u := after (.result .complete) t
    t.port.sdo = .highImpedance ∧ u.port.sdo = .drives [0, 0, 0, 0, 0, 0, 0] [] ∧
    (after (.result .release) u).port.sdo = .highImpedance ∧
    (after (.stationReset ⟨false, false⟩) t).port.selIgnored = true := by decide +kernel

/-- R172. -/
theorem test_stationReset : (after (.stationReset ⟨true, false⟩) active).mode = .mounting ∧
    (after (.stationReset ⟨true, false⟩) active).segments.table = [] := by decide

/-- R155, R151: the flag is cleared at the release. -/
theorem test_status :
    (after (.status .whole) { active with port := { active.port with portError := true } }).port.portError
      = false := by decide

/-- R153. -/
theorem test_result : (after (.result .whole) active).port.returned = .drives [0, 0, 0, 0, 0, 0, 0] [] := by
  decide

/-- R160: the header shows an IDLE slot and no record. -/
theorem test_readBuffer :
    (after (.readBuffer .whole) active).port.returned = .drives [0, 0, 0, 0, 0, 0, 0, 0, 0] [] := by decide

/-- R169 and 9.6: the head notice leaves and the count becomes 0. -/
theorem test_nextNotice :
    let s := { active with port := { active.port with notices := [.muted, .full true], lost := 1 } }
    (after (.nextNotice .whole) s).port.notices = [.full true] ∧
    (after (.nextNotice .whole) s).port.lost = 0 ∧
    (after (.nextNotice .whole) s).port.returned = .drives [1, 0x08, 0, 0, 0, 0, 0, 0, 0, 0, 0] [] := by
  decide

/-- R158: position 0 is no argument; 7 is not placed yet. -/
theorem test_readPosition :
    (after (.readPosition 0 .whole) active).port.slot = .done (.position 0) .badArg ∧
    (after (.readPosition 7 .whole) active).port.slot = .done (.position 7) .notFound := by decide

/-- R159, R32: a stored record is claimed and read. -/
theorem test_readRecord :
    (after (.readRecord 1 4 .whole) active).array.activity = .read (.host ⟨0, 1, 18, 18, none⟩) ∧
    (after (.readRecord 1 4 .whole) active).port.slot = .pending (.record 1 4) := by decide

/-- R102 and 6.8: the ticket and the seq are the counters' values, which rise. -/
theorem test_submit :
    (after (.submit 5 [1] .whole) active).port.result = ⟨.ok, some 0xA4, some (0, 5)⟩ ∧
    (after (.submit 5 [1] .whole) active).submission.nextSeq = some 6 := by decide +kernel

/-- R52, R161: the last position placed is 6. -/
theorem test_release : (after (.release 6 .whole) active).writer.releaseMark = 6 ∧
    (after (.release 7 .whole) active).port.result = ⟨.badArg, some 0xA6, none⟩ := by decide +kernel

/-- R180: station 1 of three at 1,000 kbit/s. -/
theorem test_enlist : (after (.enlist 1 3 1 0x04 5 .whole) mounted).mode = .joining ∧
    (after (.enlist 1 3 1 0x04 5 .whole) mounted).enlistment = some ⟨1, 3, 1, .kbit1000, 5⟩ := by
  decide +kernel

/-- R178: segment 0 is the first to be erased. -/
theorem test_format : (after (.format .whole) mounted).mode = .formatting ∧
    (after (.format .whole) mounted).array.context.map (·.segment) = some 0 := by decide +kernel

/-- R162. -/
theorem test_quiet : (after (.quiet .whole) active).mode = .quiet ∧
    (after (.quiet .whole) { active with writer := { active.writer with jobs := [⟨.release 1, .release⟩] } }).mode
      = .active := by decide +kernel

/-- R184: the failure count is as QUIET left it. -/
theorem test_wake : (after (.wake .whole) quiet).mode = .joining ∧ (after (.wake .whole) quiet).line.framer = .hunt ∧
    (after (.wake .whole) quiet).line.failures = 2 := by decide +kernel

/-- R164, R76. -/
theorem test_lineResume :
    (after (.lineResume .whole) { active with line := ⟨.idle, .gap, 16, true, 3⟩ }).line
      = ⟨.idle, .gap, 0, false, 3⟩ := by decide

/-- R166. -/
theorem test_reset : (after (.reset ⟨false, false⟩ .whole) active).mode = .mounting ∧
    (after (.reset ⟨false, false⟩ .whole) quiet).mode = .quiet := by decide

/-- R152. -/
theorem test_unknownCode : (after (.unknownCode 0 .whole) active).port.result = ⟨.badArg, some 0, none⟩ := by
  decide

/-- R149 and 9.6: the notices stay and the port-error flag is set. -/
theorem test_commandDiscarded :
    (after (.commandDiscarded .offBoundary) active).port.portError = true ∧
    (after (.commandDiscarded .offBoundary) quiet).port.portError = false := by decide

/-- R149: the third row of the table goes before the fourth. -/
theorem test_incompleteDuringHold :
    let t := after (.commandDiscarded (.incomplete 0xA4)) (after (.hold true) active)
    t.port.portError = true ∧ t.port.result = active.port.result := by decide

/-- R149: with no bit shifted the first row of the table is followed (log 51). -/
theorem test_noBitDuringHold :
    after (.commandDiscarded .noBit) (after (.hold true) active) = after (.hold true) active := by decide

/-- R150. -/
theorem test_hold : (after (.hold true) active).port.sdo = .highImpedance := by decide

/-- 7.6, first row: the entry is PRESENT and the value is kept. -/
theorem test_heldFrame :
    ((after (.heldFrame 2 0 61) hearing).presence.peer 2).state = .present ∧
    ((after (.heldFrame 2 0 61) hearing).presence.peer 2).reported.getD 0 0 = 61 := by decide +kernel

/-- 7.6, last row: an ABSENT entry is zeroed before the merge. -/
theorem test_presenceFrame :
    let s := { hearing with presence := { Presence.reset with
      peers := Presence.reset.peers.set 2 ⟨.absent, false, List.replicate 16 70, false, true⟩ } }
    ((after (.presenceFrame 2 true false [41, 4, 44]) s).presence.peer 2)
      = ⟨.present, true, [41, 4, 44] ++ List.replicate 13 0, false, false⟩ := by decide +kernel

/-- 7.6, QUIETING: the entry is SILENT with its QUIET flag. -/
theorem test_quietingPresenceFrame :
    let e := (after (.quietingPresenceFrame 2 false [41, 4, 44]) hearing).presence.peer 2
    e.state = .silent ∧ e.quiet = true := by decide +kernel

/-- 5.8: an APPEND of seq 15 above highest accepted 11 leaves [12, 14] open. -/
theorem test_appendFrame :
    let s := { hearing with tracker := { Tracker.reset with
      holdings := Tracker.reset.holdings.set 0 ⟨10, 11, 11, false⟩ } }
    (after (.appendFrame 0 15 1 [7] (checkOf 0 1 15 7)) s).tracker.gaps = [⟨0, 12, 14⟩] ∧
    (after (.appendFrame 0 15 1 [7] (checkOf 0 1 15 7)) s).tracker.holding 0 = ⟨10, 15, 15, false⟩ := by
  decide +kernel

/-- 8.5: seq 20 is accepted and slot 0 narrows to [21, 22]. -/
theorem test_refillCopyFrame :
    let t := after (.refillCopyFrame 2 1 0 20 1 [7] (checkOf 0 1 20 7)) (lacking (.asking true) 0)
    t.tracker.gaps = [⟨0, 21, 22⟩] ∧ t.repair.slots = [some ⟨0, 21, 22, 0, .asking true⟩, none, none, none]
    := by decide +kernel

/-- 8.5: a GONE of [22, 22] from station 0 declares the hole at that frame. -/
theorem test_refillGoneFrame :
    let s := { lacking (.asking true) 0 with presence := { Presence.reset with
      peers := Presence.reset.peers.set 0 ⟨.present, true, List.replicate 16 0, false, false⟩ } }
    (after (.refillGoneFrame 0 1 0 22 22) s).port.notices = [.hole 0 22 22] ∧
    (after (.refillGoneFrame 0 1 0 22 22) s).tracker.gaps = [⟨0, 20, 21⟩] := by decide +kernel

/-- 8.5: station 2 of four stores seqs 20 to 22 of origin 0 and answers station 1 by rank 1. -/
theorem test_seekFrame :
    let s := { busy hearing with
      enlistment := some ⟨2, 4, 1, .kbit500, 10⟩
      tracker := { Tracker.reset with
        holdings := Tracker.reset.holdings.set 0 ⟨22, 22, 22, false⟩
        index := [⟨0, 20, 1, false⟩, ⟨0, 21, 2, false⟩, ⟨0, 22, 3, false⟩] } }
    (after (.seekFrame 1 0 20 22) s).repair.responders
      = [⟨1, 0, 20, 22, none, [20, 21, 22], 1, .deferring⟩] := by decide +kernel

/-- R73: a CRC-16 that disagrees discards the frame, and the framer goes to GAP. -/
theorem test_frameDiscarded :
    (after (.frameDiscarded [0x02, 5, 1, 0, 0, 0, 9, 0, 0]) hearing).line.framer = .gap := by decide +kernel

/-- R65, R69. -/
theorem test_separatorDominant : (after .separatorDominant hearing).line.framer = .hunt := by decide

/-- R65. -/
theorem test_dominantRunEnd :
    (after .dominantRunEnd { active with line := ⟨.idle, .hunt, 1, false, 15⟩ }).line
      = ⟨.idle, .gap, 1, false, 15⟩ := by decide

/-- R65. -/
theorem test_gapEnd :
    (after .gapEnd { active with line := ⟨.idle, .gap, 1, false, 15⟩ }).line
      = ⟨.idle, .free, 1, false, 15⟩ := by decide

/-- R65, R66. -/
theorem test_huntIdleRun :
    (after .huntIdleRun { active with line := ⟨.idle, .hunt, 1, false, 15⟩ }).line
      = ⟨.idle, .free, 1, false, 15⟩ := by decide

/-- R65. -/
theorem test_startBitSeen : (after .startBitSeen active).line.framer = .frame := by decide

/-- R65. -/
theorem test_dominantBitInGap :
    (after .dominantBitInGap { active with line := ⟨.idle, .gap, 1, false, 15⟩ }).line
      = ⟨.idle, .hunt, 1, false, 15⟩ := by decide

/-- A station whose holdings of origin 0 are due, 9 held through, with an APPEND of seq 4 waiting. -/
def due : State :=
  { active with
    tracker := { active.tracker with holdings := active.tracker.holdings.set 0 ⟨9, 9, 9, true⟩ }
    submission := { active.submission with queue := [⟨0, 4, 1, [7], 8, .sending, 0, false⟩] } }

/-- R77, 4.8: a HELD goes before an APPEND. -/
theorem test_frameStart :
    (after .frameStart due).line.transmitter = .arbitrating (.held 0) (.held 1 0 9) ∧
    (after .frameStart { due with tracker := active.tracker }).line.transmitter
      = .arbitrating (.append 4) (.append 1 4 1 [7] 8) := by decide +kernel

/-- 4.8: a loss changes no count. -/
theorem test_arbitrationLoss :
    (after .arbitrationLoss { due with line := ⟨.arbitrating (.append 4) (.append 1 4 1 [7] 8), .frame, 2,
      false, 15⟩ }).line = ⟨.idle, .frame, 2, false, 15⟩ := by decide

/-- 4.8: count 0 to 1, BREAKING. -/
theorem test_transmitFailure :
    (after .transmitFailure { due with line := ⟨.sending (.append 4) (.append 1 4 1 [7] 8), .frame, 0,
      false, 15⟩ }).line = ⟨.breaking (.append 4), .frame, 1, false, 15⟩ := by decide

/-- R75: MUTED at the end of the sixteenth break, with its notice. -/
theorem test_breakComplete :
    let t := after .breakComplete { due with line := ⟨.breaking (.append 4), .hunt, 16, false, 15⟩ }
    t.line = ⟨.idle, .hunt, 16, true, 15⟩ ∧ t.port.notices = [.muted] := by decide +kernel

/-- 4.8: the count returns to 0 and the HELD cursor becomes the origin; R94: the flag is cleared. -/
theorem test_heldSendCompletion :
    let t := after .heldSendCompletion { due with line := ⟨.sending (.held 0) (.held 1 0 9), .frame, 3,
      false, 15⟩ }
    t.line = ⟨.idle, .gap, 0, false, 0⟩ ∧ t.tracker.holding 0 = ⟨9, 9, 9, false⟩ := by decide +kernel

/-- 6.8: WAITING, count 1. -/
theorem test_appendSendCompletion :
    (after .appendSendCompletion { due with line := ⟨.sending (.append 4) (.append 1 4 1 [7] 8), .frame, 1,
      false, 15⟩ }).submission.queue = [⟨0, 4, 1, [7], 8, .waiting, 1, false⟩] := by decide +kernel

/-- R144: the seq sent leaves the list, and an entry with nothing left is freed. -/
theorem test_refillSendCompletion :
    let s := { busy active with
      line := ⟨.sending (.refill 0 1 true) (.copy 1 0 1 4 1 [7] 8), .frame, 1, false, 15⟩
      repair := { Repair.reset with
        responders := [⟨0, 1, 4, 4, none, [4], 0, .readyCopy ⟨4, 1, [7], 8⟩⟩] } }
    (after .refillSendCompletion s).repair.responders = [] := by decide +kernel

/-- R134: the repair wait starts. -/
theorem test_seekSendCompletion :
    let s := { lacking (.asking false) 1 with
      line := ⟨.sending (.seek 0 true) (.seek 1 0 20 22), .frame, 0, false, 15⟩ }
    (after .seekSendCompletion s).repair.slots = asked 1 (.asking true) := by decide +kernel

/-- R118. -/
theorem test_presenceSendCompletion :
    let s := { due with
      line := ⟨.sending (.presence true) (.presence 1 .active false [9, 4, 0]), .frame, 0, false, 15⟩
      presence := { Presence.reset with request := true } }
    (after .presenceSendCompletion s).presence = { Presence.reset with presenceTimer := true } ∧
    (after .presenceSendCompletion s).tracker.holding 0 = ⟨9, 9, 9, false⟩ := by decide +kernel

/-- R120: after a QUIET, and a WAKE too, the completion starts no timer and the request of JOINING
stays. -/
theorem test_presenceOvertaken :
    let s := { active with
      line := ⟨.arbitrating (.presence true) (.presence 1 .active false [9, 4, 0]), .frame, 0, false, 15⟩ }
    let t := after .presenceSendCompletion (after (.wake .whole) (after (.quiet .whole) s))
    t.mode = .joining ∧ t.presence.request = true ∧ t.presence.presenceTimer = false := by decide +kernel

/-- R78: the line interface is turned off. -/
theorem test_quietingPresenceSendCompletion :
    let s := { due with
      mode := .quiet
      line := ⟨.sending (.quieting true) (.presence 1 .quieting false [8, 4, 0]), .frame, 0, false, 15⟩
      presence := { Presence.reset with quieting := true } }
    (after .quietingPresenceSendCompletion s).line = ⟨.off, .off, 0, false, 15⟩ ∧
    (after .quietingPresenceSendCompletion s).tracker.holding 0 = ⟨9, 9, 9, true⟩ := by decide +kernel

/-- R118. -/
theorem test_presenceTimerExpiry :
    (after .presenceTimerExpiry { active with presence := { Presence.reset with presenceTimer := true }
      }).presence = { Presence.reset with request := true } := by decide

/-- The station with station 2 in a state in its peer table. -/
def withPeer (l : Liveness) : State :=
  { active with presence := { Presence.reset with
      peers := Presence.reset.peers.set 2 ⟨l, true, List.replicate 16 3, false, false⟩ } }

/-- 7.6: SILENT after PRESENT, and ABSENT after SILENT with the timer stopped. -/
theorem test_silenceTimerExpiry :
    ((after (.silenceTimerExpiry [2]) (withPeer .present)).presence.peer 2).state = .silent ∧
    ((after (.silenceTimerExpiry [2]) (withPeer .silent)).presence.peer 2).state = .absent ∧
    ((after (.silenceTimerExpiry [2]) (withPeer .silent)).presence.peer 2).timer = false := by decide +kernel

/-- R129: both UNKNOWN peers of station 1 change together, in ascending order. -/
theorem test_silenceTimersTogether :
    let s := after (.wake .whole) quiet
    (after (.silenceTimerExpiry [2]) s).port.notices = [.peer 0 .absent, .peer 2 .absent] := by
  decide +kernel

/-- R182: one above the own origin's greater value, 4. -/
theorem test_joiningEnd : (after .joiningEnd joining).mode = .active ∧
    (after .joiningEnd joining).submission.nextSeq = some 5 := by decide +kernel

/-- 6.8: after one send the entry is SENDING again; after three it leaves as UNCONFIRMED (8, 42). -/
theorem test_confirmationWaitExpiry :
    let s := fun n => { active with submission :=
      { active.submission with queue := [⟨8, 42, 1, [7], 9, .waiting, n, false⟩] } }
    (after (.confirmationWaitExpiry 42) (s 1)).submission.queue
      = [⟨8, 42, 1, [7], 9, .sending, 1, false⟩] ∧
    (after (.confirmationWaitExpiry 42) (s 3)).submission.queue = [] ∧
    (after (.confirmationWaitExpiry 42) (s 3)).port.notices = [.unconfirmed 8 42] := by decide +kernel

/-- 8.5: the attempts become 1 and the SEEK is due; the third expiry declares the hole. -/
theorem test_repairWaitExpiry :
    (after (.repairWaitExpiry 0) (lacking (.asking true) 0)).repair.slots = asked 1 (.asking false) ∧
    (after (.repairWaitExpiry 0) (lacking (.asking true) 2)).port.notices = [.hole 0 20 22] := by
  decide +kernel

/-- 8.5: station 2's defer expires, and seq 3, the lowest stored, is fetched. -/
theorem test_deferExpiry :
    let s := { active with repair := { Repair.reset with
      responders := [⟨0, 1, 3, 4, none, [3, 4], 0, .deferring⟩] } }
    (after (.deferExpiry 0 1) s).array.activity = .read (.fetch ⟨0, 1, 3, 0, 1, 0, 18⟩ .wanted) ∧
    (after (.deferExpiry 0 1) s).repair.responders = [⟨0, 1, 3, 4, none, [3, 4], 0, .fetching⟩] := by
  decide +kernel

/-- A record program of the RELEASE job of 3.10 in progress, at position 7. -/
def programming : State :=
  { active with
    writer := ⟨[⟨.release 5, .release⟩], some ⟨7, 0, 1, 36⟩, 7, 6⟩
    array := { ArrayEngine.reset with activity := .program .record } }

/-- 3.10: the mark was raised meanwhile, so a new RELEASE job is queued and placed; R7: the next
position rises; R167: an ARRIVAL. -/
theorem test_recordProgramCompletion :
    let t := after (.recordProgramCompletion .good) programming
    t.writer.jobs = [⟨.release 6, .release⟩] ∧ t.writer.place = some ⟨8, 0, 1, 56⟩ ∧
    t.writer.nextPosition = 8 ∧ t.port.notices = [.arrival 7] := by decide +kernel

/-- 1.7: after a failure the record is placed at byte 0 of the next page with its position. -/
theorem test_recordProgramFailure :
    (after (.recordProgramCompletion .failed) programming).writer.place = some ⟨7, 0, 2, 0⟩ := by
  decide +kernel

/-- R30: a failed header program retires the segment, with a MEDIA notice of kind program. -/
theorem test_headerProgramCompletion :
    let s := { active with array := { ArrayEngine.reset with activity := .program (.header 0) } }
    (after (.headerProgramCompletion .failed) s).segments.table.head?.map (·.state) = some .retired ∧
    (after (.headerProgramCompletion .failed) s).port.notices = [.media 0 false] := by decide +kernel

/-- A read of a record in progress; the DATA record of origin 1, seq 3 is delivered. -/
def reading (op : ReadOperation) : State :=
  { active with
    array := { ArrayEngine.reset with activity := .read op }
    port := { active.port with slot := .pending (.record 1 3) } }

/-- The bytes of a one-byte DATA record. -/
def dataBytes : List Byte := (JobBody.data 1 9 3 [7] (checkOf 1 9 3 7)).bytes 5

/-- R32 and 9.6: CHECK GOOD gives OK and the record; other bytes give NOT_FOUND. -/
theorem test_hostReadCompletion :
    let s := reading (.host ⟨0, 1, 0, 17, none⟩)
    (after (.hostReadCompletion (some dataBytes)) s).port.slot = .done (.record 1 3) .ok ∧
    (after (.hostReadCompletion (some dataBytes)) s).port.buffer = dataBytes ∧
    (after (.hostReadCompletion none) s).port.slot = .done (.record 1 3) .notFound := by decide +kernel

/-- R33, R144: CHECK GOOD makes the entry READY with the record. -/
theorem test_fetchCompletion :
    let s := { reading (.fetch ⟨0, 1, 3, 0, 1, 0, 17⟩ .wanted) with repair := { Repair.reset with
      responders := [⟨0, 1, 3, 3, none, [3], 0, .fetching⟩] } }
    (after (.fetchCompletion (some dataBytes)) s).repair.responders
      = [⟨0, 1, 3, 3, none, [3], 0, .readyCopy ⟨3, 9, [7], checkOf 1 9 3 7⟩⟩] := by decide +kernel

/-- R145, R23: a COPY of the seq being read cancels it; the entry makes no claim before that read has
completed, and then fetches its next seq. -/
theorem test_fetchCancelled :
    let s := { reading (.fetch ⟨0, 1, 3, 0, 1, 0, 17⟩ .wanted) with
      line := hearing.line
      repair := { Repair.reset with responders := [⟨0, 1, 3, 4, none, [3, 4], 0, .fetching⟩] } }
    let t := after (.refillCopyFrame 2 0 1 3 9 [7] (checkOf 1 9 3 7)) s
    t.array.fetchClaims = [] ∧ t.repair.responders = [⟨0, 1, 3, 4, none, [4], 0, .fetching⟩] ∧
    (after (.fetchCompletion none) t).array.activity
      = .read (.fetch ⟨0, 1, 4, 0, 1, 18, 18⟩ .wanted) := by decide +kernel

/-- The scan at a step, with what it has found. -/
def scanning (step : ScanStep) (found : List Found) : State :=
  { State.reset with scan := some ⟨step, found, [], []⟩ }

/-- R173: with every segment BLANK the mount ends with 64 ERASED segments. -/
theorem test_blankCheckCompletion :
    let t := after .blankCheckCompletion
      (scanning (.blankChecks 63) ((List.replicate 63 Found.blank) ++ [.blankPage]))
    t.mode = .unenlisted ∧ t.segments.erasedCount = 64 := by decide +kernel

/-- R173: a blank page 0 awaits its blank check, and the next header is read. -/
theorem test_mountReadCompletion :
    (after .mountReadCompletion State.reset).scan.map (fun c => (c.step, c.found.getD 0 .unread))
      = some (.headers 1, .blankPage) := by decide +kernel

/-- An erase of segment 0, DIRTY before, in progress. -/
def erasing : State :=
  { active with
    segments := { active.segments with table :=
      [⟨.erasing, 7, false⟩, ⟨.erased, 2, false⟩, ⟨.erased, 1, false⟩] }
    array := { ArrayEngine.reset with activity := .erase, context := some ⟨0, true, true, false, false⟩ } }

/-- R37, R59: GOOD makes the segment ERASED and raises the generation; FAILED retires it. -/
theorem test_eraseCompletion :
    (after (.eraseCompletion .good) erasing).segments.table.head? = some ⟨.erased, 8, false⟩ ∧
    (after (.eraseCompletion (.failed false)) erasing).segments.table.head? = some ⟨.retired, 8, false⟩ ∧
    (after (.eraseCompletion (.failed false)) erasing).port.notices = [.media 0 true] := by decide +kernel

/-- 2.8: the suspension is taken at 500 us while a claim waits. -/
theorem test_resumeMinimumReached :
    let s := { erasing with array := { erasing.array with hostClaim := some ⟨1, 1, 0, 20, none⟩ } }
    (after .resumeMinimumReached s).array.activity = .suspending ∧
    (after .resumeMinimumReached erasing).array.activity = .erase := by decide +kernel

/-- 2.8: the host read is served first and the erase is HELD. -/
theorem test_suspensionCompletion :
    let s := { active with array := { ArrayEngine.reset with
      activity := .suspending
      context := some ⟨2, true, true, true, false⟩
      hostClaim := some ⟨0, 1, 0, 18, none⟩ } }
    (after .suspensionCompletion s).array.activity = .read (.host ⟨0, 1, 0, 18, none⟩) ∧
    (after .suspensionCompletion s).array.context.map (·.running) = some false := by decide +kernel

/-- 3.9: peer 1 PRESENT and peer 2 SILENT. -/
def peers39 : List Peer :=
  (Presence.reset.peers.set 1 ⟨.present, true, [33, 70, 52], false, false⟩).set 2
    ⟨.silent, true, [31, 61, 39], false, false⟩

/-- 3.9: segment 7 is reclaimed once peer 2 is ABSENT, under the release mark 1250. -/
def reclaiming : State :=
  { active with
    enlistment := some ⟨0, 3, 1, .kbit1000, 10⟩
    writer := { active.writer with releaseMark := 1250 }
    submission := { active.submission with queue := [⟨0, 33, 1, [7], 9, .waiting, 1, false⟩] }
    segments := ⟨[⟨.sealed ⟨1001, some 1240, 240, [11, 38, 30], [⟨0, 12, 30⟩, ⟨1, 50, 61⟩, ⟨2, 40, 44⟩],
        [⟨2, 39⟩], []⟩, 1, false⟩,
      ⟨.sealed ⟨1241, some 1480, 240, [30, 61, 44], [], [], []⟩, 1, false⟩,
      ⟨.opened ⟨1481, none, 0, [33, 66, 52], [], [], []⟩ (.place 1 0) 0, 1, false⟩,
      ⟨.erased, 1, false⟩], false, 11⟩
    presence := { Presence.reset with peers := peers39 } }

/-- 3.9: the own reclaimed floor rises to 30 and the oldest surviving first position is 1241. -/
theorem test_reclaim :
    let t := after (.silenceTimerExpiry [2]) reclaiming
    t.array.context.map (·.segment) = some 0 ∧ t.segments.ownFloor = 30 ∧ t.oldestPosition = 1241 ∧
    reclaiming.conclude.array.context = none := by decide +kernel

/-! ### A state for the hypotheses of each obligation -/

theorem reset_ready : State.reset.PortReady := ⟨rfl, rfl⟩

theorem mounted_ready : mounted.PortReady := ⟨rfl, rfl⟩

theorem joining_ready : joining.PortReady := ⟨rfl, rfl⟩

theorem quiet_ready : quiet.PortReady := ⟨rfl, rfl⟩

theorem active_serves : active.mode.serves := .inr (.inr rfl)

theorem mounted_serves : mounted.mode.serves := .inl rfl

theorem witness_StepTakesFrontCommand :
    { active with pending := [.gapEnd, .wake .whole] }.pending = .gapEnd :: [.wake .whole] ∧ State.reset.pending = [] :=
  ⟨rfl, rfl⟩

theorem witness_StationResetState :
    (∀ c, erasing.array.context = some c → segmentOf 65536 ≠ c.segment) ∧
    ∀ k, erasing.array.activity = .program (.header k) → segmentOf 65536 ≠ k :=
  ⟨fun _ h => (by cases h; decide), fun _ h => by cases h⟩

theorem witness_ResetCommand :
    active.PortReady ∧ active.port.selIgnored = false ∧ active.mode.serves ∧
    State.reset.PortReady ∧ State.reset.port.selIgnored = false ∧ State.reset.mode = .mounting ∧
    quiet.PortReady ∧ quiet.port.selIgnored = false ∧ quiet.mode = .quiet :=
  ⟨active_ready, rfl, active_serves, reset_ready, rfl, rfl, quiet_ready, rfl, rfl⟩

theorem witness_ModeRefusals :
    ((Instr.submit 1 [2] .whole).hostCommand = some (.submit, .whole) ∧ State.reset.PortReady ∧
      State.reset.mode = .mounting ∧ HostCommand.submit ≠ .status) ∧
    ((Instr.wake .whole).hostCommand = some (.wake, .whole) ∧ mounted.PortReady ∧
      mounted.mode = .unenlisted) ∧
    ((Instr.format .whole).hostCommand = some (.format, .whole) ∧ joining.PortReady ∧
      joining.mode = .joining) ∧
    ((Instr.reset ⟨true, true⟩ .whole).hostCommand = some (.reset, .whole) ∧ quiet.PortReady ∧
      quiet.mode = .quiet ∧ HostCommand.reset ≠ .wake) :=
  ⟨⟨rfl, reset_ready, rfl, by decide⟩, ⟨rfl, mounted_ready, rfl⟩, ⟨rfl, joining_ready, rfl⟩,
    ⟨rfl, quiet_ready, rfl, by decide⟩⟩

theorem witness_ReportsReturned :
    active.PortReady ∧ active.mode ≠ .quiet ∧ active.mode.serves ∧
    (⟨0x51, false, some .muted, 3, true⟩ : Completed).code = 0x51 :=
  ⟨active_ready, by decide, active_serves, rfl⟩

/-- A port whose selection of NEXT NOTICE has shown an ARRIVAL that was replaced since (9.6). -/
def showing : State :=
  { active with port := { active.port with
      notices := [.arrival 903, .muted]
      selection := some (.completed ⟨0x53, true, some (.arrival 902), 0, true⟩) } }

theorem witness_NextNoticeTaken :
    (active.mode.serves ∧ active.port.holdPin = false ∧ active.port.selection = none) ∧
    (showing.mode.serves ∧ showing.port.holdPin = false ∧
      showing.port.selection = some (.completed ⟨0x53, true, some (.arrival 902), 0, true⟩)) ∧
    { active.port with selection := some .shifting }.selection = some .shifting ∧
    ({ showing.port with holdPin := true }.holdPin = true ∧
      { showing.port with holdPin := true }.selection
        = some (.completed ⟨0x53, true, some (.arrival 902), 0, true⟩)) :=
  ⟨⟨active_serves, rfl, rfl⟩, ⟨.inr (.inr rfl), rfl, rfl⟩, rfl, ⟨rfl, rfl⟩⟩

theorem witness_NextNoticeTaken_joins :
    (Notice.muted.isArrival = false ∧ (List.replicate 15 Notice.muted).length < 16 ∧
      16 ≤ (List.replicate 16 Notice.muted).length) ∧
    showing.port.notices.any Notice.isArrival = true := by decide

theorem witness_ReadsAnswered_position :
    (active.PortReady ∧ active.mode.serves ∧ ∀ t, active.port.slot ≠ .pending t) ∧
    ((0 : Word) = 0 ∧ Code.badArg = .badArg) ∧
    ((7 : Word) ≠ 0 ∧ active.writer.nextPosition ≤ (7 : Word).toNat) ∧
    ((4 : Word) ≠ 0 ∧ (4 : Word).toNat < active.writer.nextPosition ∧
      (4 : Word).toNat < active.oldestPosition) :=
  ⟨⟨active_ready, active_serves, by intro t h; cases h⟩, by decide, by decide, by decide⟩

theorem witness_ReadsAnswered_record :
    15 < (16 : Byte).toNat ∧ (15 : Byte).toNat ≤ 15 ∧ (0 : Word) = 0 ∧
    (active.segments.findData 1 2 = none ∧ 2 ≤ active.oldestFloor 1) ∧
    (active.segments.findData 0 3 = none ∧ active.oldestFloor 0 < 3 ∧ active.segments.findHole 0 3 = none)
    ∧ (reading .mountPage).port.slot = .pending (.record 1 3) := by decide

theorem witness_ReadsClaimed :
    (busy active).PortReady ∧ (busy active).mode.serves ∧ (busy active).array.activity ≠ .idle ∧
    (∀ t, (busy active).port.slot ≠ .pending t) ∧
    ((5 : Word).toNat < (busy active).writer.nextPosition ∧
      (busy active).oldestPosition ≤ (5 : Word).toNat ∧
      (busy active).segments.findPosition 5 = some (0, ⟨5, 1, 0, 18, .data, 1, 3⟩)) ∧
    (busy active).segments.findData 1 4 = some (0, ⟨6, 1, 18, 18, .data, 1, 4⟩) :=
  ⟨⟨rfl, rfl⟩, active_serves, by decide, (by intro t h; cases h), by decide, by decide⟩

/-- The station with a HOLE record of origin 2, seqs 3 to 5, in its journal, and the array busy. -/
def holed : State :=
  { busy active with segments := { active.segments with table :=
      [⟨.opened { used with locators := [⟨5, 1, 0, 20, .hole, 2, 3⟩], holes := [⟨2, 5⟩] } (.place 1 20) 0, 7, false⟩] } }

theorem witness_ReadsClaimed_hole :
    holed.PortReady ∧ holed.mode.serves ∧ holed.array.activity ≠ .idle ∧
    (∀ t, holed.port.slot ≠ .pending t) ∧ holed.segments.findData 2 5 = none ∧
    holed.oldestFloor 2 < 5 ∧ holed.segments.findHole 2 5 = some (0, ⟨5, 1, 0, 20, .hole, 2, 3⟩) :=
  ⟨⟨rfl, rfl⟩, active_serves, by decide, (by intro t h; cases h), by decide, by decide, by decide⟩

/-- R13, R186: a kind byte of 0x04 ends the content of a page as a record that failed, a blank one
ends it as unused space, and a DATA kind does not end it. -/
theorem test_contentEnds :
    scanPage (fun _ => false) 1 16 0 1 (0x04 :: List.replicate 20 0x00) = ([], true) ∧
    scanPage (fun _ => false) 1 16 0 1 (List.replicate 20 0xFF) = ([], false) ∧
    contentEnds (0x01 :: List.replicate 20 0x00) = false := by decide

/-- R43, R159: above the hole high of origin 2 no entry is examined, and no claim is made. -/
theorem test_readAboveHoleHigh :
    (after (.readRecord 2 6) holed).port.slot = .done (.record 2 6) .notFound ∧
    (after (.readRecord 2 5) holed).port.slot = .pending (.record 2 5) := by decide

theorem witness_ReadsAnswered_aboveHoles :
    holed.PortReady ∧ holed.mode.serves ∧ holed.segments.findData 2 6 = none ∧
    holed.oldestFloor 2 < 6 ∧
    ∀ e ∈ holed.segments.inUse, ∀ h ∈ e.2.holes, h.origin = 2 → h.high < 6 :=
  ⟨⟨rfl, rfl⟩, active_serves, by decide, by decide, by decide⟩

/-- Seven entries, the greatest number that leaves a place. -/
def seven : State :=
  { active with
    submission := { active.submission with
      queue := List.replicate 7 ⟨0, 4, 1, [7], 8, .waiting, 1, false⟩
      nextSeq := some 9 } }

theorem witness_SubmitTaken :
    (active.PortReady ∧ active.TrackingOk ∧ active.enlistment = some ⟨1, 3, 1, .kbit1000, 5⟩ ∧
      active.mode = .active ∧ active.line.muted = false ∧ 1 ≤ [(7 : Byte)].length ∧
      [(7 : Byte)].length ≤ 200 ∧ active.submission.nextSeq = some 5 ∧ active.segments.full = false ∧
      active.submission.queue.length < 8 ∧ 5 = (active.tracker.holding 1).accepted + 1) ∧
    (seven.PortReady ∧ seven.TrackingOk ∧ (List.replicate 200 (7 : Byte)).length ≤ 200 ∧
      seven.submission.nextSeq = some 9 ∧ seven.submission.queue.length < 8 ∧
      (seven.tracker.holding 1).accepted + 1 < 9 ∧ seven.tracker.gaps.length < 32) :=
  ⟨⟨active_ready, active_tracking, rfl, rfl, rfl, by decide, by decide, rfl, rfl, by decide, by decide⟩,
    ⟨⟨rfl, rfl⟩, ⟨by decide, by decide, by decide, fun _ h => by cases h; decide⟩,
      by decide +kernel, rfl, by decide, by decide, by decide⟩⟩

/-- Eight entries and a full gap table. -/
def crowded : State :=
  { seven with
    submission := { seven.submission with
      queue := List.replicate 8 ⟨0, 4, 1, [7], 8, .waiting, 1, false⟩ }
    tracker := { seven.tracker with gaps := List.replicate 32 ⟨0, 1, 1⟩ } }

theorem witness_SubmitRefused :
    (joining.PortReady ∧ joining.mode.serves ∧ joining.mode ≠ .active) ∧
    (active.PortReady ∧ active.mode.serves ∧ active.mode = .active ∧ active.line.muted = false ∧
      200 < (List.replicate 201 (0 : Byte)).length) ∧
    (0xFFFFFFFF < 0x100000000 ∧ 9 ≤ 0xFFFFFFFF) ∧
    (crowded.PortReady ∧ crowded.mode = .active ∧ crowded.line.muted = false ∧
      crowded.submission.nextSeq = some 9 ∧ crowded.segments.full = false ∧
      8 ≤ crowded.submission.queue.length) ∧
    ({ crowded with submission := seven.submission }.submission.queue.length < 8 ∧
      (crowded.tracker.holding crowded.ownNumber).accepted + 1 < 9 ∧
      32 ≤ crowded.tracker.gaps.length) :=
  ⟨⟨joining_ready, .inr (.inl rfl), by decide⟩,
    ⟨active_ready, active_serves, rfl, rfl, by decide +kernel⟩, by decide,
    ⟨⟨rfl, rfl⟩, rfl, rfl, rfl, rfl, by decide⟩, by decide⟩

theorem witness_ReleaseCommand :
    active.PortReady ∧ active.mode.serves ∧ active.writer.nextPosition ≤ (7 : Word).toNat ∧
    ((6 : Word).toNat < active.writer.nextPosition ∧ active.writer.releaseMark < (6 : Word).toNat ∧
      active.array.recordInProgress = false) ∧
    ((0 : Word).toNat < active.writer.nextPosition ∧ (0 : Word).toNat ≤ active.writer.releaseMark) ∧
    (programming.PortReady ∧ programming.mode.serves ∧ programming.array.recordInProgress = true ∧
      programming.writer.jobs.tail.any (·.body.isRelease) = false ∧
      programming.writer.jobs.head?.any (·.body.isRelease) = true ∧
      (6 : Word).toNat < programming.writer.nextPosition) :=
  ⟨active_ready, active_serves, by decide, by decide, by decide, ⟨rfl, rfl⟩, active_serves, rfl, by decide,
    by decide, by decide⟩

/-- A record program of a DATA job in progress, and no RELEASE job anywhere. -/
def programmingData : State :=
  { programming with writer := { programming.writer with
      jobs := [⟨.data 0 1 3 [7] 9, .append⟩], releaseMark := 4 } }

theorem witness_ReleaseCommand_data :
    programmingData.PortReady ∧ programmingData.mode.serves ∧
    (6 : Word).toNat < programmingData.writer.nextPosition ∧
    programmingData.writer.releaseMark < (6 : Word).toNat ∧
    programmingData.array.recordInProgress = true ∧
    programmingData.writer.jobs.any (·.body.isRelease) = false :=
  ⟨⟨rfl, rfl⟩, active_serves, by decide, by decide, rfl, by decide⟩

theorem witness_EnlistCommand :
    mounted.PortReady ∧ mounted.mode = .unenlisted ∧ mounted.PeersOk ∧ mounted.TrackingOk ∧
    (¬ (2 ≤ (1 : Byte).toNat ∧ (1 : Byte).toNat ≤ 16)) ∧
    ((0x01 : Byte) = 0x01 ∧ (7 : Byte).toNat < 8) ∧
    (2 ≤ (16 : Byte).toNat ∧ (16 : Byte).toNat ≤ 16 ∧ (15 : Byte).toNat < (16 : Byte).toNat ∧
      (0x02 : Byte) = 0x02 ∧ 4 ≤ (4 : Byte).toNat) :=
  ⟨mounted_ready, rfl, ⟨by decide, by decide⟩,
    ⟨by decide, by decide, by decide, fun _ h => by cases h⟩, by decide, by decide, by decide⟩

/-- The mounted station as an erase is in hand. -/
def mountedErasing : State := { mounted with array := erasing.array }

theorem witness_EnlistCommand_floor :
    mountedErasing.PortReady ∧ mountedErasing.mode = .unenlisted ∧ mountedErasing.PeersOk ∧
    mountedErasing.TrackingOk ∧ mountedErasing.array.context ≠ none ∧ mounted.oldestFloor 1 = 2 :=
  ⟨⟨rfl, rfl⟩, rfl, ⟨by decide, by decide⟩, ⟨by decide, by decide, by decide, fun _ h => by cases h⟩,
    by decide, by decide⟩

theorem witness_FormatCommand :
    mounted.PortReady ∧ mounted.mode = .unenlisted ∧ mounted.writer.jobs = [] ∧
    (∀ t, mounted.port.slot ≠ .pending t) ∧
    (∃ t, { mounted.port with slot := .pending (.position 5) }.slot = .pending t) :=
  ⟨mounted_ready, rfl, rfl, (by intro t h; cases h), _, rfl⟩

theorem witness_FormatCommand_erase :
    (mounted.array.demand = false ∧ mounted.array.context = none ∧ mounted.array.activity = .idle ∧
      mounted.segments.table[0]? = some ⟨.opened used (.place 1 36) 0, 7, false⟩) ∧
    (let table := mounted.segments.table.set 0 ⟨.retired, 8, false⟩;
      table[1]? = some ⟨.erased, 2, false⟩ ∧ ∀ i x, i < 1 → table[i]? = some x → x.state = .retired) ∧
    mountedErasing.writer.jobs = [] ∧ mountedErasing.array.demand = false ∧
    mountedErasing.array.context ≠ none :=
  ⟨by decide, ⟨rfl, fun i x h e => by
    obtain rfl : i = 0 := by omega
    cases e; rfl⟩, rfl, by decide, by decide⟩

theorem witness_QuietCommand :
    (active.PortReady ∧ active.mode = .active ∧ active.submission.queue = [] ∧ active.writer.jobs = [] ∧
      active.array.context = none) ∧
    (erasing.PortReady ∧ erasing.mode = .active ∧ erasing.array.context ≠ none) ∧
    active.line.muted = false ∧ { active.line with muted := true }.muted = true :=
  ⟨⟨active_ready, rfl, rfl, rfl, rfl⟩, ⟨⟨rfl, rfl⟩, rfl, by decide⟩, rfl, rfl⟩

theorem witness_WakeCommand :
    (quiet.PortReady ∧ quiet.mode = .quiet ∧ quiet.PeersOk ∧ quiet.array.fetchClaims = []) ∧
    (active.PortReady ∧ active.mode.serves) ∧ (State.reset.PortReady ∧ State.reset.mode = .mounting) ∧
    ((Instr.reset ⟨true, true⟩ .release).hostCommand = some (.reset, .release) ∧
      HostCommand.reset ≠ .wake) :=
  ⟨⟨quiet_ready, rfl, ⟨by decide, by decide⟩, rfl⟩, ⟨active_ready, active_serves⟩, ⟨reset_ready, rfl⟩, rfl,
    by decide⟩

theorem witness_LineResumeCommand :
    (active.PortReady ∧ active.mode = .active) ∧ (mounted.PortReady ∧ mounted.mode = .unenlisted) ∧
    (quiet.PortReady ∧ quiet.mode = .quiet) :=
  ⟨⟨active_ready, rfl⟩, ⟨mounted_ready, rfl⟩, ⟨quiet_ready, rfl⟩⟩

theorem witness_PortEvents :
    HostCommand.ofCode 0x00 = none ∧ State.reset.PortReady ∧ State.reset.mode = .mounting ∧
    active.PortReady ∧ active.mode.serves ∧ active.port.selIgnored = false ∧ active.mode ≠ .quiet ∧
    (HostCommand.ofCode 0xA4).isSome = true ∧ quiet.PortReady ∧ quiet.mode = .quiet ∧
    { active.port with selIgnored := true }.selIgnored = true ∧
    (Instr.format .whole).hostCommand = some (.format, .whole) ∧ active.port.holdPin = false ∧
    { active.port with holdPin := true }.holdPin = true ∧
    { active.port with selection := some .shifting }.selection = some .shifting :=
  ⟨by decide, reset_ready, rfl, active_ready, active_serves, rfl, by decide, by decide, quiet_ready, rfl,
    rfl, rfl, rfl, rfl, rfl⟩

theorem hearing_line : hearing.follows = true ∧ hearing.mode.onLine = true := by decide

theorem witness_HeldFrameTaken :
    hearing.PeersOk ∧ hearing.TrackingOk ∧ hearing.follows = true ∧ hearing.mode.onLine = true ∧
    (Machine.Frame.held 2 1 0xFFFFFFFF).fieldsGood hearing.clusterSize = true ∧
    hearing.isPeer 2 = true ∧ hearing.isPeer 1 = false ∧ (hearing.presence.peer 2).state = .unknown :=
  ⟨hearing_peers, hearing_tracking, by decide, by decide, by decide, by decide, by decide, by decide⟩

theorem witness_HeldFrameTaken_present :
    let s := { withPeer .silent with line := hearing.line }
    s.PeersOk ∧ s.TrackingOk ∧ s.follows = true ∧ s.isPeer 2 = true ∧
      (s.presence.peer 2).state = .silent ∧
      (Machine.Frame.held 2 0 2).fieldsGood s.clusterSize = true :=
  ⟨⟨by decide, by decide⟩, ⟨by decide, by decide, by decide, fun _ h => by cases h; decide⟩, by decide,
    by decide, by decide, by decide⟩

theorem witness_PresenceFrameTaken :
    hearing.PeersOk ∧ hearing.TrackingOk ∧ hearing.follows = true ∧ hearing.mode.onLine = true ∧
    (Machine.Frame.presence 2 .quieting true [1, 2, 3]).fieldsGood hearing.clusterSize = true ∧
    (Machine.Frame.presence 2 .active false [1, 2, 3]).fieldsGood hearing.clusterSize = true ∧
    hearing.isPeer 2 = true ∧ (hearing.presence.peer 2).state = .unknown :=
  ⟨hearing_peers, hearing_tracking, by decide, by decide, by decide, by decide, by decide, by decide⟩

theorem witness_AppendFrameAccepted :
    hearing.PeersOk ∧ hearing.TrackingOk ∧ hearing.follows = true ∧ hearing.mode.onLine = true ∧
    (Machine.Frame.append 2 3 1 [7] (checkOf 2 1 3 7)).fieldsGood hearing.clusterSize = true ∧
    hearing.isOwn 2 = false ∧ hearing.admissionOpen = true ∧ hearing.tracker.checkOf 2 3 = none ∧
    hearing.tracker.heldOtherwise 2 3 = false ∧ hearing.tracker.gapsAfter 2 3 = some [⟨2, 1, 2⟩] :=
  ⟨hearing_peers, hearing_tracking, by decide, by decide, by decide +kernel, by decide, by decide,
    by decide, by decide, by decide⟩

/-- A gap table with 32 entries of origin 5 and highest accepted 10 of origin 0. -/
def fullGaps : Tracker :=
  { Tracker.reset with
    holdings := Tracker.reset.holdings.set 0 ⟨10, 10, 10, false⟩
    gaps := List.replicate 32 ⟨5, 1, 1⟩ }

theorem witness_GapsAfterAcceptance :
    (fullGaps.gaps.length ≤ 32 ∧ 11 ≠ 0 ∧ 11 = (fullGaps.holding 0).accepted + 1) ∧
    ((fullGaps.holding 0).accepted + 1 < 12 ∧ fullGaps.gaps.length = 32) ∧
    ({ fullGaps with gaps := [⟨0, 4, 8⟩] }.gaps.length < 32) ∧
    (6 ≤ (fullGaps.holding 0).accepted ∧
      { fullGaps with gaps := [⟨0, 4, 8⟩] }.gapsAfter 0 6 = some [⟨0, 4, 5⟩, ⟨0, 7, 8⟩]) := by decide

/-- `n` entries of origin 5 and one of origin 0, of seqs 4 to 8. -/
def oneOpen (n : Nat) : Tracker :=
  { fullGaps with gaps := List.replicate n ⟨5, 1, 1⟩ ++ ⟨0, 4, 8⟩ :: [] }

theorem witness_GapsAfterAcceptance_fill :
    (∀ r ∈ (oneOpen 31).gaps, r.origin = 0 → ¬ (r.first < 4 ∧ 4 < r.last)) ∧
    (∀ r ∈ (oneOpen 31).gaps, r.origin = 0 → ¬ (r.first < 8 ∧ 8 < r.last)) ∧
    8 ≤ ((oneOpen 31).holding 0).accepted ∧
    (∀ x ∈ List.replicate 31 ⟨5, 1, 1⟩ ++ [], Run.contains x 0 5 = false) ∧
    (oneOpen 30).gaps.length = 31 ∧ (oneOpen 31).gaps.length = 32 := by decide

/-- A station that stores origin 0's seq 3 with check 9 and origin 2's seq 4 pending. -/
def storing : State :=
  { active with tracker := { active.tracker with
      index := [⟨0, 3, 9, false⟩, ⟨0, 4, 9, true⟩]
      pending := [.data 2 4 8 false] } }

theorem witness_ArrivalDropped :
    (active.isOwn 1 = true ∧ active.isOwn 2 = false ∧ active.mode = .active ∧
      active.submission.nextSeq = some 5) ∧
    (storing.tracker.checkOf 0 3 = some 9 ∧ storing.tracker.checkOf 2 4 = some 8 ∧ (8 : Word) ≠ 9) ∧
    (storing.tracker.checkOf 2 9 = none ∧
      { storing with segments := { storing.segments with full := true } }.admissionOpen = false) ∧
    (active.tracker.checkOf 1 3 = none ∧ active.tracker.heldOtherwise 1 3 = true) ∧
    (storing.tracker.markOf 0 3 = some false ∧ storing.tracker.markOf 0 4 = some true ∧
      storing.tracker.markOf 2 5 = none) := by decide

theorem witness_RefillCopyTaken :
    let s := lacking (.asking true) 0
    s.PeersOk ∧ s.TrackingOk ∧ s.follows = true ∧ s.mode.onLine = true ∧
    (Machine.Frame.copy 2 1 0 21 1 [7] (checkOf 0 1 21 7)).fieldsGood s.clusterSize = true ∧
    s.isOwn 0 = false ∧ s.admissionOpen = true ∧ s.tracker.checkOf 0 21 = none ∧
    s.tracker.heldOtherwise 0 21 = false ∧
    s.tracker.gapsAfter 0 21 = some [⟨0, 20, 20⟩, ⟨0, 22, 22⟩] :=
  ⟨⟨by decide, by decide⟩, ⟨by decide, by decide, by decide, fun _ h => by cases h; decide⟩, by decide,
    by decide, by decide +kernel, by decide, by decide, by decide, by decide, by decide⟩

theorem witness_RefillCopyTaken_narrows :
    let s := lacking (.asking true) 0
    s.repair.slots[0]? = some (some ⟨0, 20, 22, 0, .asking true⟩) ∧
    Tracker.narrowed { s.tracker with gaps := [⟨0, 20, 20⟩, ⟨0, 22, 22⟩] } ⟨0, 20, 22, 0, .asking true⟩
      = some ⟨0, 20, 22, 0, .asking true⟩ ∧
    Tracker.narrowed { s.tracker with gaps := [⟨0, 21, 22⟩] } ⟨0, 20, 20, 0, .following⟩ = none ∧
    [none, some (⟨2, 20, 22, 0, .following⟩ : SeekSlot)][1]? = some (some ⟨2, 20, 22, 0, .following⟩) ∧
    2 ≠ 0 := by decide

theorem witness_RefillGoneTaken :
    let s := lacking (.asking true) 0
    s.PeersOk ∧ s.TrackingOk ∧ s.follows = true ∧ s.mode.onLine = true ∧
    (Machine.Frame.gone 0 1 0 26 30).fieldsGood s.clusterSize = true ∧ s.isOwn 0 = false ∧
    (s.tracker.holding 0).accepted < 26 ∧ s.admissionOpen = true ∧ s.tracker.gaps.length < 32 :=
  ⟨⟨by decide, by decide⟩, ⟨by decide, by decide, by decide, fun _ h => by cases h; decide⟩, by decide,
    by decide, by decide, by decide, by decide, by decide, by decide⟩

theorem witness_SeekFrameTaken :
    let s := { lacking (.asking false) 0 with tracker := { (lacking (.asking false) 0).tracker with
      index := [⟨0, 19, 1, false⟩] } }
    s.PeersOk ∧ s.TrackingOk ∧ s.follows = true ∧ s.mode.onLine = true ∧ s.Served ∧
    (Machine.Frame.seek 2 0 10 25).fieldsGood s.clusterSize = true ∧
    s.repair.slots[0]? = some (some ⟨0, 20, 22, 0, .asking false⟩) ∧ s.line.muted = false ∧
    s.storedSeqs 0 10 25 ≠ [] ∧ s.repair.responders.length < 4 :=
  ⟨⟨by decide, by decide⟩, ⟨by decide, by decide, by decide, fun _ h => by cases h; decide⟩, by decide,
    by decide, (by intro h; cases h), by decide, by decide, by decide, by decide, by decide⟩

theorem witness_FramerMoves :
    hearing.line.framer = .frame ∧ active.line.framer = .free ∧
    { active.line with framer := .hunt }.framer = .hunt ∧
    { active.line with framer := .gap }.framer = .gap ∧
    hearing.follows = true ∧ passes hearing.clusterSize [0x02, 5, 1, 0, 0, 0, 9, 0, 0] = false ∧
    0x50 ≤ (0x50 : Byte).toNat ∧ [(1 : Byte)].length ≠ (5 : Byte).toNat + 2 ∧
    (0 : BitVec 16) ≠ crc16 [0x02, 5, 1, 0, 0, 0, 9] ∧
    3 ≤ (Machine.Frame.held 3 1 0).sender.toNat := by decide +kernel

theorem witness_FrameStartChooses_held :
    (due.line.framer = .free ∧ due.line.transmitter = .idle ∧ due.line.muted = false ∧
      due.mode ≠ .quiet ∧ 0 < 16 ∧ 0 = (due.line.heldCursor + 1 + 0) % 16 ∧
      (due.tracker.holding 0).due = true) ∧
    { quiet with line := active.line }.mode = .quiet ∧ active.presence.quieting = false ∧
    { due.line with muted := true }.muted = true := by decide

theorem witness_FrameStartChooses_append :
    (∀ o < 16, ({ due with tracker := active.tracker }.tracker.holding o).due = false) ∧
    due.mode = .active ∧
    due.submission.queue = [] ++ ⟨0, 4, 1, [7], 8, .sending, 0, false⟩ :: [] := by decide

/-- A station with a READY responder and a due slot. -/
def answering : State :=
  { lacking (.asking false) 0 with
    line := active.line
    repair := { slots := asked 0 (.asking false)
                responders := [⟨2, 1, 3, 4, none, [3, 4], 0, .deferring⟩,
                  ⟨0, 1, 3, 3, some (1, 2), [], 0, .readyGone⟩] } }

theorem witness_FrameStartChooses_refill :
    (∀ o < 16, (answering.tracker.holding o).due = false) ∧
    (∀ e ∈ answering.submission.queue, e.stage ≠ .sending) ∧
    answering.repair.responders
      = [⟨2, 1, 3, 4, none, [3, 4], 0, .deferring⟩] ++
        ⟨0, 1, 3, 3, some (1, 2), [], 0, .readyGone⟩ :: [] ∧
    answering.refillFrame ⟨2, 1, 3, 4, none, [3, 4], 0, .deferring⟩ = none := by decide

theorem witness_FrameStartChooses_seek :
    let s := { answering with repair := { answering.repair with responders := [] } }
    (∀ e ∈ s.repair.responders, s.refillFrame e = none) ∧
    s.repair.slots[0]? = some (some ⟨0, 20, 22, 0, .asking false⟩) ∧
    (∀ sl : SeekSlot, some sl ∈ active.repair.slots → sl.state ≠ .asking false) ∧
    { active.presence with request := true }.request = true :=
  ⟨by decide, by decide, fun sl h => by simp [active, enlisted, mounted, State.reset, Repair.reset] at h,
    rfl⟩

theorem witness_ArbitrationAndFailure :
    let s := { active with line := ⟨.breaking (.presence true), .gap, 16, false, 15⟩ }
    s.line.transmitter = .breaking (.presence true) ∧ s.line.failures = 16 ∧ s.line.framer ≠ .frame ∧
    s.raised = [] ∧ s.port.notices.length < 16 ∧
    (after .frameStart due).line.transmitter = .arbitrating (.held 0) (.held 1 0 9) ∧ 15 < 16 := by
  decide +kernel

theorem witness_HeldSent :
    let s := { due with line := ⟨.sending (.held 0) (.held 1 0 9), .frame, 3, false, 15⟩ }
    s.TrackingOk ∧ 0 < 16 ∧ s.line.framer = .frame ∧
    s.line.transmitter = .sending (.held 0) (.held 1 0 9) :=
  ⟨⟨by decide, by decide, by decide, fun _ h => by cases h; decide⟩, by decide, rfl, rfl⟩

theorem witness_AppendSent :
    let s := { due with line := ⟨.sending (.append 4) (.append 1 4 1 [7] 8), .frame, 1, false, 15⟩ }
    s.line.transmitter = .sending (.append 4) (.append 1 4 1 [7] 8) ∧ s.line.framer = .frame ∧
    s.submission.queue.find? (fun e => decide (e.seq = 4)) = some ⟨0, 4, 1, [7], 8, .sending, 0, false⟩ ∧
    (∀ e ∈ s.submission.queue, e.seq ≠ 5) := by decide

theorem witness_RefillAndSeekSent :
    let s := { answering with line := ⟨.arbitrating (.refill 2 1 true) (.copy 1 2 1 3 1 [7] 8), .frame, 1,
      false, 15⟩ }
    s.line.transmitter = .arbitrating (.refill 2 1 true) (.copy 1 2 1 3 1 [7] 8) ∧ s.line.framer = .frame ∧
    s.repair.responder? 2 1 = some ⟨2, 1, 3, 4, none, [3, 4], 0, .deferring⟩ ∧
    (3 : Word).toNat ∈ [3, 4] ∧
    { s.line with transmitter := .arbitrating (.refill 0 1 true) (.gone 1 0 1 1 2) }.transmitter
      = .arbitrating (.refill 0 1 true) (.gone 1 0 1 1 2) ∧
    { s.line with transmitter := .arbitrating (.refill 0 1 false) (.gone 1 0 1 1 2) }.transmitter
      = .arbitrating (.refill 0 1 false) (.gone 1 0 1 1 2) ∧
    { s.line with transmitter := .arbitrating (.seek 0 true) (.seek 1 0 20 22) }.transmitter
      = .arbitrating (.seek 0 true) (.seek 1 0 20 22) ∧
    s.repair.slots[0]? = some (some ⟨0, 20, 22, 0, .asking false⟩) := by decide

theorem witness_PresenceSent :
    let s := { due with
      line := ⟨.arbitrating (.presence true) (.presence 1 .active false [9, 4, 0]), .frame, 0, false, 15⟩ }
    s.TrackingOk ∧ [(9 : Word), 4, 0].length ≤ 16 ∧ s.line.framer = .frame ∧
    s.line.transmitter = .arbitrating (.presence true) (.presence 1 .active false [9, 4, 0]) ∧ 
    [(9 : Word), 4, 0][2]? = some 0 ∧ [(9 : Word), 4, 0].length ≤ 3 ∧
    { s.line with transmitter := .arbitrating (.presence false) (.presence 1 .active false [9, 4, 0])
      }.transmitter = .arbitrating (.presence false) (.presence 1 .active false [9, 4, 0]) ∧
    { s.line with transmitter := .arbitrating (.quieting true) (.presence 1 .quieting false [9, 4, 0])
      }.transmitter = .arbitrating (.quieting true) (.presence 1 .quieting false [9, 4, 0]) :=
  ⟨⟨by decide, by decide, by decide, fun _ h => by cases h; decide⟩, by decide, rfl, rfl,
    by decide, by decide, rfl, rfl⟩

theorem witness_PresenceAndSilenceTimers :
    (withPeer .present).PeersOk ∧ (withPeer .present).mode.onLine = true ∧
    (withPeer .present).isPeer 2 = true ∧ ((withPeer .present).presence.peer 2).timer = true ∧
    { active.presence with presenceTimer := true }.presenceTimer = true ∧
    (withPeer .present).raised = [] ∧ (withPeer .present).writer.jobs = [] ∧
    (withPeer .present).tracker.excess = [] ∧ (withPeer .present).port.notices.length + 2 ≤ 16 :=
  ⟨⟨by decide, by decide⟩, by decide, by decide, by decide, rfl, rfl, rfl, rfl, by decide⟩

theorem witness_JoiningEnds :
    joining.mode = .joining ∧ joining.presence.joiningTimer = true ∧
    joining.enlistment = some ⟨1, 3, 1, .kbit1000, 5⟩ := ⟨rfl, rfl, rfl⟩

theorem witness_ConfirmationWaitEnds :
    let e : Entry := ⟨8, 42, 1, [7], 9, .waiting, 3, false⟩
    let s := { active with submission := { active.submission with queue := [e] } }
    s.submission.queue.find? (fun e => decide (e.seq = (42 : Word).toNat)) = some e ∧
    e.stage = .waiting ∧ 3 ≤ e.sends ∧ { e with sends := 2 }.sends < 3 := by decide

theorem witness_RepairWaitEnds :
    (lacking .following 1).LimitsOk ∧
    (lacking .following 1).repair.slots[(0 : Fin 4).val]? = some (some ⟨0, 20, 22, 1, .following⟩) ∧
    SeekSlot.waits ⟨0, 20, 22, 1, .following⟩ = true ∧
    (lacking .following 1).tracker.narrowed ⟨0, 19, 22, 1, .following⟩
      = some ⟨0, 20, 22, 1, .following⟩ ∧
    (lacking .following 1).tracker.narrowed ⟨0, 5, 9, 1, .following⟩ = none ∧ 1 + 1 < 3 ∧ 3 ≤ 2 + 1 :=
  ⟨⟨by decide, by decide, by decide, by decide, by decide, by decide, by decide⟩, by decide, by decide, by decide, by decide, by decide, by decide⟩

theorem witness_RepairWaitEnds_declares :
    let s := { lacking (.asking true) 2 with
      segments := { active.segments with full := true } }
    s.originPresent 0 = false ∧ s.mode ≠ .joining ∧ s.admissionOpen = false ∧
    { s with presence := (withPeer .present).presence }.originPresent 2 = true := by decide

/-- A slot is free, and seqs 21 to 37 of origin 0's wants are not covered. -/
def fillable : State :=
  { lacking (.asking true) 0 with
    tracker := { (lacking .following 0).tracker with gaps := [⟨0, 20, 37⟩] }
    repair := { Repair.reset with slots := [some ⟨0, 20, 20, 0, .asking true⟩, none, none, none] } }

theorem witness_RepairWaitEnds_fills :
    let covered := fun p x => ∃ sl : SeekSlot, some sl ∈ fillable.repair.slots ∧ sl.origin = p ∧
      sl.first ≤ x ∧ x ≤ sl.last
    fillable.repair.slots[1]? = some none ∧ (∀ j < 1, fillable.repair.slots[j]? ≠ some none) ∧
    0 < fillable.clusterSize ∧ fillable.tracker.wantsOf 0 = [] ++ ⟨0, 20, 37⟩ :: [] ∧
    20 ≤ 21 ∧ 21 ≤ 37 ∧ ¬ covered 0 21 ∧ ∀ y, 20 ≤ y → y < 21 → covered 0 y := by
  refine ⟨rfl, by decide, by decide, by decide, by decide, by decide, ?_, ?_⟩
  · rintro ⟨sl, h, -, h1, h2⟩
    simp [fillable] at h
    subst h
    simp at h2
  · intro y h1 h2
    exact ⟨⟨0, 20, 20, 0, .asking true⟩, by simp [fillable], rfl, h1, by simp only; omega⟩

theorem witness_RepairWaitEnds_hole :
    let s := lacking (.asking true) 2
    s.LimitsOk ∧ s.repair.slots[(0 : Fin 4).val]? = some (some ⟨0, 20, 22, 2, .asking true⟩) ∧
    s.tracker.narrowed ⟨0, 20, 22, 2, .asking true⟩ = some ⟨0, 20, 22, 2, .asking true⟩ ∧
    s.originPresent 0 = false ∧ s.mode ≠ .joining ∧ s.admissionOpen = true ∧ s.TrackingOk ∧
    (∀ x, 20 ≤ x → x ≤ 22 → s.tracker.isWant 0 x = true) ∧ s.tracker.rangeWanted 0 20 22 = true ∧
    (s.tracker.gapsAfterHole 0 20 22).length ≤ 32 ∧ s.raised = [] ∧ s.port.notices.length ≤ 14 :=
  ⟨⟨by decide, by decide, by decide, by decide, by decide, by decide, by decide⟩, by decide, by decide,
    by decide, by decide, by decide, ⟨by decide, by decide, by decide, fun _ h => by cases h; decide⟩,
    (fun x h1 h2 => by simp [Tracker.isWant, lacking, Run.contains, h1, h2]), by decide, by decide, rfl,
    by decide⟩

/-- The array busy, and an entry that defers for seqs 2 to 4. -/
def deferring : State :=
  { busy active with repair := { Repair.reset with
      responders := [⟨0, 1, 2, 4, none, [2, 3, 4], 0, .deferring⟩,
        ⟨2, 1, 2, 4, some (1, 2), [], 0, .deferring⟩] } }

theorem witness_DeferEnds :
    deferring.Served ∧
    deferring.repair.responder? 0 1 = some ⟨0, 1, 2, 4, none, [2, 3, 4], 0, .deferring⟩ ∧
    deferring.segments.firstStored 1 [2, 3, 4] = some ([3, 4], 0, ⟨5, 1, 0, 18, .data, 1, 3⟩) ∧
    deferring.array.activity ≠ .idle ∧
    deferring.repair.responder? 2 1 = some ⟨2, 1, 2, 4, some (1, 2), [], 0, .deferring⟩ :=
  ⟨(by intro h; cases h), by decide, by decide, by decide, by decide⟩

theorem witness_DeferEnds_reads :
    let s := { deferring with array := { deferring.array with
      activity := .read (.fetch ⟨0, 1, 2, 0, 1, 0, 17⟩ .withdrawn) } }
    s.Served ∧ s.repair.responder? 0 1 = some ⟨0, 1, 2, 4, none, [2, 3, 4], 0, .deferring⟩ ∧
    ∃ c : FetchClaim, s.array.activity = .read (.fetch c .withdrawn) ∧ c.requester = 0 ∧ c.origin = 1 :=
  ⟨(by intro h; cases h), by decide, _, rfl, rfl, rfl⟩

theorem witness_RecordProgrammed :
    programming.array.activity = .program .record ∧
    programming.writer.jobs = ⟨.release 5, .release⟩ :: [] ∧
    programming.writer.place = some ⟨7, 0, 1, 36⟩ ∧ programming.flash.wf = true ∧
    36 + ((JobBody.release 5).bytes 7).length ≤ 256 ∧ programming.array.programClaim = none ∧
    programming.segments.table[0]? = some ⟨.opened used (.place 1 36) 0, 7, false⟩ := by decide +kernel

theorem witness_RecordProgrammed_handsOn :
    let s := { programmingData with
      array := { programmingData.array with context := some ⟨1, false, false, false, false⟩ } }
    (s.array.activity = .program .record ∧ s.array.programClaim = none ∧ s.array.context ≠ none ∧
      s.writer.jobs = ⟨.data 0 1 3 [7] 9, .append⟩ :: [] ∧ s.writer.place = some ⟨7, 0, 1, 36⟩ ∧
      36 + ((JobBody.data 0 1 3 [7] 9).bytes 7).length ≤ 256) ∧
    (⟨.data 1 1 4 [7] 9, .commit⟩ : Job).source = .commit ∧
    (due.submission.entry? 4).map (·.seq) = some 4 ∧
    (36 + ((JobBody.hole 2 3 5).bytes 7).length ≤ 256 ∧
      (∀ sl : SeekSlot, some sl ∈ s.repair.slots → sl.state ≠ .declaring) ∧
      (⟨2, 3, 5⟩ : Run) ∉ [(⟨2, 3, 5⟩ : Run)].filter (fun r => r ≠ ⟨2, 3, 5⟩)) ∧
    5 < programming.writer.releaseMark := by
  refine ⟨by decide +kernel, rfl, by decide, ⟨by decide +kernel, ?_, by decide⟩, by decide⟩
  intro sl h
  simp [programmingData, programming, active, enlisted, mounted, State.reset, Repair.reset] at h

theorem witness_RecordProgramFails :
    programming.array.activity = .program .record ∧
    programming.writer.jobs = ⟨.release 5, .release⟩ :: [] ∧
    programming.writer.place = some ⟨7, 0, 1, 36⟩ ∧
    programming.segments.open? = some (0, used, .place 1 36, 0) ∧ 1 < 255 ∧
    programming.segments.full = false ∧ programming.array.programClaim = none ∧
    (JobBody.release 5).size ≤ 256 := by decide +kernel

/-- The erase of segment 1 in hand, as the record program goes on at a page, with some failures before. -/
def programmingAt (page faults : Nat) (u : InUse) : State :=
  { programming with
    writer := { programming.writer with place := some ⟨7, 0, page, 0⟩ }
    segments := { programming.segments with table :=
      [⟨.opened u (.place page 0) faults, 7, false⟩, ⟨.erasing, 2, false⟩, ⟨.erased, 1, false⟩] }
    array := { programming.array with context := some ⟨1, false, true, true, false⟩ } }

theorem witness_RecordProgramFails_sealed :
    let s := programmingAt 255 0 used
    s.array.activity = .program .record ∧ s.writer.jobs = ⟨.release 5, .release⟩ :: [] ∧
    s.writer.place = some ⟨7, 0, 255, 0⟩ ∧ s.segments.open? = some (0, used, .place 255 0, 0) ∧
    s.segments.table[0]? = some ⟨.opened used (.place 255 0) 0, 7, false⟩ ∧ 255 ≤ 255 ∧
    s.segments.full = false ∧ s.array.programClaim = none ∧ s.array.context ≠ none := by decide

theorem witness_RecordProgramFails_second :
    (let s := programmingAt 3 1 used;
      s.segments.table[0]? = some ⟨.opened used (.place 3 0) (0 + 1), 7, false⟩ ∧
      s.array.programClaim = none ∧ s.array.context ≠ none ∧ 1 ≤ used.count ∧ s.raised = [] ∧
      s.port.notices.length ≤ 14) ∧
    let none := { used with count := 0 }
    (programmingAt 3 1 none).segments.table[0]? = some ⟨.opened none (.place 3 0) (0 + 1), 7, false⟩ ∧
      ¬ 1 ≤ none.count := by decide

/-- R30, R51: a segment that holds records is sealed FAULTY, with its retire flag. -/
theorem test_recordProgramFailure_second :
    let t := after (.recordProgramCompletion .failed) (programmingAt 3 1 used)
    t.segments.table.head? = some ⟨.faulty used, 7, true⟩ ∧ t.port.notices = [.media 0 false] := by
  decide +kernel

theorem witness_HeaderProgrammed :
    let s := { active with array := { ArrayEngine.reset with activity := .program (.header 0) } }
    s.array.activity = .program (.header 0) ∧
    s.segments.table[0]? = some ⟨.opened used (.place 1 36) 0, 7, false⟩ ∧ s.flash.wf = true ∧
    used.floor.length = 16 ∧ s.array.programClaim = none := by decide +kernel

theorem witness_HostReadCompletes :
    let c : HostClaim := ⟨0, 1, 0, 17, none⟩
    let s := reading (.host c)
    s.array.activity = .read (.host c) ∧ s.port.slot = .pending (.record 1 3) ∧
    checkGood (s.delivered c.segment c.page c.offset c.size (some dataBytes)) = true ∧
    checkGood (s.delivered c.segment c.page c.offset c.size none) = false := by decide +kernel

/-- The bytes of a HOLE record of origin 2, seqs 3 to 5. -/
def holeBytes : List Byte := (JobBody.hole 2 3 5).bytes 5

theorem witness_HostReadCompletes_hole :
    let s := reading (.host ⟨0, 1, 0, 20, some 5⟩)
    checkGood (s.delivered 0 1 0 20 (some holeBytes)) = true ∧
    5 ≤ (frontWord (holeBytes.drop 12)).toNat ∧ ¬ 6 ≤ (frontWord (holeBytes.drop 12)).toNat := by
  decide +kernel

theorem witness_FetchCompletes :
    let c : FetchClaim := ⟨0, 1, 3, 0, 1, 0, 17⟩
    let s := { reading (.fetch c .wanted) with repair := { Repair.reset with
      responders := [⟨0, 1, 3, 3, none, [3], 0, .fetching⟩] } }
    s.array.activity = .read (.fetch c .wanted) ∧ s.array.fetchClaims = [] ∧
    s.repair.responder? 0 1 = some ⟨0, 1, 3, 3, none, [3], 0, .fetching⟩ ∧
    checkGood (s.delivered 0 1 0 17 (some dataBytes)) = true ∧
    checkGood (s.delivered 0 1 0 17 none) = false := by decide +kernel

theorem witness_FetchCompletes_withdrawn :
    let c : FetchClaim := ⟨0, 1, 2, 0, 1, 0, 17⟩
    let s := { reading (.fetch c .withdrawn) with repair := { Repair.reset with
      responders := [⟨0, 1, 3, 4, none, [3, 4], 0, .fetching⟩] } }
    s.array.activity = .read (.fetch c .withdrawn) ∧ s.array.fetchClaims = [] ∧
    s.repair.responder? 0 1 = some ⟨0, 1, 3, 4, none, [3, 4], 0, .fetching⟩ ∧
    s.segments.firstDirty = none ∧ 2 ≤ s.segments.erasedCount ∧
    s.segments.firstStored 1 [3, 4] = some ([3, 4], 0, ⟨5, 1, 0, 18, .data, 1, 3⟩) := by decide +kernel

theorem witness_MountScans :
    (State.reset.mode = .mounting ∧ State.reset.scan = some Scan.reset ∧ Scan.reset.step = .headers 0) ∧
    ((scanning (.blankChecks 4) [.blankPage]).scan = some ⟨.blankChecks 4, [.blankPage], [], []⟩ ∧
      ([Found.blankPage].set 4 .blank).findIdx? (fun f => decide (f = .blankPage)) = some 0) ∧ 62 < 63 := by
  decide

/-- A segment whose page 1 holds one record, at position 5, and whose page 2 is blank. -/
def scanned : State :=
  { scanning (.records ⟨0, 7, 5, List.replicate 16 2, [], false, false⟩ 1) [] with
    flash := Flash.program ⟨[], []⟩ (flashAddress 0 1 0) dataBytes }

theorem witness_MountScans_records :
    scanned.mode = .mounting ∧
    scanned.scan = some ⟨.records ⟨0, 7, 5, List.replicate 16 2, [], false, false⟩ 1, [], [], []⟩ ∧
    (scanned.flash.extend ⟨0, 7, 5, List.replicate 16 2, [], false, false⟩ 1).2 = true ∧
    (scanned.flash.extend ⟨0, 7, 5, List.replicate 16 2, [], false, false⟩ 2).2 = false := by
  decide +kernel

/-- A valid header in segment 0. -/
def headed : Flash := Flash.program ⟨[], []⟩ 0 (headerBytes 7 5 (List.replicate 16 2))

theorem witness_MountScans_header :
    headed.wf = true ∧ (∀ d ∈ headed.damage, d.segmentOf ≠ 0) ∧
    headed.read (0 * 65536) 80 = headerBytes 7 5 (List.replicate 16 2) ∧
    (∀ v ∈ List.replicate 16 2, v ≤ 0xFFFFFFFF) ∧
    (∀ i < 256, Flash.readByte ⟨[], []⟩ (63 * 65536 + i) = 0xFF) :=
  have length : (headerBytes 7 5 (List.replicate 16 2)).length = 80 := by decide +kernel
  ⟨Flash.program_wf rfl _ _, fun _ h => (by cases h),
    length ▸ Flash.read_program rfl 0 (headerBytes 7 5 (List.replicate 16 2)) (by decide +kernel),
    by decide, fun _ _ => rfl⟩

theorem witness_MountScans_badHeader :
    let f : Flash := ⟨[(79, 0x00)], []⟩
    f.wf = true ∧ f.readByte (0 * 65536 + 79) ≠ 0xFF ∧
    frontWord (f.read (0 * 65536) 80) ≠ 0xA55A0F41 := by decide +kernel

theorem witness_MountScans_accepted :
    let x : Extent := ⟨0, 7, 5, List.replicate 16 2, [], false, false⟩
    let bodies : List JobBody := [.data 1 9 3 [7] (checkOf 1 9 3 7)]
    (∀ b ∈ bodies, b.Storable) ∧ bodies ≠ [] ∧ x.expected + bodies.length ≤ 0xFFFFFFFF ∧
    scanned.flash.read ((x.segment * 256 + 1) * 256) 256
      = (bodies.zipIdx.flatMap fun b => b.1.bytes (x.expected + b.2)) ++ List.replicate 239 0xFF ∧
    (List.replicate 239 (0xFF : Byte)).head? = some 0xFF ∧
    ∀ offset, scanned.flash.spoiledAt x.segment 1 offset = false := by
  refine ⟨fun b h => ?_, by decide, by decide, ?_, rfl, fun _ => rfl⟩
  · obtain rfl := List.mem_singleton.mp h
    exact ⟨by decide, by decide, by decide, by decide, rfl⟩
  · refine (Flash.read_add scanned.flash 256 17 239).trans (congrArg₂ (· ++ ·) ?_ ?_)
    · exact Flash.read_program rfl 256 dataBytes (by decide +kernel)
    · exact (Flash.read_program_other rfl 256 dataBytes (by decide +kernel) 273 239
        (.inr (by decide +kernel))).trans (Flash.read_blank _ _ _)

theorem witness_MountScans_ended :
    let f : Flash := ⟨[(512, 0x04), (768, 0x01), (771, 201), (1024, 0x02), (1027, 5)], [.record 0 5 0]⟩
    (∀ k, k < 2 → (f.read ((k * 256 + 1) * 256) 256).head? = some 0xFF ∧ f.spoiledAt k 1 0 = false) ∧
    (let b := f.read ((0 * 256 + 2) * 256) 256;
      b.head? ≠ some 0xFF ∧ b.head? ≠ some 0x01 ∧ b.head? ≠ some 0x02 ∧ b.head? ≠ some 0x03) ∧
    (let b := f.read ((0 * 256 + 3) * 256) 256;
      b.head? = some 0x01 ∧ ¬ (1 ≤ (b.getD 3 0).toNat ∧ (b.getD 3 0).toNat ≤ 200)) ∧
    (let b := f.read ((0 * 256 + 4) * 256) 256;
      b.head? = some 0x02 ∧ (b.getD 3 0).toNat ≠ 4) ∧
    f.spoiledAt 0 5 0 = true := by decide +kernel

theorem witness_MountCompletes :
    let f := (List.replicate 62 Found.blank) ++ [.notBlank, .blankPage]
    (scanning (.blankChecks 63) f).mode = .mounting ∧
    (scanning (.blankChecks 63) f).scan = some ⟨.blankChecks 63, f, [], []⟩ ∧ f.length = 64 ∧
    (∀ x ∈ f.set 63 (if State.reset.flash.segmentBlank 63 then .blank else .notBlank),
      x = .blank ∨ x = .notBlank ∨ x = .badHeader) := by decide +kernel

theorem witness_MountCompletes_records :
    let s := { scanned with
      scan := some ⟨.records ⟨0, 7, 5, List.replicate 16 2, [], false, false⟩ 2, [], [], []⟩ }
    s.mode = .mounting ∧
    s.scan = some ⟨.records ⟨0, 7, 5, List.replicate 16 2, [], false, false⟩ 2, [], [], []⟩ ∧
    (s.flash.extend ⟨0, 7, 5, List.replicate 16 2, [], false, false⟩ 2).2 = false := by decide +kernel

/-- Two chained extents, of one record at position 4 and of one at position 5, the second being read. -/
def chained : State :=
  let r : Scanned := ⟨⟨4, 1, 0, 17, .data, 1, 3⟩, 3, 0⟩
  { scanned with scan := some ⟨.records ⟨0, 7, 5, List.replicate 16 2,
      [⟨⟨5, 1, 0, 17, .data, 1, 4⟩, 4, 0⟩], false, false⟩ 2,
    .header 7 5 [] :: .header 6 4 [] :: List.replicate 62 .blank, [],
    [⟨1, 6, 4, List.replicate 16 2, [r], false, false⟩]⟩ }

theorem witness_MountCompletes_chained :
    let x : Extent := ⟨0, 7, 5, List.replicate 16 2, [⟨⟨5, 1, 0, 17, .data, 1, 4⟩, 4, 0⟩], false, false⟩
    let y : Extent := ⟨1, 6, 4, List.replicate 16 2, [⟨⟨4, 1, 0, 17, .data, 1, 3⟩, 3, 0⟩], false, false⟩
    chained.mode = .mounting ∧ chained.scan.map (·.step) = some (.records x 2) ∧
    chained.scan.map (·.todo) = some [] ∧ chained.scan.map (·.extents) = some [y] ∧
    chained.flash.extend x 2 = (x, false) ∧ y.records ≠ [] ∧ x.records ≠ [] ∧
    x.firstPosition = y.firstPosition + y.records.length ∧ y.segment ≠ x.segment ∧
    chained.scan.map (·.found.length) = some 64 ∧ chained.array.programClaim = none ∧
    chained.writer.jobs = [] := by decide +kernel

theorem witness_EraseCompletes :
    erasing.array.activity = .erase ∧ erasing.array.context = some ⟨0, true, true, false, false⟩ ∧
    erasing.segments.table[0]? = some ⟨.erasing, 7, false⟩ ∧ erasing.array.programClaim = none ∧
    erasing.formatNext = none := by decide

/-- FORMAT's erase of segment 0 in progress. -/
def formatting : State := { erasing with mode := .formatting, formatNext := some 1 }

theorem witness_EraseCompletes_format :
    formatting.mode = .formatting ∧ formatting.formatNext = some 1 ∧ formatting.array.demand = false ∧
    formatting.writer.jobs = [] ∧ formatting.array.programClaim = none ∧
    (formatting.segments.table.set 0 ⟨.erased, 8, false⟩)[1]? = some ⟨.erased, 2, false⟩ ∧
    (formatting.segments.table.set 0 ⟨.erased, 8, false⟩)[3]? = none := by decide

/-- R178: the next segment is erased at once. -/
theorem test_eraseCompletion_format :
    (after (.eraseCompletion .good) formatting).array.context = some ⟨1, true, true, false, false⟩ ∧
    (after (.eraseCompletion .good) { formatting with formatNext := some 3 }).mode = .unenlisted := by
  decide +kernel

theorem witness_EraseSuspends :
    (erasing.array.context = some ⟨0, true, true, false, false⟩ ∧ erasing.array.activity = .erase ∧
      erasing.array.demand = false ∧
      { erasing.array with programClaim := some .record }.demand = true) ∧
    let s := { erasing with array := { erasing.array with activity := .suspending } }
    s.array.demand = false ∧ s.writer.jobs = [] ∧ s.tracker.excess = [] ∧ s.array.hostClaim = none := by
  decide

theorem witness_EraseSuspends_request :
    ({ erasing.array with hostClaim := some ⟨0, 1, 0, 18, none⟩ }.demand = true ∧
      (⟨0, true, true, true, false⟩ : EraseContext).minimumReached = true ∧
      (⟨0, true, true, false, false⟩ : EraseContext).minimumReached = false) ∧
    erasing.array.activity = .erase ∧ erasing.array.demand = false := by decide

theorem witness_EraseSuspends_serves :
    let s := { active with array := { ArrayEngine.reset with
      activity := .suspending, context := some ⟨2, true, true, true, false⟩ } }
    (s.array.activity = .suspending ∧ (s.segments.use? 0).isSome = true) ∧
    s.segments.table[1]? = some ⟨.erased, 2, false⟩ ∧ s.writer.jobs = [] ∧ s.tracker.excess = [] ∧
    s.array.hostClaim = none ∧ s.array.programClaim = none ∧
    { s.array with programClaim := some (.header 1) }.programClaim = some (.header 1) ∧
    { s.array with fetchClaims := [⟨0, 1, 3, 0, 1, 0, 18⟩] }.fetchClaims
      = ⟨0, 1, 3, 0, 1, 0, 18⟩ :: [] := by decide

theorem witness_ClaimsServedInOrder :
    active.array.activity = .idle ∧ (active.segments.use? 0).isSome = true ∧
    { active.array with hostClaim := some ⟨0, 1, 0, 18, none⟩ }.hostClaim = some ⟨0, 1, 0, 18, none⟩ ∧
    { active.array with context := some ⟨1, false, false, false, false⟩ }.context
      = some ⟨1, false, false, false, false⟩ ∧
    (⟨1, false, false, false, false⟩ : EraseContext).running = false ∧ active.array.hostClaim = none ∧
    active.array.programClaim = none ∧ active.array.fetchClaims = [] := by decide

/-- The ACTIVE station with a RELEASE job to place and a cursor in its OPEN segment. -/
def placing (cursor : Cursor) : State :=
  { active with
    writer := { active.writer with jobs := [⟨.release 5, .release⟩] }
    segments := { active.segments with
      table := active.segments.table.set 0 ⟨.opened used cursor 0, 7, false⟩ } }

theorem witness_ClaimsServedInOrder_place :
    ((placing (.place 1 236)).array.programBusy = false ∧ (placing (.place 1 236)).segments.full = false ∧
      (placing (.place 1 236)).segments.open? = some (0, used, .place 1 236, 0) ∧
      236 + (JobBody.release 5).size ≤ 256) ∧
    ((placing (.place 254 237)).segments.open? = some (0, used, .place 254 237, 0) ∧
      256 < 237 + (JobBody.release 5).size ∧ 254 < 255) ∧
    { active.segments with full := true }.full = true := by decide

theorem witness_ClaimsServedInOrder_room :
    (placing (.place 255 237)).segments.open? = some (0, used, .place 255 237, 0) ∧
    (placing .past).segments.open? = some (0, used, .past, 0) ∧
    (let table := (placing .past).segments.table.modify 0 fun e => { e with state := .sealed used };
      table[2]? = some ⟨.erased, 1, false⟩ ∧
      ∀ i x, table[i]? = some x → x.state = .erased →
        (1 : Word).toNat < x.generation.toNat ∨ (1 : Word) = x.generation ∧ 2 ≤ i) ∧
    ∀ e ∈ [(⟨.sealed used, 7, false⟩ : Segment), ⟨.erasing, 2, false⟩], e.state ≠ .erased := by
  refine ⟨by decide, by decide, ⟨by decide, ?_⟩, by decide⟩
  intro i x h e
  match i with
  | 0 => cases h; cases e
  | 1 => cases h; exact .inl (by decide)
  | 2 => cases h; exact .inr ⟨rfl, by decide⟩
  | i + 3 => cases h

/-- R48, R49, R50: no room on page 255: the segment is sealed and the ERASED one of the lowest
generation is opened. -/
theorem test_placeHead_room :
    let t := (placing (.place 255 237)).placeHead
    t.segments.table.head?.map (·.state) = some (.sealed used) ∧
    t.array.programClaim = some (.header 2) := by decide

theorem witness_ClaimsServedInOrder_refused :
    active.array.activity = .idle ∧ active.segments.use? 1 = none ∧
    (reading (.host ⟨1, 1, 0, 18, none⟩)).port.slot = .pending (.record 1 3) ∧
    (let e : Responder := ⟨0, 1, 2, 4, none, [2, 3, 4], 0, .fetching⟩;
      let s := { active with
        repair := { Repair.reset with responders := [e] }
        array := { ArrayEngine.reset with fetchClaims := [⟨0, 1, 2, 1, 1, 0, 18⟩] } };
      s.array.hostClaim = none ∧ s.array.programClaim = none ∧ s.repair.responder? 0 1 = some e ∧
      s.segments.firstStored 1 (e.list.filter (· ≠ 2)) = some ([3, 4], 0, ⟨5, 1, 0, 18, .data, 1, 3⟩)) := by
  decide

theorem witness_HeldThroughAdvances :
    let t := (lacking .following 0).tracker
    (t.holding 0).through ≤ (t.holding 0).accepted ∧ (∀ r ∈ t.gaps, r.first ≤ r.last) ∧
    (∀ r ∈ t.excess, r.first ≤ r.last) ∧ (∀ a b c, .hole a b c ∈ t.pending → b ≤ c) :=
  ⟨by decide, by decide, by decide, fun _ _ _ h => by cases h⟩

theorem witness_ConfirmationTest :
    1 ≤ due.replicationTarget ∧ due.submission.nextSeq = some 5 ∧
    due.submission.entry? 4 = some ⟨0, 4, 1, [7], 8, .sending, 0, false⟩ ∧
    { due with enlistment := some ⟨1, 3, 0, .kbit1000, 5⟩ }.replicationTarget = 0 := by decide

theorem witness_ReclaimConditions :
    let s := { reclaiming with presence := { reclaiming.presence with
      peers := reclaiming.presence.peers.set 2 ⟨.absent, false, [31, 61, 39], false, false⟩ } }
    s.array.context = none ∧ s.segments.firstDirty = none ∧ s.scheduleErase ≠ s :=
  ⟨rfl, by decide, fun h => absurd (congrArg (·.array.context) h) (by decide +kernel)⟩

theorem witness_ReclaimConditions_dirty :
    let s := { active with segments := { active.segments with table :=
      [⟨.retired, 1, false⟩, ⟨.dirty, 2, false⟩, ⟨.dirty, 3, false⟩] } }
    s.array.context = none ∧ s.segments.table[1]? = some ⟨.dirty, 2, false⟩ ∧ s.mode = .active ∧
    ∀ i x, i < 1 → s.segments.table[i]? = some x → x.state ≠ .dirty :=
  ⟨rfl, rfl, rfl, fun i x h e => by
    obtain rfl : i = 0 := by omega
    cases e; decide⟩

theorem witness_StepKeepsLimits :
    { lacking .following 1 with pending := [.gapEnd] }.LimitsOk ∧
    Machine.step { lacking .following 1 with pending := [.gapEnd] } = .next (lacking .following 1) :=
  ⟨⟨by decide, by decide, by decide, by decide, by decide, by decide, by decide⟩, rfl⟩

theorem witness_StepKeepsNotices :
    showing.NoticesOk ∧ Machine.step { showing with pending := [.hold false] } = .next showing :=
  ⟨⟨by decide, by decide, by decide⟩, rfl⟩

theorem witness_StepKeepsHoldings :
    Machine.step { active with pending := [.startBitSeen] } = .next hearing ∧ active.TrackingOk ∧
    active.PeersOk := ⟨rfl, active_tracking, active_peers⟩

theorem witness_StepKeepsFlash :
    Machine.step { active with pending := [.startBitSeen] } = .next hearing ∧ active.flash.wf = true ∧
    Instr.touchesFlash .startBitSeen = false := ⟨rfl, rfl, rfl⟩

theorem witness_ModeChangesByTable : active.FormatOk ∧ exec .startBitSeen active = .next hearing :=
  ⟨(by intro h; cases h), rfl⟩

theorem witness_ReleaseMarkRises :
    Instr.lowersMark .startBitSeen = false ∧ exec .startBitSeen active = .next hearing := ⟨rfl, rfl⟩

theorem witness_FrameRoundTrip :
    let f : Machine.Frame := .append 15 3 1 [7] (checkOf 15 1 3 7)
    16 ≤ 16 ∧ f.fieldsGood 16 = true ∧ f.body.length ≤ 255 := by decide +kernel

theorem witness_SelectionRoundTrip :
    (Instr.submit 5 [1, 2] .whole).wellFormed = true ∧
    encodeSelection (.submit 5 [1, 2] .whole) = some [0xA4, 5, 2, 1, 2] := by decide

end Sys2Proof.Tests
end

/-! ## Flash and the release mark through every command (R9, R18, R22, R52) -/

namespace Sys2Proof.Machine

/-- Flash and the release mark are as they were. -/
structure State.KeepsJournal (s t : State) : Prop where
  flash : t.flash = s.flash
  mark : t.writer.releaseMark = s.writer.releaseMark

theorem State.KeepsJournal.refl (s : State) : s.KeepsJournal s := ⟨rfl, rfl⟩

theorem State.KeepsJournal.trans {s t u : State} (a : s.KeepsJournal t) (b : t.KeepsJournal u) :
    s.KeepsJournal u := ⟨b.flash.trans a.flash, b.mark.trans a.mark⟩

theorem State.Rests.journal {s t : State} (h : s.Rests t) : s.KeepsJournal t :=
  ⟨h.flash, h.releaseMark⟩

theorem State.Keeps.journal {s t : State} (h : s.Keeps t) : s.KeepsJournal t :=
  ⟨h.flash, h.releaseMark⟩

/-- The end of an event touches neither. -/
theorem State.KeepsJournal.conclude {s t : State} (h : s.KeepsJournal t) : s.KeepsJournal t.conclude :=
  h.trans t.conclude_keeps.journal

/-! ### The Host Port -/

theorem State.KeepsJournal.setPort {s t : State} (h : s.KeepsJournal t) (p : Port) :
    s.KeepsJournal (t.setPort p) := ⟨h.flash, h.mark⟩

/-- A command touches neither when its body does not. -/
theorem State.command_journal (s : State) (c : HostCommand) (m : Moment)
    {body : Completed → State → State} (h : ∀ k (u : State), u.KeepsJournal (body k u)) :
    s.KeepsJournal (s.command c m body) :=
  State.command_inv (.refl s) c m body (fun _ p ht => ht.setPort p) fun k u hu => hu.trans (h k u)

theorem State.takeRead_journal (s : State) (c : HostCommand) (t : Target) (l : Lookup) :
    s.KeepsJournal (s.takeRead c t l) := by
  unfold State.takeRead
  repeat' split
  all_goals exact ⟨rfl, rfl⟩

theorem State.confirmTest_journal (s : State) : s.KeepsJournal s.confirmTest := by
  obtain ⟨q, d, r, h, -, -⟩ := s.confirmTest_form
  rw [h]
  exact ⟨rfl, rfl⟩

theorem State.takeCommit_journal {s t : State} {a : Arrival} (h : s.takeCommit a = some t) :
    s.KeepsJournal t := by
  unfold State.takeCommit at h
  split at h
  · cases h
  · cases h
    exact ⟨rfl, rfl⟩

theorem State.submitTaken_journal (s : State) (a : Arrival) : s.KeepsJournal (s.submitTaken a) := by
  refine .trans ?_ (State.confirmTest_journal _)
  exact ⟨rfl, rfl⟩

theorem State.decideSubmit_journal (s : State) (tag : Byte) (payload : List Byte) :
    s.KeepsJournal (s.decideSubmit tag payload) := by
  unfold State.decideSubmit
  split
  · exact ⟨rfl, rfl⟩
  · split
    · exact ⟨rfl, rfl⟩
    · next h => exact ((State.takeCommit_journal h).trans (State.submitTaken_journal _ _)).conclude

theorem State.enlisted_journal (s : State) (e : Enlistment) : s.KeepsJournal (s.enlisted e) :=
  .conclude ⟨rfl, rfl⟩

theorem State.quieted_journal (s : State) : s.KeepsJournal s.quieted := by
  unfold State.quieted
  dsimp only
  split <;> exact ⟨rfl, rfl⟩

theorem State.woken_journal (s : State) : s.KeepsJournal s.woken := by
  have enter (t : State) : t.KeepsJournal t.enterJoining := ⟨rfl, rfl⟩
  have test (t : State) (p : Presence) : t.KeepsJournal (t.setPresence p).confirmTest :=
    .trans (t := t.setPresence p) ⟨rfl, rfl⟩ (State.confirmTest_journal _)
  unfold State.woken
  refine .conclude (.trans (.trans ?_ (test _ _)) (enter _))
  split <;> exact ⟨rfl, rfl⟩

theorem State.formatStep_journal (s : State) (k : Nat) : s.KeepsJournal (s.formatStep k) := by
  unfold State.formatStep
  split <;> exact ⟨rfl, rfl⟩

/-- FORMAT clears the release mark; it erases segment by segment, each at its own completion. -/
theorem State.formatted_flash (s : State) : s.formatted.flash = s.flash := by
  unfold State.formatted
  dsimp only
  rw [(State.conclude_keeps _).flash]
  split
  · rfl
  · exact (State.formatStep_journal _ _).flash

/-- RELEASE alone raises the mark (R52). -/
theorem State.releaseTo_flash_mark (s : State) (position : Nat) :
    (s.releaseTo position).flash = s.flash ∧
      s.writer.releaseMark ≤ (s.releaseTo position).writer.releaseMark := by
  unfold State.releaseTo
  split
  · exact ⟨rfl, le_rfl⟩
  · split
    · exact ⟨rfl, le_rfl⟩
    · next h =>
      have kept := ((State.queueRelease_keeps _ position).trans (State.conclude_keeps
        (State.queueRelease ((s.answer .ok HostCommand.release.code).setWriter
          { (s.answer .ok HostCommand.release.code).writer with releaseMark := position })
          position))).journal
      exact ⟨kept.flash, by rw [kept.mark]; exact (Nat.lt_of_not_le h).le⟩

theorem execUnknownCode_journal (s : State) (code : Byte) (m : Moment) :
    ∃ t, execUnknownCode code s m = .next t ∧ s.KeepsJournal t := by
  refine ⟨_, rfl, ?_⟩
  split
  · exact .refl s
  · refine State.select_inv (.refl s) m _ _ _ (fun _ p ht => ht.setPort p) fun k u hu => ?_
    unfold State.refuseUnknown
    split
    all_goals exact ⟨hu.flash, hu.mark⟩

theorem execCommandDiscarded_journal (s : State) (how : Discard) :
    ∃ t, execCommandDiscarded how s = .next t ∧ s.KeepsJournal t := by
  refine ⟨_, rfl, ?_⟩
  dsimp only
  repeat' split
  all_goals exact ⟨rfl, rfl⟩

/-! ### Frames and the line -/

theorem State.hearFrame_journal (s : State) (f : Machine.Frame) {g : State → State}
    (h : ∀ u : State, u.KeepsJournal (g u)) : s.KeepsJournal (s.hearFrame f g) := by
  unfold State.hearFrame
  split
  · split
    · exact .conclude (.trans (t := s.setFramer .gap) ⟨rfl, rfl⟩ (h _))
    · exact ⟨rfl, rfl⟩
  · exact .refl s

theorem State.takeHeld_journal (s : State) (p origin value : Nat) :
    s.KeepsJournal (s.takeHeld p origin value) :=
  ((s.hearPeer_rests _ _).trans (State.mergePeer_rests _ _ _)).trans (State.learn_rests _ _ _) |>.journal

theorem State.takePresence_journal (s : State) (p : Nat) (quieting full : Bool) (vector : List Word) :
    s.KeepsJournal (s.takePresence p quieting full vector) :=
  ((s.hearPeer_rests _ _).trans (State.mergePeer_rests _ _ _)).trans (State.learnAll_rests _ _ _)
    |>.journal

theorem State.takeCopy_journal (s : State) (a : Arrival) : s.KeepsJournal (s.takeCopy a) := by
  refine .trans (.trans (s.arrive_rests a).journal ?_) (State.cancelRefill_keeps _ _ _).journal
  split
  · exact (State.narrowOrigin_keeps _ _).journal
  · exact .refl _

theorem State.takeGone_journal (s : State) (origin first last : Nat) :
    s.KeepsJournal (s.takeGone origin first last) :=
  ((s.learn_rests _ _).journal.trans (State.declareGone_keeps _ _ _ _).journal).trans
    (State.cancelRefill_keeps _ _ _).journal

theorem State.moveFramer_journal (s : State) (a b : Framer) : s.KeepsJournal (s.moveFramer a b) := by
  unfold State.moveFramer
  split <;> exact ⟨rfl, rfl⟩

theorem State.enterMuted_journal (s : State) : s.KeepsJournal s.enterMuted := by
  unfold State.enterMuted
  refine .trans ?_ (State.flush_keeps _).journal
  dsimp only
  split <;> exact ⟨rfl, rfl⟩

theorem State.appendSent_journal (s : State) (seq : Nat) : s.KeepsJournal (s.appendSent seq) := by
  unfold State.appendSent
  repeat' split
  all_goals exact ⟨rfl, rfl⟩

theorem State.copySent_journal (s : State) (q o seq : Nat) : s.KeepsJournal (s.copySent q o seq) := by
  unfold State.copySent
  repeat' split
  · exact .refl s
  · exact (s.skipSeq_keeps _ _ _).journal
  · exact .refl s

theorem State.goneSent_journal (s : State) (q o : Nat) : s.KeepsJournal (s.goneSent q o) := by
  unfold State.goneSent
  split
  · exact .refl s
  · exact ((s.changeResponder_keeps _ _ _).trans (State.takeNext_keeps _ _ _)).journal

/-! ### Timers -/

theorem State.silenceExpired_journal (l : List Nat) (s : State) :
    s.KeepsJournal (l.foldl State.silenceExpired s) :=
  foldl_rel .refl .trans (fun _ _ => ⟨rfl, rfl⟩) l s

theorem State.unanswered_journal (s : State) (e : Entry) : s.KeepsJournal (s.unanswered e) := by
  unfold State.unanswered
  split <;> exact ⟨rfl, rfl⟩

theorem State.waitedOut_journal (s : State) (i : Nat) (sl : SeekSlot) :
    s.KeepsJournal (s.waitedOut i sl) := by
  unfold State.waitedOut State.attempted
  split
  · exact (s.setSlot_keeps _ _).journal
  · repeat' split
    · exact (s.setSlot_keeps _ _).journal
    · exact (s.setSlot_keeps _ _).journal
    · exact ((s.setSlot_keeps _ _).trans (declareSlot_keeps _ _ _)).journal

theorem State.deferred_journal (s : State) (e : Responder) : s.KeepsJournal (s.deferred e) := by
  unfold State.deferred
  split
  · exact (s.changeResponder_keeps _ _ _).journal
  · exact (s.takeNext_keeps _ _).journal

/-! ### The array's reads and the erase's suspension -/

theorem State.hostReadDone_journal (s : State) (c : HostClaim) (bytes : List Byte) :
    s.KeepsJournal (s.hostReadDone c bytes) := by
  unfold State.hostReadDone
  split <;> exact ⟨rfl, rfl⟩

theorem State.fetchDone_journal (s : State) (c : FetchClaim) (bytes : List Byte) :
    s.KeepsJournal (s.fetchDone c bytes) := by
  unfold State.fetchDone
  split
  · exact (s.changeResponder_keeps _ _ _).journal
  · exact (s.skipSeq_keeps _ _ _).journal

theorem State.fetchDropped_journal (s : State) (q o : Nat) : s.KeepsJournal (s.fetchDropped q o) := by
  unfold State.fetchDropped
  repeat' split
  · exact (s.takeNext_keeps _ _).journal
  · exact .refl s
  · exact .refl s

theorem execFetchCompletion_journal (s : State) (flaw : Option (List Byte)) :
    ∃ t, execFetchCompletion flaw s = .next t ∧ s.KeepsJournal t := by
  have idle : s.KeepsJournal s.arrayIdle := ⟨rfl, rfl⟩
  refine ⟨_, rfl, ?_⟩
  split
  · refine .conclude ?_
    split
    · exact idle.trans (State.fetchDone_journal _ _ _)
    · exact idle.trans (State.fetchDropped_journal _ _ _)
    · exact idle
  · exact .refl s

theorem execHostReadCompletion_journal (s : State) (flaw : Option (List Byte)) :
    ∃ t, execHostReadCompletion flaw s = .next t ∧ s.KeepsJournal t := by
  refine ⟨_, rfl, ?_⟩
  split
  · exact .conclude (.trans (t := s.arrayIdle) ⟨rfl, rfl⟩ (State.hostReadDone_journal _ _ _))
  · exact .refl s

theorem execResumeMinimumReached_journal (s : State) :
    ∃ t, execResumeMinimumReached s = .next t ∧ s.KeepsJournal t := by
  refine ⟨_, rfl, ?_⟩
  split
  · split
    · exact .refl s
    · exact ((s.setArray_keeps _).trans (State.checkSuspend_keeps _)).journal
  · exact .refl s

theorem execSuspensionCompletion_journal (s : State) :
    ∃ t, execSuspensionCompletion s = .next t ∧ s.KeepsJournal t := by
  refine ⟨_, rfl, ?_⟩
  split
  · exact .conclude ⟨rfl, rfl⟩
  · exact .refl s

/-! ### Programs and erases -/

/-- Flash stays in canonical form, and the release mark as it was. -/
structure State.KeepsForm (s t : State) : Prop where
  wf : s.flash.wf = true → t.flash.wf = true
  mark : t.writer.releaseMark = s.writer.releaseMark

theorem State.KeepsJournal.form {s t : State} (h : s.KeepsJournal t) : s.KeepsForm t :=
  ⟨fun w => by rw [h.flash]; exact w, h.mark⟩

theorem State.KeepsForm.trans {s t u : State} (a : s.KeepsForm t) (b : t.KeepsForm u) :
    s.KeepsForm u := ⟨fun w => b.wf (a.wf w), b.mark.trans a.mark⟩

theorem State.KeepsForm.conclude {s t : State} (h : s.KeepsForm t) : s.KeepsForm t.conclude :=
  h.trans t.conclude_keeps.journal.form

theorem State.trackCompletion_journal (s : State) (j : Job) : s.KeepsJournal (s.trackCompletion j) := by
  obtain ⟨t, h, -⟩ := s.trackCompletion_form j
  rw [h]
  exact ⟨rfl, rfl⟩

theorem State.commitHandOn_journal (s : State) (j : Job) : s.KeepsJournal (s.commitHandOn j) := by
  obtain ⟨q, d, r, h, -, -⟩ := s.commitHandOn_form j
  rw [h]
  exact ⟨rfl, rfl⟩

theorem State.followRelease_keeps (s : State) (body : JobBody) : s.Keeps (s.followRelease body) := by
  unfold State.followRelease
  split
  · split
    · exact s.queueJob_keeps _
    · exact .refl s
  · exact .refl s

theorem State.programmed_form (s : State) (j : Job) (rest : List Job) (p : Place) :
    s.KeepsForm (s.programmed j rest p) := by
  have placed : s.KeepsForm (s.recordPlaced j rest p) :=
    ⟨fun w => Flash.program_wf w _ _, rfl⟩
  have handedOn := ((State.trackCompletion_journal (s.recordPlaced j rest p) j).trans
    (State.commitHandOn_journal _ j)).form
  exact (placed.trans handedOn).trans ((State.followRelease_keeps _ _).trans
    ((State.excessTest_keeps _).trans (State.offerHoles_keeps _))).journal.form

theorem State.recordFailed_form (s : State) (p : Place) : s.KeepsForm (s.recordFailed p) := by
  unfold State.recordFailed
  dsimp only
  split <;> exact ⟨fun w => Flash.spoilRecord_wf w _ _ _, rfl⟩

theorem State.headerWritten_form (s : State) (k : Nat) : s.KeepsForm (s.headerWritten k) := by
  unfold State.headerWritten
  split
  · exact ⟨fun w => Flash.program_wf w _ _, rfl⟩
  · exact (State.KeepsJournal.refl s).form

theorem State.headerFailed_form (s : State) (k : Nat) : s.KeepsForm (s.headerFailed k) :=
  ⟨fun w => Flash.spoilSegment_wf w _ _, rfl⟩

theorem State.eraseDone_form (s : State) (k : Nat) (outcome : EraseOutcome) :
    s.KeepsForm (s.eraseDone k outcome) := by
  unfold State.eraseDone
  dsimp only
  cases outcome
  all_goals dsimp only; split
  · exact ⟨fun w => Flash.eraseSegment_wf w _, rfl⟩
  · exact ⟨fun w => Flash.eraseSegment_wf w _, rfl⟩
  · exact ⟨fun w => Flash.spoilSegment_wf w _ _, rfl⟩
  · exact ⟨fun w => Flash.spoilSegment_wf w _ _, rfl⟩

theorem State.afterErase_journal (s : State) (wasFull : Bool) :
    s.KeepsJournal (s.afterErase wasFull) := by
  unfold State.afterErase
  split
  · exact s.formatStep_journal _
  · split
    · exact (s.excessTest_keeps.trans (State.offerHoles_keeps _)).journal
    · exact .refl s

theorem execRecordProgramCompletion_form (s : State) (outcome : ProgramOutcome) :
    ∃ t, execRecordProgramCompletion outcome s = .next t ∧ s.KeepsForm t := by
  have idle : s.KeepsForm s.arrayIdle := ⟨id, rfl⟩
  refine ⟨_, rfl, ?_⟩
  split
  · split
    · exact .conclude (idle.trans (State.programmed_form _ _ _ _))
    · exact .conclude (idle.trans (State.recordFailed_form _ _))
  · exact ⟨id, rfl⟩

theorem execHeaderProgramCompletion_form (s : State) (outcome : ProgramOutcome) :
    ∃ t, execHeaderProgramCompletion outcome s = .next t ∧ s.KeepsForm t := by
  have idle : s.KeepsForm s.arrayIdle := ⟨id, rfl⟩
  refine ⟨_, rfl, ?_⟩
  split
  · split
    · exact .conclude (idle.trans (State.headerWritten_form _ _))
    · exact .conclude (idle.trans (State.headerFailed_form _ _))
  · exact ⟨id, rfl⟩

theorem execEraseCompletion_form (s : State) (outcome : EraseOutcome) :
    ∃ t, execEraseCompletion outcome s = .next t ∧ s.KeepsForm t := by
  have ended : s.KeepsForm s.eraseEnded := ⟨id, rfl⟩
  refine ⟨_, rfl, ?_⟩
  split
  · exact .conclude (ended.trans ((State.eraseDone_form _ _ _).trans
      (State.afterErase_journal _ _).form))
  · exact ⟨id, rfl⟩

/-! ### Resets, FORMAT and mount -/

theorem State.stationReset_wf {s : State} (h : s.flash.wf = true) (cut : CutShort) :
    (s.stationReset cut).flash.wf = true :=
  Flash.cutErase_wf (Flash.cutProgram_wf h _ _ _) _ _

theorem State.mountDone_flash (s : State) (c : Scan) : (s.mountDone c).flash = s.flash := by
  unfold State.mountDone
  exact (State.conclude_keeps _).flash

theorem State.nextExtent_flash (s : State) (c : Scan) : (s.nextExtent c).flash = s.flash := by
  unfold State.nextExtent
  split
  · exact s.mountDone_flash c
  · rfl

theorem State.nextBlankCheck_flash (s : State) (c : Scan) : (s.nextBlankCheck c).flash = s.flash := by
  unfold State.nextBlankCheck
  split
  · rfl
  · exact s.nextExtent_flash _

theorem execMountReadCompletion_flash (s : State) :
    ∃ t, execMountReadCompletion s = .next t ∧ t.flash = s.flash := by
  refine ⟨_, rfl, ?_⟩
  repeat' split
  · unfold State.headerRead
    dsimp only
    split
    · rfl
    · exact s.nextBlankCheck_flash _
  · unfold State.pageRead
    dsimp only
    split
    · rfl
    · exact s.nextExtent_flash _
  · rfl
  · rfl

theorem execBlankCheckCompletion_flash (s : State) :
    ∃ t, execBlankCheckCompletion s = .next t ∧ t.flash = s.flash := by
  refine ⟨_, rfl, ?_⟩
  split
  · split
    · exact s.nextBlankCheck_flash _
    · rfl
    · rfl
  · rfl

/-- FORMAT leaves flash at its own event: the erases follow, each with its completion. -/
theorem execFormat_flash (s : State) (m : Moment) :
    ∃ t, execFormat s m = .next t ∧ t.flash = s.flash := by
  refine ⟨_, rfl, ?_⟩
  refine State.command_inv (P := fun u => u.flash = s.flash) rfl .format m _ (fun _ _ h => h) ?_
  intro k u hu
  split
  · exact hu
  · exact hu
  · exact u.formatted_flash.trans hu

theorem execRelease_flash_mark (position : Word) (s : State) (m : Moment) :
    ∃ t, execRelease position s m = .next t ∧
      t.flash = s.flash ∧ s.writer.releaseMark ≤ t.writer.releaseMark := by
  refine ⟨_, rfl, ?_⟩
  refine State.command_inv
    (P := fun u => u.flash = s.flash ∧ s.writer.releaseMark ≤ u.writer.releaseMark)
    ⟨rfl, le_rfl⟩ .release m _ (fun _ _ h => h) ?_
  rintro k u ⟨hf, hm⟩
  obtain ⟨hf', hm'⟩ := u.releaseTo_flash_mark position.toNat
  exact ⟨hf'.trans hf, hm.trans hm'⟩

theorem execStationReset_wf {s : State} (h : s.flash.wf = true) (cut : CutShort) :
    ∃ t, execStationReset cut s = .next t ∧ t.flash.wf = true :=
  ⟨_, rfl, State.stationReset_wf h cut⟩

theorem execReset_wf {s : State} (h : s.flash.wf = true) (cut : CutShort) (m : Moment) :
    ∃ t, execReset cut s m = .next t ∧ t.flash.wf = true :=
  ⟨_, rfl, State.command_inv (P := fun u => u.flash.wf = true) h .reset m _ (fun _ _ h => h)
    fun _ _ hu => State.stationReset_wf hu cut⟩

/-! ### Every command -/

/-- A command that programs or erases nothing, resets or mounts nothing, and is no FORMAT and no RELEASE
leaves flash and the release mark as they were. -/
theorem exec_keepsJournal (s : State) (i : Instr) (flash : i.touchesFlash = false)
    (lowers : i.lowersMark = false) (release : ∀ p m, i ≠ .release p m) :
    ∃ t, exec i s = .next t ∧ s.KeepsJournal t := by
  cases i with
  | stationReset => cases flash
  | reset => cases flash
  | recordProgramCompletion => cases flash
  | headerProgramCompletion => cases flash
  | eraseCompletion => cases flash
  | mountReadCompletion => cases lowers
  | blankCheckCompletion => cases lowers
  | format => cases lowers
  | release p m => exact absurd rfl (release p m)
  | status m => exact ⟨_, rfl, s.command_journal .status m fun _ _ => ⟨rfl, rfl⟩⟩
  | result m => exact ⟨_, rfl, s.command_journal .result m fun _ _ => ⟨rfl, rfl⟩⟩
  | readBuffer m => exact ⟨_, rfl, s.command_journal .readBuffer m fun _ _ => ⟨rfl, rfl⟩⟩
  | nextNotice m =>
    exact ⟨_, rfl, s.command_journal .nextNotice m fun _ _ => by split <;> exact ⟨rfl, rfl⟩⟩
  | readPosition p m =>
    exact ⟨_, rfl, s.command_journal .readPosition m fun _ u => (u.takeRead_journal _ _ _).conclude⟩
  | readRecord o seq m =>
    exact ⟨_, rfl, s.command_journal .readRecord m fun _ u => (u.takeRead_journal _ _ _).conclude⟩
  | submit tag payload m =>
    exact ⟨_, rfl, s.command_journal .submit m fun _ u => u.decideSubmit_journal _ _⟩
  | enlist station n w rate p m =>
    refine ⟨_, rfl, s.command_journal .enlist m fun _ u => ?_⟩
    split
    · exact u.enlisted_journal _
    · exact ⟨rfl, rfl⟩
  | quiet m =>
    refine ⟨_, rfl, s.command_journal .quiet m fun _ u => ?_⟩
    split
    · exact u.quieted_journal
    · exact ⟨rfl, rfl⟩
  | wake m => exact ⟨_, rfl, s.command_journal .wake m fun _ u => u.woken_journal⟩
  | lineResume m => exact ⟨_, rfl, s.command_journal .lineResume m fun _ _ => ⟨rfl, rfl⟩⟩
  | unknownCode code m => exact execUnknownCode_journal s code m
  | commandDiscarded how => exact execCommandDiscarded_journal s how
  | hold asserted => exact ⟨_, rfl, rfl, rfl⟩
  | heldFrame sender origin value =>
    exact ⟨_, rfl, s.hearFrame_journal _ fun u => u.takeHeld_journal _ _ _⟩
  | presenceFrame sender joining full vector =>
    exact ⟨_, rfl, s.hearFrame_journal _ fun u => u.takePresence_journal _ _ _ _⟩
  | quietingPresenceFrame sender full vector =>
    exact ⟨_, rfl, s.hearFrame_journal _ fun u => u.takePresence_journal _ _ _ _⟩
  | appendFrame sender seq tag payload check =>
    exact ⟨_, rfl, s.hearFrame_journal _ fun u =>
      ((u.hearPeer_rests _ _).trans (State.arrive_rests _ _)).journal⟩
  | refillCopyFrame sender requester origin seq tag payload check =>
    exact ⟨_, rfl, s.hearFrame_journal _ fun u =>
      (u.hearPeer_rests _ _).journal.trans (State.takeCopy_journal _ _)⟩
  | refillGoneFrame sender requester origin first last =>
    exact ⟨_, rfl, s.hearFrame_journal _ fun u =>
      (u.hearPeer_rests _ _).journal.trans (State.takeGone_journal _ _ _ _)⟩
  | seekFrame sender origin first last =>
    refine ⟨_, rfl, s.hearFrame_journal _ fun u => ?_⟩
    have follow (v : State) (o a b : Nat) : v.KeepsJournal (v.followSeek o a b) := ⟨rfl, rfl⟩
    exact ((u.hearPeer_rests _ _).journal.trans (follow _ _ _ _)).trans
      (State.answerSeek_keeps _ _ _ _ _).journal
  | frameDiscarded bytes => exact ⟨_, rfl, by split <;> exact ⟨rfl, rfl⟩⟩
  | separatorDominant => exact ⟨_, rfl, s.moveFramer_journal _ _⟩
  | dominantRunEnd => exact ⟨_, rfl, s.moveFramer_journal _ _⟩
  | gapEnd => exact ⟨_, rfl, s.moveFramer_journal _ _⟩
  | huntIdleRun => exact ⟨_, rfl, s.moveFramer_journal _ _⟩
  | startBitSeen => exact ⟨_, rfl, s.moveFramer_journal _ _⟩
  | dominantBitInGap => exact ⟨_, rfl, s.moveFramer_journal _ _⟩
  | frameStart => exact ⟨_, rfl, by (repeat' split) <;> exact ⟨rfl, rfl⟩⟩
  | arbitrationLoss => exact ⟨_, rfl, by split <;> exact ⟨rfl, rfl⟩⟩
  | transmitFailure => exact ⟨_, rfl, by split <;> exact ⟨rfl, rfl⟩⟩
  | breakComplete =>
    refine ⟨_, rfl, ?_⟩
    have broken : s.KeepsJournal (s.setTransmitter .idle).leaveBroken :=
      .trans (t := s.setTransmitter .idle) ⟨rfl, rfl⟩ (State.moveFramer_journal _ _ _)
    split
    · dsimp only
      split
      · exact broken.trans (State.enterMuted_journal _)
      · exact broken
    · exact .refl s
  | heldSendCompletion => exact ⟨_, rfl, by split <;> exact ⟨rfl, rfl⟩⟩
  | appendSendCompletion =>
    refine ⟨_, rfl, ?_⟩
    have sent : s.KeepsJournal s.frameSent := ⟨rfl, rfl⟩
    split
    · exact .conclude (sent.trans (State.appendSent_journal _ _))
    · exact .refl s
  | refillSendCompletion =>
    refine ⟨_, rfl, ?_⟩
    have sent : s.KeepsJournal s.frameSent := ⟨rfl, rfl⟩
    split
    · dsimp only
      repeat' split
      · exact .conclude (sent.trans (State.copySent_journal _ _ _ _))
      · exact .conclude (sent.trans (State.goneSent_journal _ _ _))
      · exact sent
    · exact .refl s
  | seekSendCompletion => exact ⟨_, rfl, by dsimp only; (repeat' split) <;> exact ⟨rfl, rfl⟩⟩
  | presenceSendCompletion => exact ⟨_, rfl, by dsimp only; (repeat' split) <;> exact ⟨rfl, rfl⟩⟩
  | quietingPresenceSendCompletion => exact ⟨_, rfl, by dsimp only; (repeat' split) <;> exact ⟨rfl, rfl⟩⟩
  | presenceTimerExpiry => exact ⟨_, rfl, by split <;> exact ⟨rfl, rfl⟩⟩
  | silenceTimerExpiry peers =>
    refine ⟨_, rfl, ?_⟩
    split
    · exact .refl s
    · exact (State.silenceExpired_journal _ s).conclude
  | joiningEnd =>
    refine ⟨_, rfl, ?_⟩
    split
    · exact .conclude ⟨rfl, rfl⟩
    · exact .refl s
  | confirmationWaitExpiry seq =>
    refine ⟨_, rfl, ?_⟩
    repeat' split
    · exact (s.unanswered_journal _).conclude
    · exact .refl s
    · exact .refl s
  | repairWaitExpiry slot =>
    refine ⟨_, rfl, ?_⟩
    repeat' split
    · exact (s.waitedOut_journal _ _).conclude
    · exact .refl s
    · exact .refl s
  | deferExpiry requester origin =>
    refine ⟨_, rfl, ?_⟩
    repeat' split
    · exact (s.deferred_journal _).conclude
    · exact .refl s
    · exact .refl s
  | hostReadCompletion flaw => exact execHostReadCompletion_journal s flaw
  | fetchCompletion flaw => exact execFetchCompletion_journal s flaw
  | resumeMinimumReached => exact execResumeMinimumReached_journal s
  | suspensionCompletion => exact execSuspensionCompletion_journal s

/-- What holds of a next state of an outcome holds of its next state. -/
theorem next_unique {P : State → Prop} {o : Host.Outcome State Fault Refusal} {t : State}
    (h : ∃ u, o = .next u ∧ P u) (ht : o = .next t) : P t := by
  obtain ⟨u, hu, hp⟩ := h
  obtain rfl := Host.Outcome.next.inj (hu.symm.trans ht)
  exact hp

/-- What a command does to flash: the canonical form stays, and the bytes stay unless the command is one
of those that can change them. -/
theorem exec_flash (s : State) (i : Instr) {t : State} (h : exec i s = .next t) :
    (s.flash.wf = true → t.flash.wf = true) ∧ (i.touchesFlash = false → t.flash = s.flash) := by
  have untouched (e : t.flash = s.flash) :
      (s.flash.wf = true → t.flash.wf = true) ∧ (i.touchesFlash = false → t.flash = s.flash) :=
    ⟨fun w => by rw [e]; exact w, fun _ => e⟩
  have plain := fun flash lowers release =>
    next_unique (exec_keepsJournal s i flash lowers release) h
  cases i with
  | stationReset cut =>
    exact ⟨fun w => next_unique (execStationReset_wf w cut) h, fun e => nomatch e⟩
  | reset cut m => exact ⟨fun w => next_unique (execReset_wf w cut m) h, fun e => nomatch e⟩
  | recordProgramCompletion outcome =>
    exact ⟨(next_unique (execRecordProgramCompletion_form s outcome) h).wf, fun e => nomatch e⟩
  | headerProgramCompletion outcome =>
    exact ⟨(next_unique (execHeaderProgramCompletion_form s outcome) h).wf, fun e => nomatch e⟩
  | eraseCompletion outcome =>
    exact ⟨(next_unique (execEraseCompletion_form s outcome) h).wf, fun e => nomatch e⟩
  | mountReadCompletion => exact untouched (next_unique (execMountReadCompletion_flash s) h)
  | blankCheckCompletion => exact untouched (next_unique (execBlankCheckCompletion_flash s) h)
  | format m => exact untouched (next_unique (execFormat_flash s m) h)
  | release p m => exact untouched (next_unique (execRelease_flash_mark p s m) h).1
  | _ => exact untouched (plain rfl rfl fun _ _ e => nomatch e).flash

/-- What a command that does not lower the release mark does to it: it stays, or a RELEASE raises it
(R52). -/
theorem exec_releaseMark (s : State) (i : Instr) {t : State} (lowers : i.lowersMark = false)
    (h : exec i s = .next t) : s.writer.releaseMark ≤ t.writer.releaseMark := by
  have plain := fun flash release =>
    next_unique (exec_keepsJournal s i flash lowers release) h
  cases i with
  | recordProgramCompletion outcome =>
    exact (next_unique (execRecordProgramCompletion_form s outcome) h).mark.ge
  | headerProgramCompletion outcome =>
    exact (next_unique (execHeaderProgramCompletion_form s outcome) h).mark.ge
  | eraseCompletion outcome => exact (next_unique (execEraseCompletion_form s outcome) h).mark.ge
  | release p m => exact (next_unique (execRelease_flash_mark p s m) h).2
  | stationReset => cases lowers
  | reset => cases lowers
  | _ => exact (plain rfl fun _ _ e => nomatch e).mark.ge

end Sys2Proof.Machine

namespace Sys2Proof

open Machine

/-- Settles O56: by command, with the canonical form kept by every operation on flash. -/
theorem stepKeepsFlash : Obligations.StepKeepsFlash := by
  intro s t h
  unfold Machine.step at h
  split at h
  · obtain rfl := Host.Outcome.next.inj h
    exact ⟨id, fun _ => rfl⟩
  · next c rest hp =>
    obtain ⟨wf, same⟩ := exec_flash (s.setPending rest) c h
    exact ⟨wf, fun untouched => same (untouched c rest hp)⟩

/-- Settles O58: RELEASE alone moves the mark outside a reset, its mount and FORMAT, and raises it. -/
theorem releaseMarkRises : Obligations.ReleaseMarkRises :=
  fun s _ i lowers h => exec_releaseMark s i lowers h

end Sys2Proof

/-! ## Placement, and the serving of claims by an IDLE array (R25, R34, R48 to R50, R53) -/

namespace Sys2Proof.Machine

/-! ### The ERASED segment that is chosen (R49) -/

/-- Of a candidate and an entry of the table, the ERASED one of the lower generation, the candidate of
equals. -/
def lowerErased (best : Option (Nat × Word)) (e : Segment × Nat) : Option (Nat × Word) :=
  if e.1.state.isErased then
    match best with
    | none => some (e.2, e.1.generation)
    | some (k, g) => if e.1.generation.toNat < g.toNat then some (e.2, e.1.generation) else some (k, g)
  else best

theorem lowerErased_eq (b : Option (Nat × Word)) (a : Segment × Nat) :
    lowerErased b a = b ∨ lowerErased b a = some (a.2, a.1.generation) := by
  unfold lowerErased
  repeat' split
  · exact .inr rfl
  · exact .inr rfl
  · exact .inl rfl
  · exact .inl rfl

theorem Segments.chooseErased_eq (m : Segments) :
    m.chooseErased = (m.table.zipIdx.foldl lowerErased none).map (·.1) := rfl

/-- A segment is at or before another in the order of R49: lower generation, then lower number. -/
def ErasedBefore (a b : Nat × Word) : Prop := a.2.toNat < b.2.toNat ∨ a.2 = b.2 ∧ a.1 ≤ b.1

theorem ErasedBefore.trans {a b c : Nat × Word} (x : ErasedBefore a b) (y : ErasedBefore b c) :
    ErasedBefore a c := by
  obtain x | ⟨x1, x2⟩ := x <;> obtain y | ⟨y1, y2⟩ := y
  · exact .inl (x.trans y)
  · exact .inl (y1 ▸ x)
  · exact .inl (x1 ▸ y)
  · exact .inr ⟨x1.trans y1, x2.trans y2⟩

theorem ErasedBefore.antisymm {a b : Nat × Word} (x : ErasedBefore a b) (y : ErasedBefore b a) :
    a.1 = b.1 := by
  obtain x | ⟨x1, x2⟩ := x <;> obtain y | ⟨y1, y2⟩ := y
  · omega
  · rw [y1] at x; omega
  · rw [x1] at y; omega
  · omega

theorem isErased_iff (v : SegmentState) : v.isErased = true ↔ v = .erased := by
  cases v <;> simp [SegmentState.isErased]

/-- The candidate left at the end of rising segment numbers is before every candidate met. -/
theorem foldl_lowerErased_least (l : List (Segment × Nat)) (b : Option (Nat × Word))
    (rising : l.Pairwise (·.2 < ·.2)) (above : ∀ x ∈ b, ∀ e ∈ l, x.1 ≤ e.2) (r : Nat × Word)
    (h : l.foldl lowerErased b = some r) :
    (∀ x ∈ b, ErasedBefore r x) ∧
      ∀ e ∈ l, e.1.state = .erased → ErasedBefore r (e.2, e.1.generation) := by
  induction l generalizing b with
  | nil =>
    refine ⟨fun x hx => .inr ?_, by simp⟩
    cases hx.symm.trans h
    exact ⟨rfl, le_rfl⟩
  | cons a l ih =>
    obtain ⟨first, rising⟩ := List.pairwise_cons.1 rising
    have next : ∀ x ∈ lowerErased b a, ∀ e ∈ l, x.1 ≤ e.2 := by
      intro x hx e he
      rcases lowerErased_eq b a with same | taken
      · exact above x (same ▸ hx) e (List.mem_cons_of_mem _ he)
      · rw [taken] at hx
        cases hx
        exact (first e he).le
    obtain ⟨met, rest⟩ := ih _ rising next h
    have step : (∀ x ∈ b, ErasedBefore r x) ∧
        (a.1.state = .erased → ErasedBefore r (a.2, a.1.generation)) := by
      rw [← isErased_iff]
      unfold lowerErased at met
      by_cases ha : a.1.state.isErased = true
      · rw [if_pos ha] at met
        cases b with
        | none => exact ⟨fun _ hx => (nomatch hx), fun _ => met _ rfl⟩
        | some b =>
          dsimp only at met
          split at met
          · next lt =>
            have m := met _ rfl
            exact ⟨fun x hx => m.trans (.inl (by cases hx; exact lt)), fun _ => m⟩
          · next lt =>
            have m := met _ rfl
            refine ⟨fun x hx => by cases hx; exact m, fun _ => m.trans ?_⟩
            rcases Nat.lt_or_eq_of_le (Nat.le_of_not_lt lt) with lt | eq
            · exact .inl lt
            · exact .inr ⟨BitVec.eq_of_toNat_eq eq, above b rfl a List.mem_cons_self⟩
      · rw [if_neg ha] at met
        exact ⟨met, fun e => absurd e ha⟩
    refine ⟨step.1, fun e he => ?_⟩
    rcases List.mem_cons.1 he with rfl | he
    · exact step.2
    · exact rest e he

/-- The numbers of the entries of a table rise. -/
theorem zipIdx_rising {α : Type} (l : List α) : l.zipIdx.Pairwise (·.2 < ·.2) := by
  have rising := List.pairwise_lt_range' (s := 0) (n := l.length) (step := 1)
  rwa [← List.zipIdx_map_snd, List.pairwise_map] at rising

/-- The ERASED segment with the lowest generation, the lowest-numbered of equals, is the one chosen
(R49). -/
theorem Segments.chooseErased_least {m : Segments} {k : Nat} {e : Segment}
    (he : m.table[k]? = some e) (erased : e.state = .erased)
    (least : ∀ i x, m.table[i]? = some x → x.state = .erased →
      e.generation.toNat < x.generation.toNat ∨ e.generation = x.generation ∧ k ≤ i) :
    m.chooseErased = some k := by
  have mem (i : Nat) (x : Segment) : (x, i) ∈ m.table.zipIdx ↔ m.table[i]? = some x :=
    List.mem_zipIdx_iff_getElem?
  cases hr : m.table.zipIdx.foldl lowerErased none with
  | none =>
    have none_left := Segments.chooseErased_none
      (show m.chooseErased = none by rw [m.chooseErased_eq, hr]; rfl)
    exact absurd erased (none_left e (List.mem_of_getElem? he))
  | some r =>
    have below := (foldl_lowerErased_least _ none (zipIdx_rising _) (fun _ h => nomatch h) r hr).2 (e, k)
      ((mem k e).2 he) erased
    have chosen : m.chooseErased = some r.1 := by rw [m.chooseErased_eq, hr]; rfl
    obtain h | ⟨⟨x, i⟩, hx, hxe, hri⟩ := (foldl_erased_mem m.table.zipIdx none).1
    · exact nomatch hr.symm.trans h
    · obtain rfl : r = (i, x.generation) := Option.some.inj (hr.symm.trans hri)
      have above : ErasedBefore (k, e.generation) (i, x.generation) :=
        least i x ((mem i x).1 hx) ((isErased_iff _).1 hxe)
      rw [chosen, ErasedBefore.antisymm below above]

/-! ### The placement of the head job (R48, R50, R53) -/

theorem JobBody.size_ge (body : JobBody) : 16 ≤ body.size := by
  cases body <;> simp [JobBody.size]

theorem State.placeHead_full {s : State} (full : s.segments.full = true) : s.placeHead = s := by
  unfold State.placeHead
  split
  · rfl
  · rw [full, Bool.true_or, if_pos rfl]

/-- The head job is placed at the free cursor, or at byte 0 of the next page (R48). -/
theorem State.placeHead_place {s : State} {j : Job} {rest : List Job} {k page offset faults : Nat}
    {u : InUse} (jobs : s.writer.jobs = j :: rest) (free : s.array.programBusy = false)
    (full : s.segments.full = false)
    (opened : s.segments.open? = some (k, u, .place page offset, faults)) :
    s.placeHead = if j.body.size ≤ 256 - offset then s.claimRecord k u faults page offset
      else if page < 255 then s.claimRecord k u faults (page + 1) 0 else s.askRoom := by
  simp only [State.placeHead, jobs, full, free, opened, Bool.or_false, Bool.false_eq_true, if_false]

/-- No room on the page of the free cursor, nor on a later one. -/
def Segments.NoRoom (m : Segments) (size : Nat) : Prop :=
  m.open? = none ∨ (∃ k u faults, m.open? = some (k, u, .past, faults)) ∨
    ∃ k u page offset faults, m.open? = some (k, u, .place page offset, faults) ∧
      256 < offset + size ∧ 255 ≤ page

theorem State.placeHead_noRoom {s : State} {j : Job} {rest : List Job} (jobs : s.writer.jobs = j :: rest)
    (free : s.array.programBusy = false) (full : s.segments.full = false)
    (room : s.segments.NoRoom j.body.size) : s.placeHead = s.askRoom := by
  have := j.body.size_ge
  obtain h | ⟨k, u, faults, h⟩ | ⟨k, u, page, offset, faults, h, size, last⟩ := room
  · simp only [State.placeHead, jobs, full, free, h, Bool.or_false, Bool.false_eq_true, if_false]
  · simp only [State.placeHead, jobs, full, free, h, Bool.or_false, Bool.false_eq_true, if_false]
  · rw [State.placeHead_place jobs free full h, if_neg (by omega), if_neg (by omega)]

/-- The segment table once the OPEN segment is sealed (R50). -/
theorem Segments.seal_eq (m : Segments) :
    m.seal = { m with table := match m.open? with
      | some (k, u, _, _) => m.table.modify k fun e => { e with state := .sealed u }
      | none => m.table } := by
  unfold Segments.seal
  cases m.open? <;> rfl

theorem State.askRoom_chosen {s : State} {k : Nat} (h : s.segments.seal.chooseErased = some k) :
    s.askRoom = (s.setSegments s.segments.seal).setArray
      { s.array with programClaim := some (.header k) } := by
  unfold State.askRoom
  dsimp only
  rw [h]

theorem State.askRoom_full {s : State} (h : s.segments.seal.chooseErased = none) :
    s.askRoom = (s.setSegments { s.segments.seal with full := true }).raise .segmentManager
      (.full true) := by
  unfold State.askRoom
  dsimp only
  rw [h]

theorem Segments.chooseErased_eq_none {m : Segments} (h : ∀ e ∈ m.table, e.state ≠ .erased) :
    m.chooseErased = none := by
  cases hk : m.chooseErased with
  | none => rfl
  | some k =>
    obtain ⟨e, he, erased⟩ := Segments.chooseErased_some hk
    exact absurd erased (h e (List.mem_of_getElem? he))

theorem State.floorVector_eq (s : State) :
    s.floorVector = (List.range 16).map fun o =>
      if s.enlistment = none ∨ o < s.clusterSize then (s.tracker.holding o).through else 0 := by
  unfold State.floorVector
  simp only [Bool.or_eq_true, Option.isNone_iff_eq_none, decide_eq_true_eq]

/-! ### One serving (R25, R34, R36) -/

section Serving

variable {s : State} (fuel : Nat) (idle : s.array.activity = .idle)
include idle

theorem serveClaims_host {c : HostClaim} (host : s.array.hostClaim = some c)
    (readable : (s.segments.use? c.segment).isSome = true) :
    serveClaims (fuel + 1) s
      = s.setArray { s.array with hostClaim := none, activity := .read (.host c) } := by
  have r : s.readable c.segment = true := readable
  simp [serveClaims, idle, host, r]
  rfl

theorem serveClaims_host_refused {c : HostClaim} (host : s.array.hostClaim = some c)
    (refused : s.segments.use? c.segment = none) :
    serveClaims (fuel + 1) s = serveClaims fuel
      ((s.setArray { s.array with hostClaim := none }).setPort (s.port.readDone .reclaimed)) := by
  have r : s.readable c.segment = false := by rw [State.readable, refused]; rfl
  simp [serveClaims, idle, host, r]

variable (host : s.array.hostClaim = none)
include host

theorem serveClaims_record (program : s.array.programClaim = some .record) :
    serveClaims (fuel + 1) s
      = s.setArray { s.array with programClaim := none, activity := .program .record } := by
  simp [serveClaims, idle, host, program]

theorem serveClaims_header {k : Nat} (program : s.array.programClaim = some (.header k)) :
    serveClaims (fuel + 1) s
      = (s.setArray { s.array with programClaim := none, activity := .program (.header k) }).openSegment
          k := by
  simp [serveClaims, idle, host, program]

variable (program : s.array.programClaim = none)
include program

theorem serveClaims_fetch {c : FetchClaim} {rest : List FetchClaim}
    (fetch : s.array.fetchClaims = c :: rest) (readable : (s.segments.use? c.segment).isSome = true) :
    serveClaims (fuel + 1) s
      = s.setArray { s.array with fetchClaims := rest, activity := .read (.fetch c .wanted) } := by
  have r : s.readable c.segment = true := readable
  simp [serveClaims, idle, host, program, fetch, r]
  rfl

theorem serveClaims_fetch_refused {c : FetchClaim} {rest : List FetchClaim}
    (fetch : s.array.fetchClaims = c :: rest) (refused : s.segments.use? c.segment = none) :
    serveClaims (fuel + 1) s = serveClaims fuel
      ((s.setArray { s.array with fetchClaims := rest }).skipSeq c.requester c.origin c.seq) := by
  have r : s.readable c.segment = false := by rw [State.readable, refused]; rfl
  simp [serveClaims, idle, host, program, fetch, r]

theorem serveClaims_erase {c : EraseContext} (fetch : s.array.fetchClaims = [])
    (context : s.array.context = some c) (held : c.running = false) :
    serveClaims (fuel + 1) s
      = s.setArray { s.array with activity := .erase, context := some c.start } := by
  simp [serveClaims, idle, host, program, fetch, context, held]

end Serving

/-! ### What a refused fetch leaves (R34, R144) -/

/-- What the Repair Controller's next fetch leaves as it is. -/
structure State.FetchOnly (s t : State) : Prop where
  port : t.port = s.port
  segments : t.segments = s.segments
  writer : t.writer = s.writer
  raised : t.raised = s.raised
  tracker : t.tracker = s.tracker
  hostClaim : t.array.hostClaim = s.array.hostClaim
  programClaim : t.array.programClaim = s.array.programClaim
  context : t.array.context = s.array.context

theorem State.FetchOnly.refl (s : State) : s.FetchOnly s := by constructor <;> rfl

theorem State.takeNext_fetchOnly (s : State) (e : Responder) (l : List Nat) :
    s.FetchOnly (s.takeNext e l) := by
  unfold State.takeNext
  repeat' split
  all_goals constructor <;> rfl

theorem State.skipSeq_fetchOnly (s : State) (q o seq : Nat) : s.FetchOnly (s.skipSeq q o seq) := by
  unfold State.skipSeq
  split
  · exact s.takeNext_fetchOnly _ _
  · exact .refl s

/-! ### The servings of an event, one at a time -/

/-- What one serving of the claims can end in: the array stays as it is, or it takes the first claim
present (R25). -/
inductive State.Serves (s : State) : State → Prop where
  | rest : s.Serves s
  | host (c : HostClaim) (host : s.array.hostClaim = some c) :
    s.Serves (s.setArray { s.array with hostClaim := none, activity := .read (.host c) })
  | record (host : s.array.hostClaim = none) (program : s.array.programClaim = some .record) :
    s.Serves (s.setArray { s.array with programClaim := none, activity := .program .record })
  | header (k : Nat) (host : s.array.hostClaim = none)
      (program : s.array.programClaim = some (.header k)) :
    s.Serves ((s.setArray { s.array with
      programClaim := none, activity := .program (.header k) }).openSegment k)
  | fetch (c : FetchClaim) (rest : List FetchClaim) (host : s.array.hostClaim = none)
      (program : s.array.programClaim = none) (fetch : s.array.fetchClaims = c :: rest) :
    s.Serves (s.setArray { s.array with fetchClaims := rest, activity := .read (.fetch c .wanted) })
  | erase (c : EraseContext) (context : s.array.context = some c) :
    s.Serves (s.setArray { s.array with activity := .erase, context := some c.start })

/-- A read claim refused, after which the next claim is served (R34). -/
inductive State.Refuses (s : State) : State → Prop where
  | host (c : HostClaim) (host : s.array.hostClaim = some c) :
    s.Refuses ((s.setArray { s.array with hostClaim := none }).setPort (s.port.readDone .reclaimed))
  | fetch (c : FetchClaim) (rest : List FetchClaim) (host : s.array.hostClaim = none)
      (program : s.array.programClaim = none) (fetch : s.array.fetchClaims = c :: rest) :
    s.Refuses ((s.setArray { s.array with fetchClaims := rest }).skipSeq c.requester c.origin c.seq)

theorem serveClaims_cases (fuel : Nat) (s : State) :
    s.Serves (serveClaims (fuel + 1) s) ∨
      ∃ t, s.Refuses t ∧ serveClaims (fuel + 1) s = serveClaims fuel t := by
  by_cases idle : s.array.activity = .idle
  · cases host : s.array.hostClaim with
    | some c =>
      cases use : s.segments.use? c.segment with
      | some u => exact .inl (serveClaims_host fuel idle host (by rw [use]; rfl) ▸ .host c host)
      | none => exact .inr ⟨_, .host c host, serveClaims_host_refused fuel idle host use⟩
    | none =>
      cases program : s.array.programClaim with
      | some c =>
        cases c with
        | record => exact .inl (serveClaims_record fuel idle host program ▸ .record host program)
        | header k => exact .inl (serveClaims_header fuel idle host program ▸ .header k host program)
      | none =>
        cases fetch : s.array.fetchClaims with
        | cons c rest =>
          cases use : s.segments.use? c.segment with
          | some u =>
            exact .inl (serveClaims_fetch fuel idle host program fetch (by rw [use]; rfl) ▸
              .fetch c rest host program fetch)
          | none =>
            exact .inr ⟨_, .fetch c rest host program fetch,
              serveClaims_fetch_refused fuel idle host program fetch use⟩
        | nil =>
          cases context : s.array.context with
          | none =>
            exact .inl (by
              simp [serveClaims, idle, host, program, fetch, context, State.Serves.rest])
          | some c =>
            cases held : c.running with
            | true =>
              exact .inl (by
                simp [serveClaims, idle, host, program, fetch, context, held, State.Serves.rest])
            | false =>
              exact .inl (serveClaims_erase fuel idle host program fetch context held ▸
                .erase c context)
  · exact .inl (by simp [serveClaims, idle, State.Serves.rest])

/-- What each serving ends in, and each refusal hands down, holds of the servings of an event. -/
theorem serveClaims_rel {R : State → State → Prop} (serves : ∀ {s t : State}, s.Serves t → R s t)
    (refuses : ∀ {s t u : State}, s.Refuses t → R t u → R s u) (fuel : Nat) (s : State) :
    R s (serveClaims fuel s) := by
  induction fuel generalizing s with
  | zero => exact serves .rest
  | succ fuel ih =>
    rcases serveClaims_cases fuel s with served | ⟨t, refused, next⟩
    · exact serves served
    · rw [next]
      exact refuses refused (ih t)

/-- Without a host read claim a serving makes none and leaves the Host Port. -/
theorem serveClaims_noHost (fuel : Nat) {s : State} (host : s.array.hostClaim = none) :
    (serveClaims fuel s).array.hostClaim = none ∧ (serveClaims fuel s).port = s.port := by
  refine serveClaims_rel (R := fun s t => s.array.hostClaim = none →
    t.array.hostClaim = none ∧ t.port = s.port) ?_ ?_ fuel s host
  · intro s t served host
    cases served with
    | host c h => cases h.symm.trans host
    | _ => exact ⟨host, rfl⟩
  · intro s t u refused later host
    cases refused with
    | host c h => cases h.symm.trans host
    | fetch c rest =>
      have kept := State.skipSeq_fetchOnly (s.setArray { s.array with fetchClaims := rest })
        c.requester c.origin c.seq
      obtain ⟨none, port⟩ := later (kept.hostClaim.trans host)
      exact ⟨none, port.trans kept.port⟩

/-- An entry of a changed key is the change of an entry. -/
theorem State.mem_changeResponder {s : State} {q o : Nat} {f : Responder → Responder} {x : Responder}
    (hx : x ∈ (s.changeResponder q o f).repair.responders) (hq : x.requester = q) (ho : x.origin = o) :
    ∃ y ∈ s.repair.responders, x = f y := by
  obtain ⟨y, hy, rfl⟩ := List.mem_map.1 hx
  by_cases key : y.requester = q ∧ y.origin = o
  · exact ⟨y, hy, if_pos key⟩
  · rw [if_neg key] at hq ho
    exact absurd ⟨hq, ho⟩ key

/-- Once an entry has taken its next seq of a list, it lists nothing that the list lacks. -/
theorem State.takeNext_lacks {s : State} {e : Responder} {l : List Nat} {seq : Nat} (lacks : seq ∉ l) :
    ∀ x ∈ (s.takeNext e l).repair.responders, x.requester = e.requester → x.origin = e.origin →
      seq ∉ x.list := by
  intro x hx hq ho
  unfold State.takeNext at hx
  split at hx
  · obtain ⟨y, -, rfl⟩ := State.mem_changeResponder hx hq ho
    exact lacks
  · split at hx
    · next stored =>
      obtain ⟨y, -, rfl⟩ := State.mem_changeResponder hx hq ho
      exact fun h => lacks ((Segments.firstStored_suffix stored).subset h)
    · split at hx
      · obtain ⟨y, -, rfl⟩ := State.mem_changeResponder hx hq ho
        exact List.not_mem_nil
      · simp [State.freeResponder, State.mapRequest, State.setTransmitter, hq, ho] at hx

theorem State.skipSeq_lacks (s : State) (q o seq : Nat) :
    ∀ x ∈ (s.skipSeq q o seq).repair.responders, x.requester = q → x.origin = o → seq ∉ x.list := by
  intro x hx hq ho
  unfold State.skipSeq at hx
  split at hx
  · next e he =>
    obtain ⟨-, rfl, rfl⟩ := Repair.responder?_mem he
    exact State.takeNext_lacks (by simp) x hx hq ho
  · next absent =>
    have := List.find?_eq_none.1 absent x hx
    simp [hq, ho] at this

theorem Segments.mem_inUse_use? {m : Segments} {k : Nat} {u : InUse} (h : (k, u) ∈ m.inUse) :
    m.use? k = some u := by
  obtain ⟨e, he, hu⟩ := Segments.mem_inUse h
  rw [Segments.use?, he, Option.bind_some, hu]

/-- A stored seq stands in a readable segment (R34, R43). -/
theorem Segments.firstStored_readable {m : Segments} {o : Nat} {l r : List Nat} {k : Nat} {x : Locator}
    (h : m.firstStored o l = some (r, k, x)) : (m.use? k).isSome = true := by
  induction l with
  | nil => cases h
  | cons seq l ih =>
    unfold Segments.firstStored at h
    split at h
    · next found =>
      cases h
      obtain ⟨⟨j, u⟩, inUse, hx⟩ := List.exists_of_findSome?_eq_some found
      split at hx
      · obtain ⟨_, _, rfl, rfl⟩ := Option.map_eq_some_iff.1 hx
        rw [Segments.mem_inUse_use? inUse]
        rfl
      · cases hx
    · exact ih h

/-- The next seq of an entry while no read is in progress: the lowest still stored is claimed (R144). -/
theorem State.takeNext_stored {s : State} (idle : s.array.activity = .idle) {e : Responder}
    {l r : List Nat} {k : Nat} {x : Locator}
    (stored : s.segments.firstStored e.origin l = some (r, k, x)) :
    s.takeNext e l = (s.changeResponder e.requester e.origin fun e =>
        { e with list := r, state := .fetching }).setArray
      { s.array with fetchClaims := s.array.fetchClaims ++
          [⟨e.requester, e.origin, x.seq, k, x.page, x.offset, x.size⟩] } := by
  have still : s.array.dropping e.requester e.origin = false := by
    rw [ArrayEngine.dropping, idle]
  unfold State.takeNext
  rw [still, Bool.false_and, if_neg Bool.false_ne_true, stored]
  rfl

/-- A refused host read: its claim leaves, a PENDING slot is answered, and a record program is served
(R25, R34). -/
theorem State.serve_host_refused {s : State} (idle : s.array.activity = .idle) {c : HostClaim}
    (host : s.array.hostClaim = some c) (refused : s.segments.use? c.segment = none) :
    s.serve.array.hostClaim = none ∧ s.serve.port = s.port.readDone .reclaimed ∧
      (s.array.programClaim = some .record → s.serve.array.activity = .program .record) := by
  let t := (s.setArray { s.array with hostClaim := none }).setPort (s.port.readDone .reclaimed)
  have served : s.serve = serveClaims (2 * s.array.fetchClaims.length + 2) t :=
    serveClaims_host_refused _ idle host refused
  obtain ⟨none, port⟩ := serveClaims_noHost (2 * s.array.fetchClaims.length + 2) (s := t) rfl
  rw [served]
  refine ⟨none, port, fun program => ?_⟩
  rw [serveClaims_record (s := t) _ idle rfl program]
  rfl

/-- A refused fetch: its seq leaves the lists of its entry (R34, R144). -/
theorem State.serve_fetch_refused {s : State} (idle : s.array.activity = .idle)
    (host : s.array.hostClaim = none) (program : s.array.programClaim = none) {c : FetchClaim}
    {rest : List FetchClaim} (fetch : s.array.fetchClaims = c :: rest)
    (refused : s.segments.use? c.segment = none) :
    ∀ x ∈ s.serve.repair.responders, x.requester = c.requester → x.origin = c.origin →
      c.seq ∉ x.list := by
  intro x hx hq ho
  rw [State.serve, serveClaims_fetch_refused _ idle host program fetch refused] at hx
  obtain ⟨⟨e, he, eq, eo, lists⟩, -⟩ := serveClaims_shrinks _ _ x hx
  exact fun h => State.skipSeq_lacks _ _ _ _ e he (eq.trans hq) (eo.trans ho) (lists h)

/-- A refused fetch, the only one, whose entry has a stored seq left: the engine reads that one (R34,
log 46). -/
theorem State.serve_refetch {s : State} (idle : s.array.activity = .idle)
    (host : s.array.hostClaim = none) (program : s.array.programClaim = none) {c : FetchClaim}
    (fetch : s.array.fetchClaims = [c]) (refused : s.segments.use? c.segment = none) {e : Responder}
    (he : s.repair.responder? c.requester c.origin = some e) {list : List Nat} {k : Nat} {l : Locator}
    (stored : s.segments.firstStored c.origin (e.list.filter (· ≠ c.seq)) = some (list, k, l)) :
    s.serve.array.activity = .read (.fetch
        ⟨c.requester, c.origin, l.seq, k, l.page, l.offset, l.size⟩ .wanted) ∧
      ∃ x ∈ s.serve.repair.responders, x.requester = c.requester ∧ x.origin = c.origin ∧
        x.state = .fetching ∧ x.list = list := by
  obtain ⟨mem, hq, ho⟩ := Repair.responder?_mem he
  rw [← ho] at stored
  have skipped : (s.setArray { s.array with fetchClaims := [] }).skipSeq c.requester c.origin c.seq
      = (s.setArray { s.array with fetchClaims := [] }).takeNext e (e.list.filter (· ≠ c.seq)) := by
    unfold State.skipSeq
    rw [State.setArray_repair, he]
  have read := serveClaims_fetch 3
    (s := (s.changeResponder e.requester e.origin fun e =>
        { e with list := list, state := .fetching }).setArray
      { s.array with fetchClaims :=
          [⟨e.requester, e.origin, l.seq, k, l.page, l.offset, l.size⟩] })
    idle host program rfl (Segments.firstStored_readable stored)
  have served : s.serve = (s.changeResponder e.requester e.origin fun e =>
      { e with list := list, state := .fetching }).setArray
        { s.array with
          fetchClaims := []
          activity := .read (.fetch
            ⟨e.requester, e.origin, l.seq, k, l.page, l.offset, l.size⟩ .wanted) } := by
    unfold State.serve
    rw [fetch, List.length_singleton, serveClaims_fetch_refused 4 idle host program fetch refused,
      skipped, State.takeNext_stored (s := s.setArray { s.array with fetchClaims := [] }) idle stored]
    exact read
  rw [served]
  refine ⟨by rw [hq, ho]; rfl, { e with list := list, state := .fetching }, ?_, hq, ho, rfl, rfl⟩
  exact List.mem_map.2 ⟨e, mem, by rw [if_pos ⟨rfl, rfl⟩]⟩

end Sys2Proof.Machine

namespace Sys2Proof

open Machine

/-- Settles O48: placement, the floor vector, and the servings of an IDLE array one by one. -/
theorem claimsServedInOrder : Obligations.ClaimsServedInOrder := by
  refine ⟨fun s j rest jobs free => ⟨State.placeHead_full, fun full => ⟨?_, ?_⟩⟩,
    State.floorVector_eq, fun s idle =>
    ⟨fun c host readable => serveClaims_host _ idle host readable, ?_, fun host =>
      ⟨serveClaims_record _ idle host, fun k => serveClaims_header _ idle host, fun program =>
        ⟨fun c rest => serveClaims_fetch _ idle host program, ?_,
          fun fetch c => serveClaims_erase _ idle host program fetch⟩⟩⟩⟩
  · intro k u page offset faults opened
    have := j.body.size_ge
    rw [State.placeHead_place jobs free full opened]
    exact ⟨fun fits => if_pos (by omega), fun beyond below => by
      rw [if_neg (by omega), if_pos below]
      rfl⟩
  · intro room
    rw [State.placeHead_noRoom jobs free full room]
    have table := s.segments.seal_eq
    refine ⟨fun k e he erased least => ?_, fun none => ?_⟩
    · rw [State.askRoom_chosen (k := k)
        (by rw [table]; exact Segments.chooseErased_least he erased least), table]
      rfl
    · rw [State.askRoom_full (by rw [table]; exact Segments.chooseErased_eq_none none), table]
      rfl
  · intro c host refused
    obtain ⟨none, port, record⟩ := State.serve_host_refused idle host refused
    exact ⟨none, fun target pending => by rw [port, Port.readDone, pending], record⟩
  · exact fun c rest fetch refused => ⟨State.serve_fetch_refused idle host program fetch refused,
      fun e list k l none he stored =>
        State.serve_refetch idle host program (none ▸ fetch) refused he stored⟩

end Sys2Proof

/-! ## What the end of an event leaves of the tables, and the notices that join at it -/

namespace Sys2Proof.Machine

/-! ### The steps of an event's end -/

/-- An event's end before the placement of the head job. -/
def State.refilled (s : State) : State := s.excessTest.fillSlots

/-- An event's end up to the placement of the head job. -/
def State.placed (s : State) : State := s.refilled.placeHead

theorem State.conclude_eq (s : State) :
    s.conclude = s.placed.scheduleErase.serve.scheduleErase.serve.checkSuspend.flush := rfl

/-- The Stream Tracker's tables, the Journal Writer and the notices handed over are as they were. -/
structure State.Fixes (s t : State) : Prop where
  tracker : t.tracker = s.tracker
  writer : t.writer = s.writer
  raised : t.raised = s.raised

theorem State.Fixes.refl (s : State) : s.Fixes s := ⟨rfl, rfl, rfl⟩

theorem State.Fixes.trans {s t u : State} (a : s.Fixes t) (b : t.Fixes u) : s.Fixes u :=
  ⟨b.tracker.trans a.tracker, b.writer.trans a.writer, b.raised.trans a.raised⟩

theorem State.setSlot_fixes (s : State) (i : Nat) (v : Option SeekSlot) : s.Fixes (s.setSlot i v) := by
  unfold State.setSlot
  dsimp only
  split <;> exact ⟨rfl, rfl, rfl⟩

theorem State.fillSlots_fixes (s : State) : s.Fixes s.fillSlots := by
  have fill (s : State) : s.Fixes s.fillSlot := by
    unfold State.fillSlot
    split
    · exact s.setSlot_fixes _ _
    · exact .refl s
  unfold State.fillSlots
  split
  · exact repeat_rel .refl .trans fill 4 s
  · exact .refl s

theorem State.FetchOnly.fixes {s t : State} (h : s.FetchOnly t) : s.Fixes t :=
  ⟨h.tracker, h.writer, h.raised⟩

theorem serveClaims_fixes (fuel : Nat) (s : State) : s.Fixes (serveClaims fuel s) := by
  refine serveClaims_rel ?_ ?_ fuel s
  · intro s t served
    cases served <;> exact ⟨rfl, rfl, rfl⟩
  · intro s t u refused later
    refine .trans ?_ later
    cases refused with
    | host c => exact ⟨rfl, rfl, rfl⟩
    | fetch c rest =>
      exact .trans (t := s.setArray { s.array with fetchClaims := rest }) ⟨rfl, rfl, rfl⟩
        (State.skipSeq_fetchOnly _ _ _ _).fixes

theorem State.checkSuspend_fixes (s : State) : s.Fixes s.checkSuspend := by
  unfold State.checkSuspend
  repeat' split
  all_goals exact ⟨rfl, rfl, rfl⟩

/-- What follows the placement at an event's end leaves the pending list, the Journal Writer and the
notices handed over. -/
structure State.After (s t : State) : Prop where
  pending : t.tracker.pending = s.tracker.pending
  writer : t.writer = s.writer
  raised : t.raised = s.raised

theorem State.Fixes.after {s t : State} (h : s.Fixes t) : s.After t :=
  ⟨congrArg Tracker.pending h.tracker, h.writer, h.raised⟩

theorem State.After.trans {s t u : State} (a : s.After t) (b : t.After u) : s.After u :=
  ⟨b.pending.trans a.pending, b.writer.trans a.writer, b.raised.trans a.raised⟩

theorem State.serve_fixes (s : State) : s.Fixes s.serve := serveClaims_fixes _ s

theorem State.scheduleErase_after (s : State) : s.After s.scheduleErase := by
  unfold State.scheduleErase
  repeat' split
  · exact ⟨rfl, rfl, rfl⟩
  · exact ⟨rfl, rfl, rfl⟩
  · dsimp only
    split <;> exact ⟨rfl, rfl, rfl⟩
  · exact ⟨rfl, rfl, rfl⟩
  · exact ⟨rfl, rfl, rfl⟩

theorem State.placed_after (s : State) : s.placed.After s.settle :=
  (State.scheduleErase_after _).trans <| (State.serve_fixes _).after.trans <|
    (State.scheduleErase_after _).trans <| (State.serve_fixes _).after.trans
    (State.checkSuspend_fixes _).after

/-- With an erase in hand no other is requested (R56). -/
theorem State.scheduleErase_held {s : State} (h : s.array.context ≠ none) : s.scheduleErase = s := by
  unfold State.scheduleErase
  rw [Option.isSome_iff_ne_none.2 h, Bool.true_or, if_pos rfl]

/-- Placement hands over no notice but that FULL is entered, and leaves the Stream Tracker. -/
theorem State.placeHead_raised (s : State) :
    s.placeHead.tracker = s.tracker ∧ (s.placeHead.raised = s.raised ∨
      s.placeHead.raised = s.raised ++ [(.segmentManager, .full true)]) := by
  have room : s.askRoom.tracker = s.tracker ∧ (s.askRoom.raised = s.raised ∨
      s.askRoom.raised = s.raised ++ [(.segmentManager, .full true)]) := by
    unfold State.askRoom
    dsimp only
    split
    · exact ⟨rfl, .inl rfl⟩
    · exact ⟨rfl, .inr rfl⟩
  unfold State.placeHead
  repeat' split
  all_goals first | exact room | exact ⟨rfl, .inl rfl⟩

theorem State.excessTest_raised (s : State) : s.excessTest.raised = s.raised := by
  unfold State.excessTest
  repeat' split
  all_goals rfl

/-- A pending entry that the excess test adds is a hole of the excess list (R177). -/
theorem State.excessTest_pending (s : State) (x : Pending) (h : x ∈ s.excessTest.tracker.pending) :
    x ∈ s.tracker.pending ∨ ∃ r ∈ s.tracker.excess, x = .hole r.origin r.first r.last := by
  unfold State.excessTest at h
  split at h
  · exact .inl h
  · next r l he =>
    split at h
    · rcases List.mem_append.1 h with h | h
      · exact .inl h
      · exact .inr ⟨r, by rw [he]; exact List.mem_cons_self, List.mem_singleton.1 h⟩
    · exact .inl h

theorem State.excessTest_index (s : State) : s.excessTest.tracker.index = s.tracker.index := by
  unfold State.excessTest
  repeat' split
  all_goals rfl

/-! ### Through the whole of it -/

theorem State.placed_tracker (s : State) : s.placed.tracker = s.excessTest.tracker :=
  (State.placeHead_raised _).1.trans (State.fillSlots_fixes _).tracker

/-- Before the placement the Journal Writer takes jobs at its tail, and the segment table and the array
rest. -/
theorem State.refilled_fields (s : State) :
    s.refilled.segments = s.segments ∧ s.refilled.array = s.array ∧
      (∃ more, s.refilled.writer = { s.writer with jobs := s.writer.jobs ++ more }) ∧
      s.refilled.raised = s.raised := by
  have filled := s.excessTest.fillSlots_fixes
  refine ⟨?_, ?_, ?_, filled.raised.trans s.excessTest_raised⟩
  · rw [State.refilled, State.fillSlots_segments, State.excessTest_segments]
  · rw [State.refilled, State.fillSlots_array, State.excessTest_array]
  · rw [State.refilled, filled.writer]
    unfold State.excessTest
    repeat' split
    · exact ⟨[], by rw [List.append_nil]⟩
    · exact ⟨_, rfl⟩
    · exact ⟨[], by rw [List.append_nil]⟩

/-- After the placement the Journal Writer rests. -/
theorem State.conclude_writer (s : State) : s.conclude.writer = s.placed.writer :=
  s.placed_after.writer

/-- Of the pending list the end of an event makes no more than the excess test adds. -/
theorem State.conclude_pending (s : State) :
    s.conclude.tracker.pending = s.excessTest.tracker.pending :=
  s.placed_after.pending.trans (congrArg Tracker.pending s.placed_tracker)

/-- The notices of an event's end: those handed over before, and that FULL is entered. -/
theorem State.settle_raised (s : State) : s.settle.raised = s.raised ∨
    s.settle.raised = s.raised ++ [(.segmentManager, .full true)] := by
  rw [s.placed_after.raised, ← s.refilled_fields.2.2.2]
  exact (State.placeHead_raised _).2

/-! ### An entry of the segment table, an erase being in hand -/

/-- A serving keeps the erase in hand. -/
theorem serveClaims_held (fuel : Nat) {s : State} (held : s.array.context ≠ none) :
    (serveClaims fuel s).array.context ≠ none := by
  refine serveClaims_rel (R := fun s t => s.array.context ≠ none → t.array.context ≠ none)
    (fun served held => ?_) (fun refused later held => later ?_) fuel s held
  · cases served with
    | erase c => exact fun h => nomatch h
    | _ => exact held
  · cases refused with
    | host c => exact held
    | fetch c rest =>
      rw [(State.skipSeq_fetchOnly _ _ _ _).context]
      exact held

/-- A serving opens the segment of the header program claim alone. -/
theorem serveClaims_entry (fuel : Nat) {s : State} (i : Nat)
    (claim : s.array.programClaim ≠ some (.header i)) :
    (serveClaims fuel s).segments.table[i]? = s.segments.table[i]? ∧
      (serveClaims fuel s).array.programClaim ≠ some (.header i) := by
  refine serveClaims_rel (R := fun s t => s.array.programClaim ≠ some (.header i) →
    t.segments.table[i]? = s.segments.table[i]? ∧ t.array.programClaim ≠ some (.header i))
    ?_ ?_ fuel s claim
  · intro s t served claim
    cases served with
    | record => exact ⟨rfl, nofun⟩
    | header k host program =>
      have other : k ≠ i := fun e => claim (e ▸ program)
      exact ⟨(Segments.setState_getElem? _ _ _ _).trans (if_neg other), nofun⟩
    | _ => exact ⟨rfl, claim⟩
  · intro s t u refused later claim
    cases refused with
    | host c => exact later claim
    | fetch c rest =>
      have kept := State.skipSeq_fetchOnly (s.setArray { s.array with fetchClaims := rest })
        c.requester c.origin c.seq
      obtain ⟨table, header⟩ := later (by rw [kept.programClaim]; exact claim)
      exact ⟨table.trans (by rw [kept.segments]; rfl), header⟩

/-- With an erase in hand the two decisions of R56 at an event's end change nothing. -/
theorem State.conclude_held {s : State} (held : s.array.context ≠ none) :
    s.conclude = s.placed.serve.serve.checkSuspend.flush := by
  have placed : s.placed.array.context ≠ none := by
    rw [State.placed, State.placeHead_array, s.refilled_fields.2.1]
    exact held
  have served : s.placed.serve.array.context ≠ none := serveClaims_held _ placed
  rw [State.conclude_eq, State.scheduleErase_held placed, State.scheduleErase_held served]

/-- With an erase in hand the check index stays (R83). -/
theorem State.conclude_index {s : State} (held : s.array.context ≠ none) :
    s.conclude.tracker.index = s.tracker.index := by
  have after := (s.placed.serve_fixes.trans (State.serve_fixes _)).trans (State.checkSuspend_fixes _)
  rw [State.conclude_held held]
  exact (congrArg Tracker.index (after.tracker.trans s.placed_tracker)).trans s.excessTest_index

/-- With an erase in hand an entry whose header program is not claimed stays as the placement left
it. -/
theorem State.conclude_entry {s : State} (held : s.array.context ≠ none) {i : Nat}
    (claim : s.placed.array.programClaim ≠ some (.header i)) :
    s.conclude.segments.table[i]? = s.placed.segments.table[i]? := by
  obtain ⟨first, claim⟩ := serveClaims_entry (2 * s.placed.array.fetchClaims.length + 3) i claim
  obtain ⟨second, -⟩ := serveClaims_entry (2 * s.placed.serve.array.fetchClaims.length + 3) i claim
  rw [State.conclude_held held]
  show (State.checkSuspend _).segments.table[i]? = _
  rw [State.checkSuspend_segments]
  exact second.trans first

/-! ### An entry through the placement of the head job -/

/-- The Journal Writer asks for room: an entry that is not ERASED once the OPEN segment is sealed stays
so, and no header program is claimed of it. -/
theorem State.askRoom_entry {s : State} {i : Nat} {e : Segment}
    (he : s.segments.seal.table[i]? = some e) (used : e.state ≠ .erased)
    (claim : s.array.programClaim ≠ some (.header i)) :
    s.askRoom.segments.table[i]? = some e ∧ s.askRoom.array.programClaim ≠ some (.header i) := by
  cases chosen : s.segments.seal.chooseErased with
  | none =>
    rw [State.askRoom_full chosen]
    exact ⟨he, claim⟩
  | some k =>
    rw [State.askRoom_chosen chosen]
    refine ⟨he, fun h => ?_⟩
    obtain ⟨x, hx, erased⟩ := Segments.chooseErased_some chosen
    cases h
    cases he.symm.trans hx
    exact used erased

/-- An entry that is neither OPEN nor ERASED is not touched by the placement. -/
theorem State.placeHead_entry {s : State} {i : Nat} {e : Segment}
    (he : s.segments.table[i]? = some e) (closed : e.state.isOpen = false) (used : e.state ≠ .erased)
    (claim : s.array.programClaim ≠ some (.header i)) :
    s.placeHead.segments.table[i]? = some e ∧ s.placeHead.array.programClaim ≠ some (.header i) := by
  have other {k n : Nat} {u : InUse} {c : Cursor} (h : s.segments.open? = some (k, u, c, n)) :
      k ≠ i := by
    rintro rfl
    obtain ⟨x, hx, opened⟩ := Segments.open?_some h
    cases he.symm.trans hx
    rw [opened] at closed
    cases closed
  have sealed : s.segments.seal.table[i]? = some e := by
    rcases s.segments.seal_cases with h | ⟨k, u, c, n, ho, h⟩
    · rw [h, he]
    · rw [h, Segments.setState_getElem?, if_neg (other ho), he]
  have claimed {k n page offset : Nat} {u : InUse} (h : k ≠ i) :
      (s.claimRecord k u n page offset).segments.table[i]? = some e :=
    (Segments.setState_getElem? _ _ _ _).trans ((if_neg h).trans he)
  unfold State.placeHead
  repeat' split
  · exact ⟨he, claim⟩
  · exact ⟨he, claim⟩
  · next h _ => exact ⟨claimed (other h), nofun⟩
  · next h _ _ => exact ⟨claimed (other h), nofun⟩
  · exact State.askRoom_entry sealed used claim
  · exact State.askRoom_entry sealed used claim
  · exact State.askRoom_entry sealed used claim

/-! ### Notices of one block (R167) -/

/-- The notices of one block alone join in their order. -/
theorem joinOrder_oneBlock (b : Block) (l : List Notice) (i : Nat) :
    joinOrder l.length (l.map fun n => (b, n)) i = (l, i) := by
  induction l with
  | nil => rfl
  | cons n l ih =>
    have later (l : List Notice) : nextNotices (l.map fun n => (b, n)) [b] = [] := by
      induction l with
      | nil => rfl
      | cons n l ih => simpa [nextNotices] using ih
    have next : nextNotices ((n :: l).map fun n => (b, n)) [] = [(b, n)] := by
      simp [nextNotices, later]
    simp only [List.length_cons, joinOrder, next]
    simp [ih]

theorem State.flush_oneBlock {s : State} {b : Block} {l : List Notice}
    (h : s.raised = l.map fun n => (b, n)) : s.flush.port = l.foldl Port.take s.port := by
  have order := joinOrder_oneBlock b l s.freeIndex
  rw [State.flush, h, List.length_map, order]
  rfl

/-- A notice other than an ARRIVAL joins a queue that has room at its tail (R168). -/
theorem Port.take_room {p : Port} {n : Notice} (kind : n.isArrival = false)
    (room : p.notices.length < 16) : (p.take n).notices = p.notices ++ [n] := by
  have joined : (p.join n).notices = p.notices ++ [n] := by rw [Port.join, if_pos room]
  cases n <;> first | exact joined | cases kind

end Sys2Proof.Machine

/-! ## Program completions: headers and failed records (R10, R14, R28 to R30, R51) -/

namespace Sys2Proof.Machine

/-- What changes flash alone of the fields that State.Keeps names, and is followed by the end of an
event. -/
theorem State.Keeps.butFlash {s u t : State} (a : State.Keeps { s with flash := u.flash } u)
    (b : u.Keeps t) : State.Keeps { s with flash := t.flash } t := by
  rw [b.flash]
  exact a.trans b

theorem flashAddress_eq (k page offset : Nat) :
    flashAddress k page offset = (k * 256 + page) * 256 + offset := rfl

theorem flashBytes_eq : flashBytes = 4194304 := rfl

/-! ### Headers -/

theorem length_headerFields (generation : Word) (first : Nat) {floor : List Nat}
    (h : floor.length = 16) : (headerFields generation first floor).length = 76 := by
  simp [headerFields, natBytes, h]

theorem length_headerBytes (generation : Word) (first : Nat) {floor : List Nat}
    (h : floor.length = 16) : (headerBytes generation first floor).length = 80 := by
  simp [headerBytes, length_headerFields, h]

theorem State.headerWritten_eq {s : State} {k n : Nat} {u : InUse} {c : Cursor} {g : Word} {r : Bool}
    (he : s.segments.table[k]? = some ⟨.opened u c n, g, r⟩) :
    s.headerWritten k = (s.setFlash (s.flash.program (k * 65536)
        (headerBytes g u.firstPosition u.floor))).setSegments
      (s.segments.setState k (.opened u c 0)) := by
  have place : flashAddress k 0 0 = k * 65536 := by rw [flashAddress_eq]; omega
  rw [← place]
  unfold State.headerWritten
  rw [he]

/-- A header program GOOD, its event's end included: the header stands at page 0 (R28). -/
theorem execHeaderProgramCompletion_good {s : State} {k n : Nat} {u : InUse} {c : Cursor} {g : Word}
    {r : Bool} (running : s.array.activity = .program (.header k))
    (he : s.segments.table[k]? = some ⟨.opened u c n, g, r⟩) (inArray : k < 64)
    (wf : s.flash.wf = true) (floor : u.floor.length = 16) :
    ∃ t, execHeaderProgramCompletion .good s = .next t ∧
      (∀ a, t.flash.readByte a = if k * 65536 ≤ a ∧ a < k * 65536 + 80 then
          (headerBytes g u.firstPosition u.floor).getD (a - k * 65536) 0xFF
        else s.flash.readByte a) ∧
      State.Keeps { s with flash := t.flash } t ∧ s.KeepsTables t := by
  refine ⟨(s.arrayIdle.headerWritten k).conclude, by rw [execHeaderProgramCompletion, running], ?_⟩
  have written := State.headerWritten_eq (s := s.arrayIdle) he
  have length := length_headerBytes g u.firstPosition floor
  have kept := State.conclude_keeps (s.arrayIdle.headerWritten k)
  refine ⟨fun a => ?_, .butFlash ?_ kept, .trans ?_ (State.conclude_tables _)⟩
  · rw [kept.flash, written, ← length]
    exact Flash.readByte_program wf _ _ a (by rw [length, flashBytes_eq]; omega)
  · rw [written]
    constructor <;> rfl
  · rw [written]
    constructor <;> rfl

/-- A header program FAILED, its event's end included: the segment is RETIRED (R30). -/
theorem execHeaderProgramCompletion_failed {s : State} {k : Nat} {e : Segment}
    (running : s.array.activity = .program (.header k)) (free : s.array.programClaim = none)
    (he : s.segments.table[k]? = some e) :
    ∃ t, execHeaderProgramCompletion .failed s = .next t ∧
      (t.segments.table[k]?.map (·.state)) = some .retired ∧
      (∀ a, segmentOf a ≠ k → t.flash.readByte a = s.flash.readByte a) ∧
      State.Keeps { s with flash := t.flash } t ∧ s.KeepsTables t := by
  let u := s.arrayIdle.headerFailed k
  refine ⟨u.conclude, by rw [execHeaderProgramCompletion, running], ?_⟩
  have kept := u.conclude_keeps
  have retired : u.segments.table[k]? = some { e with state := .retired } := by
    refine (Segments.setState_getElem? _ _ _ _).trans ?_
    rw [if_pos rfl]
    exact congrArg _ he
  have unclaimed : u.HeaderClaimOk := fun j hj => nomatch free.symm.trans hj
  obtain ⟨x, hx, turned⟩ := (State.conclude_turns unclaimed).entry k _ retired
  refine ⟨by rw [hx, Option.map_some, turned.retired rfl], fun a other => ?_, .butFlash ?_ kept,
    .trans ?_ (State.conclude_tables _)⟩
  · rw [kept.flash]
    exact (Flash.readByte_spoilSegment _ _ _ _).trans (if_neg other)
  · constructor <;> rfl
  · constructor <;> rfl

/-! ### Failed records -/

/-- A record program FAILED as an equation of whole states (R14, R29, R30). -/
theorem State.recordFailed_eq (s : State) (p : Place) : s.recordFailed p = { s with
    flash := s.flash.spoilRecord p.segment p.page p.offset
    writer := { s.writer with place := none }
    segments := s.segments.change p.segment fun e =>
      { e with state := e.state.recordFailed p, retire := e.retire || e.state.failedBefore }
    raised := s.raised ++
      if (s.segments.table[p.segment]?.map (·.state.failedBefore)).getD false then
        [(.segmentManager, .media p.segment false)] else [] } := by
  unfold State.recordFailed
  dsimp only
  split
  · rfl
  · rw [List.append_nil]
    rfl

theorem State.arrayIdle_recordFailed (s : State) (p : Place) :
    (s.arrayIdle.recordFailed p).array = { s.array with activity := .idle } := by
  rw [State.recordFailed_eq]
  rfl

theorem Flash.spoiledAt_spoilRecord (f : Flash) (k page offset : Nat) :
    (f.spoilRecord k page offset).spoiledAt k page offset = true := by
  simp [Flash.spoiledAt, Flash.spoilRecord]

theorem zipIdx_modify {α : Type} (l : List α) (k : Nat) (f : α → α) :
    (l.modify k f).zipIdx = l.zipIdx.map fun e => if e.2 = k then (f e.1, e.2) else e := by
  refine List.ext_getElem? fun i => ?_
  simp only [List.getElem?_zipIdx, List.getElem?_modify, List.getElem?_map, Option.map_map, Nat.zero_add]
  by_cases h : k = i
  · subst h
    simp [Function.comp_def]
  · simp [h, Ne.symm h, Function.comp_def]

/-- The OPEN segment stays the first OPEN one when its cursor moves. -/
theorem Segments.open?_moved {m : Segments} {k n n' : Nat} {u : InUse} {c c' : Cursor}
    (opened : m.open? = some (k, u, c, n)) {f : Segment → Segment}
    (moved : ∀ e, e.state = .opened u c n → (f e).state = .opened u c' n') :
    (m.change k f).open? = some (k, u, c', n') := by
  unfold Segments.open? at opened ⊢
  obtain ⟨before, ⟨e, i⟩, after, table, found, unopened⟩ := List.findSome?_eq_some_iff.1 opened
  have rising := zipIdx_rising m.table
  rw [table] at rising
  obtain ⟨-, upper, lower⟩ := List.pairwise_append.1 rising
  have upper := (List.pairwise_cons.1 upper).1
  dsimp only at found
  split at found
  · next state =>
    cases found
    refine List.findSome?_eq_some_iff.2 ⟨before, (f e, k), after, ?_, ?_, unopened⟩
    · have same (l : List (Segment × Nat)) (h : ∀ x ∈ l, x.2 ≠ k) :
          l.map (fun x => if x.2 = k then (f x.1, x.2) else x) = l :=
        (List.map_congr_left fun x hx => if_neg (h x hx)).trans (List.map_id l)
      show (m.table.modify k f).zipIdx = _
      rw [zipIdx_modify, table, List.map_append, List.map_cons, if_pos rfl,
        same before fun x hx => (lower x hx _ List.mem_cons_self).ne,
        same after fun x hx => (upper x hx).ne']
    · dsimp only
      rw [moved e state]
  · cases found

theorem State.askRoom_writer (s : State) : s.askRoom.writer = s.writer := by
  unfold State.askRoom
  dsimp only
  split <;> rfl

/-- The state in which the job of a failed record program is placed again (R14). -/
theorem State.recordFailed_refilled (s : State) (p : Place) :
    let v := (s.arrayIdle.recordFailed p).refilled
    v.segments = s.segments.change p.segment (fun e =>
      { e with state := e.state.recordFailed p, retire := e.retire || e.state.failedBefore }) ∧
    v.array = { s.array with activity := .idle } ∧
    ∃ more, v.writer = { s.writer with jobs := s.writer.jobs ++ more, place := none } := by
  obtain ⟨segments, array, ⟨more, writer⟩, -⟩ := (s.arrayIdle.recordFailed p).refilled_fields
  rw [State.recordFailed_eq] at segments array writer ⊢
  exact ⟨segments, array, more, writer⟩

section Failed

variable {s : State} {j : Job} {rest : List Job} {p : Place} (jobs : s.writer.jobs = j :: rest)
  (unclaimed : s.array.programClaim = none)
include jobs unclaimed

/-- At the first failure, a page being left, the job is placed again at its byte 0 (R14, R29). -/
theorem State.recordFailed_nextPage {u : InUse} {c : Cursor}
    (opened : s.segments.open? = some (p.segment, u, c, 0)) (left : p.page < 255)
    (full : s.segments.full = false) (fits : j.body.size ≤ 256) :
    (s.arrayIdle.recordFailed p).conclude.writer.place
      = some ⟨s.writer.nextPosition, p.segment, p.page + 1, 0⟩ := by
  obtain ⟨segments, array, more, writer⟩ := s.recordFailed_refilled p
  have moved : (s.arrayIdle.recordFailed p).refilled.segments.open?
      = some (p.segment, u, .place (p.page + 1) 0, 1) := by
    rw [segments]
    exact Segments.open?_moved opened fun e he => by simp [he, SegmentState.recordFailed, nextPage, left]
  have placed := State.placeHead_place (rest := rest ++ more) (by rw [writer, jobs]; rfl)
    (by rw [array, ArrayEngine.programBusy, unclaimed]; rfl) (by rw [segments]; exact full) moved
  rw [State.conclude_writer, State.placed, placed, if_pos fits, State.claimRecord]
  show some (Place.mk (s.arrayIdle.recordFailed p).refilled.writer.nextPosition _ _ _) = _
  rw [writer]

/-- At the first failure on page 255 the segment is sealed SEALED and the job waits for a place (R50). -/
theorem State.recordFailed_lastPage {u : InUse} {c : Cursor} {g : Word} {r : Bool}
    (opened : s.segments.open? = some (p.segment, u, c, 0))
    (he : s.segments.table[p.segment]? = some ⟨.opened u c 0, g, r⟩) (last : 255 ≤ p.page)
    (full : s.segments.full = false) (held : s.array.context ≠ none) :
    (s.arrayIdle.recordFailed p).conclude.segments.table[p.segment]? = some ⟨.sealed u, g, r⟩ ∧
      (s.arrayIdle.recordFailed p).conclude.writer.place = none := by
  obtain ⟨segments, array, more, writer⟩ := s.recordFailed_refilled p
  have past : nextPage p.page = .past := if_neg (by omega)
  have moved : (s.arrayIdle.recordFailed p).refilled.segments.open?
      = some (p.segment, u, .past, 1) := by
    rw [segments]
    exact Segments.open?_moved opened fun e he => by simp [he, SegmentState.recordFailed, past]
  have placed := State.placeHead_noRoom (rest := rest ++ more) (by rw [writer, jobs]; rfl)
    (by rw [array, ArrayEngine.programBusy, unclaimed]; rfl) (by rw [segments]; exact full)
    (.inr (.inl ⟨_, _, _, moved⟩))
  have sealed : (s.arrayIdle.recordFailed p).refilled.segments.seal.table[p.segment]?
      = some ⟨.sealed u, g, r⟩ := by
    rw [Segments.seal, moved]
    dsimp only
    rw [Segments.setState_getElem?, if_pos rfl, segments, Segments.change_getElem?, if_pos rfl, he]
    simp [SegmentState.failedBefore]
  obtain ⟨entry, claim⟩ := State.askRoom_entry sealed nofun (by rw [array, unclaimed]; nofun)
  rw [← placed] at entry claim
  constructor
  · exact (State.conclude_entry (s := s.arrayIdle.recordFailed p)
      (by rw [State.arrayIdle_recordFailed]; exact held) claim).trans entry
  · rw [State.conclude_writer, State.placed, placed]
    rw [State.askRoom_writer, writer]

end Failed

/-- At the second failure since its opening the segment is sealed FAULTY, or DIRTY with no record (R30,
R51). -/
theorem State.recordFailed_second {s : State} {p : Place} {u : InUse} {c : Cursor} {n : Nat} {g : Word}
    {r : Bool} (unclaimed : s.array.programClaim = none)
    (he : s.segments.table[p.segment]? = some ⟨.opened u c (n + 1), g, r⟩)
    (held : s.array.context ≠ none) :
    (s.arrayIdle.recordFailed p).conclude.segments.table[p.segment]?
      = some ⟨if 1 ≤ u.count then .faulty u else .dirty, g, true⟩ := by
  obtain ⟨segments, array, -⟩ := s.recordFailed_refilled p
  have failed : (s.arrayIdle.recordFailed p).refilled.segments.table[p.segment]?
      = some ⟨if 1 ≤ u.count then .faulty u else .dirty, g, true⟩ := by
    rw [segments, Segments.change_getElem?, if_pos rfl, he]
    simp [SegmentState.failedBefore, SegmentState.recordFailed]
  obtain ⟨entry, claim⟩ := State.placeHead_entry failed
    (by dsimp only; split <;> rfl) (by dsimp only; split <;> nofun) (by rw [array, unclaimed]; nofun)
  exact (State.conclude_entry (s := s.arrayIdle.recordFailed p)
    (by rw [State.arrayIdle_recordFailed]; exact held) claim).trans entry

/-- The MEDIA notice of a second failure joins a queue with room for it (R30). -/
theorem State.recordFailed_media {s : State} {p : Place} {u : InUse} {c : Cursor} {n : Nat} {g : Word}
    {r : Bool} (he : s.segments.table[p.segment]? = some ⟨.opened u c (n + 1), g, r⟩)
    (none : s.raised = []) (room : s.port.notices.length ≤ 14) :
    (.media p.segment false : Notice) ∈ (s.arrayIdle.recordFailed p).conclude.port.notices := by
  let v := s.arrayIdle.recordFailed p
  have media : v.raised = [(.segmentManager, .media p.segment false)] := by
    show (s.arrayIdle.recordFailed p).raised = _
    rw [State.recordFailed_eq]
    show s.raised ++ (if (s.segments.table[p.segment]?.map _).getD false then _ else _) = _
    rw [he, none]
    rfl
  have port : v.settle.port.notices = s.port.notices := by
    rw [v.settle_notices.1]
    show (s.arrayIdle.recordFailed p).port.notices = _
    rw [State.recordFailed_eq]
    rfl
  have first := Port.take_room (p := v.settle.port) (n := .media p.segment false) rfl
    (by rw [port]; omega)
  show _ ∈ v.settle.flush.port.notices
  rcases v.settle_raised with raised | raised
  · rw [State.flush_oneBlock (b := .segmentManager) (l := [.media p.segment false])
      (by rw [raised, media]; rfl), List.foldl_cons, List.foldl_nil, first]
    exact List.mem_append_right _ List.mem_cons_self
  · rw [State.flush_oneBlock (b := .segmentManager) (l := [.media p.segment false, .full true])
      (by rw [raised, media]; rfl), List.foldl_cons, List.foldl_cons, List.foldl_nil,
      Port.take_room rfl (by rw [first, port]; simp; omega), first]
    exact List.mem_append_left _ (List.mem_append_right _ List.mem_cons_self)

end Sys2Proof.Machine

namespace Sys2Proof

open Machine

/-- Settles O41: the header of the serving in flash, or the segment RETIRED. -/
theorem headerProgrammed : Obligations.HeaderProgrammed :=
  fun _ _ running =>
    ⟨fun _ _ _ _ _ he inArray wf floor =>
      execHeaderProgramCompletion_good running he inArray wf floor,
    fun free ⟨_, he⟩ => execHeaderProgramCompletion_failed running free he⟩

/-- Settles O40: the failed record's state, and what the end of the event makes of it. -/
theorem recordProgramFails : Obligations.RecordProgramFails := by
  intro s j rest p running jobs place
  have kept := State.conclude_keeps (s.arrayIdle.recordFailed p)
  have grows := (State.conclude_grows (s.arrayIdle.recordFailed p)).jobs
  have failed := State.recordFailed_eq s.arrayIdle p
  refine ⟨(s.arrayIdle.recordFailed p).conclude, ?_, ?_, ?_, ?_, ?_,
    fun u c opened left full unclaimed fits =>
      State.recordFailed_nextPage jobs unclaimed opened left full fits,
    fun u c g r opened he last full unclaimed held =>
      State.recordFailed_lastPage jobs unclaimed opened he last full held,
    fun u c n g r he unclaimed held =>
      ⟨State.recordFailed_second unclaimed he held, State.recordFailed_media he⟩, ?_, ?_⟩
  · show execRecordProgramCompletion .failed s = _
    rw [execRecordProgramCompletion, running, jobs, place]
  · rw [kept.nextPosition, failed]
    rfl
  · rw [failed] at grows ⊢
    obtain ⟨more, h⟩ := grows
    rw [← h]
    show (s.writer.jobs ++ more).head? = _
    rw [jobs]
    rfl
  · intro a
    rw [kept.flash, failed]
    rfl
  · rw [kept.flash, failed]
    exact Flash.spoiledAt_spoilRecord _ _ _ _
  · refine .butFlash ?_ kept
    rw [failed]
    constructor <;> rfl
  · refine .trans ?_ (State.conclude_tables _)
    rw [failed]
    constructor <;> rfl

end Sys2Proof

/-! ## A record program GOOD (R7, R27, R44, R47, R83, R91, R104) -/

namespace Sys2Proof.Machine

/-! ### The offers of HOLE jobs (R96, R139, R177) -/

/-- What the excess test and the offers of HOLE jobs leave: held-through, the HELD-due flags, the excess
list, the check index, the segment table and the array stay; holes join the pending list, and jobs the
queue at its tail. -/
structure State.Offers (s t : State) : Prop where
  through : ∀ p, (t.tracker.holding p).through = (s.tracker.holding p).through
  due : ∀ p, (t.tracker.holding p).due = (s.tracker.holding p).due
  excess : t.tracker.excess = s.tracker.excess
  index : t.tracker.index = s.tracker.index
  pending : ∀ x ∈ t.tracker.pending, x ∈ s.tracker.pending ∨ ∃ o a b, x = .hole o a b
  jobs : s.writer.jobs <+: t.writer.jobs
  segments : t.segments = s.segments
  array : t.array = s.array

theorem State.Offers.of_eq {s t : State} (tracker : t.tracker = s.tracker) (writer : t.writer = s.writer)
    (segments : t.segments = s.segments) (array : t.array = s.array) : s.Offers t := by
  constructor
  · intro p; rw [tracker]
  · intro p; rw [tracker]
  · rw [tracker]
  · rw [tracker]
  · intro x hx; rw [tracker] at hx; exact .inl hx
  · rw [writer]
  · exact segments
  · exact array

theorem State.Offers.refl (s : State) : s.Offers s := .of_eq rfl rfl rfl rfl

theorem State.Offers.trans {s t u : State} (a : s.Offers t) (b : t.Offers u) : s.Offers u where
  through p := (b.through p).trans (a.through p)
  due p := (b.due p).trans (a.due p)
  excess := b.excess.trans a.excess
  index := b.index.trans a.index
  pending x hx := (b.pending x hx).elim (a.pending x) .inr
  jobs := a.jobs.trans b.jobs
  segments := b.segments.trans a.segments
  array := b.array.trans a.array

theorem State.excessTest_offers (s : State) : s.Offers s.excessTest where
  through p := by rw [Tracker.holding, s.excessTest_tables.holdings]; rfl
  due p := by rw [Tracker.holding, s.excessTest_tables.holdings]; rfl
  excess := s.excessTest_tables.excess
  index := s.excessTest_index
  pending x hx := (s.excessTest_pending x hx).imp_right fun ⟨r, _, h⟩ => ⟨_, _, _, h⟩
  jobs := s.excessTest_grows.jobs
  segments := s.excessTest_segments
  array := s.excessTest_array

theorem State.setSlot_offers (s : State) (i : Nat) (v : Option SeekSlot) : s.Offers (s.setSlot i v) := by
  unfold State.setSlot
  dsimp only
  split <;> exact .of_eq rfl rfl rfl rfl

theorem State.narrowOrigin_offers (s : State) (o : Nat) : s.Offers (s.narrowOrigin o) := by
  have narrow (s : State) (i : Nat) : s.Offers (s.narrowSlot i) := by
    unfold State.narrowSlot
    split
    · exact s.setSlot_offers _ _
    · exact .refl s
  unfold State.narrowOrigin
  exact foldl_rel .refl .trans (fun s i => by split; exact narrow s i; exact .refl s) _ s

theorem State.holeAdmitted_offers (s : State) (o first last : Nat) :
    s.Offers (s.holeAdmitted o first last) :=
  .trans (t := s.raise .repairController (.hole o first last)) (.of_eq rfl rfl rfl rfl)
    (State.narrowOrigin_offers _ _)

/-- One origin's holdings changed in a field that reads the same before and after. -/
theorem Tracker.holding_change_field {α : Type} (field : Holding → α) (t : Tracker) (o p : Nat)
    {f : Holding → Holding} (h : ∀ x, field (f x) = field x) :
    field ((t.change o f).holding p) = field (t.holding p) := by
  by_cases ho : o < t.holdings.length
  · rw [Tracker.holding_change _ _ _ _ ho]
    split
    · exact h _
    · rfl
  · rw [Tracker.change, List.modify_eq_self (by omega)]

theorem State.offerHole_offers {s t : State} {o first last : Nat}
    (h : s.offerHole o first last = some t) : s.Offers t := by
  obtain ⟨-, -, -, rfl⟩ := State.offerHole_some h
  constructor
  · exact fun p => s.tracker.holding_change_field Holding.through o p fun _ => rfl
  · exact fun p => s.tracker.holding_change_field Holding.due o p fun _ => rfl
  · rfl
  · rfl
  · intro x hx
    exact (List.mem_append.1 hx).imp_right fun h => ⟨_, _, _, List.mem_singleton.1 h⟩
  · exact List.prefix_append _ _
  · rfl
  · rfl

theorem declareSlot_offers (fuel : Nat) (s : State) (i : Nat) : s.Offers (declareSlot fuel s i) := by
  induction fuel generalizing s with
  | zero => exact .refl s
  | succ fuel ih =>
    unfold declareSlot
    split
    · exact .refl s
    · split
      · exact .refl s
      · split
        · exact s.setSlot_offers _ _
        · dsimp only
          split
          · exact s.setSlot_offers _ _
          · split
            · next offered =>
              exact ((State.offerHole_offers offered).trans (State.holeAdmitted_offers _ _ _ _)).trans
                (ih _)
            · exact s.setSlot_offers _ _

theorem State.offerHoles_offers (s : State) : s.Offers s.offerHoles :=
  foldl_rel .refl .trans (fun s i => declareSlot_offers 17 s i) _ s

/-- Without a DECLARING slot nothing is offered. -/
theorem State.offerHoles_none {s : State}
    (h : ∀ sl : SeekSlot, some sl ∈ s.repair.slots → sl.state ≠ .declaring) : s.offerHoles = s := by
  have nothing (i : Nat) : declareSlot 17 s i = s := by
    unfold declareSlot
    cases slot : s.repair.slot? i with
    | none => rfl
    | some sl =>
      refine if_pos (h sl ?_)
      have slot : (s.repair.slots[i]?).getD none = some sl := by
        rw [← slot, Repair.slot?, List.getD_eq_getElem?_getD]
      obtain ⟨x, hx, rfl⟩ : ∃ x, s.repair.slots[i]? = some x ∧ x = some sl := by
        cases hx : s.repair.slots[i]? with
        | none => rw [hx] at slot; cases slot
        | some x => exact ⟨x, rfl, by rw [hx] at slot; exact slot⟩
      exact List.mem_of_getElem? hx
  unfold State.offerHoles
  generalize List.range Config.slotCount = l
  induction l with
  | nil => rfl
  | cons i l ih => rw [List.foldl_cons, nothing i, ih]

/-! ### Held-through at a completion (R91) -/

/-- An origin without an entry reads as zero, and advances to nothing. -/
theorem Tracker.advanced_absent {t : Tracker} {o : Nat} (h : t.holdings.length ≤ o) :
    t.holding o = ⟨0, 0, 0, false⟩ ∧ t.advanced o = 0 := by
  have zero : t.holding o = ⟨0, 0, 0, false⟩ := by
    rw [Tracker.holding, List.getD_eq_getElem?_getD, List.getElem?_eq_none h]
    rfl
  have le := Tracker.advanced_le (t := t) (o := o) (by rw [zero])
  rw [zero] at le
  exact ⟨zero, Nat.le_zero.1 le⟩

theorem State.advance_holding (s : State) (o : Nat) :
    ((s.advance o).tracker.holding o).through = s.tracker.advanced o ∧
    ((s.advance o).tracker.holding o).due = ((s.tracker.holding o).due ||
      (decide ((s.tracker.holding o).through < s.tracker.advanced o) && !s.isOwn o)) := by
  unfold State.advance
  rw [State.setTracker_tracker]
  by_cases ho : o < s.tracker.holdings.length
  · rw [Tracker.holding_change _ _ _ _ ho, if_pos rfl]
    exact ⟨rfl, rfl⟩
  · obtain ⟨zero, advanced⟩ := Tracker.advanced_absent (Nat.le_of_not_lt ho)
    have same (f : Holding → Holding) : (s.tracker.change o f).holding o = s.tracker.holding o := by
      rw [Tracker.change, List.modify_eq_self (Nat.le_of_not_lt ho)]
    rw [same, zero, advanced]
    simp

theorem State.advance_other (s : State) {o p : Nat} (h : p ≠ o) :
    (s.advance o).tracker.holding p = s.tracker.holding p :=
  Tracker.holding_change_ne _ _ _ _ h

/-! ### The commit's hand-on (R104) -/

/-- What the confirmation test reads of a state. -/
theorem State.testHolds_congr {s t : State} (submission : t.submission = s.submission)
    (enlistment : t.enlistment = s.enlistment) (presence : t.presence = s.presence) :
    t.testHolds = s.testHolds ∧ t.replicationTarget = s.replicationTarget := by
  have target : t.replicationTarget = s.replicationTarget := by
    unfold State.replicationTarget
    rw [enlistment]
  have size : t.clusterSize = s.clusterSize := by
    unfold State.clusterSize
    rw [enlistment]
  have own : t.isOwn = s.isOwn := by
    unfold State.isOwn
    rw [enlistment]
  have number : t.ownNumber = s.ownNumber := by
    unfold State.ownNumber
    rw [enlistment]
  have counts : t.confirms = s.confirms := by
    unfold State.confirms State.isPeer
    rw [size, own, number, presence]
  refine ⟨?_, target⟩
  unfold State.testHolds State.confirmationCount
  rw [target, size, counts, submission]

theorem State.declareDurable_submission (s : State) (e : Entry) : (s.declareDurable e).submission
    = { s.submission with durable := max s.submission.durable e.seq } := rfl

theorem State.changeEntry_submission (s : State) (seq : Nat) (f : Entry → Entry) :
    (s.changeEntry seq f).submission = { s.submission with
      queue := s.submission.queue.map fun e => if e.seq = seq then f e else e } := rfl

theorem declareDurables_congr (l : List Entry) {s t : State} (h : t.submission = s.submission) :
    (l.foldl State.declareDurable t).submission = (l.foldl State.declareDurable s).submission := by
  induction l generalizing s t with
  | nil => exact h
  | cons e l ih =>
    refine ih ?_
    rw [State.declareDurable_submission, State.declareDurable_submission, h]

theorem State.confirmTest_congr {s t : State} (submission : t.submission = s.submission)
    (enlistment : t.enlistment = s.enlistment) (presence : t.presence = s.presence) :
    t.confirmTest.submission = s.confirmTest.submission := by
  obtain ⟨holds, target⟩ := State.testHolds_congr submission enlistment presence
  unfold State.confirmTest
  rw [holds, target]
  split
  · exact submission
  · dsimp only
    rw [submission]
    exact declareDurables_congr _ rfl

theorem State.commitDone_congr {s t : State} (submission : t.submission = s.submission)
    (enlistment : t.enlistment = s.enlistment) (presence : t.presence = s.presence) (seq : Nat) :
    (t.commitDone seq).submission = (s.commitDone seq).submission := by
  have target := (State.testHolds_congr submission enlistment presence).2
  have changed (f : Entry → Entry) :
      (t.changeEntry seq f).submission = (s.changeEntry seq f).submission := by
    rw [State.changeEntry_submission, State.changeEntry_submission, submission]
  unfold State.commitDone
  rw [submission, target]
  split
  · next e _ =>
    split
    · exact declareDurables_congr [e] (changed _)
    · exact State.confirmTest_congr (changed _) enlistment presence
  · exact submission

theorem State.commitHandOn_congr {s t : State} (submission : t.submission = s.submission)
    (enlistment : t.enlistment = s.enlistment) (presence : t.presence = s.presence) (j : Job) :
    (t.commitHandOn j).submission = (s.commitHandOn j).submission := by
  unfold State.commitHandOn
  split
  · exact State.commitDone_congr submission enlistment presence _
  · exact submission

/-- A completion that is of no commit hands nothing on (R104). -/
theorem State.commitHandOn_other {s : State} {j : Job} (h : j.source ≠ .commit) :
    s.commitHandOn j = s := by
  unfold State.commitHandOn
  split
  · next source _ => exact absurd source h
  · rfl

theorem State.commitHandOn_hole {s : State} {j : Job} {o first last : Nat}
    (h : j.body = .hole o first last) : s.commitHandOn j = s := by
  unfold State.commitHandOn
  split
  · next body => cases h.symm.trans body
  · rfl

theorem State.commitHandOn_release {s : State} {j : Job} {mark : Nat}
    (h : j.body = .release mark) : s.commitHandOn j = s := by
  unfold State.commitHandOn
  split
  · next body => cases h.symm.trans body
  · rfl

/-! ### The completion as a whole -/

/-- What a completion's hand-ons and the end of its event leave of what the Stream Tracker made. -/
structure State.Closes (s t : State) : Prop where
  through : ∀ p, (t.tracker.holding p).through = (s.tracker.holding p).through
  due : ∀ p, (t.tracker.holding p).due = (s.tracker.holding p).due
  excess : t.tracker.excess = s.tracker.excess
  index : s.array.context ≠ none → t.tracker.index = s.tracker.index
  pending : ∀ x ∈ t.tracker.pending, x ∈ s.tracker.pending ∨ ∃ o a b, x = .hole o a b
  jobs : s.writer.jobs <+: t.writer.jobs

theorem State.Offers.conclude {s t : State} (h : s.Offers t) : s.Closes t.conclude where
  through p := by rw [← h.through, Tracker.holding, t.conclude_tables.holdings]; rfl
  due p := by rw [← h.due, Tracker.holding, t.conclude_tables.holdings]; rfl
  excess := t.conclude_tables.excess.trans h.excess
  index held := (State.conclude_index (by rw [h.array]; exact held)).trans h.index
  pending x hx := by
    rw [State.conclude_pending] at hx
    rcases t.excessTest_pending x hx with hx | ⟨r, -, hole⟩
    · exact h.pending x hx
    · exact .inr ⟨_, _, _, hole⟩
  jobs := h.jobs.trans t.conclude_grows.jobs

/-- A record placed, in the state in which its job left the array, with the Stream Tracker's part. -/
def State.tracked (s : State) (j : Job) (rest : List Job) (p : Place) : State :=
  (s.arrayIdle.recordPlaced j rest p).trackCompletion j

/-- What a record program GOOD leaves at its event's end. -/
def State.recorded (s : State) (j : Job) (rest : List Job) (p : Place) : State :=
  (s.arrayIdle.programmed j rest p).conclude

section Recorded

variable (s : State) (j : Job) (rest : List Job) (p : Place)

theorem State.tracked_eq : ∃ t, s.tracked j rest p = (s.arrayIdle.recordPlaced j rest p).setTracker t :=
  (State.trackCompletion_form _ j).imp fun _ h => h.1

theorem State.followRelease_offers (body : JobBody) : s.Offers (s.followRelease body) := by
  have queued (x : Job) : s.Offers (s.queueJob x) :=
    ⟨fun _ => rfl, fun _ => rfl, rfl, rfl, fun _ => .inl, List.prefix_append _ _, rfl, rfl⟩
  unfold State.followRelease
  split
  · split
    · exact queued _
    · exact .refl s
  · exact .refl s

theorem State.followRelease_raised {s : State} {mark : Nat} (h : mark < s.writer.releaseMark) :
    s.followRelease (.release mark) = s.queueJob ⟨.release s.writer.releaseMark, .release⟩ :=
  if_pos h

theorem State.followRelease_form (body : JobBody) : ∃ w, s.followRelease body = s.setWriter w := by
  unfold State.followRelease
  split
  · split
    · exact ⟨_, rfl⟩
    · exact ⟨s.writer, rfl⟩
  · exact ⟨s.writer, rfl⟩

theorem State.commitHandOn_offers : s.Offers (s.commitHandOn j) := by
  obtain ⟨q, d, r, h, -⟩ := s.commitHandOn_form j
  rw [h]
  exact .of_eq rfl rfl rfl rfl

theorem State.tracked_offers : (s.tracked j rest p).Offers (s.arrayIdle.programmed j rest p) :=
  ((State.commitHandOn_offers _ j).trans (State.followRelease_offers _ j.body)).trans
    ((State.excessTest_offers _).trans (State.offerHoles_offers _))

theorem State.tracked_closes : (s.tracked j rest p).Closes (s.recorded j rest p) :=
  (s.tracked_offers j rest p).conclude

theorem State.handedOn_keeps :
    ((s.tracked j rest p).commitHandOn j).Keeps (s.recorded j rest p) :=
  ((State.followRelease_keeps _ _).trans ((State.excessTest_keeps _).trans
    (State.offerHoles_keeps _))).trans (State.conclude_keeps _)

/-- A record placed changes flash and the Journal Writer of what State.Keeps names. -/
theorem State.tracked_keeps : State.Keeps { s with
    flash := (s.tracked j rest p).flash
    writer := (s.tracked j rest p).writer } (s.tracked j rest p) := by
  obtain ⟨t, ht⟩ := s.tracked_eq j rest p
  rw [ht]
  constructor <;> simp [State.recordPlaced, State.raise, State.arrayIdle]

/-- The Submission Controller's part is that of the commit (R104). -/
theorem State.recorded_submission :
    (s.recorded j rest p).submission = (s.commitHandOn j).submission := by
  have kept := s.tracked_keeps j rest p
  rw [(s.handedOn_keeps j rest p).submission]
  exact State.commitHandOn_congr (s := s) kept.submission kept.enlistment kept.presence j

theorem State.recorded_flash : (s.recorded j rest p).flash
    = s.flash.program (flashAddress p.segment p.page p.offset) (j.body.bytes p.position) := by
  obtain ⟨t, ht⟩ := s.tracked_eq j rest p
  obtain ⟨q, d, r, h, -⟩ := (s.tracked j rest p).commitHandOn_form j
  rw [(s.handedOn_keeps j rest p).flash, h, ht]
  rfl

/-- Without a DECLARING slot the pending entries are those that the Stream Tracker left, and the holes
of its excess list (R177). -/
theorem State.recorded_pending
    (undeclared : ∀ sl : SeekSlot, some sl ∈ s.repair.slots → sl.state ≠ .declaring) (x : Pending)
    (hx : x ∈ (s.recorded j rest p).tracker.pending) : x ∈ (s.tracked j rest p).tracker.pending ∨
      ∃ r ∈ (s.tracked j rest p).tracker.excess, x = .hole r.origin r.first r.last := by
  let handed := ((s.tracked j rest p).commitHandOn j).followRelease j.body
  obtain ⟨q, d, r, commit, -⟩ := (s.tracked j rest p).commitHandOn_form j
  obtain ⟨w, followed⟩ := ((s.tracked j rest p).commitHandOn j).followRelease_form j.body
  have tracker : handed.tracker = (s.tracked j rest p).tracker := by
    rw [show handed = _ from followed, commit]
    rfl
  have slots : handed.excessTest.repair = s.repair := by
    obtain ⟨t, ht⟩ := s.tracked_eq j rest p
    rw [State.excessTest_repair, show handed = _ from followed, commit, ht]
    simp [State.recordPlaced, State.raise, State.arrayIdle, State.setWriter, State.setSubmission]
  have none : (s.arrayIdle.programmed j rest p) = handed.excessTest :=
    State.offerHoles_none fun sl h => undeclared sl (slots ▸ h)
  have excess := handed.excessTest_tables.excess
  rw [← tracker]
  rw [State.recorded, none, State.conclude_pending] at hx
  rcases State.excessTest_pending _ x hx with hx | ⟨r, hr, h⟩
  · exact handed.excessTest_pending x hx
  · exact .inr ⟨r, excess ▸ hr, h⟩

theorem State.recorded_writer : (s.recorded j rest p).writer.nextPosition = p.position + 1 ∧
    (s.recorded j rest p).writer.releaseMark = s.writer.releaseMark ∧
    ∃ more, (s.recorded j rest p).writer.jobs = rest ++ more := by
  obtain ⟨t, ht⟩ := s.tracked_eq j rest p
  obtain ⟨q, d, r, h, -⟩ := (s.tracked j rest p).commitHandOn_form j
  have kept := s.handedOn_keeps j rest p
  obtain ⟨more, jobs⟩ := (s.tracked_closes j rest p).jobs
  refine ⟨?_, ?_, more, ?_⟩
  · rw [kept.nextPosition, h, ht]
    rfl
  · rw [kept.releaseMark, h, ht]
    rfl
  · rw [← jobs, ht]
    rfl

theorem State.recorded_keeps : State.Keeps { s with
    flash := (s.recorded j rest p).flash
    submission := (s.recorded j rest p).submission
    writer := (s.recorded j rest p).writer } (s.recorded j rest p) := by
  obtain ⟨q, d, r, h, -⟩ := (s.tracked j rest p).commitHandOn_form j
  have handedOn := s.handedOn_keeps j rest p
  rw [h] at handedOn
  obtain ⟨⟩ := s.tracked_keeps j rest p
  obtain ⟨⟩ := handedOn
  constructor <;> simp_all

/-- The record joins the entry of its OPEN segment, which may be requested for erase in the event
(R44). -/
theorem State.recorded_entry (unclaimed : s.array.programClaim = none) {u : InUse} {c : Cursor} {n : Nat}
    {g : Word} {r : Bool} (he : s.segments.table[p.segment]? = some ⟨.opened u c n, g, r⟩) :
    ∃ e, (s.recorded j rest p).segments.table[p.segment]? = some e ∧ e.generation = g ∧
      (e.state.use? = some (u.addRecord (j.body.locator p) j.body.holeLast) ∨ e.state = .erasing) := by
  obtain ⟨t, ht⟩ := s.tracked_eq j rest p
  have offers := s.tracked_offers j rest p
  have segments : (s.arrayIdle.programmed j rest p).segments
      = s.segments.change p.segment fun e => { e with state := e.state.recordPlaced j.body p } := by
    rw [offers.segments, ht]
    rfl
  have claims : (s.arrayIdle.programmed j rest p).HeaderClaimOk := by
    intro k hk
    rw [offers.array, ht] at hk
    exact nomatch unclaimed.symm.trans hk
  obtain ⟨e, entry, turned⟩ := (State.conclude_turns claims).entry p.segment _
    (by rw [segments, Segments.change_getElem?, if_pos rfl, he, Option.map_some])
  exact ⟨e, entry, turned.generation, turned.use rfl⟩

end Recorded

/-! ### By the kind of the record -/

section Kinds

variable {s : State} {j : Job} {rest : List Job} {p : Place}

/-- Held-through of the record's origin advances from the tables that its completion leaves, with the
HELD-due flag of another station's origin; other origins' values stay (R91). -/
theorem State.recorded_advanced {o : Nat} {left : Tracker}
    (holdings : left.holdings = s.tracker.holdings)
    (tracked : s.tracked j rest p = ((s.arrayIdle.recordPlaced j rest p).setTracker left).advance o) :
    ((s.recorded j rest p).tracker.holding o).through = left.advanced o ∧
    ((s.recorded j rest p).tracker.holding o).due = ((s.tracker.holding o).due ||
      (decide ((s.tracker.holding o).through < left.advanced o) && !s.isOwn o)) ∧
    (∀ q, q ≠ o → ((s.recorded j rest p).tracker.holding q).through = (s.tracker.holding q).through ∧
      ((s.recorded j rest p).tracker.holding q).due = (s.tracker.holding q).due) ∧
    (s.recorded j rest p).tracker.excess = left.excess := by
  have closes := s.tracked_closes j rest p
  have same (q : Nat) : left.holding q = s.tracker.holding q := by
    rw [Tracker.holding, holdings]
    rfl
  have own : ((s.arrayIdle.recordPlaced j rest p).setTracker left).isOwn o = s.isOwn o := by
    simp [State.isOwn, State.recordPlaced, State.raise, State.arrayIdle]
  obtain ⟨through, due⟩ := ((s.arrayIdle.recordPlaced j rest p).setTracker left).advance_holding o
  rw [own, State.setTracker_tracker, same] at due
  refine ⟨?_, ?_, fun q hq => ?_, ?_⟩
  · rw [closes.through, tracked, through]
    rfl
  · rw [closes.due, tracked, due]
  · rw [closes.through, closes.due, tracked, State.advance_other _ hq, State.setTracker_tracker, same]
    exact ⟨rfl, rfl⟩
  · rw [closes.excess, tracked]
    rfl

/-- A DATA record (R83, R91). -/
theorem State.recorded_data {o seq : Nat} {tag : Byte} {payload : List Byte} {check : Word}
    (hj : j.body = .data o tag seq payload check) :
    let left := { s.tracker with pending := s.tracker.pending.filter fun p => !p.isData o seq }
    let t := s.recorded j rest p
    (t.tracker.holding o).through = left.advanced o ∧
    (t.tracker.holding o).due = ((s.tracker.holding o).due ||
      (decide ((s.tracker.holding o).through < left.advanced o) && !s.isOwn o)) ∧
    (∀ p, p ≠ o → (t.tracker.holding p).through = (s.tracker.holding p).through ∧
      (t.tracker.holding p).due = (s.tracker.holding p).due) ∧
    (∀ p ∈ t.tracker.pending, p.isData o seq = false) ∧
    t.tracker.excess = s.tracker.excess ∧
    (s.array.context ≠ none → t.tracker.index =
      if o < s.clusterSize then s.tracker.index ++
        [⟨o, seq, check, ((s.tracker.pendingData o seq).map (·.2)).getD false⟩]
      else s.tracker.index) ∧
    (j.source = .commit → t.submission = (s.commitDone seq).submission) := by
  intro left t
  let index := if o < s.clusterSize then s.tracker.index ++
      [⟨o, seq, check, ((s.tracker.pendingData o seq).map (·.2)).getD false⟩]
    else s.tracker.index
  have tracked : s.tracked j rest p
      = ((s.arrayIdle.recordPlaced j rest p).setTracker { left with index := index }).advance o := by
    rw [State.tracked, State.trackCompletion, hj]
    rfl
  have closes := s.tracked_closes j rest p
  obtain ⟨through, due, others, excess⟩ :=
    State.recorded_advanced (left := { left with index := index }) rfl tracked
  refine ⟨through, due, others, fun x hx => ?_, excess, fun held => ?_, fun source => ?_⟩
  · rcases closes.pending x hx with hx | ⟨_, _, _, rfl⟩
    · rw [tracked] at hx
      simpa using (List.mem_filter.1 hx).2
    · rfl
  · refine (closes.index ?_).trans (by rw [tracked]; rfl)
    rw [tracked]
    exact held
  · rw [s.recorded_submission, State.commitHandOn, source, hj]

/-- A HOLE record (R91, R177). -/
theorem State.recorded_hole {o first last : Nat} (hj : j.body = .hole o first last) :
    let left : Tracker := { s.tracker with
      pending := s.tracker.pending.filter fun p => p ≠ .hole o first last
      excess := if j.source = .excess then s.tracker.excess.filter fun r => r ≠ ⟨o, first, last⟩
        else s.tracker.excess }
    let t := s.recorded j rest p
    (t.tracker.holding o).through = left.advanced o ∧
    (t.tracker.holding o).due = ((s.tracker.holding o).due ||
      (decide ((s.tracker.holding o).through < left.advanced o) && !s.isOwn o)) ∧
    (∀ p, p ≠ o → (t.tracker.holding p).through = (s.tracker.holding p).through ∧
      (t.tracker.holding p).due = (s.tracker.holding p).due) ∧
    ((∀ sl : SeekSlot, some sl ∈ s.repair.slots → sl.state ≠ .declaring) →
      ⟨o, first, last⟩ ∉ left.excess → .hole o first last ∉ t.tracker.pending) ∧
    t.tracker.excess = left.excess ∧ t.submission = s.submission := by
  intro left t
  have tracked : s.tracked j rest p
      = ((s.arrayIdle.recordPlaced j rest p).setTracker left).advance o := by
    rw [State.tracked, State.trackCompletion, hj]
    cases source : j.source <;> simp only [left, source] <;> rfl
  obtain ⟨through, due, others, excess⟩ := State.recorded_advanced (left := left) rfl tracked
  refine ⟨through, due, others, fun undeclared outside hx => ?_, excess, ?_⟩
  · rcases s.recorded_pending j rest p undeclared _ hx with h | ⟨r, hr, run⟩
    · rw [tracked] at h
      exact of_decide_eq_true (List.mem_filter.1 h).2 rfl
    · rw [tracked] at hr
      cases run
      exact outside hr
  · rw [s.recorded_submission, State.commitHandOn_hole hj]

/-- A RELEASE record (R47). -/
theorem State.recorded_release {mark : Nat} (hj : j.body = .release mark) :
    (∀ q, ((s.recorded j rest p).tracker.holding q).through = (s.tracker.holding q).through ∧
      ((s.recorded j rest p).tracker.holding q).due = (s.tracker.holding q).due) ∧
    (mark < s.writer.releaseMark →
      ∃ x ∈ (s.recorded j rest p).writer.jobs, x.body = .release s.writer.releaseMark) ∧
    (s.recorded j rest p).submission = s.submission := by
  have tracked : s.tracked j rest p = s.arrayIdle.recordPlaced j rest p := by
    rw [State.tracked, State.trackCompletion, hj]
  have closes := s.tracked_closes j rest p
  have handed : (s.tracked j rest p).commitHandOn j = s.tracked j rest p :=
    State.commitHandOn_release hj
  have same : (s.arrayIdle.recordPlaced j rest p).tracker = s.tracker := rfl
  refine ⟨fun q => ⟨?_, ?_⟩, fun raised => ?_, ?_⟩
  · rw [closes.through, tracked, same]
  · rw [closes.due, tracked, same]
  · have queued : (((s.tracked j rest p).commitHandOn j).followRelease j.body).writer.jobs
        = rest ++ [⟨.release s.writer.releaseMark, .release⟩] := by
      have mark_eq : (s.arrayIdle.recordPlaced j rest p).writer.releaseMark = s.writer.releaseMark :=
        rfl
      rw [handed, tracked, hj, State.followRelease_raised (by rw [mark_eq]; exact raised)]
      rfl
    have later := ((State.excessTest_offers _).trans (State.offerHoles_offers _)).conclude
      (s := ((s.tracked j rest p).commitHandOn j).followRelease j.body)
    obtain ⟨more, jobs⟩ := later.jobs
    rw [queued] at jobs
    refine ⟨⟨.release s.writer.releaseMark, .release⟩, ?_, rfl⟩
    have split : (s.recorded j rest p).writer.jobs
        = rest ++ [⟨.release s.writer.releaseMark, .release⟩] ++ more := jobs.symm
    rw [split]
    simp
  · rw [s.recorded_submission, State.commitHandOn_release hj]

end Kinds

end Sys2Proof.Machine

namespace Sys2Proof

open Machine

/-- Settles O39: the completion is the Stream Tracker's part on the record placed (`State.tracked`), and
then hand-ons and an event's end that leave what that part made (`State.Closes`); each kind of record has
its own lemma. -/
theorem recordProgrammed : Obligations.RecordProgrammed := by
  intro s j rest p running jobs place wf segment page fits claim
  obtain ⟨position, mark, more⟩ := s.recorded_writer j rest p
  obtain ⟨q, d, r, commit, -⟩ := s.commitHandOn_form j
  have submission := s.recorded_submission j rest p
  refine ⟨s.recorded j rest p, ?_, fun a => ?_, position, more,
    fun u c n g r he => s.recorded_entry j rest p claim he,
    fun _ _ _ _ _ hj => State.recorded_data hj,
    fun _ _ _ hj => State.recorded_hole hj,
    fun _ hj => State.recorded_release hj, fun source => ?_, ?_, ?_, ?_, mark,
    s.recorded_keeps j rest p⟩
  · rw [exec, execRecordProgramCompletion, running, jobs, place]
    rfl
  · rw [s.recorded_flash, Flash.readByte_program wf, flashAddress_eq, blankByte]
    rw [flashAddress_eq, flashBytes_eq]
    omega
  · rw [submission, State.commitHandOn_other source]
  all_goals
    rw [submission, commit]
    rfl

end Sys2Proof

/-! ## The mount scan: what its reads find (R10, R13, R15, R35, R173, R186) -/

namespace Sys2Proof.Machine

/-! ### Blank bytes of an array in canonical form (R9) -/

theorem Flash.head?_read (f : Flash) (a n : Nat) : (f.read a (n + 1)).head? = some (f.readByte a) := by
  rw [Flash.read, List.range_succ_eq_map]
  rfl

/-- In canonical form the cells list exactly the bytes that are not blank. -/
theorem readCell_ne_blank {cells : List Host.Cell} (h : cellsOk cells = true) (a : Nat) :
    readCell cells a ≠ blankByte ↔ ∃ c ∈ cells, c.1 = a := by
  induction cells with
  | nil => simp [readCell]
  | cons c rest ih =>
    obtain ⟨b, v⟩ := c
    obtain ⟨-, value, above, rest_ok⟩ := cellsOk_cons.mp h
    rw [readCell]
    split
    · next same => exact ⟨fun _ => ⟨_, List.mem_cons_self, same.symm⟩, fun _ => value⟩
    · next other =>
      have outside : b ≠ a := fun e => other e.symm
      simpa [outside] using ih rest_ok

theorem Flash.cells_all {f : Flash} (wf : f.wf = true) (p : Nat → Bool) :
    (f.cells.all fun c => p c.1) = true ↔ ∀ a, p a = false → f.readByte a = blankByte := by
  rw [List.all_eq_true]
  constructor
  · intro all a out
    by_contra listed
    obtain ⟨c, hc, rfl⟩ := (readCell_ne_blank wf a).1 listed
    rw [all c hc] at out
    cases out
  · intro blank c hc
    by_contra out
    exact (readCell_ne_blank wf c.1).2 ⟨c, hc, rfl⟩ (blank c.1 (by simpa using out))

/-- Without damage marks a segment is BLANK exactly when each of its bytes is (R35). -/
theorem Flash.segmentBlank_iff {f : Flash} {k : Nat} (wf : f.wf = true)
    (sound : ∀ d ∈ f.damage, d.segmentOf ≠ k) :
    f.segmentBlank k = true ↔ ∀ a, segmentOf a = k → f.readByte a = blankByte := by
  have marks : (f.damage.all fun d => decide (d.segmentOf ≠ k)) = true :=
    List.all_eq_true.2 fun d hd => decide_eq_true (sound d hd)
  have cells := f.cells_all wf fun a => decide (segmentOf a ≠ k)
  simp only [decide_eq_false_iff_not, not_not] at cells
  rw [Flash.segmentBlank, marks, Bool.and_true]
  exact cells

/-- Without damage marks a page is blank exactly when each of its bytes is. -/
theorem Flash.pageBlank_iff {f : Flash} {k page : Nat} (wf : f.wf = true)
    (sound : ∀ d ∈ f.damage, d.segmentOf ≠ k) :
    f.pageBlank k page = true ↔
      ∀ i < 256, f.readByte ((k * 256 + page) * 256 + i) = blankByte := by
  have cells := f.cells_all wf fun a => decide (a / 256 ≠ k * 256 + page)
  simp only [decide_eq_false_iff_not, not_not] at cells
  unfold Flash.pageBlank
  rw [Bool.and_eq_true]
  refine (and_iff_left (List.all_eq_true.2 fun d hd => ?_)).trans (cells.trans ⟨fun h i hi => ?_,
    fun h a ha => ?_⟩)
  · have other := sound d hd
    cases d with
    | record k' _ _ =>
      have other : k' ≠ k := other
      simp [other]
    | segment => rfl
  · exact h _ (by omega)
  · rw [show a = (k * 256 + page) * 256 + a % 256 by omega]
    exact h _ (Nat.mod_lt _ (by omega))

/-! ### The segment header read back (R10, R173) -/

theorem wordsOf_natBytes (l : List Nat) (h : ∀ v ∈ l, v ≤ 0xFFFFFFFF) :
    (wordsOf (l.flatMap natBytes)).map BitVec.toNat = l := by
  induction l with
  | nil => rfl
  | cons v l ih =>
    have value : v < 2 ^ 32 := by
      have := h v List.mem_cons_self
      omega
    have first : wordsOf (natBytes v ++ l.flatMap natBytes)
        = BitVec.ofNat 32 v :: wordsOf (l.flatMap natBytes) :=
      congrArg (· :: _) (ofBytes_wordBytes _)
    rw [List.flatMap_cons, first, List.map_cons, ih fun x hx => h x (List.mem_cons_of_mem _ hx),
      BitVec.toNat_ofNat, Nat.mod_eq_of_lt value]

theorem parseHeader_headerBytes (generation : Word) {first : Nat} {floor : List Nat}
    (hf : first ≤ 0xFFFFFFFF) (length : floor.length = 16) (hv : ∀ v ∈ floor, v ≤ 0xFFFFFFFF) :
    parseHeader (headerBytes generation first floor) = .header generation first floor := by
  have fields := length_headerFields generation first length
  have take : (headerBytes generation first floor).take 76 = headerFields generation first floor := by
    rw [headerBytes, ← fields, List.take_left]
  have drop : (headerBytes generation first floor).drop 76
      = wordBytes (crc32 (headerFields generation first floor)) := by
    rw [headerBytes, ← fields, List.drop_left]
  have check (w : Word) : frontWord (wordBytes w) = w := frontWord_wordBytes w []
  have mark : frontWord (headerBytes generation first floor) = Config.headerMark := rfl
  have generation_eq : frontWord ((headerBytes generation first floor).drop 4) = generation :=
    frontWord_wordBytes _ _
  have first_eq : frontWord ((headerBytes generation first floor).drop 8) = BitVec.ofNat 32 first :=
    frontWord_wordBytes _ _
  have vector : ((headerBytes generation first floor).drop 12).take 64 = floor.flatMap natBytes := by
    have rest : (headerBytes generation first floor).drop 12 = floor.flatMap natBytes ++
        wordBytes (crc32 (headerFields generation first floor)) := by
      generalize hc : wordBytes (crc32 (headerFields generation first floor)) = c
      rw [headerBytes, hc, headerFields, List.take_of_length_le (Nat.le_of_eq length)]
      rfl
    have size : (floor.flatMap natBytes).length = 64 := by simp [natBytes, length]
    rw [rest, ← size, List.take_left]
  rw [parseHeader, take, drop, check, if_pos ⟨mark, rfl⟩, vector, wordsOf_natBytes _ hv,
    generation_eq, first_eq, BitVec.toNat_ofNat, Nat.mod_eq_of_lt (by omega)]

/-- A read of page 0 without damage marks of its segment. -/
theorem Flash.readHeader_eq {f : Flash} {k : Nat} (sound : ∀ d ∈ f.damage, d.segmentOf ≠ k) :
    f.readHeader k =
      if f.pageBlank k 0 then .blankPage else parseHeader (f.read (k * 65536) 80) := by
  have address : flashAddress k 0 0 = k * 65536 := by rw [flashAddress_eq]; omega
  have unmarked (b : Bool) : f.damage.contains (.segment k b) = false := by
    rw [List.contains_eq_mem]
    exact decide_eq_false fun h => sound _ h rfl
  rw [Flash.readHeader, unmarked, unmarked, address]
  rfl

/-- What a header read finds in a segment without damage marks (R10, R173, R186). -/
theorem Flash.readHeader_cases {f : Flash} {k : Nat} (wf : f.wf = true)
    (sound : ∀ d ∈ f.damage, d.segmentOf ≠ k) :
    ((∀ i < 256, f.readByte (k * 65536 + i) = 0xFF) → f.readHeader k = .blankPage) ∧
    (∀ (generation : Word) (first : Nat) (floor : List Nat), first ≤ 0xFFFFFFFF →
      floor.length = 16 → (∀ v ∈ floor, v ≤ 0xFFFFFFFF) →
      f.read (k * 65536) 80 = headerBytes generation first floor →
      f.readHeader k = .header generation first floor) ∧
    ((∃ i < 256, f.readByte (k * 65536 + i) ≠ 0xFF) →
      (frontWord (f.read (k * 65536) 80) ≠ 0xA55A0F41 ∨
        crc32 (f.read (k * 65536) 76) ≠ frontWord (f.read (k * 65536 + 76) 4)) →
      f.readHeader k = .badHeader) := by
  have blank := f.pageBlank_iff (page := 0) wf sound
  rw [show (k * 256 + 0) * 256 = k * 65536 by omega] at blank
  rw [f.readHeader_eq sound]
  refine ⟨fun h => if_pos (blank.2 h), fun generation first floor hf length hv bytes => ?_,
    fun ⟨i, hi, byte⟩ bad => ?_⟩
  · have first_byte : f.readByte (k * 65536) = 0xA5 := by
      exact Option.some.inj ((f.head?_read _ 79).symm.trans (congrArg List.head? bytes))
    rw [if_neg, bytes, parseHeader_headerBytes generation hf length hv]
    intro h
    have := blank.1 h 0 (by omega)
    rw [Nat.add_zero, first_byte] at this
    cases this
  · have parts := f.read_add (k * 65536) 76 4
    have take : (f.read (k * 65536) 80).take 76 = f.read (k * 65536) 76 := by
      rw [parts, List.take_left' (f.length_read _ _)]
    have drop : (f.read (k * 65536) 80).drop 76 = f.read (k * 65536 + 76) 4 := by
      rw [parts, List.drop_left' (f.length_read _ _)]
    rw [if_neg fun h => byte (blank.1 h i hi), parseHeader, take, drop, if_neg]
    rintro ⟨mark, check⟩
    exact bad.elim (· mark) (· check)

/-! ### A page of record space (R13, R15) -/

theorem frontWord_take {n : Nat} (h : 4 ≤ n) (l : List Byte) : frontWord (l.take n) = frontWord l := by
  obtain ⟨n, rfl⟩ := Nat.exists_eq_add_of_le' h
  match l with
  | [] | [_] | [_, _] | [_, _, _] | _ :: _ :: _ :: _ :: _ => rfl

theorem RecordKind.ofByte_lengthOk {b : Byte} {kind : RecordKind} {n : Nat}
    (named : RecordKind.ofByte b = some kind) (h : kind.lengthOk n = true) :
    some b = some 0x01 ∧ 1 ≤ n ∧ n ≤ 200 ∨ (some b = some 0x02 ∨ some b = some 0x03) ∧ n = 4 := by
  unfold RecordKind.ofByte at named
  split at named
  · next byte =>
    cases named
    simp only [RecordKind.lengthOk, Bool.and_eq_true, decide_eq_true_eq] at h
    exact .inl ⟨congrArg some byte, h⟩
  · split at named
    · next byte =>
      cases named
      exact .inr ⟨.inl (congrArg some byte), of_decide_eq_true h⟩
    · split at named
      · next byte =>
        cases named
        exact .inr ⟨.inr (congrArg some byte), of_decide_eq_true h⟩
      · cases named

/-- What the scan accepts as a record at the front of a page: the kind byte and the length go
together, the check and the position are right (R13, R15, R186). -/
theorem scanRecord_some {b : List Byte} {page offset expected : Nat} {r : Scanned}
    (h : scanRecord b page offset expected = some r) :
    let length := (b.getD 3 0).toNat
    (b.head? = some 0x01 ∧ 1 ≤ length ∧ length ≤ 200 ∨
      (b.head? = some 0x02 ∨ b.head? = some 0x03) ∧ length = 4) ∧
    crc32 (b.take 8 ++ (b.drop 12).take length) = frontWord (b.drop (12 + length)) ∧
    frontWord (b.drop 8) = BitVec.ofNat 32 expected := by
  unfold scanRecord at h
  split at h
  · next kindByte o t length rest =>
    split at h
    · cases h
    · next kind named =>
      dsimp only at h
      split at h
      · next accepted =>
        simp only [Bool.and_eq_true, decide_eq_true_eq] at accepted
        obtain ⟨⟨⟨lengthOk, fits⟩, check⟩, position⟩ := accepted
        generalize hb : kindByte :: o :: t :: length :: rest = b at *
        have size : (b.take (16 + length.toNat)).length = 16 + length.toNat := by
          rw [List.length_take]
          omega
        have byte3 : b.getD 3 0 = length := by rw [← hb]; rfl
        have head : b.head? = some kindByte := by rw [← hb]; rfl
        rw [byte3, head]
        refine ⟨RecordKind.ofByte_lengthOk named lengthOk, ?_, ?_⟩
        · rw [checkGood, size] at check
          simp only [Nat.le_add_right, decide_true, Bool.true_and, decide_eq_true_eq,
            Nat.add_sub_cancel_left, List.take_take, List.drop_take] at check
          rw [frontWord_take (by omega), Nat.min_eq_left (by omega), Nat.min_eq_left (by omega),
            show 16 + length.toNat - 4 = 12 + length.toNat by omega] at check
          exact check
        · rw [List.drop_take, frontWord_take (by omega)] at position
          exact position
      · cases h
  · cases h

/-- A page of record space that is neither blank at its start nor begins with a record that is
accepted. -/
theorem Flash.extend_failed {f : Flash} {x : Extent} {page : Nat}
    (start : f.pageStartBlank x.segment page = false) (h : f.scanPage x page = ([], true)) :
    f.extend x page = if x.failedBefore then (x, false)
      else ({ x with failedBefore := true }, decide (page < 255)) := by
  rw [Flash.extend, start, h]
  cases before : x.failedBefore <;> simp

theorem Flash.pageStartBlank_eq (f : Flash) (k page : Nat) : f.pageStartBlank k page =
    (decide ((f.read ((k * 256 + page) * 256) 256).head? = some 0xFF) && !f.spoiledAt k page 0) := by
  rw [f.head?_read _ 255, Flash.pageStartBlank, flashAddress_eq, Nat.add_zero]
  simp

/-- Remains of a failed program at the start of a page, or a page that begins with no record that is
accepted (R13, R15; log 19). -/
theorem Flash.scanPage_failed {f : Flash} {x : Extent} {page : Nat}
    (h : let b := f.read ((x.segment * 256 + page) * 256) 256
      let length := (b.getD 3 0).toNat
      f.spoiledAt x.segment page 0 = true ∨ b.head? ≠ some 0xFF ∧
        (b.head? ≠ some 0x01 ∧ b.head? ≠ some 0x02 ∧ b.head? ≠ some 0x03 ∨
          b.head? = some 0x01 ∧ ¬ (1 ≤ length ∧ length ≤ 200) ∨
          (b.head? = some 0x02 ∨ b.head? = some 0x03) ∧ length ≠ 4 ∨
          crc32 (b.take 8 ++ (b.drop 12).take length) ≠ frontWord (b.drop (12 + length)) ∨
          frontWord (b.drop 8) ≠ BitVec.ofNat 32 x.expected)) :
    f.pageStartBlank x.segment page = false ∧ f.scanPage x page = ([], true) := by
  have length : (f.read ((x.segment * 256 + page) * 256) 256).length = 256 := f.length_read _ _
  rw [f.pageStartBlank_eq, Flash.scanPage, flashAddress_eq, Nat.add_zero]
  generalize f.read ((x.segment * 256 + page) * 256) 256 = b at *
  rcases h with spoiled | ⟨started, bad⟩
  · rw [spoiled]
    refine ⟨by simp, ?_⟩
    simp [Machine.scanPage, length, spoiled]
  · refine ⟨by rw [decide_eq_false started]; rfl, ?_⟩
    have refused : scanRecord b page 0 x.expected = none := by
      by_contra accepted
      obtain ⟨r, hr⟩ := Option.ne_none_iff_exists'.1 accepted
      obtain ⟨kind, check, position⟩ := scanRecord_some hr
      rcases bad with ⟨one, two, three⟩ | ⟨one, wrong⟩ | ⟨other, wrong⟩ | wrong | wrong
      · rcases kind with ⟨h, -⟩ | ⟨h | h, -⟩
        exacts [one h, two h, three h]
      · rcases kind with ⟨-, h⟩ | ⟨h | h, -⟩
        · exact wrong h
        · cases one.symm.trans h
        · cases one.symm.trans h
      · rcases kind with ⟨h, -⟩ | ⟨-, h⟩
        · rcases other with o | o <;> cases o.symm.trans h
        · exact wrong h
      · exact wrong check
      · exact wrong position
    have fails : endsFailed b = true := by
      have head : b.headD blankByte ≠ 0xFF := by
        cases b with
        | nil => simp at length
        | cons k rest => exact fun h => started (congrArg some h)
      rw [endsFailed, length, decide_eq_true head]
      rfl
    unfold Machine.scanPage
    split
    · rfl
    · split
      · rw [fails]
      · rw [refused]

/-- A record takes at least 17 bytes of its page (1.2). -/
theorem length_bodies_ge {bodies : List JobBody} (storable : ∀ b ∈ bodies, b.Storable) (position : Nat) :
    17 * bodies.length ≤ ((bodies.zipIdx position).flatMap fun b => b.1.bytes b.2).length := by
  induction bodies generalizing position with
  | nil => simp
  | cons b rest ih =>
    have size := (storable b List.mem_cons_self).size_ge
    have later := ih (fun x hx => storable x (List.mem_cons_of_mem _ hx)) (position + 1)
    have first : ((b, position).1.bytes (b, position).2).length = b.size := length_bytes _ _
    rw [List.zipIdx_cons, List.flatMap_cons, List.length_append, first, List.length_cons]
    omega

/-- Bodies written one after another from the start of a page are its content, and are accepted up to its
end (R13, R15). -/
theorem Flash.scanPage_written {f : Flash} {x : Extent} {page : Nat} {bodies : List JobBody}
    {tail : List Byte} (storable : ∀ b ∈ bodies, b.Storable)
    (bytes : f.read ((x.segment * 256 + page) * 256) 256
      = (bodies.zipIdx.flatMap fun b => b.1.bytes (x.expected + b.2)) ++ tail)
    (ends : tail.length < 17 ∨ tail.head? = some 0xFF)
    (sound : ∀ offset, f.spoiledAt x.segment page offset = false) :
    f.scanPage x page = ((bodies.zipIdx).map fun b => b.1.scannedAs ⟨x.expected + b.2, x.segment, page,
      0 + ((bodies.take b.2).map JobBody.size).sum⟩, false) := by
  have content : (bodies.zipIdx.flatMap fun b => b.1.bytes (x.expected + b.2))
      = (bodies.zipIdx x.expected).flatMap fun b => b.1.bytes b.2 := by
    rw [List.zipIdx_eq_map_add (i := x.expected), List.flatMap_map]
  have few : bodies.length < 16 := by
    have total := congrArg List.length bytes
    have least := length_bodies_ge storable x.expected
    rw [f.length_read, content, List.length_append] at total
    omega
  have tailEnds : contentEnds tail = true ∧ endsFailed tail = false := by
    rcases ends with short | blank
    · simp [contentEnds, endsFailed, short]
    · have head : tail.headD blankByte = 0xFF := by
        rw [List.headD_eq_head?_getD, blank]
        rfl
      rw [contentEnds, endsFailed, head]
      simp [RecordKind.ofByte]
  have := scanPage_bodies (f.spoiledAt x.segment page) sound x.segment page tail tailEnds.1 bodies 16 0
    x.expected storable few
  rw [tailEnds.2, ← content, ← bytes] at this
  rw [Flash.scanPage, flashAddress_eq, Nat.add_zero]
  exact this

/-- The start of a page that holds a body is not blank. -/
theorem Flash.pageStartBlank_written {f : Flash} {k page position : Nat} {body : JobBody}
    {rest : List Byte} (bytes : f.read ((k * 256 + page) * 256) 256 = body.bytes position ++ rest) :
    f.pageStartBlank k page = false := by
  obtain ⟨kind, l, e⟩ : ∃ k : RecordKind, ∃ l, body.bytes position = k.byte :: l := by
    cases body <;> exact ⟨_, _, rfl⟩
  have head : (kind.byte :: l ++ rest).head? = some kind.byte := rfl
  rw [f.pageStartBlank_eq, bytes, e, head]
  cases kind <;> simp [RecordKind.byte]

/-- A page that begins with a record that is accepted. -/
theorem Flash.extend_accepted {f : Flash} {x : Extent} {page : Nat} {new : List Scanned} {failed : Bool}
    (start : f.pageStartBlank x.segment page = false) (h : f.scanPage x page = (new, failed))
    (accepted : new ≠ []) :
    f.extend x page = ({ x with
      records := x.records ++ new
      failedBefore := failed
      skipped := x.skipped || x.failedBefore }, decide (page < 255)) := by
  rw [Flash.extend, start, h]
  simp [accepted]

/-- A page of records at the positions expected is accepted with their locators (R13, R15). -/
theorem Flash.extend_written {f : Flash} {x : Extent} {page : Nat} {bodies : List JobBody}
    {tail : List Byte} (storable : ∀ b ∈ bodies, b.Storable) (written : bodies ≠ [])
    (bytes : f.read ((x.segment * 256 + page) * 256) 256
      = (bodies.zipIdx.flatMap fun b => b.1.bytes (x.expected + b.2)) ++ tail)
    (ends : tail.length < 17 ∨ tail.head? = some 0xFF)
    (sound : ∀ offset, f.spoiledAt x.segment page offset = false) :
    ∃ new, f.extend x page = ({ x with
        records := x.records ++ new
        failedBefore := false
        skipped := x.skipped || x.failedBefore }, decide (page < 255)) ∧
      new.length = bodies.length ∧
      ∀ (i : Nat) (b : JobBody), bodies[i]? = some b → new[i]? = some (b.scannedAs
        ⟨x.expected + i, x.segment, page, ((bodies.take i).map JobBody.size).sum⟩) := by
  have found := Flash.scanPage_written storable bytes ends sound
  have start : f.pageStartBlank x.segment page = false := by
    obtain ⟨body, rest, rfl⟩ := List.exists_cons_of_ne_nil written
    exact Flash.pageStartBlank_written (position := x.expected) (body := body) (by
      rw [bytes, List.zipIdx_cons, List.flatMap_cons, List.append_assoc]
      rfl)
  exact ⟨_, Flash.extend_accepted start found (by simpa using written), by simp,
    fun i b hb => by simp [hb]⟩

/-! ### The steps of the scan (R173, R174) -/

section Steps

variable {s : State} {c : Scan} (mode : s.mode = .mounting) (scan : s.scan = some c)

include mode scan

theorem execMountReadCompletion_headers {k : Nat} (step : c.step = .headers k) :
    exec .mountReadCompletion s = .next (s.headerRead c k) := by
  rw [exec, execMountReadCompletion, mode, scan]
  dsimp only
  rw [step]

theorem execMountReadCompletion_records {x : Extent} {page : Nat} (step : c.step = .records x page) :
    exec .mountReadCompletion s = .next (s.pageRead c x page) := by
  rw [exec, execMountReadCompletion, mode, scan]
  dsimp only
  rw [step]

theorem execBlankCheckCompletion_eq {k : Nat} (step : c.step = .blankChecks k) :
    exec .blankCheckCompletion s = .next (s.nextBlankCheck { c with
      found := c.found.set k (if s.flash.segmentBlank k then .blank else .notBlank) }) := by
  rw [exec, execBlankCheckCompletion, mode, scan]
  dsimp only
  rw [step]

end Steps

end Sys2Proof.Machine

namespace Sys2Proof

open Machine

/-- Settles O44: the steps by their equations, what a header read and a blank check find by the canonical
form of the array, and a page by the records that it begins with or fails to begin with. -/
theorem mountScans : Obligations.MountScans := by
  refine ⟨fun s c mode scan => ⟨fun k step low => ?_, fun k j step next => ?_,
    fun x page step more => ?_⟩, fun f k wf sound => ⟨Flash.segmentBlank_iff wf sound,
      Flash.readHeader_cases wf sound⟩,
    fun f x page bodies tail storable written _ bytes ends sound =>
      Flash.extend_written storable written bytes ends sound,
    fun f x page => ⟨fun sound blank => ?_, fun failed => ?_⟩⟩
  · have below : k + 1 < Config.segmentCount := by show k + 1 < 64; omega
    rw [execMountReadCompletion_headers mode scan step, State.headerRead, if_pos below]
    rfl
  · rw [execBlankCheckCompletion_eq mode scan step, State.nextBlankCheck, next]
    rfl
  · rw [execMountReadCompletion_records mode scan step, State.pageRead, more]
    rfl
  · have start : f.pageStartBlank x.segment page = true := by
      rw [Flash.pageStartBlank_eq, sound, blank]
      rfl
    rw [Flash.extend, if_pos start]
  · obtain ⟨start, found⟩ := Flash.scanPage_failed failed
    exact Flash.extend_failed start found

end Sys2Proof

/-! ## The mount completion (R5, R7, R16, R60, R97, R174 to R176) -/

namespace Sys2Proof.Machine

/-! ### What a cut leaves of a run (R97) -/

/-- What is left of one run when a range of an origin is filled. -/
def Run.cut (o first last : Nat) (r : Run) : List Run :=
  if r.origin = o ∧ r.first ≤ last ∧ first ≤ r.last then
    (if r.first < first then [{ r with last := first - 1 }] else []) ++
    (if last < r.last then [{ r with first := last + 1 }] else [])
  else [r]

theorem cutRuns_eq (runs : List Run) (o first last : Nat) :
    cutRuns runs o first last = runs.flatMap (Run.cut o first last) := rfl

/-- A piece of a run: the whole of it, what lies below the range, or what lies above it. -/
theorem Run.mem_cut {o first last : Nat} {r x : Run} : x ∈ r.cut o first last ↔
    ¬ (r.origin = o ∧ r.first ≤ last ∧ first ≤ r.last) ∧ x = r ∨
    (r.origin = o ∧ r.first ≤ last ∧ first ≤ r.last) ∧
      (r.first < first ∧ x = { r with last := first - 1 } ∨
        last < r.last ∧ x = { r with first := last + 1 }) := by
  unfold Run.cut
  by_cases meets : r.origin = o ∧ r.first ≤ last ∧ first ≤ r.last
  · rw [if_pos meets, List.mem_append, List.mem_ite_nil_right, List.mem_ite_nil_right,
      List.mem_singleton, List.mem_singleton]
    simp [meets]
  · rw [if_neg meets, List.mem_singleton]
    simp [meets]

theorem Run.contains_iff {r : Run} {o seq : Nat} :
    r.contains o seq = true ↔ r.origin = o ∧ r.first ≤ seq ∧ seq ≤ r.last := by
  simp [Run.contains, and_assoc]

/-- A run cut by a range holds what it held outside the range. -/
theorem Run.any_cut (r : Run) (o first last seq : Nat) :
    (∃ x ∈ r.cut o first last, x.contains o seq = true) ↔
      r.contains o seq = true ∧ ¬ (first ≤ seq ∧ seq ≤ last) := by
  simp only [Run.mem_cut, Run.contains_iff]
  constructor
  · rintro ⟨x, ⟨apart, rfl⟩ | ⟨meets, ⟨below, rfl⟩ | ⟨above, rfl⟩⟩, origin, low, high⟩
    · exact ⟨⟨origin, low, high⟩, by omega⟩
    · dsimp only at low high
      exact ⟨⟨origin, low, by omega⟩, by omega⟩
    · dsimp only at low high
      exact ⟨⟨origin, by omega, high⟩, by omega⟩
  · rintro ⟨⟨origin, low, high⟩, out⟩
    by_cases meets : r.origin = o ∧ r.first ≤ last ∧ first ≤ r.last
    · by_cases below : seq < first
      · exact ⟨_, .inr ⟨meets, .inl ⟨by omega, rfl⟩⟩, origin, low, by dsimp only; omega⟩
      · exact ⟨_, .inr ⟨meets, .inr ⟨by omega, rfl⟩⟩, origin, by dsimp only; omega, high⟩
    · exact ⟨r, .inl ⟨meets, rfl⟩, origin, low, high⟩

theorem any_cutRuns (runs : List Run) (o first last seq : Nat) :
    (∃ x ∈ cutRuns runs o first last, x.contains o seq = true) ↔
      (∃ x ∈ runs, x.contains o seq = true) ∧ ¬ (first ≤ seq ∧ seq ≤ last) := by
  rw [cutRuns_eq]
  constructor
  · rintro ⟨x, hx, holds⟩
    obtain ⟨r, hr, hx⟩ := List.mem_flatMap.1 hx
    obtain ⟨held, out⟩ := (r.any_cut o first last seq).1 ⟨x, hx, holds⟩
    exact ⟨⟨r, hr, held⟩, out⟩
  · rintro ⟨⟨r, hr, held⟩, out⟩
    obtain ⟨x, hx, holds⟩ := (r.any_cut o first last seq).2 ⟨held, out⟩
    exact ⟨x, List.mem_flatMap.2 ⟨r, hr, hx⟩, holds⟩

/-- Runs of one origin above a base, each with a seq, in ascending order without overlap. -/
structure RunsRising (o base : Nat) (runs : List Run) : Prop where
  each : ∀ r ∈ runs, r.origin = o ∧ base < r.first ∧ r.first ≤ r.last
  order : runs.Pairwise fun a b => a.last < b.first

/-- A piece lies within its run. -/
theorem Run.cut_within {o first last : Nat} {r x : Run} (range : r.first ≤ r.last)
    (hx : x ∈ r.cut o first last) :
    x.origin = r.origin ∧ r.first ≤ x.first ∧ x.first ≤ x.last ∧ x.last ≤ r.last := by
  rcases Run.mem_cut.1 hx with ⟨-, rfl⟩ | ⟨⟨-, low, high⟩, ⟨below, rfl⟩ | ⟨above, rfl⟩⟩
  · exact ⟨rfl, le_rfl, range, le_rfl⟩
  · exact ⟨rfl, le_rfl, by dsimp only; omega, by dsimp only; omega⟩
  · exact ⟨rfl, by dsimp only; omega, by dsimp only; omega, le_rfl⟩

theorem RunsRising.cut {o base first last : Nat} {runs : List Run} (h : RunsRising o base runs)
    (range : first ≤ last) : RunsRising o base (cutRuns runs o first last) := by
  rw [cutRuns_eq]
  refine ⟨fun x hx => ?_, List.pairwise_flatMap.2 ⟨fun r _ => ?_, ?_⟩⟩
  · obtain ⟨r, hr, hx⟩ := List.mem_flatMap.1 hx
    obtain ⟨origin, low, own⟩ := h.each r hr
    obtain ⟨same, above, own, -⟩ := Run.cut_within own hx
    exact ⟨same.trans origin, by omega, own⟩
  · unfold Run.cut
    repeat' split
    all_goals simp
    omega
  · refine h.order.imp_of_mem fun {a b} ha hb before x hx y hy => ?_
    have inA := Run.cut_within (h.each a ha).2.2 hx
    have inB := Run.cut_within (h.each b hb).2.2 hy
    omega

theorem RunsRising.missing {o base accepted : Nat} {covered : List (Nat × Nat)}
    (ranges : ∀ c ∈ covered, c.1 ≤ c.2) : RunsRising o base (missing o base accepted covered) := by
  have start : RunsRising o base (if base < accepted then [⟨o, base + 1, accepted⟩] else []) := by
    split
    · next h => exact ⟨by simpa using h, List.pairwise_singleton _ _⟩
    · exact ⟨by simp, List.Pairwise.nil⟩
  unfold Machine.missing
  revert start
  generalize (if base < accepted then [(⟨o, base + 1, accepted⟩ : Run)] else []) = runs
  intro start
  induction covered generalizing runs with
  | nil => exact start
  | cons c l ih =>
    exact ih (fun c hc => ranges c (List.mem_cons_of_mem _ hc)) _
      (start.cut (ranges c List.mem_cons_self))

/-- What is missing of an origin is what lies above the base, up to highest accepted, and in no range
covered (R97). -/
theorem any_missing (o base accepted seq : Nat) (covered : List (Nat × Nat)) :
    (∃ x ∈ missing o base accepted covered, x.contains o seq = true) ↔
      base < seq ∧ seq ≤ accepted ∧ ∀ c ∈ covered, ¬ (c.1 ≤ seq ∧ seq ≤ c.2) := by
  have cuts (runs : List Run) :
      (∃ x ∈ covered.foldl (fun runs c => cutRuns runs o c.1 c.2) runs, x.contains o seq = true) ↔
        (∃ x ∈ runs, x.contains o seq = true) ∧ ∀ c ∈ covered, ¬ (c.1 ≤ seq ∧ seq ≤ c.2) := by
    induction covered generalizing runs with
    | nil => simp
    | cons c l ih => rw [List.foldl_cons, ih, any_cutRuns, List.forall_mem_cons, and_assoc]
  have start : (∃ x ∈ (if base < accepted then [(⟨o, base + 1, accepted⟩ : Run)] else []),
      x.contains o seq = true) ↔ base < seq ∧ seq ≤ accepted := by
    split
    · simp [Run.contains_iff]
    · simp
      omega
  rw [Machine.missing, cuts, start, and_assoc]

/-! ### The holdings of an origin (R97) -/

/-- A record stores or covers a seq of an origin. -/
def Covered (records : List Scanned) (o seq : Nat) : Prop :=
  ∃ r ∈ records, r.locator.kind ≠ .release ∧ r.locator.origin = o ∧ r.locator.seq ≤ seq ∧ seq ≤ r.last

theorem Scanned.covers_eq_some {r : Scanned} {o : Nat} {c : Nat × Nat} : r.covers o = some c ↔
    (r.locator.kind ≠ .release ∧ r.locator.origin = o) ∧ (r.locator.seq, r.last) = c := by
  unfold Scanned.covers
  split
  · next h => simp [h]
  · next h => exact ⟨nofun, fun w => absurd w.1 h⟩

theorem covered_iff (records : List Scanned) (o seq : Nat) :
    Covered records o seq ↔
      ∃ c ∈ records.filterMap (Scanned.covers o), c.1 ≤ seq ∧ seq ≤ c.2 := by
  constructor
  · rintro ⟨r, hr, kind, origin, low, high⟩
    exact ⟨_, List.mem_filterMap.2 ⟨r, hr, Scanned.covers_eq_some.2 ⟨⟨kind, origin⟩, rfl⟩⟩, low, high⟩
  · rintro ⟨c, hc, low, high⟩
    obtain ⟨r, hr, covers⟩ := List.mem_filterMap.1 hc
    obtain ⟨⟨kind, origin⟩, rfl⟩ := Scanned.covers_eq_some.1 covers
    exact ⟨r, hr, kind, origin, low, high⟩

/-- The greatest end of some ranges, not below a base. -/
theorem foldl_max_last (l : List (Nat × Nat)) (base : Nat) :
    let m := l.foldl (fun m c => max m c.2) base
    base ≤ m ∧ (∀ c ∈ l, c.2 ≤ m) ∧ (m = base ∨ ∃ c ∈ l, m = c.2) := by
  induction l generalizing base with
  | nil => exact ⟨le_rfl, nofun, .inl rfl⟩
  | cons c l ih =>
    obtain ⟨low, each, reached⟩ := ih (max base c.2)
    refine ⟨le_trans (le_max_left _ _) low, List.forall_mem_cons.2
      ⟨le_trans (le_max_right _ _) low, each⟩, ?_⟩
    rcases reached with h | ⟨d, hd, h⟩
    · rcases max_choice base c.2 with m | m
      · exact .inl (h.trans m)
      · exact .inr ⟨c, List.mem_cons_self, h.trans m⟩
    · exact .inr ⟨d, List.mem_cons_of_mem _ hd, h⟩

/-- Held-through is highest accepted when no gap is left, and ends below the first one otherwise. -/
theorem rebuilt_through (records : List Scanned) (floor : List Nat) (o : Nat) :
    ((rebuilt records floor o).2 = [] →
      (rebuilt records floor o).1.through = (rebuilt records floor o).1.accepted) ∧
    ∀ g l, (rebuilt records floor o).2 = g :: l → (rebuilt records floor o).1.through = g.first - 1 := by
  unfold rebuilt
  dsimp only
  exact ⟨fun h => by rw [h], fun g l h => by rw [h]⟩

/-- What mount rebuilds of an origin: highest accepted is the last seq that the oldest floor or a record
states, held-through the greatest value with nothing lacking below, and the gaps hold what lacks. -/
structure Rebuilds (records : List Scanned) (floor : List Nat) (o : Nat) (h : Holding)
    (gaps : List Run) : Prop where
  known : h.known = h.accepted
  due : h.due = false
  base : floor.getD o 0 ≤ h.through
  order : h.through ≤ h.accepted
  above : ∀ seq, Covered records o seq → seq ≤ h.accepted
  reached : h.accepted = floor.getD o 0 ∨ Covered records o h.accepted
  held : ∀ seq, floor.getD o 0 < seq → seq ≤ h.through → Covered records o seq
  lacks : h.through < h.accepted → ¬ Covered records o (h.through + 1)
  gaps : ∀ seq, (∃ x ∈ gaps, x.contains o seq = true) ↔
    floor.getD o 0 < seq ∧ seq ≤ h.accepted ∧ ¬ Covered records o seq

theorem rebuilt_rebuilds {records : List Scanned} (floor : List Nat) (o : Nat)
    (ranges : ∀ r ∈ records, r.locator.seq ≤ r.last) :
    Rebuilds records floor o (rebuilt records floor o).1 (rebuilt records floor o).2 := by
  have range : ∀ c ∈ records.filterMap (Scanned.covers o), c.1 ≤ c.2 := by
    intro c hc
    obtain ⟨r, hr, covers⟩ := List.mem_filterMap.1 hc
    obtain ⟨-, rfl⟩ := Scanned.covers_eq_some.1 covers
    exact ranges r hr
  obtain ⟨low, each, reached⟩ :=
    foldl_max_last (records.filterMap (Scanned.covers o)) (floor.getD o 0)
  have rising : RunsRising o (floor.getD o 0) (rebuilt records floor o).2 := .missing range
  have gaps (seq : Nat) : (∃ x ∈ (rebuilt records floor o).2, x.contains o seq = true) ↔
      floor.getD o 0 < seq ∧ seq ≤ (rebuilt records floor o).1.accepted ∧ ¬ Covered records o seq := by
    refine (any_missing _ _ _ _ _).trans (and_congr_right' (and_congr_right' ?_))
    rw [covered_iff]
    push Not
    rfl
  have order := (rebuilt_ok records floor o).1
  obtain ⟨whole, below⟩ := rebuilt_through records floor o
  change floor.getD o 0 ≤ (rebuilt records floor o).1.accepted at low
  have above (seq : Nat) (h : Covered records o seq) :
      seq ≤ (rebuilt records floor o).1.accepted := by
    obtain ⟨c, hc, -, high⟩ := (covered_iff _ _ _).1 h
    exact high.trans (each c hc)
  have last : (rebuilt records floor o).1.accepted = floor.getD o 0 ∨
      Covered records o (rebuilt records floor o).1.accepted := by
    refine reached.imp_right fun ⟨c, hc, e⟩ => (covered_iff _ _ _).2 ⟨c, hc, ?_⟩
    exact ⟨(range c hc).trans_eq e.symm, e.le⟩
  have known : (rebuilt records floor o).1.known = (rebuilt records floor o).1.accepted := rfl
  have due : (rebuilt records floor o).1.due = false := rfl
  generalize (rebuilt records floor o).1 = h at *
  generalize (rebuilt records floor o).2 = runs at *
  cases runs with
  | nil =>
    have through := whole rfl
    refine ⟨known, due, by omega, order, above, last, fun seq low high => ?_, by omega, gaps⟩
    by_contra lacking
    simpa using (gaps seq).2 ⟨low, by omega, lacking⟩
  | cons g l =>
    have through := below g l rfl
    obtain ⟨origin, start, own⟩ := rising.each g List.mem_cons_self
    have later := (List.pairwise_cons.1 rising.order).1
    refine ⟨known, due, by omega, order, above, last, fun seq low high => ?_, fun _ => ?_, gaps⟩
    · by_contra lacking
      obtain ⟨x, hx, holds⟩ := (gaps seq).2 ⟨low, by omega, lacking⟩
      obtain ⟨-, from_first, -⟩ := Run.contains_iff.1 holds
      rcases List.mem_cons.1 hx with rfl | hx
      · omega
      · have := later x hx
        omega
    · have first : g.contains o (h.through + 1) = true :=
        Run.contains_iff.2 ⟨origin, by omega, by omega⟩
      exact ((gaps _).1 ⟨g, List.mem_cons_self, first⟩).2.2

/-- The tables that mount hands over hold of each origin what its records give (R97). -/
theorem mountTracker_rebuilds {records : List Scanned} (floor : List Nat) {o : Nat} (ho : o < 16)
    (ranges : ∀ r ∈ records, r.locator.seq ≤ r.last) :
    Rebuilds records floor o ((mountTracker records floor).holding o)
      ((mountTracker records floor).gaps ++ (mountTracker records floor).excess) := by
  have holding : (mountTracker records floor).holding o = (rebuilt records floor o).1 := by
    simp [Tracker.holding, mountTracker, List.getD, ho]
  have all : (mountTracker records floor).gaps ++ (mountTracker records floor).excess
      = ((List.range 16).map (rebuilt records floor)).flatMap (·.2) := List.take_append_drop _ _
  have own (seq : Nat) : (∃ x ∈ (mountTracker records floor).gaps ++
      (mountTracker records floor).excess, x.contains o seq = true) ↔
      ∃ x ∈ (rebuilt records floor o).2, x.contains o seq = true := by
    rw [all]
    constructor
    · rintro ⟨x, hx, holds⟩
      obtain ⟨y, hy, hx⟩ := List.mem_flatMap.1 hx
      obtain ⟨p, -, rfl⟩ := List.mem_map.1 hy
      have origin := ((rebuilt_ok records floor p).2.2 x hx).1
      obtain rfl : p = o := origin.symm.trans (Run.contains_iff.1 holds).1
      exact ⟨x, hx, holds⟩
    · rintro ⟨x, hx, holds⟩
      exact ⟨x, List.mem_flatMap.2 ⟨_, List.mem_map.2 ⟨o, List.mem_range.2 ho, rfl⟩, hx⟩, holds⟩
  have rebuilds := rebuilt_rebuilds floor o ranges
  rw [holding]
  exact { rebuilds with gaps := fun seq => (own seq).trans (rebuilds.gaps seq) }

/-! ### The chain of segments (R16, R174) -/

/-- Each extent begins at the position that the one before it ends at. -/
def Chained (l : List Extent) : Prop :=
  l.IsChain fun y z => z.firstPosition = y.firstPosition + y.records.length

/-- In a chain whose older extents hold records the first positions rise. -/
theorem Chained.rising {older : List Extent} {newest : Extent} (chain : Chained (older ++ [newest]))
    (held : ∀ y ∈ older, y.records ≠ []) :
    (older ++ [newest]).Pairwise fun y z => y.firstPosition < z.firstPosition := by
  induction older with
  | nil => exact List.pairwise_singleton _ _
  | cons y older ih =>
    obtain ⟨holds, held⟩ := List.forall_mem_cons.1 held
    have rest := ih (List.IsChain.tail chain) held
    have some_record := List.length_pos_iff.2 holds
    refine List.pairwise_cons.2 ⟨fun z hz => ?_, rest⟩
    cases older with
    | nil =>
      obtain rfl := List.mem_singleton.1 hz
      have next := (List.isChain_cons_cons.1 chain).1
      omega
    | cons a older =>
      have next := (List.isChain_cons_cons.1 chain).1
      rcases List.mem_cons.1 hz with rfl | hz
      · omega
      · have later := (List.pairwise_cons.1 rest).1 z hz
        omega

theorem Flash.insertExtent_last (f : Flash) {x : Extent} {l : List Extent}
    (h : ∀ y ∈ l, y.firstPosition < x.firstPosition) : f.insertExtent x l = l ++ [x] := by
  induction l with
  | nil => rfl
  | cons y l ih =>
    obtain ⟨first, rest⟩ := List.forall_mem_cons.1 h
    have younger : f.older x y = false := by
      simp [Flash.older, show ¬ x.firstPosition < y.firstPosition by omega,
        show x.firstPosition ≠ y.firstPosition by omega]
    rw [Flash.insertExtent, younger, if_neg nofun, ih rest]
    rfl

/-- Extents of rising first positions are in order of age (R174). -/
theorem Flash.ordered_rising (f : Flash) {l : List Extent}
    (h : l.Pairwise fun y z => y.firstPosition < z.firstPosition) : f.ordered l = l := by
  have append (acc l : List Extent)
      (h : (acc ++ l).Pairwise fun y z => y.firstPosition < z.firstPosition) :
      l.foldl (fun acc x => f.insertExtent x acc) acc = acc ++ l := by
    induction l generalizing acc with
    | nil => rw [List.append_nil]; rfl
    | cons x l ih =>
      have before : ∀ y ∈ acc, y.firstPosition < x.firstPosition := fun y hy =>
        (List.pairwise_append.1 h).2.2 y hy x List.mem_cons_self
      rw [List.foldl_cons, f.insertExtent_last before, ih _ (by simpa using h)]
      simp
  exact append [] l h

/-- All of a chain is the kept run (R16). -/
theorem keptRun_chained {l : List Extent} (h : l.IsChain fun x y => x.firstPosition = y.expected) :
    keptRun l = l := by
  induction l with
  | nil => rfl
  | cons x l ih =>
    cases l with
    | nil => rfl
    | cons y l =>
      obtain ⟨joined, rest⟩ := List.isChain_cons_cons.1 h
      rw [keptRun, if_pos joined, ih rest]

/-- Extents that join in a chain survive all (R16, R174). -/
theorem Chained.kept {f : Flash} {older : List Extent} {newest : Extent}
    (chain : Chained (older ++ [newest])) (held : ∀ y ∈ older, y.records ≠ []) :
    keptRun (f.ordered (older ++ [newest])).reverse = (older ++ [newest]).reverse := by
  rw [f.ordered_rising (chain.rising held)]
  exact keptRun_chained (List.isChain_reverse.2 chain)

theorem Flash.not_spent {f : Flash} {older : List Extent} {newest : Extent}
    (held : ∀ y ∈ older, y.records ≠ [])
    (fresh : newest.records ≠ [] ∨ f.pageBlank newest.segment 1 = true) :
    (older ++ [newest]).filter (fun x => !f.spent x) = older ++ [newest] := by
  refine List.filter_eq_self.2 fun x hx => ?_
  rcases List.mem_append.1 hx with hx | hx
  · simp [Flash.spent, held x hx]
  · obtain rfl := List.mem_singleton.1 hx
    rcases fresh with h | h <;> simp [Flash.spent, h]

/-! ### The segment table (R60) -/

theorem find?_segment {l : List Extent} (apart : (l.map (·.segment)).Nodup) {x : Extent} (hx : x ∈ l) :
    l.find? (fun y => decide (y.segment = x.segment)) = some x := by
  induction l with
  | nil => cases hx
  | cons y l ih =>
    obtain ⟨fresh, apart⟩ := List.nodup_cons.1 apart
    rcases List.mem_cons.1 hx with rfl | hx
    · simp
    · have other : y.segment ≠ x.segment := fun e => fresh (List.mem_map.2 ⟨x, hx, e.symm⟩)
      rw [List.find?_cons_of_neg (by simpa using other), ih apart hx]

section Table

variable {f : Flash} {found : List Found} {l : List Extent}

theorem Flash.mountTable_survivor (apart : (l.map (·.segment)).Nodup) {x : Extent} (hx : x ∈ l)
    (inTable : x.segment < found.length) : (f.mountTable found l)[x.segment]? =
      some (f.mounted (decide ((l.getLast?.map (·.segment)) = some x.segment)) x) := by
  rw [Flash.mountTable, List.getElem?_map, List.getElem?_zipIdx, List.getElem?_eq_getElem inTable]
  simp only [Option.map_some, Nat.zero_add, find?_segment apart hx]

theorem Flash.mountTable_other {k : Nat} {what : Found} (hk : found[k]? = some what)
    (outside : ∀ y ∈ l, y.segment ≠ k) : (f.mountTable found l)[k]? =
      some ⟨if what = .blank then .erased else .dirty, 0, false⟩ := by
  have none : l.find? (fun y => decide (y.segment = k)) = none :=
    List.find?_eq_none.2 fun y hy => by simpa using outside y hy
  rw [Flash.mountTable, List.getElem?_map, List.getElem?_zipIdx, hk]
  simp only [Option.map_some, Nat.zero_add, none]

end Table

theorem Flash.mounted_newest (f : Flash) (x : Extent) : f.mounted true x =
    ⟨if f.lastPage x.segment < 255 then
        .opened x.use (.place (f.lastPage x.segment + 1) 0) (if x.skipped then 1 else 0)
      else .sealed x.use, x.generation, false⟩ := by
  by_cases page : f.lastPage x.segment < 255 <;>
    simp [Flash.mounted, Flash.scanCursor, nextPage, page]

theorem Flash.mounted_older (f : Flash) (x : Extent) :
    f.mounted false x = ⟨.sealed x.use, x.generation, false⟩ := rfl

/-! ### The end of an event while the station is not on line -/

/-- Entries of the segment table stay, or turn from DIRTY to ERASING; the mode stays, and no header
program is claimed. -/
structure State.ErasesDirty (s t : State) : Prop where
  mode : t.mode = s.mode
  claim : ∀ i, t.array.programClaim ≠ some (.header i)
  entry : ∀ (i : Nat) e, s.segments.table[i]? = some e → t.segments.table[i]? = some e ∨
    e.state = .dirty ∧ t.segments.table[i]? = some { e with state := .erasing }

theorem State.ErasesDirty.trans {s t u : State} (a : s.ErasesDirty t) (b : t.ErasesDirty u) :
    s.ErasesDirty u where
  mode := b.mode.trans a.mode
  claim := b.claim
  entry i e he := by
    rcases a.entry i e he with h | ⟨dirty, h⟩
    · exact b.entry i e h
    · rcases b.entry i _ h with h | ⟨erasing, -⟩
      · exact .inr ⟨dirty, h⟩
      · cases erasing

section OffLine

variable {s : State} (claim : ∀ i, s.array.programClaim ≠ some (.header i))

include claim

theorem State.scheduleErase_dirty (off : s.mode.onLine = false) : s.ErasesDirty s.scheduleErase := by
  have same : s.ErasesDirty s := ⟨rfl, claim, fun _ _ => .inl⟩
  unfold State.scheduleErase
  split
  · exact same
  · split
    · next k dirty =>
      obtain ⟨d, hd, dirty⟩ := Segments.firstDirty_some dirty
      refine ⟨rfl, claim, fun i e he => ?_⟩
      have entry : (s.requestErase k).segments.table[i]? = _ :=
        Segments.setState_getElem? s.segments k i .erasing
      rw [entry]
      by_cases here : k = i
      · subst here
        cases hd.symm.trans he
        exact .inr ⟨dirty, by rw [if_pos rfl, hd]; rfl⟩
      · exact .inl ((if_neg here).trans he)
    · rw [off, Bool.false_and, if_neg nofun]
      exact same

theorem State.serve_dirty : s.ErasesDirty s.serve where
  mode := s.serve_keeps.mode
  claim i := (serveClaims_entry _ i (claim i)).2
  entry i _ he := .inl ((serveClaims_entry _ i (claim i)).1.trans he)

theorem State.checkSuspend_dirty : s.ErasesDirty s.checkSuspend where
  mode := s.checkSuspend_keeps.mode
  claim := by
    unfold State.checkSuspend
    repeat' split
    all_goals exact claim
  entry _ _ he := .inl (by rw [State.checkSuspend_segments]; exact he)

/-- While the station is not on line and no job waits, the end of an event leaves the segment table but
for DIRTY segments taken to erase (R56). -/
theorem State.conclude_dirty (off : s.mode.onLine = false) (idle : s.writer.jobs = []) (i : Nat)
    {e : Segment} (he : s.segments.table[i]? = some e) :
    s.conclude.segments.table[i]? = some e ∨
      e.state = .dirty ∧ s.conclude.segments.table[i]? = some { e with state := .erasing } := by
  have placed : s.placed = s := by
    have tested : s.excessTest = s := by
      unfold State.excessTest
      split
      · rfl
      · rw [off, Bool.false_and, Bool.false_and, if_neg nofun]
    rw [State.placed, State.refilled, tested, State.fillSlots, off, if_neg nofun, State.placeHead,
      idle]
  have first := State.scheduleErase_dirty claim off
  have second := first.trans (State.serve_dirty first.claim)
  have third := second.trans
    (State.scheduleErase_dirty second.claim (by rw [second.mode]; exact off))
  have fourth := third.trans (State.serve_dirty third.claim)
  have fifth := fourth.trans (State.checkSuspend_dirty fourth.claim)
  rw [State.conclude_eq, placed]
  exact fifth.entry i e he

end OffLine

/-- The end of an event keeps the length of the segment table. -/
theorem State.conclude_length (s : State) :
    s.conclude.segments.table.length = s.segments.table.length := by
  have served (s : State) : s.serve.segments.table.length = s.segments.table.length := by
    refine serveClaims_rel (R := fun s t => t.segments.table.length = s.segments.table.length)
      ?_ ?_ _ s
    · intro s t served
      cases served with
      | header k _ _ =>
        show (s.segments.setState k _).table.length = _
        simp [Segments.setState, Segments.change]
      | _ => rfl
    · intro s t u refused later
      cases refused with
      | host c => exact later
      | fetch c rest =>
        rw [later, (State.skipSeq_fetchOnly _ _ _ _).segments]
        rfl
  have scheduled (s : State) : s.scheduleErase.segments.table.length = s.segments.table.length :=
    s.scheduleErase_turns.1.length
  have placed : s.placed.segments.table.length = s.segments.table.length := by
    rw [State.placed, (State.placeHead_turns _).1.length, s.refilled_fields.1]
  rw [State.conclude_eq]
  show (State.checkSuspend _).segments.table.length = _
  rw [State.checkSuspend_segments, served, scheduled, served, scheduled, placed]

/-! ### What the mount completion hands over (R175, R176) -/

/-- The state that the mount completion hands over, before the end of its event: `kept` is the kept run,
newest first, `survivors` what is left of it, oldest first. -/
def State.handedOver (s : State) (found : List Found) (kept survivors : List Extent) : State :=
  let tracker := mountTracker (survivors.flatMap (·.records)) ((survivors.head?.map (·.floor)).getD [])
  { s with
    scan := none
    mode := .unenlisted
    segments := { s.segments with table := s.flash.mountTable found survivors }
    writer := { s.writer with nextPosition := mountPosition kept, releaseMark := mountMark survivors }
    tracker := tracker
    submission := { s.submission with kept := tracker.holdings.map (·.through) }
    array := { s.array with activity := .idle } }

theorem State.mountDone_eq (s : State) (c : Scan) : s.mountDone c =
    (s.handedOver c.found (keptRun (s.flash.ordered c.extents).reverse)
      ((keptRun (s.flash.ordered c.extents).reverse).reverse.filter fun x =>
        !s.flash.spent x)).conclude := rfl

section HandedOver

variable (s : State) (found : List Found) (kept survivors : List Extent)

/-- Whatever the extents read, mount ends UNENLISTED with the kept values equal to held-through (R175,
R176). -/
theorem State.handedOver_conclude :
    let t := (s.handedOver found kept survivors).conclude
    t.mode = .unenlisted ∧ t.scan = none ∧ t.submission.kept = t.tracker.holdings.map (·.through) ∧
    t.submission.durable = s.submission.durable ∧ t.tracker.gaps.length ≤ 32 ∧ t.flash = s.flash ∧
    t.line.framer = s.line.framer ∧ t.presence = s.presence := by
  intro t
  have keeps := State.conclude_keeps (s.handedOver found kept survivors)
  have tables := State.conclude_tables (s.handedOver found kept survivors)
  refine ⟨keeps.mode, keeps.scan, ?_, ?_, ?_, keeps.flash, keeps.framer, keeps.presence⟩
  · rw [keeps.submission, tables.holdings]
    rfl
  · rw [keeps.submission]
    rfl
  · rw [tables.gaps]
    exact (List.length_take_le _ _).trans_eq rfl

/-- The tables of the Stream Tracker are those that mount rebuilds. -/
theorem State.handedOver_tables :
    let records := survivors.flatMap (·.records)
    let floor := (survivors.head?.map (·.floor)).getD []
    let t := (s.handedOver found kept survivors).conclude
    t.tracker.gaps = (mountTracker records floor).gaps ∧
    t.tracker.excess = (mountTracker records floor).excess ∧
    ∀ o, t.tracker.holding o = (mountTracker records floor).holding o := by
  intro records floor t
  have tables := State.conclude_tables (s.handedOver found kept survivors)
  exact ⟨tables.gaps, tables.excess, fun o => by rw [Tracker.holding, tables.holdings]; rfl⟩

theorem State.handedOver_writer :
    (s.handedOver found kept survivors).conclude.writer.nextPosition = mountPosition kept ∧
    (s.handedOver found kept survivors).conclude.writer.releaseMark = mountMark survivors :=
  ⟨(State.conclude_keeps _).nextPosition, (State.conclude_keeps _).releaseMark⟩

theorem State.handedOver_length :
    (s.handedOver found kept survivors).conclude.segments.table.length = found.length := by
  rw [State.conclude_length]
  simp [State.handedOver, Flash.mountTable]

end HandedOver

/-- Every mount completion: the mode, the kept values, and what it leaves (R175, R176). -/
theorem State.mountDone_conclude (s : State) (c : Scan) :
    (s.mountDone c).mode = .unenlisted ∧ (s.mountDone c).scan = none ∧
    (s.mountDone c).submission.kept = (s.mountDone c).tracker.holdings.map (·.through) ∧
    (s.mountDone c).submission.durable = s.submission.durable ∧
    (s.mountDone c).tracker.gaps.length ≤ 32 ∧ (s.mountDone c).flash = s.flash ∧
    (s.mountDone c).line.framer = s.line.framer ∧ (s.mountDone c).presence = s.presence := by
  rw [s.mountDone_eq]
  exact s.handedOver_conclude _ _ _

/-- Without a valid header no segment is in use (R174). -/
theorem Scan.inUse_none {c : Scan} (h : ∀ f ∈ c.found, f = .blank ∨ f = .notBlank ∨ f = .badHeader) :
    c.inUse = [] := by
  unfold Scan.inUse
  rw [List.filter_eq_nil_iff.2]
  · rfl
  · intro e he
    rcases h e.1 (List.fst_mem_of_mem_zipIdx he) with h | h | h <;> rw [h] <;> nofun

/-- No segment in use: the mount completion of the last blank check (R174, R175). -/
theorem State.nextBlankCheck_last {s : State} {c : Scan}
    (h : ∀ f ∈ c.found, f = .blank ∨ f = .notBlank ∨ f = .badHeader) (unread : c.extents = []) :
    s.nextBlankCheck c = (s.handedOver c.found [] []).conclude := by
  have checked : c.found.findIdx? (fun f => decide (f = .blankPage)) = none := by
    refine List.findIdx?_eq_none_iff.2 fun f hf => ?_
    rcases h f hf with rfl | rfl | rfl <;> rfl
  rw [State.nextBlankCheck, checked]
  dsimp only
  rw [Scan.inUse_none h, State.nextExtent]
  dsimp only
  rw [State.mountDone_eq]
  dsimp only
  rw [unread]
  rfl

/-! ### The segment table that mount hands over, at its event's end (R60) -/

theorem Flash.mounted_not_dirty (f : Flash) (newest : Bool) (x : Extent) :
    (f.mounted newest x).state ≠ .dirty := by
  cases newest with
  | false => exact nofun
  | true =>
    rw [f.mounted_newest]
    dsimp only
    split <;> exact nofun

section MountedTable

variable {s : State} {found : List Found} {kept survivors : List Extent}
  (claim : s.array.programClaim = none) (idle : s.writer.jobs = [])

include claim idle

theorem State.handedOver_entry (i : Nat) {e : Segment}
    (he : (s.flash.mountTable found survivors)[i]? = some e) :
    (s.handedOver found kept survivors).conclude.segments.table[i]? = some e ∨
      e.state = .dirty ∧ (s.handedOver found kept survivors).conclude.segments.table[i]?
        = some { e with state := .erasing } := by
  refine State.conclude_dirty (s := s.handedOver found kept survivors) (fun i => ?_) rfl idle i he
  show s.array.programClaim ≠ _
  rw [claim]
  exact nofun

theorem State.handedOver_survivor (apart : (survivors.map (·.segment)).Nodup) {x : Extent}
    (hx : x ∈ survivors) (inTable : x.segment < found.length) :
    (s.handedOver found kept survivors).conclude.segments.table[x.segment]? =
      some (s.flash.mounted (decide ((survivors.getLast?.map (·.segment)) = some x.segment)) x) := by
  rcases State.handedOver_entry claim idle _ (Flash.mountTable_survivor apart hx inTable) with h | h
  · exact h
  · exact absurd h.1 (s.flash.mounted_not_dirty _ _)

theorem State.handedOver_other {k : Nat} {what : Found} (hk : found[k]? = some what)
    (outside : ∀ y ∈ survivors, y.segment ≠ k) :
    ∃ e, (s.handedOver found kept survivors).conclude.segments.table[k]? = some e ∧
      e.generation = 0 ∧ e.retire = false ∧ (what = .blank → e.state = .erased) ∧
      (what ≠ .blank → e.state = .dirty ∨ e.state = .erasing) := by
  have entry := State.handedOver_entry (kept := kept) claim idle k
    (Flash.mountTable_other (f := s.flash) hk outside)
  by_cases blank : what = .blank
  · rw [if_pos blank] at entry
    rcases entry with h | ⟨h, -⟩
    · exact ⟨_, h, rfl, rfl, fun _ => rfl, fun h => absurd blank h⟩
    · cases h
  · rw [if_neg blank] at entry
    rcases entry with h | ⟨-, h⟩
    · exact ⟨_, h, rfl, rfl, fun h => absurd h blank, fun _ => .inl rfl⟩
    · exact ⟨_, h, rfl, rfl, fun h => absurd h blank, fun _ => .inr rfl⟩

end MountedTable

/-! ### Nothing in use, and the chain -/

theorem State.handedOver_empty (s : State) {found : List Found} (length : found.length = 64) :
    let t := (s.handedOver found [] []).conclude
    t.mode = .unenlisted ∧ t.scan = none ∧ t.segments.table.length = 64 ∧ t.writer.nextPosition = 1 ∧
    t.writer.releaseMark = 0 ∧ (∀ o, t.tracker.holding o = ⟨0, 0, 0, false⟩) ∧ t.tracker.gaps = [] ∧
    t.submission.kept = List.replicate 16 0 ∧ t.flash = s.flash := by
  obtain ⟨unenlisted, done, -, -, -, flash, -⟩ := s.handedOver_conclude found [] []
  obtain ⟨gaps, -, holding⟩ := s.handedOver_tables found [] []
  obtain ⟨position, mark⟩ := s.handedOver_writer found [] []
  have zero : (mountTracker [] []).holdings = List.replicate 16 ⟨0, 0, 0, false⟩ := rfl
  refine ⟨unenlisted, done, (s.handedOver_length found [] []).trans length, position, mark,
    fun o => ?_, gaps, ?_, flash⟩
  · refine (holding o).trans ?_
    show (mountTracker [] []).holdings.getD o _ = _
    rw [zero, List.getD_eq_getElem?_getD, List.getElem?_getD_replicate_default_eq]
  · rw [(State.conclude_keeps _).submission]
    rfl

/-- The last page of the last record space (R174, R175). -/
theorem State.pageRead_last {s : State} {c : Scan} {x : Extent} {page : Nat}
    (ended : (s.flash.extend x page).2 = false) (last : c.todo = []) :
    s.pageRead c x page
      = s.mountDone { c with extents := c.extents ++ [(s.flash.extend x page).1] } := by
  rw [State.pageRead, ended, if_neg nofun, State.nextExtent]
  dsimp only
  rw [last]

section Chain

variable {s : State} {c : Scan} {older : List Extent} {newest : Extent}

theorem State.mountDone_chained (extents : c.extents = older ++ [newest])
    (chain : Chained (older ++ [newest])) (held : ∀ y ∈ older, y.records ≠ [])
    (fresh : newest.records ≠ [] ∨ s.flash.pageBlank newest.segment 1 = true) :
    s.mountDone c
      = (s.handedOver c.found (older ++ [newest]).reverse (older ++ [newest])).conclude := by
  rw [State.mountDone_eq, extents, chain.kept held, List.reverse_reverse, Flash.not_spent held fresh]

/-- What is handed over of a chain. -/
theorem State.handedOver_chain {found : List Found}
    (apart : ((older ++ [newest]).map (·.segment)).Nodup) (length : found.length = 64)
    (inTable : ∀ y ∈ older ++ [newest], y.segment < 64) (claim : s.array.programClaim = none)
    (idle : s.writer.jobs = []) :
    let t := (s.handedOver found (older ++ [newest]).reverse (older ++ [newest])).conclude
    t.segments.table.length = 64 ∧
    (∀ y ∈ older, t.segments.table[y.segment]? = some ⟨.sealed y.use, y.generation, false⟩) ∧
    t.segments.table[newest.segment]? = some ⟨
      if s.flash.lastPage newest.segment < 255 then
        .opened newest.use (.place (s.flash.lastPage newest.segment + 1) 0)
          (if newest.skipped then 1 else 0)
      else .sealed newest.use, newest.generation, false⟩ ∧
    (∀ k f, found[k]? = some f → (∀ y ∈ older ++ [newest], y.segment ≠ k) →
      ∃ e, t.segments.table[k]? = some e ∧ e.generation = 0 ∧ e.retire = false ∧
        (f = .blank → e.state = .erased) ∧ (f ≠ .blank → e.state = .dirty ∨ e.state = .erasing)) := by
  have last : (older ++ [newest]).getLast?.map (·.segment) = some newest.segment := by simp
  have entry (x : Extent) (hx : x ∈ older ++ [newest]) :=
    State.handedOver_survivor (kept := (older ++ [newest]).reverse) claim idle apart hx
      ((inTable x hx).trans_eq length.symm)
  rw [last] at entry
  refine ⟨(s.handedOver_length _ _ _).trans length, fun y hy => ?_, ?_,
    fun k f hf outside => State.handedOver_other claim idle hf outside⟩
  · have other : newest.segment ≠ y.segment := by
      rw [List.map_append, List.nodup_append] at apart
      exact fun e => apart.2.2 y.segment (List.mem_map_of_mem hy) newest.segment (by simp) e.symm
    rw [entry y (List.mem_append_left _ hy), decide_eq_false (by simpa using other),
      Flash.mounted_older]
  · rw [entry newest (List.mem_append_right _ List.mem_cons_self), decide_eq_true rfl,
      Flash.mounted_newest]

/-- The position follows the last record, and the release mark is the greater of the mark last stated and
the oldest first position less one (R5, R7). -/
theorem State.handedOver_positions (found : List Found) :
    let records := (older ++ [newest]).flatMap (·.records)
    let oldest := (older ++ [newest]).head?.getD newest
    let t := (s.handedOver found (older ++ [newest]).reverse (older ++ [newest])).conclude
    t.writer.nextPosition = newest.firstPosition + newest.records.length ∧
    t.writer.releaseMark = max (oldest.firstPosition - 1)
      (((records.filter fun r => decide (r.locator.kind = .release)).getLast?.map (·.last)).getD 0) := by
  intro records oldest t
  obtain ⟨position, mark⟩ :=
    s.handedOver_writer found (older ++ [newest]).reverse (older ++ [newest])
  have head : (older ++ [newest]).head? = some oldest := by cases older <;> rfl
  refine ⟨position.trans ?_, mark.trans ?_⟩
  · rw [List.reverse_append]
    rfl
  · rw [mountMark, head, max_comm]
    rfl

/-- What is handed over of the streams (R97). -/
theorem State.handedOver_streams (found : List Found)
    (ranges : ∀ r ∈ (older ++ [newest]).flatMap (·.records), r.locator.seq ≤ r.last) {o : Nat}
    (ho : o < 16) :
    let t := (s.handedOver found (older ++ [newest]).reverse (older ++ [newest])).conclude
    Rebuilds ((older ++ [newest]).flatMap (·.records))
      ((older ++ [newest]).head?.getD newest).floor o (t.tracker.holding o)
      (t.tracker.gaps ++ t.tracker.excess) := by
  intro t
  obtain ⟨gaps, excess, holding⟩ :=
    s.handedOver_tables found (older ++ [newest]).reverse (older ++ [newest])
  have floor : ((older ++ [newest]).head?.map (·.floor)).getD []
      = ((older ++ [newest]).head?.getD newest).floor := by cases older <;> rfl
  rw [gaps, excess, holding, floor]
  exact mountTracker_rebuilds _ ho ranges

end Chain

end Sys2Proof.Machine

namespace Sys2Proof

open Machine

/-- Settles O45: what the mount completion hands over (`State.handedOver`), which for extents that join
in one chain is the whole chain (`Chained.kept`), and what the end of the event leaves of it. -/
theorem mountCompletes : Obligations.MountCompletes := by
  intro s c mode scan
  refine ⟨fun k step length nothing unread => ?_, fun x page step ended last => ?_⟩
  · have next := execBlankCheckCompletion_eq mode scan step
    exact ⟨_, next.trans (congrArg _ (State.nextBlankCheck_last nothing unread)),
      State.handedOver_empty s (by rw [List.length_set, length])⟩
  · have next := execMountReadCompletion_records mode scan step
    rw [State.pageRead_last ended last] at next
    obtain ⟨unenlisted, done, kept, durable, gaps, flash, framer, presence⟩ :=
      State.mountDone_conclude s { c with extents := c.extents ++ [(s.flash.extend x page).1] }
    refine ⟨_, next, unenlisted, done, kept, durable, gaps, flash, framer, presence, ?_⟩
    intro older newest extents held fresh chain apart length inTable ranges claim idle
    rw [State.mountDone_chained extents chain held fresh]
    obtain ⟨whole, sealed, opened, others⟩ :=
      State.handedOver_chain (s := s) apart length inTable claim idle
    obtain ⟨position, mark⟩ :=
      State.handedOver_positions (s := s) (older := older) (newest := newest) c.found
    refine ⟨whole, sealed, opened, others, position, mark, fun o ho => ?_⟩
    obtain ⟨known, due, floor, order, above, reached, covered, lacks, gaps⟩ :=
      State.handedOver_streams (s := s) c.found ranges ho
    refine ⟨known, due, floor, order, above, reached, covered, lacks, fun seq => ?_⟩
    rw [List.any_eq_true]
    exact gaps seq

end Sys2Proof

/-! ## Station reset: the blocks, and the flash of what it cuts short (R22, R172) -/

namespace Sys2Proof.Machine

/-- A program cut short changes no byte outside the segment of a header program (R22; a torn record is a
damage mark only, log 5). -/
theorem Flash.readByte_cutProgram (f : Flash) (r : ArrayEngine) (w : Writer) (cut : CutShort) {a : Nat}
    (other : ∀ k, r.activity = .program (.header k) → segmentOf a ≠ k) :
    (f.cutProgram r w cut).readByte a = f.readByte a := by
  unfold Flash.cutProgram
  split
  · split <;> rfl
  · next _ _ k header => exact (f.readByte_spoilSegment _ _ _).trans (if_neg (other k header))
  · rfl

/-- An erase cut short changes no byte outside its segment (R22). -/
theorem Flash.readByte_cutErase (f : Flash) (r : ArrayEngine) (cut : CutShort) {a : Nat}
    (other : ∀ c, r.context = some c → segmentOf a ≠ c.segment) :
    (f.cutErase r cut).readByte a = f.readByte a := by
  unfold Flash.cutErase
  split
  · next c held =>
    split
    · exact (f.readByte_spoilSegment _ _ _).trans (if_neg (other c held))
    · rfl
  · rfl

end Sys2Proof.Machine

namespace Sys2Proof

open Machine

/-- Settles O2: the blocks are those of `State.reset`, and flash is what the program and the erase cut
short leave. -/
theorem stationResetState : Obligations.StationResetState := by
  intro cut s
  refine ⟨s.stationReset cut, rfl, ?_⟩
  iterate 32 refine ⟨rfl, ?_⟩
  intro a erase program
  exact (Flash.readByte_cutErase _ _ _ erase).trans (Flash.readByte_cutProgram _ _ _ _ program)

end Sys2Proof

/-! ## Reads of flash and erases: what the end of an event leaves to them (R23, R25, R32 to R40) -/

namespace Sys2Proof.Machine

/-! ### The placement and the segment table (R48 to R50) -/

/-- All that the placement does to the segment table: the OPEN segment is given another state of the same
fields. -/
theorem State.placeHead_table (s : State) : s.placeHead.segments.table = s.segments.table ∨
    ∃ k u c n v, s.segments.open? = some (k, u, c, n) ∧ v.use? = some u ∧
      s.placeHead.segments.table = (s.segments.setState k v).table := by
  have room : s.askRoom.segments.table = s.segments.table ∨
      ∃ k u c n v, s.segments.open? = some (k, u, c, n) ∧ v.use? = some u ∧
        s.askRoom.segments.table = (s.segments.setState k v).table := by
    have asked : s.askRoom.segments.table = s.segments.seal.table := by
      unfold State.askRoom
      dsimp only
      split <;> rfl
    rw [asked]
    rcases s.segments.seal_cases with h | ⟨k, u, c, n, opened, h⟩
    · exact .inl (by rw [h])
    · exact .inr ⟨k, u, c, n, .sealed u, opened, rfl, by rw [h]⟩
  unfold State.placeHead
  repeat' split
  · exact .inl rfl
  · exact .inl rfl
  · next opened _ => exact .inr ⟨_, _, _, _, _, opened, rfl, rfl⟩
  · next opened _ _ => exact .inr ⟨_, _, _, _, _, opened, rfl, rfl⟩
  all_goals exact room

/-- The placement leaves the fields of each segment in use. -/
theorem State.placeHead_use? (s : State) (i : Nat) :
    s.placeHead.segments.use? i = s.segments.use? i := by
  unfold Segments.use?
  rcases s.placeHead_table with h | ⟨k, u, c, n, v, opened, use, h⟩
  · rw [h]
  · obtain ⟨e, he, state⟩ := Segments.open?_some opened
    rw [h, Segments.setState_getElem?]
    split
    · next here =>
      subst here
      have same : e.state.use? = some u := by rw [state]; rfl
      simp [he, same, use]
    · rfl

/-- What no segment in use is, as many entries are after the placement, at the same places. -/
theorem State.placeHead_unused (s : State) {p : SegmentState → Bool}
    (unused : ∀ v : SegmentState, v.use?.isSome = true → p v = false) :
    s.placeHead.segments.table.map (p ·.state) = s.segments.table.map (p ·.state) := by
  rcases s.placeHead_table with h | ⟨k, u, c, n, v, opened, use, h⟩
  · rw [h]
  · obtain ⟨e, he, state⟩ := Segments.open?_some opened
    refine List.ext_getElem? fun i => ?_
    rw [h, List.getElem?_map, List.getElem?_map, Segments.setState_getElem?]
    split
    · next here =>
      subst here
      simp [he, unused v (by rw [use]; rfl), unused e.state (by rw [state]; rfl)]
    · rfl

theorem SegmentState.isErased_of_use? (v : SegmentState) (h : v.use?.isSome = true) :
    v.isErased = false := by
  cases v <;> first | rfl | cases h

theorem SegmentState.isDirty_of_use? (v : SegmentState) (h : v.use?.isSome = true) :
    v.isDirty = false := by
  cases v <;> first | rfl | cases h

theorem State.placeHead_erasedCount (s : State) :
    s.placeHead.segments.erasedCount = s.segments.erasedCount := by
  have count (l : List Segment) :
      l.countP (·.state.isErased) = (l.map (·.state.isErased)).countP id := by
    rw [List.countP_map]
    rfl
  unfold Segments.erasedCount
  rw [count, s.placeHead_unused SegmentState.isErased_of_use?, ← count]

theorem State.placeHead_firstDirty (s : State) :
    s.placeHead.segments.firstDirty = s.segments.firstDirty := by
  have first (l : List Segment) :
      l.findIdx? (·.state.isDirty) = (l.map (·.state.isDirty)).findIdx? id := by
    rw [List.findIdx?_map]
    rfl
  unfold Segments.firstDirty
  rw [first, s.placeHead_unused SegmentState.isDirty_of_use?, ← first]

/-- With a program claimed or in progress no head job is placed (R48). -/
theorem State.placeHead_busy {s : State} (busy : s.array.programBusy = true) : s.placeHead = s := by
  unfold State.placeHead
  split
  · rfl
  · rw [busy, Bool.or_true, if_pos rfl]

theorem State.placeHead_nil {s : State} (jobs : s.writer.jobs = []) : s.placeHead = s := by
  rw [State.placeHead, jobs]

/-! ### The state in which the claims of an event are served -/

theorem State.placed_array (s : State) :
    s.placed.array = { s.array with programClaim := s.placed.array.programClaim } := by
  have rest := s.refilled_fields.2.1
  unfold State.placed
  rw [State.placeHead_array, rest]

theorem State.placed_use? (s : State) (i : Nat) : s.placed.segments.use? i = s.segments.use? i := by
  rw [State.placed, State.placeHead_use?, s.refilled_fields.1]

theorem State.placed_repair (s : State) :
    s.placed.repair.responders = s.repair.responders := by
  rw [State.placed, State.placeHead_repair, State.refilled, State.fillSlots_responders,
    State.excessTest_repair]

/-- A program claimed or in progress: no job is placed at the event's end, and the claims are served as
they are. -/
theorem State.placed_busy {s : State} (busy : s.array.programBusy = true) :
    s.placed.array = s.array ∧ s.placed.segments = s.segments := by
  obtain ⟨segments, rest, -⟩ := s.refilled_fields
  have placed : s.placed = s.refilled := State.placeHead_busy (by rw [rest]; exact busy)
  rw [placed]
  exact ⟨rest, segments⟩

/-- No job and no excess run: nothing is placed at the event's end. -/
theorem State.placed_nil {s : State} (jobs : s.writer.jobs = []) (excess : s.tracker.excess = []) :
    s.placed.array = s.array ∧ s.placed.segments = s.segments := by
  obtain ⟨segments, rest, -⟩ := s.refilled_fields
  have tested : s.excessTest = s := by rw [State.excessTest, excess]
  have filled : s.refilled.writer = s.writer := by
    rw [State.refilled, (State.fillSlots_fixes _).writer, tested]
  have placed : s.placed = s.refilled := State.placeHead_nil (by rw [filled]; exact jobs)
  rw [placed]
  exact ⟨rest, segments⟩

theorem State.placed_keeps (s : State) : s.Keeps s.placed :=
  s.excessTest_keeps.trans <| (State.fillSlots_keeps _).trans (State.placeHead_keeps _)

theorem State.placed_tables (s : State) : s.KeepsTables s.placed :=
  s.excessTest_tables.trans <| (State.fillSlots_tables _).trans (State.placeHead_tables _)

theorem State.floorVector_congr {s t : State} (enlistment : t.enlistment = s.enlistment)
    (holdings : t.tracker.holdings = s.tracker.holdings) : t.floorVector = s.floorVector := by
  have cluster : t.clusterSize = s.clusterSize := by
    rw [State.clusterSize, State.clusterSize, enlistment]
  unfold State.floorVector Tracker.holding
  rw [enlistment, cluster, holdings]

/-- A header served at an event's end takes the floors from before it. -/
theorem State.placed_floorVector (s : State) : s.placed.floorVector = s.floorVector :=
  State.floorVector_congr s.placed_keeps.enlistment s.placed_tables.holdings

/-! ### The erase decision and the suspend request -/

/-- Without a DIRTY segment, and with two ERASED ones in hand, no erase is requested (R56). -/
theorem State.scheduleErase_notDue {s : State} (clean : s.segments.firstDirty = none)
    (reserve : 2 ≤ s.segments.erasedCount) : s.scheduleErase = s := by
  have enough : decide (s.segments.erasedCount < Config.reserveTarget) = false :=
    decide_eq_false (by show ¬ _ < 2; omega)
  unfold State.scheduleErase
  rw [clean, enough, Bool.and_false]
  split <;> rfl

theorem State.checkSuspend_other {s : State} (other : s.array.activity ≠ .erase) :
    s.checkSuspend = s := by
  unfold State.checkSuspend
  split
  · next running _ => exact absurd running other
  · rfl

section CheckSuspend

variable {s : State} {c : EraseContext} (running : s.array.activity = .erase)
  (context : s.array.context = some c)
include running context

theorem State.checkSuspend_take (demand : s.array.demand = true) (reached : c.minimumReached = true) :
    s.checkSuspend = s.setArray { s.array with
      activity := .suspending, context := some { c with suspendRequest := false } } := by
  simp [State.checkSuspend, running, context, demand, reached]

theorem State.checkSuspend_request (demand : s.array.demand = true)
    (before : c.minimumReached = false) :
    s.checkSuspend = s.setArray { s.array with
      context := some { c with suspendRequest := true } } := by
  simp [State.checkSuspend, running, context, demand, before]

theorem State.checkSuspend_withdraw (demand : s.array.demand = false) :
    s.checkSuspend = s.setArray { s.array with
      context := some { c with suspendRequest := false } } := by
  simp [State.checkSuspend, running, context, demand]

end CheckSuspend

/-- An erase started while no claim waits runs on (R40). -/
theorem State.checkSuspend_started {s : State} (demand : s.array.demand = false) (c : EraseContext) :
    (s.setArray { s.array with activity := .erase, context := some c.start }).checkSuspend
      = s.setArray { s.array with activity := .erase, context := some c.start } :=
  State.checkSuspend_withdraw (c := c.start)
    (s := s.setArray { s.array with activity := .erase, context := some c.start }) rfl rfl demand

theorem ArrayEngine.demand_eq_false {a : ArrayEngine} : a.demand = false ↔
    a.hostClaim = none ∧ a.programClaim = none ∧ a.fetchClaims = [] := by
  simp [ArrayEngine.demand, and_assoc]

end Sys2Proof.Machine

/-! ## The suspension of an erase (R25, R38 to R40) -/

namespace Sys2Proof.Machine

/-- The array once the suspension of its erase has completed: IDLE, the erase HELD (R39). -/
def State.suspended (s : State) (c : EraseContext) : State :=
  s.setArray { s.array with activity := .idle, context := some { c with running := false } }

/-- The current run of the erase has reached the resume minimum (R38). -/
def State.minimumReached (s : State) (c : EraseContext) : State :=
  s.setArray { s.array with context := some { c with minimumReached := true } }

/-- With an erase in hand, and the claims served to an operation, the suspend request alone follows. -/
theorem State.conclude_served {s t : State} (held : s.array.context ≠ none) (served : s.placed.serve = t)
    (busy : t.array.activity ≠ .idle) : s.conclude = t.checkSuspend.flush := by
  rw [State.conclude_held held, served, State.serve_busy busy]

/-- A program claim keeps the next job from being placed (R48). -/
theorem State.suspended_programBusy {s : State} {p : ProgramClaim}
    (program : s.array.programClaim = some p) (c : EraseContext) :
    (s.suspended c).array.programBusy = true := by
  rw [ArrayEngine.programBusy, Bool.or_eq_true]
  exact .inl (Option.isSome_iff_exists.2 ⟨p, program⟩)

section Suspended

variable {s : State} {c : EraseContext} (suspending : s.array.activity = .suspending)
  (context : s.array.context = some c)
include suspending context

/-- The completion of a suspension, its event's end included. -/
theorem execSuspensionCompletion_suspended :
    exec .suspensionCompletion s = .next (s.suspended c).conclude ∧
      s.Keeps (s.suspended c).conclude ∧ s.KeepsTables (s.suspended c).conclude := by
  refine ⟨?_, (s.setArray_keeps _).trans (State.conclude_keeps _),
    (s.setArray_tables _).trans (State.conclude_tables _)⟩
  show execSuspensionCompletion s = _
  rw [execSuspensionCompletion, suspending, context]
  rfl

/-- Claims served to an operation other than the erase: the event ends with that. -/
theorem execSuspensionCompletion_served {t : State} (served : (s.suspended c).placed.serve = t)
    (busy : t.array.activity ≠ .idle) (other : t.array.activity ≠ .erase) :
    ∃ u, exec .suspensionCompletion s = .next u ∧ u.array = t.array ∧ u.segments = t.segments ∧
      s.Keeps u ∧ s.KeepsTables u := by
  obtain ⟨run, keeps⟩ := execSuspensionCompletion_suspended suspending context
  have ended := State.conclude_served (s := s.suspended c) nofun served busy
  rw [State.checkSuspend_other other] at ended
  exact ⟨_, run, by rw [ended]; rfl, by rw [ended]; rfl, keeps⟩

/-- A host read of a readable segment is served first (R25). -/
theorem execSuspensionCompletion_host {h : HostClaim} (host : s.array.hostClaim = some h)
    (readable : (s.segments.use? h.segment).isSome = true) :
    ∃ t, exec .suspensionCompletion s = .next t ∧ t.array.activity = .read (.host h) ∧
      t.array.hostClaim = none ∧ t.array.context = some { c with running := false } ∧
      s.Keeps t ∧ s.KeepsTables t := by
  have placed := (s.suspended c).placed_array
  obtain ⟨t, run, array, -, keeps⟩ := execSuspensionCompletion_served suspending context
    (serveClaims_host (s := (s.suspended c).placed) (c := h) _ (by rw [placed]; rfl)
      (by rw [placed]; exact host) (by rw [State.placed_use?]; exact readable)) nofun nofun
  exact ⟨t, run, by rw [array]; rfl, by rw [array]; rfl, by rw [array, placed]; rfl, keeps⟩

/-- A header program served opens its segment with the fields of its header (R11, R49). -/
theorem execSuspensionCompletion_header {k : Nat} {e : Segment} (host : s.array.hostClaim = none)
    (program : s.array.programClaim = some (.header k)) (he : s.segments.table[k]? = some e) :
    ∃ t, exec .suspensionCompletion s = .next t ∧ t.array.activity = .program (.header k) ∧
      t.array.context = some { c with running := false } ∧
      t.segments.table[k]? = some ⟨
        .opened ⟨s.writer.nextPosition, none, 0, s.floorVector, [], [], []⟩ (.place 1 0) 0,
        e.generation, e.retire⟩ ∧
      s.Keeps t ∧ s.KeepsTables t := by
  obtain ⟨placed, segments⟩ := State.placed_busy (State.suspended_programBusy program c)
  obtain ⟨t, run, array, table, keeps⟩ := execSuspensionCompletion_served suspending context
    (serveClaims_header (s := (s.suspended c).placed) (k := k) _ (by rw [placed]; rfl)
      (by rw [placed]; exact host) (by rw [placed]; exact program)) nofun nofun
  have position : (s.suspended c).placed.writer.nextPosition = s.writer.nextPosition :=
    (State.placed_keeps _).nextPosition
  have floors : (s.suspended c).placed.floorVector = s.floorVector := State.placed_floorVector _
  refine ⟨t, run, by rw [array]; rfl, by rw [array]; exact congrArg ArrayEngine.context placed, ?_,
    keeps⟩
  rw [table, ← position, ← floors]
  refine (Segments.setState_getElem? _ _ _ _).trans ?_
  rw [if_pos rfl, State.setArray_segments, segments]
  exact congrArg _ he

/-- A record program served (R25). -/
theorem execSuspensionCompletion_record (host : s.array.hostClaim = none)
    (program : s.array.programClaim = some .record) :
    ∃ t, exec .suspensionCompletion s = .next t ∧ t.array.activity = .program .record ∧
      t.array.context = some { c with running := false } ∧ s.Keeps t ∧ s.KeepsTables t := by
  obtain ⟨placed, -⟩ := State.placed_busy (State.suspended_programBusy program c)
  obtain ⟨t, run, array, -, keeps⟩ := execSuspensionCompletion_served suspending context
    (serveClaims_record (s := (s.suspended c).placed) _ (by rw [placed]; rfl)
      (by rw [placed]; exact host) (by rw [placed]; exact program)) nofun nofun
  exact ⟨t, run, by rw [array]; rfl, by rw [array]; exact congrArg ArrayEngine.context placed, keeps⟩

variable (jobs : s.writer.jobs = []) (excess : s.tracker.excess = [])
include jobs excess

/-- The first fetch served, when neither a host read nor a program is claimed (R25). -/
theorem execSuspensionCompletion_fetch {f : FetchClaim} {rest : List FetchClaim}
    (host : s.array.hostClaim = none) (program : s.array.programClaim = none)
    (fetch : s.array.fetchClaims = f :: rest) (readable : (s.segments.use? f.segment).isSome = true) :
    ∃ t, exec .suspensionCompletion s = .next t ∧ t.array.activity = .read (.fetch f .wanted) ∧
      t.array.fetchClaims = rest ∧ t.array.context = some { c with running := false } ∧
      s.Keeps t ∧ s.KeepsTables t := by
  obtain ⟨placed, segments⟩ := State.placed_nil (s := s.suspended c) jobs excess
  obtain ⟨t, run, array, -, keeps⟩ := execSuspensionCompletion_served suspending context
    (serveClaims_fetch (s := (s.suspended c).placed) _ (by rw [placed]; rfl)
      (by rw [placed]; exact host) (by rw [placed]; exact program) (by rw [placed]; exact fetch)
      (by rw [segments]; exact readable)) nofun nofun
  exact ⟨t, run, by rw [array]; rfl, by rw [array]; rfl,
    by rw [array]; exact congrArg ArrayEngine.context placed, keeps⟩

/-- With no claim waiting the erase is resumed at once (R40). -/
theorem execSuspensionCompletion_resumes (demand : s.array.demand = false) :
    ∃ t, exec .suspensionCompletion s = .next t ∧ t.array.activity = .erase ∧
      t.array.context = some ⟨c.segment, true, true, false, false⟩ ∧ s.Keeps t ∧ s.KeepsTables t := by
  obtain ⟨placed, -⟩ := State.placed_nil (s := s.suspended c) jobs excess
  obtain ⟨run, keeps⟩ := execSuspensionCompletion_suspended suspending context
  obtain ⟨host, program, fetch⟩ := ArrayEngine.demand_eq_false.1 demand
  have ended := State.conclude_served (s := s.suspended c) nofun
    (serveClaims_erase (s := (s.suspended c).placed) (c := { c with running := false }) _
      (by rw [placed]; rfl) (by rw [placed]; exact host) (by rw [placed]; exact program)
      (by rw [placed]; exact fetch) (by rw [placed]; rfl) rfl) nofun
  rw [State.checkSuspend_started (by rw [placed]; exact demand)] at ended
  exact ⟨_, run, by rw [ended]; rfl, by rw [ended]; rfl, keeps⟩

end Suspended

/-- The current run reaches the resume minimum (R38; log 2). -/
theorem execResumeMinimumReached_first {s : State} {c : EraseContext} (running : s.array.activity = .erase)
    (context : s.array.context = some c) (before : c.minimumReached = false) :
    exec .resumeMinimumReached s = .next (s.minimumReached c).checkSuspend := by
  show execResumeMinimumReached s = _
  simp [execResumeMinimumReached, State.minimumReached, running, context, before]

end Sys2Proof.Machine

namespace Sys2Proof

open Machine

/-- Settles O47: the suspend request by its cases, and the claims that the completion of a suspension
serves in the order of R25. -/
theorem eraseSuspends : Obligations.EraseSuspends := by
  intro s c context
  refine ⟨fun running before => ?_, fun running =>
    ⟨State.checkSuspend_take running context, State.checkSuspend_request running context,
      State.checkSuspend_withdraw running context⟩,
    fun suspending => ⟨fun h => execSuspensionCompletion_host suspending context,
      fun k e => execSuspensionCompletion_header suspending context,
      fun f rest host program fetch readable jobs excess =>
        execSuspensionCompletion_fetch suspending context jobs excess host program fetch readable,
      fun _ => execSuspensionCompletion_record suspending context,
      fun demand jobs excess =>
        execSuspensionCompletion_resumes suspending context jobs excess demand⟩⟩
  rw [execResumeMinimumReached_first running context before]
  exact ⟨fun demand => congrArg _
      (State.checkSuspend_take (s := s.minimumReached c) running rfl demand rfl),
    fun demand => congrArg _ (State.checkSuspend_withdraw (s := s.minimumReached c) running rfl demand)⟩

end Sys2Proof

/-! ## Reads of flash: claims made, and completions (R23, R26, R32, R33, R144, R145, R154, R158, R159) -/

namespace Sys2Proof.Machine

/-! ### The read slot at the end of an event (R154) -/

/-- The end of an event has no PENDING read to refuse: the array is not IDLE, or the slot is not
PENDING. -/
def State.SlotRests (s : State) : Prop :=
  s.array.activity ≠ .idle ∨ ∀ target, s.port.slot ≠ .pending target

theorem Port.readDone_slot {p : Port} (answered : ∀ target, p.slot ≠ .pending target) (c : Code) :
    p.readDone c = p := by
  unfold Port.readDone
  split
  · next target pending => exact absurd pending (answered target)
  · rfl

/-- The servings leave a read slot that is not PENDING. -/
theorem serveClaims_slot (fuel : Nat) {s : State} (answered : ∀ target, s.port.slot ≠ .pending target) :
    (serveClaims fuel s).port = s.port := by
  refine serveClaims_rel (R := fun s t => (∀ target, s.port.slot ≠ .pending target) → t.port = s.port)
    ?_ ?_ fuel s answered
  · intro s t served _
    cases served <;> rfl
  · intro s t u refused later answered
    cases refused with
    | host c =>
      have same : s.port.readDone .reclaimed = s.port := Port.readDone_slot answered _
      exact (later (by rw [State.setPort_port, same]; exact answered)).trans same
    | fetch c rest =>
      have port := (State.skipSeq_fetchOnly (s.setArray { s.array with fetchClaims := rest })
        c.requester c.origin c.seq).port
      exact (later (by rw [port]; exact answered)).trans port

theorem State.serve_slot {s : State} (rests : s.SlotRests) :
    s.serve.port = s.port ∧ s.serve.SlotRests := by
  rcases rests with busy | answered
  · rw [State.serve_busy busy]
    exact ⟨rfl, .inl busy⟩
  · have port : s.serve.port = s.port := serveClaims_slot _ answered
    exact ⟨port, .inr (by rw [port]; exact answered)⟩

theorem State.scheduleErase_port (s : State) : s.scheduleErase.port = s.port := by
  unfold State.scheduleErase
  repeat' split
  · rfl
  · rfl
  · dsimp only
    split <;> rfl
  · rfl
  · rfl

theorem State.scheduleErase_slot {s : State} (rests : s.SlotRests) : s.scheduleErase.SlotRests := by
  rw [State.SlotRests, State.scheduleErase_port, State.scheduleErase_array]
  exact rests

theorem State.excessTest_port (s : State) : s.excessTest.port = s.port := by
  unfold State.excessTest
  repeat' split
  all_goals rfl

theorem State.fillSlots_port (s : State) : s.fillSlots.port = s.port := by
  have fill (s : State) : s.fillSlot.port = s.port := by
    unfold State.fillSlot
    split
    · unfold State.setSlot
      dsimp only
      split <;> rfl
    · rfl
  unfold State.fillSlots
  split
  · exact repeat_rel (R := fun s t : State => t.port = s.port) (fun _ => rfl)
      (fun a b => b.trans a) fill 4 s
  · rfl

theorem State.placeHead_port (s : State) : s.placeHead.port = s.port := by
  have room : s.askRoom.port = s.port := by
    unfold State.askRoom
    dsimp only
    split <;> rfl
  unfold State.placeHead
  repeat' split
  all_goals first | rfl | exact room

theorem State.placed_port (s : State) : s.placed.port = s.port := by
  rw [State.placed, State.placeHead_port, State.refilled, State.fillSlots_port, State.excessTest_port]

theorem State.checkSuspend_port (s : State) : s.checkSuspend.port = s.port := by
  unfold State.checkSuspend
  repeat' split
  all_goals rfl

/-- The end of an event leaves the read slot, but for a PENDING read that an IDLE array refuses (R34). -/
theorem State.conclude_slot {s : State} (rests : s.SlotRests) :
    s.conclude.port.slot = s.port.slot := by
  have placed : s.placed.SlotRests := by
    rw [State.SlotRests, State.placed_port, State.placed_array]
    exact rests
  obtain ⟨first, rests⟩ := State.serve_slot (State.scheduleErase_slot placed)
  obtain ⟨second, -⟩ := State.serve_slot (State.scheduleErase_slot rests)
  rw [State.conclude_eq]
  simp only [State.flush, State.setFreeIndex_port, State.setRaised_port, State.setPort_port,
    Port.takes_fields]
  rw [State.checkSuspend_port, second, State.scheduleErase_port, first, State.scheduleErase_port,
    State.placed_port]

end Sys2Proof.Machine

/-! ### Reads claimed (R23, R32, R158, R159) -/

namespace Sys2Proof.Machine

section Lookups

variable {s : State} {k : Nat} {l : Locator}

theorem State.lookupPosition_found {position : Nat} (nonzero : position ≠ 0)
    (used : position < s.writer.nextPosition) (survives : s.oldestPosition ≤ position)
    (found : s.segments.findPosition position = some (k, l)) :
    s.lookupPosition position = .claim (l.hostClaim k none) := by
  rw [State.lookupPosition, if_neg nonzero, if_neg (by omega), if_neg (by omega), found]

theorem State.lookupRecord_data {origin seq : Nat} (valid : origin ≤ 15) (nonzero : seq ≠ 0)
    (found : s.segments.findData origin seq = some (k, l)) :
    s.lookupRecord origin seq = .claim (l.hostClaim k none) := by
  rw [State.lookupRecord, if_neg (not_or.2 ⟨Nat.not_lt.2 valid, nonzero⟩), found]

theorem State.lookupRecord_hole {origin seq : Nat} (valid : origin ≤ 15) (nonzero : seq ≠ 0)
    (unstored : s.segments.findData origin seq = none) (above : s.oldestFloor origin < seq)
    (found : s.segments.findHole origin seq = some (k, l)) :
    s.lookupRecord origin seq = .claim (l.hostClaim k (some seq)) := by
  rw [State.lookupRecord, if_neg (not_or.2 ⟨Nat.not_lt.2 valid, nonzero⟩), unstored]
  dsimp only
  rw [if_neg (by omega), found]

end Lookups

theorem State.takeRead_free {s : State} (free : ∀ t, s.port.slot ≠ .pending t) (c : HostCommand)
    (target : Target) (claim : HostClaim) :
    s.takeRead c target (.claim claim) = (s.setPort { s.port with slot := .pending target }).setArray
      { s.array with hostClaim := some claim } := by
  unfold State.takeRead
  split
  · next t pending => exact absurd pending (free t)
  · rfl

/-- A read that needs flash, taken while the array is not IDLE: the slot is PENDING and the claim waits
(R23, R154). -/
theorem State.takeRead_claimed {s : State} (busy : s.array.activity ≠ .idle)
    (free : ∀ t, s.port.slot ≠ .pending t) (c : HostCommand) (target : Target) (claim : HostClaim) :
    let t := ((s.setReturned Sdo.zeros).takeRead c target (.claim claim)).conclude
    t.port.slot = .pending target ∧ t.array.hostClaim = some claim ∧
      (s.setReturned Sdo.zeros).Keeps t ∧ s.KeepsTables t := by
  let u := ((s.setReturned Sdo.zeros).setPort { (s.setReturned Sdo.zeros).port with
    slot := .pending target }).setArray { s.array with hostClaim := some claim }
  have taken : (s.setReturned Sdo.zeros).takeRead c target (.claim claim) = u :=
    State.takeRead_free (s := s.setReturned Sdo.zeros) free c target claim
  have busy : u.array.activity ≠ .idle := busy
  rw [taken]
  exact ⟨State.conclude_slot (.inl busy), (State.conclude_busy busy).1,
    .trans (t := u) (by constructor <;> rfl) u.conclude_keeps,
    .trans (t := u) ⟨rfl, rfl, rfl⟩ u.conclude_tables⟩

section Taken

variable {s : State} (ready : s.PortReady) (serves : s.mode.serves)
include serves

theorem HostCommand.verdict_reads {c : HostCommand} (h : c = .readPosition ∨ c = .readRecord) :
    c.verdict s.mode = .taken := by
  obtain mode | mode | mode := serves <;> obtain rfl | rfl := h <;> rw [mode] <;> rfl

include ready

theorem execReadPosition_taken (position : Word) : exec (.readPosition position .whole) s =
    .next (((s.setReturned Sdo.zeros).takeRead .readPosition (.position position.toNat)
      (s.lookupPosition position.toNat)).conclude) := by
  have taken := HostCommand.verdict_reads serves (.inl rfl)
  show Host.Outcome.next (s.command .readPosition .whole _) = _
  rw [State.command_taken ready _ taken, State.drives_zeros taken rfl]
  rfl

theorem execReadRecord_taken (origin : Byte) (seq : Word) : exec (.readRecord origin seq .whole) s =
    .next (((s.setReturned Sdo.zeros).takeRead .readRecord (.record origin.toNat seq.toNat)
      (s.lookupRecord origin.toNat seq.toNat)).conclude) := by
  have taken := HostCommand.verdict_reads serves (.inr rfl)
  show Host.Outcome.next (s.command .readRecord .whole _) = _
  rw [State.command_taken ready _ taken, State.drives_zeros taken rfl]
  rfl

end Taken

end Sys2Proof.Machine

namespace Sys2Proof

open Machine

/-- Settles O9: the lookup's claim, made in the state that the selection has returned its bytes in. -/
theorem readsClaimed : Obligations.ReadsClaimed := by
  intro s ready serves busy free
  have claimed := State.takeRead_claimed busy free
  refine ⟨fun position k l nonzero used survives found => ?_,
    fun origin seq k l valid nonzero found => ?_,
    fun origin seq k l valid nonzero unstored above found => ?_⟩
  · refine ⟨_, execReadPosition_taken ready serves position, ?_⟩
    rw [State.lookupPosition_found (by bv_omega) used survives found]
    exact claimed _ _ _
  · refine ⟨_, execReadRecord_taken ready serves origin seq, ?_⟩
    rw [State.lookupRecord_data valid (by bv_omega) found]
    exact claimed _ _ _
  · refine ⟨_, execReadRecord_taken ready serves origin seq, ?_⟩
    rw [State.lookupRecord_hole valid (by bv_omega) unstored above found]
    exact claimed _ _ _

end Sys2Proof

/-! ### A host read completes (R32, R159) -/

namespace Sys2Proof.Machine

/-- The Host Port after a host read of a PENDING slot: the code by the check and the range, and the
bytes when they are the answer. -/
theorem State.hostReadDone_eq {s : State} {target : Target} (pending : s.port.slot = .pending target)
    (c : HostClaim) (bytes : List Byte) :
    s.hostReadDone c bytes = s.setPort { s.port with
      slot := .done target (if checkGood bytes then c.code bytes else .notFound)
      buffer := if checkGood bytes ∧ c.code bytes ≠ .notFound then bytes else s.port.buffer } := by
  unfold State.hostReadDone Port.readDone
  rw [pending]
  by_cases good : checkGood bytes = true <;> by_cases found : c.code bytes = .notFound <;>
    simp [good, found]

theorem HostClaim.code_reaches {c : HostClaim} {bytes : List Byte}
    (reaches : ∀ seq, c.sought = some seq → seq ≤ (frontWord (bytes.drop 12)).toNat) :
    c.code bytes = if c.sought.isSome then .hole else .ok := by
  unfold HostClaim.code
  cases sought : c.sought with
  | none => rfl
  | some seq => exact if_pos (reaches seq sought)

theorem HostClaim.code_short {c : HostClaim} {bytes : List Byte}
    (short : ¬ ∀ seq, c.sought = some seq → seq ≤ (frontWord (bytes.drop 12)).toNat) :
    c.code bytes = .notFound := by
  unfold HostClaim.code
  cases sought : c.sought with
  | none => exact absurd (fun seq h => nomatch sought.symm.trans h) short
  | some seq =>
    refine if_neg fun reaches => short fun x hx => ?_
    cases sought.symm.trans hx
    exact reaches

/-- A host read's completion, its event's end included. -/
theorem execHostReadCompletion_pending {s : State} {c : HostClaim} {target : Target}
    (reading : s.array.activity = .read (.host c)) (pending : s.port.slot = .pending target)
    (flaw : Option (List Byte)) :
    let bytes := s.delivered c.segment c.page c.offset c.size flaw
    ∃ t, exec (.hostReadCompletion flaw) s = .next t ∧
      t.port.slot = .done target (if checkGood bytes then c.code bytes else .notFound) ∧
      t.port.buffer
        = (if checkGood bytes ∧ c.code bytes ≠ .notFound then bytes else s.port.buffer) ∧
      State.Keeps { s with port := { s.port with buffer := t.port.buffer } } t ∧ s.KeepsTables t := by
  intro bytes
  let u := s.arrayIdle.hostReadDone c bytes
  have done := State.hostReadDone_eq (s := s.arrayIdle) pending c bytes
  have kept := u.conclude_keeps
  have slot : u.port.slot = .done target (if checkGood bytes then c.code bytes else .notFound) :=
    congrArg (·.port.slot) done
  refine ⟨u.conclude, ?_, ?_, ?_, ?_, .trans (t := u) ?_ u.conclude_tables⟩
  · show execHostReadCompletion flaw s = _
    rw [execHostReadCompletion, reading]
  · rw [State.conclude_slot (.inr (by rw [slot]; nofun)), slot]
  · exact kept.buffer.trans (congrArg (·.port.buffer) done)
  · rw [kept.buffer]
    refine .trans (t := u) ?_ kept
    rw [show u = _ from done]
    constructor <;> rfl
  · rw [show u = _ from done]
    exact ⟨rfl, rfl, rfl⟩

end Sys2Proof.Machine

namespace Sys2Proof

open Machine

/-- Settles O42: the code and the buffer by the check and by the range read. -/
theorem hostReadCompletes : Obligations.HostReadCompletes := by
  intro s c target flaw reading pending
  obtain ⟨t, run, slot, buffer, keeps, tables⟩ := execHostReadCompletion_pending reading pending flaw
  refine ⟨t, run, fun bad => ?_, fun good reaches => ?_, fun good short => ?_, keeps, tables⟩
  · rw [slot, buffer]
    simp [bad]
  · rw [slot, buffer, HostClaim.code_reaches reaches]
    have found : (if c.sought.isSome then Code.hole else .ok) ≠ .notFound := by split <;> nofun
    exact ⟨by rw [if_pos good], if_pos ⟨good, found⟩⟩
  · rw [slot, buffer, HostClaim.code_short short]
    simp

end Sys2Proof

/-! ### Fetches: claims and completions (R23, R26, R33, R142 to R145) -/

namespace Sys2Proof.Machine

theorem State.Served.quiescent {s : State} (h : s.Served) : s.Quiescent := by
  by_cases idle : s.array.activity = .idle
  · exact .inr (ArrayEngine.demand_eq_false.1 (h idle)).2.2
  · exact .inl idle

theorem ArrayEngine.dropping_iff (a : ArrayEngine) (q o : Nat) : a.dropping q o = true ↔
    ∃ c : FetchClaim, a.activity = .read (.fetch c .withdrawn) ∧ c.requester = q ∧ c.origin = o := by
  unfold ArrayEngine.dropping
  split
  · next c reading => simp [reading, FetchClaim.isFor]
  · next other => simpa using fun c reading => absurd reading (other c)

section Entry

variable {s : State} {e : Responder} {q o : Nat} (he : s.repair.responder? q o = some e)
include he

/-- The entry of a key is among the entries once it has been changed. -/
theorem State.changeResponder_mem (f : Responder → Responder) :
    f e ∈ (s.changeResponder q o f).repair.responders := by
  obtain ⟨mem, key⟩ := Repair.responder?_mem he
  exact List.mem_map.2 ⟨e, mem, if_pos key⟩

/-- While its withdrawn fetch is still being read, an entry awaits that (R23; log 44). -/
theorem State.takeNext_awaits {l : List Nat} (dropping : s.array.dropping q o = true) (left : l ≠ []) :
    s.takeNext e l = s.changeResponder q o fun e => { e with list := l, state := .fetching } := by
  obtain ⟨-, rfl, rfl⟩ := Repair.responder?_mem he
  have left : l.isEmpty = false := by simpa using left
  unfold State.takeNext
  rw [dropping, left]
  rfl

/-- The lowest seq still stored is claimed (R144). -/
theorem State.takeNext_claims {l r : List Nat} {k : Nat} {x : Locator}
    (still : s.array.dropping q o = false) (stored : s.segments.firstStored o l = some (r, k, x)) :
    s.takeNext e l = (s.changeResponder q o fun e => { e with list := r, state := .fetching }).setArray
      { s.array with fetchClaims := s.array.fetchClaims ++
          [⟨q, o, x.seq, k, x.page, x.offset, x.size⟩] } := by
  obtain ⟨-, rfl, rfl⟩ := Repair.responder?_mem he
  unfold State.takeNext
  rw [still, Bool.false_and, if_neg Bool.false_ne_true, stored]
  rfl

end Entry

/-! ### A defer timer runs out (R142 to R144) -/

theorem State.deferred_keeps (s : State) (e : Responder) :
    s.Keeps (s.deferred e) ∧ s.KeepsTables (s.deferred e) := by
  unfold State.deferred
  split
  · exact ⟨s.changeResponder_keeps _ _ _, s.changeResponder_tables _ _ _⟩
  · exact ⟨s.takeNext_keeps _ _, s.takeNext_tables _ _⟩

theorem State.deferred_none {s : State} {e : Responder} (gone : e.gone = none) :
    s.deferred e = s.takeNext e e.list := by
  rw [State.deferred, gone]
  rfl

theorem execDeferExpiry_deferring {s : State} {q o : StationNumber} {e : Responder}
    (he : s.repair.responder? q.toNat o.toNat = some e) (deferring : e.state = .deferring) :
    exec (.deferExpiry q o) s = .next (s.deferred e).conclude := by
  show execDeferExpiry q o s = _
  rw [execDeferExpiry, he]
  simp only [deferring, if_true]

end Sys2Proof.Machine

namespace Sys2Proof

open Machine

/-- Settles O38: the entry as the defer timer leaves it, which the end of the event serves no claim of. -/
theorem deferEnds : Obligations.DeferEnds := by
  intro s q o e served he deferring reads
  obtain ⟨-, hq, ho⟩ := Repair.responder?_mem he
  obtain ⟨keeps, tables⟩ := s.deferred_keeps e
  refine ⟨_, execDeferExpiry_deferring he deferring, fun gone => ?_,
    fun list k l gone still stored busy => ?_, fun gone awaited left => ?_,
    keeps.trans (State.conclude_keeps _), tables.trans (State.conclude_tables _)⟩
  · have turned : s.deferred e
        = s.changeResponder q.toNat o.toNat fun e => { e with state := .readyGone } := by
      rw [State.deferred, if_pos (Option.isSome_iff_ne_none.2 gone), hq, ho]
    have rests : (s.deferred e).Quiescent := by rw [turned]; exact served.quiescent
    rw [State.conclude_rested rests, turned]
    exact ⟨_, State.changeResponder_mem he _, hq, ho, rfl, rfl⟩
  · have claimed : s.deferred e = _ := (State.deferred_none gone).trans
      (State.takeNext_claims he (Bool.eq_false_iff.2 fun h => still ((s.array.dropping_iff _ _).1 h))
        (ho ▸ stored))
    have busy : (s.deferred e).array.activity ≠ .idle := by rw [claimed]; exact busy
    rw [State.conclude_rested (.inl busy), (State.conclude_busy busy).2.1, claimed, hq, ho]
    exact ⟨rfl, _, State.changeResponder_mem he _, hq, ho, rfl, rfl⟩
  · have waits : s.deferred e = _ := (State.deferred_none gone).trans
      (State.takeNext_awaits he ((s.array.dropping_iff _ _).2 awaited) left)
    have busy : (s.deferred e).array.activity ≠ .idle := by
      obtain ⟨c, reading, -⟩ := awaited
      rw [waits]
      exact fun idle => nomatch reading.symm.trans idle
    rw [State.conclude_rested (.inl busy), (State.conclude_busy busy).2.1, waits]
    exact ⟨rfl, _, State.changeResponder_mem he _, hq, ho, rfl, rfl⟩

end Sys2Proof

/-! ### A fetch completes (R26, R33, R144, R145) -/

namespace Sys2Proof.Machine

/-- With a readable record at the head of the fetch claims an IDLE array takes an operation, and the
responder queue stays (R25, R34). -/
theorem serveClaims_readable (fuel : Nat) {s : State} (idle : s.array.activity = .idle)
    (host : s.array.hostClaim = none) {f : FetchClaim} {rest : List FetchClaim}
    (fetch : s.array.fetchClaims = f :: rest) (readable : (s.segments.use? f.segment).isSome = true) :
    s.Rested (serveClaims (fuel + 1) s) := by
  cases program : s.array.programClaim with
  | none =>
    rw [serveClaims_fetch fuel idle host program fetch readable]
    exact ⟨rfl, .inl nofun⟩
  | some p =>
    cases p with
    | record =>
      rw [serveClaims_record fuel idle host program]
      exact ⟨rfl, .inl nofun⟩
    | header k =>
      rw [serveClaims_header fuel idle host program]
      exact ⟨rfl, .inl nofun⟩

theorem State.serve_readable {s : State} (idle : s.array.activity = .idle) {f : FetchClaim}
    {rest : List FetchClaim} (fetch : s.array.fetchClaims = f :: rest)
    (readable : (s.segments.use? f.segment).isSome = true) : s.Rested s.serve := by
  unfold State.serve
  cases host : s.array.hostClaim with
  | none => exact serveClaims_readable _ idle host fetch readable
  | some c =>
    cases use : s.segments.use? c.segment with
    | some u =>
      rw [serveClaims_host _ idle host (by rw [use]; rfl)]
      exact ⟨rfl, .inl nofun⟩
    | none =>
      rw [serveClaims_host_refused _ idle host use]
      have rested := serveClaims_readable (2 * s.array.fetchClaims.length + 1)
        (s := (s.setArray { s.array with hostClaim := none }).setPort (s.port.readDone .reclaimed))
        idle rfl fetch readable
      exact ⟨rested.responders, rested.quiescent⟩

/-- No erase is requested at the next decision: one is in hand, or none is due (R56). -/
def State.EraseSettled (s : State) : Prop :=
  s.array.context ≠ none ∨ s.segments.firstDirty = none ∧ 2 ≤ s.segments.erasedCount

theorem State.EraseSettled.scheduleErase {s : State} (h : s.EraseSettled) : s.scheduleErase = s := by
  rcases h with held | ⟨clean, reserve⟩
  · exact State.scheduleErase_held held
  · exact State.scheduleErase_notDue clean reserve

theorem State.EraseSettled.placed {s : State} (h : s.EraseSettled) : s.placed.EraseSettled := by
  unfold State.EraseSettled
  rw [State.placed_array]
  refine h.imp_right fun h => ?_
  rw [State.placed, State.placeHead_firstDirty, State.placeHead_erasedCount, s.refilled_fields.1]
  exact h

/-- At the end of an event with a readable record to fetch, and no erase to request before the fetch is
served, the responder queue stays. -/
theorem State.conclude_readable {s : State} (idle : s.array.activity = .idle)
    (settled : s.EraseSettled) {f : FetchClaim} {rest : List FetchClaim}
    (fetch : s.array.fetchClaims = f :: rest) (readable : (s.segments.use? f.segment).isSome = true) :
    s.conclude.repair.responders = s.repair.responders := by
  have placed := s.placed_array
  have served : s.placed.Rested s.placed.serve := State.serve_readable (by rw [placed]; exact idle)
    (by rw [placed]; exact fetch) (by rw [State.placed_use?]; exact readable)
  have decided : s.placed.serve.Rested s.placed.serve.scheduleErase :=
    .of_array served.quiescent (by rw [State.scheduleErase_repair])
      (by rw [State.scheduleErase_array]) (by rw [State.scheduleErase_array])
  have again := State.serve_rested decided.quiescent
  rw [State.conclude_eq, settled.placed.scheduleErase]
  show (State.checkSuspend _).repair.responders = _
  rw [State.checkSuspend_repair]
  exact ((served.trans decided).trans again).responders.trans s.placed_repair

/-- An entry that has claimed its next seq is FETCHING it at the event's end (R144). -/
theorem State.takeNext_fetching {s : State} (idle : s.array.activity = .idle) (settled : s.EraseSettled)
    (waiting : s.array.fetchClaims = []) {q o : Nat} {e : Responder}
    (he : s.repair.responder? q o = some e) {list rest : List Nat} {k : Nat} {l : Locator}
    (stored : s.segments.firstStored o list = some (rest, k, l)) :
    ∃ x ∈ (s.takeNext e list).conclude.repair.responders, x.requester = q ∧ x.origin = o ∧
      x.state = .fetching ∧ x.list = rest := by
  have still : s.array.dropping q o = false := by rw [ArrayEngine.dropping, idle]
  let changed := s.changeResponder q o fun e => { e with list := rest, state := .fetching }
  let u := changed.setArray { s.array with fetchClaims := [⟨q, o, l.seq, k, l.page, l.offset, l.size⟩] }
  have claimed : s.takeNext e list = u := by
    rw [State.takeNext_claims he still stored, waiting]
    rfl
  obtain ⟨-, hq, ho⟩ := Repair.responder?_mem he
  rw [claimed, State.conclude_readable (s := u) idle settled rfl (Segments.firstStored_readable stored)]
  exact ⟨_, State.changeResponder_mem he _, hq, ho, rfl, rfl⟩

theorem State.fetchDone_keeps (s : State) (c : FetchClaim) (bytes : List Byte) :
    s.Keeps (s.fetchDone c bytes) ∧ s.KeepsTables (s.fetchDone c bytes) := by
  unfold State.fetchDone
  split
  · exact ⟨State.changeResponder_keeps _ _ _ _, State.changeResponder_tables _ _ _ _⟩
  · exact ⟨State.skipSeq_keeps _ _ _ _, State.skipSeq_tables _ _ _ _⟩

theorem State.fetchDropped_keeps (s : State) (q o : Nat) :
    s.Keeps (s.fetchDropped q o) ∧ s.KeepsTables (s.fetchDropped q o) := by
  unfold State.fetchDropped
  split
  · split
    · exact ⟨State.takeNext_keeps _ _ _, State.takeNext_tables _ _ _⟩
    · exact ⟨.refl _, .refl _⟩
  · exact ⟨.refl _, .refl _⟩

theorem State.fetchDone_good {bytes : List Byte} (good : checkGood bytes = true) (s : State)
    (c : FetchClaim) : s.fetchDone c bytes = s.changeResponder c.requester c.origin
      fun e => { e with state := .readyCopy (contentOf bytes) } := if_pos good

theorem State.fetchDone_bad {bytes : List Byte} (bad : checkGood bytes = false) (s : State)
    (c : FetchClaim) : s.fetchDone c bytes = s.skipSeq c.requester c.origin c.seq :=
  if_neg (Bool.eq_false_iff.1 bad)

theorem State.fetchDropped_found {s : State} {q o : Nat} {e : Responder}
    (he : s.repair.responder? q o = some e) :
    s.fetchDropped q o = if e.state = .fetching then s.takeNext e e.list else s := by
  rw [State.fetchDropped, he]

/-- A fetch's completion before the end of its event. -/
def State.fetched (s : State) (c : FetchClaim) (use : FetchUse) (bytes : List Byte) : State :=
  match use with
  | .wanted => s.arrayIdle.fetchDone c bytes
  | .withdrawn => s.arrayIdle.fetchDropped c.requester c.origin
  | .orphaned => s.arrayIdle

theorem execFetchCompletion_fetched {s : State} {c : FetchClaim} {use : FetchUse}
    (reading : s.array.activity = .read (.fetch c use)) (flaw : Option (List Byte)) :
    exec (.fetchCompletion flaw) s = .next (s.fetched c use
      (s.delivered c.segment c.page c.offset c.size flaw)).conclude := by
  show execFetchCompletion flaw s = _
  rw [execFetchCompletion, reading]
  cases use <;> rfl

theorem State.fetched_keeps (s : State) (c : FetchClaim) (use : FetchUse) (bytes : List Byte) :
    s.Keeps (s.fetched c use bytes).conclude ∧ s.KeepsTables (s.fetched c use bytes).conclude := by
  have done : s.arrayIdle.Keeps (s.fetched c use bytes) ∧
      s.arrayIdle.KeepsTables (s.fetched c use bytes) := by
    cases use with
    | wanted => exact State.fetchDone_keeps _ _ _
    | withdrawn => exact State.fetchDropped_keeps _ _ _
    | orphaned => exact ⟨.refl _, .refl _⟩
  exact ⟨(s.setArray_keeps _).trans (done.1.trans (State.conclude_keeps _)),
    (s.setArray_tables _).trans (done.2.trans (State.conclude_tables _))⟩

end Sys2Proof.Machine

namespace Sys2Proof

open Machine

/-- Settles O43: the entry as the fetch leaves it, which the end of the event changes only by serving
fetch claims. -/
theorem fetchCompletes : Obligations.FetchCompletes := by
  intro s c use flaw e reading waiting he
  let bytes := s.delivered c.segment c.page c.offset c.size flaw
  obtain ⟨-, hq, ho⟩ := Repair.responder?_mem he
  have entry : s.arrayIdle.repair.responder? c.requester c.origin = some e := he
  have rests : s.arrayIdle.Quiescent := .inr waiting
  refine ⟨_, execFetchCompletion_fetched reading flaw, fun wanted good => ?_, fun wanted bad => ?_,
    fun dropped => ?_, fun withdrawn fetching settled list k l stored => ?_,
    s.fetched_keeps c use bytes⟩
  · subst wanted
    have ready : s.fetched c .wanted bytes = s.arrayIdle.changeResponder c.requester c.origin
        fun e => { e with state := .readyCopy (contentOf bytes) } := State.fetchDone_good good _ _
    rw [ready, State.conclude_rested (s := s.arrayIdle.changeResponder _ _ _) rests]
    exact ⟨_, State.changeResponder_mem entry _, hq, ho, rfl, rfl⟩
  · subst wanted
    have skipped : s.fetched c .wanted bytes = s.arrayIdle.skipSeq c.requester c.origin c.seq :=
      State.fetchDone_bad bad _ _
    rw [skipped]
    intro x hx xq xo
    obtain ⟨⟨y, hy, yq, yo, lists⟩, -⟩ := State.conclude_shrinks _ x hx
    exact fun h => State.skipSeq_lacks _ _ _ _ y hy (yq.trans xq) (yo.trans xo) (lists h)
  · have unchanged : s.fetched c use bytes = s.arrayIdle := by
      rcases dropped with rfl | ⟨rfl, other⟩
      · rfl
      · exact (State.fetchDropped_found entry).trans (if_neg other)
    rw [unchanged]
    exact State.conclude_rested rests
  · subst withdrawn
    have taken : s.fetched c .withdrawn bytes = s.arrayIdle.takeNext e e.list :=
      (State.fetchDropped_found entry).trans (if_pos fetching)
    rw [taken]
    exact State.takeNext_fetching (s := s.arrayIdle) rfl settled waiting entry stored

end Sys2Proof

/-! ## An erase completes (R37, R55, R59, R178, R179) -/

namespace Sys2Proof.Machine

/-! ### What the end of an event leaves of an erased segment (R49, R53, R56) -/

/-- The segment is ERASED or OPEN. -/
def State.FreshAt (s : State) (i : Nat) : Prop :=
  ∃ x, s.segments.table[i]? = some x ∧ (x.state = .erased ∨ x.state.isOpen = true)

/-- A segment that is ERASED or OPEN stays so, and FULL stays. -/
structure State.KeepsFresh (i : Nat) (s t : State) : Prop where
  fresh : s.FreshAt i → t.FreshAt i
  full : t.segments.full = s.segments.full

theorem State.KeepsFresh.of_eq {i : Nat} {s t : State} (h : t.segments = s.segments) :
    s.KeepsFresh i t := ⟨fun ⟨x, hx⟩ => ⟨x, h ▸ hx⟩, by rw [h]⟩

theorem State.KeepsFresh.trans {i : Nat} {s t u : State} (a : s.KeepsFresh i t)
    (b : t.KeepsFresh i u) : s.KeepsFresh i u := ⟨b.fresh ∘ a.fresh, b.full.trans a.full⟩

/-- An erase requested of a segment that is neither ERASED nor OPEN. -/
theorem State.requestErase_fresh {s : State} {k : Nat} {e : Segment}
    (he : s.segments.table[k]? = some e) (used : e.state ≠ .erased) (closed : e.state.isOpen = false)
    (i : Nat) : s.KeepsFresh i (s.requestErase k) := by
  refine ⟨fun ⟨x, hx, fresh⟩ => ⟨x, ?_, fresh⟩, rfl⟩
  have other : k ≠ i := by
    rintro rfl
    cases he.symm.trans hx
    rcases fresh with erased | opened
    · exact used erased
    · exact nomatch closed.symm.trans opened
  exact ((Segments.setState_getElem? _ _ _ _).trans (if_neg other)).trans hx

theorem State.scheduleErase_fresh (s : State) (i : Nat) : s.KeepsFresh i s.scheduleErase := by
  unfold State.scheduleErase
  split
  · exact .of_eq rfl
  · split
    · next k dirty =>
      obtain ⟨e, he, dirty⟩ := Segments.firstDirty_some dirty
      exact State.requestErase_fresh he (by rw [dirty]; nofun) (by rw [dirty]; rfl) i
    · split
      · split
        · next k u oldest =>
          obtain ⟨e, he, use⟩ := Segments.oldest_some oldest
          dsimp only
          split
          · next may =>
            have closed : e.state.isOpen = false := by
              simp only [he, Bool.and_eq_true] at may
              simpa using may.1
            have used : e.state ≠ .erased := fun erased => by rw [erased] at use; cases use
            let v := (s.setTracker { s.tracker with
              index := s.tracker.index.filter fun e => !u.stores e.origin e.seq }).setSegments
              { s.segments with ownFloor := max s.segments.ownFloor (s.ownSpanHigh u) }
            have requested := State.requestErase_fresh (s := v) he used closed i
            exact ⟨requested.fresh, requested.full⟩
          · exact .of_eq rfl
        · exact .of_eq rfl
      · exact .of_eq rfl

theorem State.openSegment_fresh (s : State) (k i : Nat) : s.KeepsFresh i (s.openSegment k) := by
  refine ⟨fun ⟨x, hx, fresh⟩ => ?_, rfl⟩
  have entry : (s.openSegment k).segments.table[i]? = _ := Segments.setState_getElem? _ _ _ _
  by_cases here : k = i
  · exact ⟨_, by rw [entry, if_pos here, hx]; rfl, .inr rfl⟩
  · exact ⟨x, by rw [entry, if_neg here, hx], fresh⟩

theorem State.serve_fresh (s : State) (i : Nat) : s.KeepsFresh i s.serve := by
  refine serveClaims_rel (R := State.KeepsFresh i) ?_ ?_ _ s
  · intro s t served
    cases served with
    | header k =>
      exact .trans (t := s.setArray { s.array with
        programClaim := none, activity := .program (.header k) }) (.of_eq rfl)
        (State.openSegment_fresh _ k i)
    | _ => exact .of_eq rfl
  · intro s t u refused later
    refine .trans ?_ later
    cases refused with
    | host c => exact .of_eq rfl
    | fetch c rest => exact .of_eq (State.skipSeq_fetchOnly _ _ _ _).segments

/-- After the placement a segment that is ERASED or OPEN stays so to the end of the event, and FULL
stays. -/
theorem State.conclude_fresh (s : State) (i : Nat) : s.placed.KeepsFresh i s.conclude :=
  (State.scheduleErase_fresh _ i).trans <| (State.serve_fresh _ i).trans <|
    (State.scheduleErase_fresh _ i).trans <| (State.serve_fresh _ i).trans <|
    .of_eq (State.checkSuspend_segments _)

/-- The placement leaves an ERASED segment, and finds it before FULL is entered (R49, R53). -/
theorem State.placeHead_erased {s : State} {i : Nat} {e : Segment}
    (he : s.segments.table[i]? = some e) (erased : e.state = .erased) :
    s.placeHead.segments.table[i]? = some e ∧ s.placeHead.segments.full = s.segments.full := by
  have other {k n : Nat} {u : InUse} {c : Cursor} (h : s.segments.open? = some (k, u, c, n)) :
      k ≠ i := by
    rintro rfl
    obtain ⟨x, hx, opened⟩ := Segments.open?_some h
    cases he.symm.trans hx
    exact nomatch erased.symm.trans opened
  constructor
  · rcases s.placeHead_table with h | ⟨k, u, c, n, v, opened, -, h⟩
    · rw [h, he]
    · rw [h, Segments.setState_getElem?, if_neg (other opened), he]
  · have room : s.askRoom.segments.full = s.segments.full := by
      have sealed : s.segments.seal.table[i]? = some e ∧ s.segments.seal.full = s.segments.full := by
        rcases s.segments.seal_cases with h | ⟨k, u, c, n, opened, h⟩
        · rw [h]
          exact ⟨he, rfl⟩
        · rw [h, Segments.setState_getElem?, if_neg (other opened)]
          exact ⟨he, rfl⟩
      cases chosen : s.segments.seal.chooseErased with
      | none =>
        exact absurd erased (Segments.chooseErased_none chosen e (List.mem_of_getElem? sealed.1))
      | some k =>
        rw [State.askRoom_chosen chosen]
        exact sealed.2
    unfold State.placeHead
    repeat' split
    all_goals first | rfl | exact room

/-- A segment ERASED before the end of an event is ERASED or OPEN after it, and FULL stays. -/
theorem State.conclude_erased {s : State} {i : Nat} {e : Segment}
    (he : s.segments.table[i]? = some e) (erased : e.state = .erased) :
    s.conclude.FreshAt i ∧ s.conclude.segments.full = s.segments.full := by
  have segments := s.refilled_fields.1
  obtain ⟨entry, full⟩ := State.placeHead_erased (s := s.refilled) (by rw [segments]; exact he) erased
  obtain ⟨fresh, later⟩ := s.conclude_fresh i
  exact ⟨fresh ⟨e, entry, .inl erased⟩, later.trans (full.trans (by rw [segments]))⟩

end Sys2Proof.Machine

/-! ### The completion itself (R37, R55, R59) -/

namespace Sys2Proof.Machine

/-- What an erase leaves in flash: the segment blank, or given up (R37). -/
def Flash.erased (f : Flash) (k : Nat) : EraseOutcome → Flash
  | .good => f.eraseSegment k
  | .failed page0Blank => f.spoilSegment k page0Blank

theorem Flash.readByte_erased (f : Flash) (k a : Nat) (outcome : EraseOutcome) :
    (f.erased k outcome).readByte a = if segmentOf a = k then 0xFF else f.readByte a := by
  cases outcome with
  | good => exact f.readByte_eraseSegment k a
  | failed page0Blank => exact f.readByte_spoilSegment k a page0Blank

/-- An erase completion as an equation of whole states: FULL is cleared by a segment that becomes ERASED
(R55, R59). -/
theorem State.eraseDone_eq (s : State) (k : Nat) (outcome : EraseOutcome) :
    ∃ full raised, s.eraseDone k outcome = { s with
        flash := s.flash.erased k outcome
        segments := { s.segments with
          table := s.segments.table.modify k (·.erased outcome)
          full := full }
        raised := raised } ∧
      (∀ e, s.segments.table[k]? = some e → outcome = .good → e.retire = false → full = false) := by
  unfold State.eraseDone
  cases outcome with
  | good =>
    dsimp only
    split
    · exact ⟨_, _, rfl, fun _ _ _ _ => rfl⟩
    · next kept =>
      refine ⟨_, _, rfl, fun e he _ unretired => ?_⟩
      simpa [he, unretired, Segments.change] using kept
  | failed page0Blank => exact ⟨_, _, rfl, nofun⟩

theorem Segment.erased_eq (e : Segment) (outcome : EraseOutcome) : e.erased outcome =
    ⟨if outcome = .good ∧ e.retire = false then .erased else .retired, e.generation + 1, false⟩ := by
  unfold Segment.erased
  cases outcome <;> cases e.retire <;> rfl

/-- The completion of an erase before FORMAT's next erase or the offers that follow it. -/
def State.erasedAt (s : State) (k : Nat) (outcome : EraseOutcome) : State :=
  s.eraseEnded.eraseDone k outcome

section Erased

variable (s : State) (k : Nat) (outcome : EraseOutcome)

theorem State.erasedAt_fields :
    (s.erasedAt k outcome).segments.table = s.segments.table.modify k (·.erased outcome) ∧
    (s.erasedAt k outcome).array = { s.array with activity := .idle, context := none } ∧
    (s.erasedAt k outcome).writer = s.writer ∧
    (s.erasedAt k outcome).flash = s.flash.erased k outcome ∧
    State.Keeps { s with flash := s.flash.erased k outcome } (s.erasedAt k outcome) := by
  obtain ⟨full, raised, done, -⟩ := s.eraseEnded.eraseDone_eq k outcome
  rw [State.erasedAt, done]
  exact ⟨rfl, rfl, rfl, rfl, by constructor <;> rfl⟩

theorem State.erasedAt_formatNext : (s.erasedAt k outcome).formatNext = s.formatNext := by
  obtain ⟨-, -, -, -, keeps⟩ := s.erasedAt_fields k outcome
  exact keeps.formatNext

theorem State.erasedAt_entry {e : Segment} (he : s.segments.table[k]? = some e) :
    (s.erasedAt k outcome).segments.table[k]? = some (e.erased outcome) := by
  rw [(s.erasedAt_fields k outcome).1, List.getElem?_modify, he]
  simp

theorem State.erasedAt_full {e : Segment} (he : s.segments.table[k]? = some e)
    (unretired : e.retire = false) : (s.erasedAt k .good).segments.full = false := by
  obtain ⟨full, raised, done, cleared⟩ := s.eraseEnded.eraseDone_eq k .good
  rw [State.erasedAt, done]
  exact cleared e he rfl unretired

end Erased

theorem execEraseCompletion_erased {s : State} {c : EraseContext} (running : s.array.activity = .erase)
    (context : s.array.context = some c) (outcome : EraseOutcome) :
    exec (.eraseCompletion outcome) s
      = .next ((s.erasedAt c.segment outcome).afterErase s.segments.full).conclude := by
  show execEraseCompletion outcome s = _
  rw [execEraseCompletion, running, context]
  rfl

/-! ### Outside FORMAT -/

/-- The offers after an erase leave the segment table and the array (R46). -/
theorem State.afterErase_offers {s : State} (normal : s.formatNext = none) (wasFull : Bool) :
    s.Offers (s.afterErase wasFull) ∧ s.Keeps (s.afterErase wasFull) := by
  unfold State.afterErase
  rw [normal]
  dsimp only
  split
  · exact ⟨s.excessTest_offers.trans (State.offerHoles_offers _),
      s.excessTest_keeps.trans (State.offerHoles_keeps _)⟩
  · exact ⟨.refl s, .refl s⟩

/-- Flash takes the erase, and nothing else that State.Keeps names changes. -/
theorem State.afterErase_keeps {s : State} (normal : s.formatNext = none) (k : Nat)
    (outcome : EraseOutcome) (wasFull : Bool) :
    let t := ((s.erasedAt k outcome).afterErase wasFull).conclude
    t.flash = s.flash.erased k outcome ∧ State.Keeps { s with flash := t.flash } t := by
  intro t
  obtain ⟨-, -, -, flash, keeps⟩ := s.erasedAt_fields k outcome
  have format : (s.erasedAt k outcome).formatNext = none := keeps.formatNext.trans normal
  have later : (s.erasedAt k outcome).Keeps t :=
    (State.afterErase_offers format wasFull).2.trans (State.conclude_keeps _)
  have same : t.flash = s.flash.erased k outcome := later.flash.trans flash
  refine ⟨same, ?_⟩
  rw [same]
  exact keeps.trans later

section Normal

variable {s : State} {k : Nat} {e : Segment} (he : s.segments.table[k]? = some e)
  (normal : s.formatNext = none) (outcome : EraseOutcome) (wasFull : Bool)
include he normal

/-- The erased segment as the end of the event takes it. -/
theorem State.afterErase_entry :
    ((s.erasedAt k outcome).afterErase wasFull).segments.table[k]? = some (e.erased outcome) := by
  have format : (s.erasedAt k outcome).formatNext = none :=
    (s.erasedAt_formatNext k outcome).trans normal
  rw [(State.afterErase_offers format wasFull).1.segments]
  exact s.erasedAt_entry k outcome he

/-- The generation rises by one, and a RETIRED segment stays RETIRED (R59). -/
theorem State.afterErase_turned (unclaimed : s.array.programClaim = none) :
    let t := ((s.erasedAt k outcome).afterErase wasFull).conclude
    (t.segments.table[k]?.map (·.generation)) = some (e.generation + 1) ∧
    ((e.erased outcome).state = .retired → (t.segments.table[k]?.map (·.state)) = some .retired) := by
  intro t
  obtain ⟨-, array, -⟩ := s.erasedAt_fields k outcome
  have format : (s.erasedAt k outcome).formatNext = none :=
    (s.erasedAt_formatNext k outcome).trans normal
  have claims : ((s.erasedAt k outcome).afterErase wasFull).HeaderClaimOk := by
    intro j hj
    rw [(State.afterErase_offers format wasFull).1.array, array] at hj
    exact nomatch unclaimed.symm.trans hj
  obtain ⟨x, hx, turned⟩ :=
    (State.conclude_turns claims).entry k _ (State.afterErase_entry he normal outcome wasFull)
  rw [show t.segments.table[k]? = some x from hx]
  exact ⟨congrArg some turned.generation, fun retired => congrArg some (turned.retired retired)⟩

/-- Without the retire flag an erase GOOD ends FULL, and its segment is ERASED or OPEN again (R49,
R55). -/
theorem State.afterErase_fresh (unretired : e.retire = false) :
    let t := ((s.erasedAt k .good).afterErase wasFull).conclude
    t.segments.full = false ∧ t.FreshAt k := by
  have format : (s.erasedAt k .good).formatNext = none :=
    (s.erasedAt_formatNext k .good).trans normal
  have erased : (e.erased .good).state = .erased := by rw [Segment.erased_eq, unretired]; rfl
  obtain ⟨fresh, full⟩ :=
    State.conclude_erased (State.afterErase_entry he normal .good wasFull) erased
  refine ⟨full.trans ?_, fresh⟩
  rw [(State.afterErase_offers format wasFull).1.segments]
  exact s.erasedAt_full k he unretired

end Normal

end Sys2Proof.Machine

/-! ### In FORMAT (R178, R179) -/

namespace Sys2Proof.Machine

/-- Off line and with no job nothing is placed at an event's end. -/
theorem State.placed_offLine {s : State} (off : s.mode.onLine = false) (jobs : s.writer.jobs = []) :
    s.placed = s := by
  have tested : s.excessTest = s := by
    unfold State.excessTest
    split
    · rfl
    · rw [off, Bool.false_and, Bool.false_and, if_neg nofun]
  rw [State.placed, State.refilled, tested, State.fillSlots, off, if_neg nofun,
    State.placeHead_nil jobs]

/-- Off line, with no job and no claim, an IDLE array runs the erase that is requested at once (R25,
R36). -/
theorem State.conclude_requested {s : State} (off : s.mode.onLine = false) (jobs : s.writer.jobs = [])
    (idle : s.array.activity = .idle) (demand : s.array.demand = false) {c : EraseContext}
    (context : s.array.context = some c) (held : c.running = false) :
    s.conclude = (s.setArray { s.array with activity := .erase, context := some c.start }).flush := by
  have placed := State.placed_offLine off jobs
  obtain ⟨host, program, fetch⟩ := ArrayEngine.demand_eq_false.1 demand
  have served : s.serve = _ := serveClaims_erase _ idle host program fetch context held
  rw [← placed] at served
  rw [State.conclude_served (by rw [context]; nofun) served nofun, placed,
    State.checkSuspend_started demand]

section FormatStep

variable {s : State} {k : Nat}

/-- The next segment that is not RETIRED is erased (R178). -/
theorem State.formatStep_next {j : Nat} {x : Segment} (reached : k ≤ j)
    (hx : s.segments.table[j]? = some x) (usable : x.state ≠ .retired)
    (before : ∀ i y, k ≤ i → i < j → s.segments.table[i]? = some y → y.state = .retired) :
    s.formatStep k = (s.requestErase j).setFormatNext (some (j + 1)) := by
  obtain ⟨d, rfl⟩ := Nat.exists_eq_add_of_le reached
  have first : (s.segments.table.drop k).findIdx? (fun e => !e.state.isRetired) = some d := by
    obtain ⟨lt, rfl⟩ := List.getElem?_eq_some_iff.1 hx
    refine List.findIdx?_eq_some_iff_getElem.2 ⟨by rw [List.length_drop]; omega, ?_, fun i hi => ?_⟩
    · rw [List.getElem_drop, Bool.not_eq_true']
      generalize s.segments.table[k + d].state = v at usable
      cases v <;> first | rfl | exact absurd rfl usable
    · rw [List.getElem_drop,
        before (k + i) _ (by omega) (by omega) (List.getElem?_eq_getElem (by omega))]
      nofun
  rw [State.formatStep, first]

/-- With every segment left RETIRED, FORMAT ends (R179; log 48). -/
theorem State.formatStep_ends
    (all : ∀ i y, k ≤ i → s.segments.table[i]? = some y → y.state = .retired) :
    s.formatStep k = (s.setFormatNext none).setMode .unenlisted := by
  have ended : (s.segments.table.drop k).findIdx? (fun e => !e.state.isRetired) = none := by
    refine List.findIdx?_eq_none_iff.2 fun y hy => ?_
    obtain ⟨i, hi⟩ := List.getElem?_of_mem hy
    rw [List.getElem?_drop] at hi
    rw [all _ y (Nat.le_add_right k i) hi]
    rfl
  rw [State.formatStep, ended]

end FormatStep

/-- FORMAT's next erase runs at once (R178). -/
theorem State.formatStep_runs {s : State} {k j : Nat} {x : Segment} (mode : s.mode = .formatting)
    (jobs : s.writer.jobs = []) (idle : s.array.activity = .idle) (demand : s.array.demand = false)
    (reached : k ≤ j) (hx : s.segments.table[j]? = some x) (usable : x.state ≠ .retired)
    (before : ∀ i y, k ≤ i → i < j → s.segments.table[i]? = some y → y.state = .retired) :
    let t := (s.formatStep k).conclude
    t.formatNext = some (j + 1) ∧ t.array.activity = .erase ∧
      t.array.context = some ⟨j, true, true, false, false⟩ ∧
      t.segments.table = s.segments.table.set j { x with state := .erasing } ∧
      State.Keeps { s with formatNext := some (j + 1) } t := by
  intro t
  let u := (s.requestErase j).setFormatNext (some (j + 1))
  have step : s.formatStep k = u := State.formatStep_next reached hx usable before
  have kept : State.Keeps { s with formatNext := some (j + 1) } t := by
    rw [show t = u.conclude from congrArg State.conclude step]
    exact .trans (t := u) (by constructor <;> rfl) u.conclude_keeps
  have runs := State.conclude_requested (s := u) (c := ⟨j, false, false, false, false⟩)
    (by rw [show u.mode = _ from mode]; rfl) jobs idle demand rfl rfl
  have ended : t = _ := (congrArg State.conclude step).trans runs
  have table : t.segments.table = s.segments.table.modify j fun e => { e with state := .erasing } := by
    rw [ended]
    rfl
  refine ⟨by rw [ended]; rfl, by rw [ended]; rfl, by rw [ended]; rfl, ?_, kept⟩
  rw [table, List.modify_eq_set_getElem?, hx]
  rfl

/-- FORMAT ends in UNENLISTED (R179). -/
theorem State.formatStep_over {s : State} {k : Nat}
    (all : ∀ i y, k ≤ i → s.segments.table[i]? = some y → y.state = .retired) :
    State.Keeps { s with formatNext := none, mode := .unenlisted } (s.formatStep k).conclude := by
  rw [State.formatStep_ends all]
  exact .trans (t := (s.setFormatNext none).setMode .unenlisted) (by constructor <;> rfl)
    (State.conclude_keeps _)

/-- Flash at the completion of an erase of FORMAT's (R37). -/
theorem State.formatStep_flash (s : State) (k n : Nat) (outcome : EraseOutcome) :
    ((s.erasedAt k outcome).formatStep n).conclude.flash = s.flash.erased k outcome := by
  obtain ⟨-, -, -, flash, -⟩ := s.erasedAt_fields k outcome
  rw [(State.conclude_keeps _).flash, (State.formatStep_journal _ n).flash, flash]

end Sys2Proof.Machine

namespace Sys2Proof

open Machine

/-- Settles O46: outside FORMAT what the offers and the end of the event leave of the erased segment; in
FORMAT the erase of the next segment that is not RETIRED, which runs at once, or the end. -/
theorem eraseCompletes : Obligations.EraseCompletes := by
  intro s c e running context he unclaimed
  refine ⟨fun normal => ?_, fun normal page0 => ?_, fun k outcome mode next demand jobs => ?_⟩
  · obtain ⟨generation, retired⟩ :=
      State.afterErase_turned he normal .good s.segments.full unclaimed
    obtain ⟨flash, keeps⟩ := State.afterErase_keeps normal c.segment .good s.segments.full
    refine ⟨_, execEraseCompletion_erased running context .good, fun a => ?_, generation,
      fun retire => retired ?_, fun unretired => ?_, keeps⟩
    · rw [flash, Flash.readByte_erased]
    · rw [Segment.erased_eq, retire]
      rfl
    · obtain ⟨full, fresh⟩ := State.afterErase_fresh he normal s.segments.full unretired
      exact ⟨fun _ => full, fresh⟩
  · obtain ⟨generation, retired⟩ :=
      State.afterErase_turned he normal (.failed page0) s.segments.full unclaimed
    obtain ⟨flash, keeps⟩ :=
      State.afterErase_keeps normal c.segment (.failed page0) s.segments.full
    refine ⟨_, execEraseCompletion_erased running context (.failed page0), retired rfl, generation,
      fun a other => ?_, keeps⟩
    rw [flash, Flash.readByte_erased, if_neg other]
  · intro table
    obtain ⟨erased, array, writer, -, keeps⟩ := s.erasedAt_fields c.segment outcome
    have same : (s.erasedAt c.segment outcome).segments.table = table := by
      rw [erased, List.modify_eq_set_getElem?, he]
      exact congrArg _ (e.erased_eq outcome)
    have step : (s.erasedAt c.segment outcome).afterErase s.segments.full
        = (s.erasedAt c.segment outcome).formatStep k := by
      rw [State.afterErase, (s.erasedAt_formatNext _ _).trans next]
    have flash := s.formatStep_flash c.segment k outcome
    refine ⟨_, execEraseCompletion_erased running context outcome, ?_⟩
    rw [step, flash]
    refine ⟨fun a other => by rw [Flash.readByte_erased, if_neg other],
      fun _ a within => by rw [Flash.readByte_erased, if_pos within],
      fun j x reached hx usable before => ?_, fun all => ?_⟩
    · rw [← same] at hx before ⊢
      obtain ⟨format, erasing, held, tables, kept⟩ := State.formatStep_runs (keeps.mode.trans mode)
        (by rw [writer]; exact jobs) (by rw [array]) (by rw [array]; exact demand) reached hx usable
        before
      refine ⟨kept.mode.trans (keeps.mode.trans mode), format, erasing, held, tables, ?_⟩
      rw [format]
      exact .trans (t := { s.erasedAt c.segment outcome with formatNext := some (j + 1) })
        { keeps with formatNext := rfl } kept
    · have kept := State.formatStep_over (s := s.erasedAt c.segment outcome) (by rw [same]; exact all)
      exact ⟨kept.mode, kept.formatNext, .trans
        (t := { s.erasedAt c.segment outcome with formatNext := none, mode := .unenlisted })
        { keeps with formatNext := rfl, mode := rfl } kept⟩

end Sys2Proof

/-! ## The limits of the queues and tables through every command (R46, R75, R84, R99, R132, R141) -/

namespace Sys2Proof.Machine

/-! ### What adds nothing -/

/-- With the job queue, the submit queue, the gap table, the Repair Controller and the failure count as
they were, the limits hold as they did. -/
theorem State.LimitsOk.untouched {s t : State} (h : s.LimitsOk)
    (jobs : t.writer.jobs = s.writer.jobs) (submits : t.submission.queue = s.submission.queue)
    (gaps : t.tracker.gaps = s.tracker.gaps) (repair : t.repair = s.repair)
    (failures : t.line.failures = s.line.failures) : t.LimitsOk where
  incoming := by rw [Writer.incomingCount, jobs]; exact h.incoming
  release := by rw [jobs]; exact h.release
  submits := by rw [submits]; exact h.submits
  gaps := by rw [gaps]; exact h.gaps
  responders := by rw [repair]; exact h.responders
  slots := by rw [repair]; exact h.slots
  failures := by rw [failures]; exact h.failures

theorem State.LimitsOk.setPort {s : State} (h : s.LimitsOk) (p : Port) : (s.setPort p).LimitsOk :=
  h.untouched rfl rfl rfl rfl rfl

theorem State.LimitsOk.setPresence {s : State} (h : s.LimitsOk) (p : Presence) :
    (s.setPresence p).LimitsOk := h.untouched rfl rfl rfl rfl rfl

theorem State.LimitsOk.setArray {s : State} (h : s.LimitsOk) (a : ArrayEngine) :
    (s.setArray a).LimitsOk := h.untouched rfl rfl rfl rfl rfl

theorem State.LimitsOk.setLine {s : State} (h : s.LimitsOk) (l : Line) (failures : l.failures ≤ 16) :
    (s.setLine l).LimitsOk :=
  ⟨h.incoming, h.release, h.submits, h.gaps, h.responders, h.slots, failures⟩

theorem State.LimitsOk.setSubmission {s : State} (h : s.LimitsOk) (b : Submission)
    (submits : b.queue.length ≤ 8) : (s.setSubmission b).LimitsOk :=
  ⟨h.incoming, h.release, submits, h.gaps, h.responders, h.slots, h.failures⟩

theorem State.LimitsOk.setWriter {s : State} (h : s.LimitsOk) (w : Writer)
    (jobs : w.jobs.Sublist s.writer.jobs) : (s.setWriter w).LimitsOk :=
  ⟨jobs.countP_le.trans h.incoming, jobs.countP_le.trans h.release, h.submits, h.gaps, h.responders,
    h.slots, h.failures⟩

/-- Slots in their number and no more responders keep the limits of the Repair Controller. -/
theorem State.LimitsOk.setRepair {s : State} (h : s.LimitsOk) (r : Repair)
    (slots : r.slots.length = 4) (responders : r.responders.length ≤ 4) : (s.setRepair r).LimitsOk :=
  ⟨h.incoming, h.release, h.submits, h.gaps, responders, slots, h.failures⟩

/-- What submit entries leave by, in the form that the Submission Controller's operations have. -/
theorem State.LimitsOk.submitsLeave {s : State} (h : s.LimitsOk) {q : List Entry} {d : Nat}
    {r : List (Block × Notice)} (shorter : q.length ≤ s.submission.queue.length) :
    ((s.setSubmission { s.submission with queue := q, durable := d }).setRaised r).LimitsOk :=
  State.LimitsOk.untouched (h.setSubmission _ (shorter.trans h.submits)) rfl rfl rfl rfl rfl

theorem State.confirmTest_limits {s : State} (h : s.LimitsOk) : s.confirmTest.LimitsOk := by
  obtain ⟨q, d, r, form, shorter, -⟩ := s.confirmTest_form
  rw [form]
  exact h.submitsLeave shorter

theorem State.mapRequest_limits {s : State} (h : s.LimitsOk) (f : Request → Request) :
    (s.mapRequest f).LimitsOk := h.untouched rfl rfl rfl rfl rfl

/-! ### Host commands (chapter 9) -/

/-- A command keeps the limits when its body does. -/
theorem State.command_limits {s : State} (h : s.LimitsOk) (c : HostCommand) (m : Moment)
    {body : Completed → State → State} (kept : ∀ k (u : State), u.LimitsOk → (body k u).LimitsOk) :
    (s.command c m body).LimitsOk :=
  State.command_inv h c m body (fun _ p hu => hu.setPort p) kept

theorem State.takeRead_limits {s : State} (h : s.LimitsOk) (c : HostCommand) (t : Target) (l : Lookup) :
    (s.takeRead c t l).LimitsOk := by
  unfold State.takeRead
  split
  · exact h.setPort _
  · split
    · exact h.setPort _
    · exact (h.setPort _).setArray _

/-- A SUBMIT that passes its checks finds a place in the submit queue (R101). -/
theorem State.submitCheck_ok {s : State} {length next : Nat} (h : s.submitCheck length = .ok next) :
    s.submission.queue.length < 8 := by
  unfold State.submitCheck at h
  repeat' split at h
  all_goals cases h
  exact Nat.lt_of_not_le ‹¬Config.submitPlaces ≤ s.submission.queue.length›

theorem State.takeCommit_submission {s t : State} {a : Arrival} (h : s.takeCommit a = some t) :
    t.submission = s.submission := by
  unfold State.takeCommit at h
  split at h
  · cases h
  · cases h
    rfl

theorem State.submitTaken_limits {s : State} (h : s.LimitsOk) (a : Arrival)
    (room : s.submission.queue.length < 8) : (s.submitTaken a).LimitsOk := by
  refine State.confirmTest_limits (State.LimitsOk.setPort (h.setSubmission _ ?_) _)
  rw [List.length_append]
  exact room

theorem State.decideSubmit_limits {s : State} (h : s.LimitsOk) (tag : Byte) (payload : List Byte) :
    (s.decideSubmit tag payload).LimitsOk := by
  unfold State.decideSubmit
  split
  · exact h.setPort _
  · next seq passed =>
    split
    · exact h.setPort _
    · next t taken =>
      refine State.conclude_limits (State.submitTaken_limits (State.takeCommit_limits h taken) _ ?_)
      rw [State.takeCommit_submission taken]
      exact State.submitCheck_ok passed

theorem State.releaseTo_limits {s : State} (h : s.LimitsOk) (position : Nat) :
    (s.releaseTo position).LimitsOk := by
  unfold State.releaseTo
  split
  · exact h.setPort _
  · split
    · exact h.setPort _
    · refine State.conclude_limits (State.queueRelease_limits ?_ _)
      exact h.untouched rfl rfl rfl rfl rfl

theorem State.enlisted_limits {s : State} (h : s.LimitsOk) (e : Enlistment) :
    (s.enlisted e).LimitsOk := by
  have taken := h.setTracker (s.tracker.enlisted e.n) ((List.length_filter_le _ _).trans h.gaps)
  exact State.conclude_limits (taken.untouched rfl rfl rfl rfl rfl)

theorem State.formatStep_limits {s : State} (h : s.LimitsOk) (k : Nat) : (s.formatStep k).LimitsOk := by
  unfold State.formatStep
  split <;> exact h.untouched rfl rfl rfl rfl rfl

theorem State.formatted_limits {s : State} (h : s.LimitsOk) : s.formatted.LimitsOk := by
  have empty := h.setTracker Tracker.formatted (Nat.zero_le _)
  unfold State.formatted
  refine State.conclude_limits ?_
  split
  · exact empty.untouched rfl rfl rfl rfl rfl
  · refine State.formatStep_limits ?_ 0
    exact empty.untouched rfl rfl rfl rfl rfl

theorem State.freeRepair_limits {s : State} (h : s.LimitsOk) : s.freeRepair.LimitsOk :=
  State.mapRequest_limits ((h.setRepair Repair.reset rfl (Nat.zero_le _)).setArray _) _

theorem State.quieted_limits {s : State} (h : s.LimitsOk) : s.quieted.LimitsOk := by
  have quiet := State.freeRepair_limits (h.untouched
    (t := ((s.answer .ok HostCommand.quiet.code).setMode .quiet).setPresence
      (s.presence.quieted s.line.muted)) rfl rfl rfl rfl rfl)
  have dropped := State.mapRequest_limits quiet Request.dropPresence
  unfold State.quieted
  dsimp only
  split
  · exact dropped.untouched rfl rfl rfl rfl rfl
  · exact dropped

theorem State.woken_limits {s : State} (h : s.LimitsOk) : s.woken.LimitsOk := by
  have enter {t : State} (ht : t.LimitsOk) : t.enterJoining.LimitsOk :=
    ht.untouched rfl rfl rfl rfl rfl
  unfold State.woken
  refine State.conclude_limits (enter (State.confirmTest_limits (State.LimitsOk.setPresence ?_ _)))
  split <;> exact h.untouched rfl rfl rfl rfl rfl

theorem State.reset_limits : State.reset.LimitsOk := by
  constructor <;> decide

theorem State.stationReset_limits (s : State) (cut : CutShort) : (s.stationReset cut).LimitsOk :=
  State.reset_limits.untouched rfl rfl rfl rfl rfl

theorem State.refuseUnknown_limits {s : State} (h : s.LimitsOk) (code : Byte) :
    (s.refuseUnknown code).LimitsOk := by
  unfold State.refuseUnknown
  split
  all_goals exact h.untouched rfl rfl rfl rfl rfl

/-! ### Frames received (chapters 4, 5, 7 and 8) -/

theorem State.setFramer_limits {s : State} (h : s.LimitsOk) (f : Framer) : (s.setFramer f).LimitsOk :=
  h.setLine _ h.failures

theorem State.moveFramer_limits {s : State} (h : s.LimitsOk) (a b : Framer) :
    (s.moveFramer a b).LimitsOk := by
  unfold State.moveFramer
  split
  · exact State.setFramer_limits h b
  · exact h

theorem State.setTransmitter_limits {s : State} (h : s.LimitsOk) (t : Transmitter) :
    (s.setTransmitter t).LimitsOk := h.setLine _ h.failures

theorem State.hearFrame_limits {s : State} (h : s.LimitsOk) (f : Machine.Frame) {g : State → State}
    (kept : ∀ u : State, u.LimitsOk → (g u).LimitsOk) : (s.hearFrame f g).LimitsOk := by
  have heard := State.setFramer_limits h .gap
  unfold State.hearFrame
  split
  · split
    · exact State.conclude_limits (kept _ heard)
    · exact heard
  · exact h

theorem State.hearPeer_limits {s : State} (h : s.LimitsOk) (p : Nat) (quieting : Bool) :
    (s.hearPeer p quieting).LimitsOk := by
  obtain ⟨q, d, r, form, shorter, -⟩ := s.hearPeer_form p quieting
  rw [form]
  exact (h.setPresence _).submitsLeave shorter

theorem State.mergePeer_limits {s : State} (h : s.LimitsOk) (p : Nat) (f : Peer → Peer) :
    (s.mergePeer p f).LimitsOk := by
  obtain ⟨q, d, r, form, shorter, -⟩ := s.mergePeer_form p f
  rw [form]
  exact (h.setPresence _).submitsLeave shorter

theorem State.takeHeld_limits {s : State} (h : s.LimitsOk) (p origin value : Nat) :
    (s.takeHeld p origin value).LimitsOk :=
  State.learn_limits (State.mergePeer_limits (State.hearPeer_limits h _ _) _ _) _ _

theorem State.takePresence_limits {s : State} (h : s.LimitsOk) (p : Nat) (quieting full : Bool)
    (vector : List Word) : (s.takePresence p quieting full vector).LimitsOk := by
  have merged := State.mergePeer_limits (State.hearPeer_limits h p quieting) p (.presence full vector)
  obtain ⟨holdings, form⟩ := State.learnAll_form vector
    ((s.hearPeer p quieting).mergePeer p (.presence full vector)) 0
  unfold State.takePresence
  rw [form]
  exact merged.setTracker _ merged.gaps

theorem State.takeCopy_limits {s : State} (h : s.LimitsOk) (a : Arrival) : (s.takeCopy a).LimitsOk := by
  have arrived := State.arrive_limits h a
  refine State.cancelRefill_limits ?_ _ _
  split
  · exact State.narrowOrigin_limits arrived _
  · exact arrived

theorem State.takeGone_limits {s : State} (h : s.LimitsOk) (origin first last : Nat) :
    (s.takeGone origin first last).LimitsOk :=
  State.cancelRefill_limits (State.declareGone_limits (State.learn_limits h _ _) _ _ _) _ _

theorem State.followSeek_limits {s : State} (h : s.LimitsOk) (o first last : Nat) :
    (s.followSeek o first last).LimitsOk :=
  h.setRepair _ ((List.length_map _).trans h.slots) h.responders

/-! ### The transmitter (chapter 4) -/

theorem State.frameSent_limits {s : State} (h : s.LimitsOk) : s.frameSent.LimitsOk :=
  h.setLine _ (Nat.zero_le _)

theorem State.enterMuted_limits {s : State} (h : s.LimitsOk) : s.enterMuted.LimitsOk := by
  have muted := State.raise_limits (h.setLine { s.line with muted := true } h.failures) .lineInterface
    .muted
  unfold State.enterMuted
  refine State.flush_limits ?_
  dsimp only
  split
  · exact muted.untouched rfl rfl rfl rfl rfl
  · exact muted

theorem Tracker.reportsSent_gaps (l : List Word) (t : Tracker) (o : Nat) :
    (t.reportsSent o l).gaps = t.gaps := by
  induction l generalizing t o with
  | nil => rfl
  | cons v l ih => exact (ih _ _).trans rfl

theorem State.reportsSent_limits {s : State} (h : s.LimitsOk) (l : List Word) :
    (s.setTracker (s.tracker.reportsSent 0 l)).LimitsOk :=
  h.setTracker _ (by rw [Tracker.reportsSent_gaps]; exact h.gaps)

theorem State.changeEntry_limits {s : State} (h : s.LimitsOk) (seq : Nat) (f : Entry → Entry) :
    (s.changeEntry seq f).LimitsOk :=
  h.setSubmission _ ((List.length_map _).trans_le h.submits)

theorem State.dropEntry_limits {s : State} (h : s.LimitsOk) (seq : Nat) : (s.dropEntry seq).LimitsOk :=
  h.setSubmission _ ((List.length_filter_le _ _).trans h.submits)

theorem State.appendSent_limits {s : State} (h : s.LimitsOk) (seq : Nat) :
    (s.appendSent seq).LimitsOk := by
  unfold State.appendSent
  split
  · exact h
  · split
    · exact State.dropEntry_limits h _
    · exact State.changeEntry_limits h _ _

theorem State.changeResponder_limits {s : State} (h : s.LimitsOk) (q o : Nat)
    (f : Responder → Responder) : (s.changeResponder q o f).LimitsOk :=
  h.still (s.changeResponder_still _ _ _) (s.changeResponder_keeps _ _ _)
    (s.changeResponder_tables _ _ _)

theorem State.takeNext_limits {s : State} (h : s.LimitsOk) (e : Responder) (l : List Nat) :
    (s.takeNext e l).LimitsOk :=
  h.still (s.takeNext_still _ _) (s.takeNext_keeps _ _) (s.takeNext_tables _ _)

theorem State.skipSeq_limits {s : State} (h : s.LimitsOk) (q o seq : Nat) :
    (s.skipSeq q o seq).LimitsOk :=
  h.still (s.skipSeq_still _ _ _) (s.skipSeq_keeps _ _ _) (s.skipSeq_tables _ _ _)

theorem State.copySent_limits {s : State} (h : s.LimitsOk) (q o seq : Nat) :
    (s.copySent q o seq).LimitsOk := by
  unfold State.copySent
  split
  · exact h
  · split
    · exact State.skipSeq_limits h _ _ _
    · exact h

theorem State.goneSent_limits {s : State} (h : s.LimitsOk) (q o : Nat) : (s.goneSent q o).LimitsOk := by
  unfold State.goneSent
  split
  · exact h
  · exact State.takeNext_limits (State.changeResponder_limits h _ _ _) _ _

/-! ### Timers (chapters 6 to 8) -/

theorem State.silenceExpired_limits (l : List Nat) {s : State} (h : s.LimitsOk) :
    (l.foldl State.silenceExpired s).LimitsOk :=
  foldl_inv (P := State.LimitsOk) (fun _ _ hs => State.raise_limits (hs.setPresence _) _ _) l h

theorem State.unanswered_limits {s : State} (h : s.LimitsOk) (e : Entry) : (s.unanswered e).LimitsOk := by
  unfold State.unanswered
  split
  · exact State.changeEntry_limits h _ _
  · exact State.raise_limits (State.dropEntry_limits h _) _ _

theorem State.waitedOut_limits {s : State} (h : s.LimitsOk) (i : Nat) (sl : SeekSlot) :
    (s.waitedOut i sl).LimitsOk := by
  unfold State.waitedOut
  split
  · exact State.setSlot_limits h _ _
  · unfold State.attempted
    repeat' split
    · exact State.setSlot_limits h _ _
    · exact State.setSlot_limits h _ _
    · exact declareSlot_limits 17 (State.setSlot_limits h _ _) _

theorem State.deferred_limits {s : State} (h : s.LimitsOk) (e : Responder) : (s.deferred e).LimitsOk := by
  unfold State.deferred
  split
  · exact State.changeResponder_limits h _ _ _
  · exact State.takeNext_limits h _ _

/-! ### The array (chapters 2 and 3) -/

theorem State.hostReadDone_limits {s : State} (h : s.LimitsOk) (c : HostClaim) (bytes : List Byte) :
    (s.hostReadDone c bytes).LimitsOk := by
  unfold State.hostReadDone
  split <;> exact h.setPort _

theorem State.fetchDone_limits {s : State} (h : s.LimitsOk) (c : FetchClaim) (bytes : List Byte) :
    (s.fetchDone c bytes).LimitsOk := by
  unfold State.fetchDone
  split
  · exact State.changeResponder_limits h _ _ _
  · exact State.skipSeq_limits h _ _ _

theorem State.fetchDropped_limits {s : State} (h : s.LimitsOk) (q o : Nat) :
    (s.fetchDropped q o).LimitsOk := by
  unfold State.fetchDropped
  split
  · split
    · exact State.takeNext_limits h _ _
    · exact h
  · exact h

/-- The follow-up of a RELEASE job is the only one in the queue when its job has left no other (R47). -/
theorem State.followRelease_limits {s : State} (h : s.LimitsOk) (body : JobBody)
    (alone : body.isRelease = true → s.writer.jobs.countP (·.body.isRelease) = 0) :
    (s.followRelease body).LimitsOk := by
  unfold State.followRelease
  split
  · split
    · refine ⟨?_, ?_, h.submits, h.gaps, h.responders, h.slots, h.failures⟩
      · show ({ s.writer with jobs := s.writer.jobs ++ [_] } : Writer).incomingCount ≤ 15
        rw [Writer.incomingCount_append]
        exact h.incoming
      · show (s.writer.jobs ++ [_]).countP _ ≤ 1
        rw [List.countP_append, alone rfl]
        rfl
    · exact h
  · exact h

theorem State.programmed_limits {s : State} (h : s.LimitsOk) {j : Job} {rest : List Job}
    (jobs : s.writer.jobs = j :: rest) (p : Place) : (s.programmed j rest p).LimitsOk := by
  have placed : (s.recordPlaced j rest p).LimitsOk :=
    (h.setWriter { s.writer with jobs := rest, place := none, nextPosition := p.position + 1 }
      (by rw [jobs]; exact List.sublist_cons_self _ _)).untouched rfl rfl rfl rfl rfl
  obtain ⟨t, tracked, gaps⟩ := (s.recordPlaced j rest p).trackCompletion_form j
  obtain ⟨q, d, r, handedOn, shorter, -⟩ :=
    State.commitHandOn_form ((s.recordPlaced j rest p).trackCompletion j) j
  have alone : j.body.isRelease = true → rest.countP (·.body.isRelease) = 0 := by
    have once := h.release
    rw [jobs, List.countP_cons] at once
    intro release
    rw [if_pos release] at once
    omega
  unfold State.programmed
  rw [handedOn]
  rw [tracked] at shorter ⊢
  refine State.offerHoles_limits (State.excessTest_limits (State.followRelease_limits ?_ j.body alone))
  exact (placed.setTracker t (by rw [gaps]; exact placed.gaps)).submitsLeave shorter

theorem State.recordFailed_limits {s : State} (h : s.LimitsOk) (p : Place) :
    (s.recordFailed p).LimitsOk := by
  unfold State.recordFailed
  dsimp only
  split <;> exact h.untouched rfl rfl rfl rfl rfl

theorem State.headerWritten_limits {s : State} (h : s.LimitsOk) (k : Nat) :
    (s.headerWritten k).LimitsOk := by
  unfold State.headerWritten
  split
  · exact h.untouched rfl rfl rfl rfl rfl
  · exact h

theorem State.eraseDone_limits {s : State} (h : s.LimitsOk) (k : Nat) (outcome : EraseOutcome) :
    (s.eraseDone k outcome).LimitsOk := by
  unfold State.eraseDone
  cases outcome
  all_goals dsimp only; split <;> exact h.untouched rfl rfl rfl rfl rfl

theorem State.afterErase_limits {s : State} (h : s.LimitsOk) (wasFull : Bool) :
    (s.afterErase wasFull).LimitsOk := by
  unfold State.afterErase
  split
  · exact State.formatStep_limits h _
  · split
    · exact State.offerHoles_limits (State.excessTest_limits h)
    · exact h

/-! ### Mount (chapter 10) -/

theorem State.mountDone_limits {s : State} (h : s.LimitsOk) (c : Scan) : (s.mountDone c).LimitsOk := by
  unfold State.mountDone
  dsimp only
  refine State.conclude_limits (State.LimitsOk.setArray (State.LimitsOk.setSubmission
    (State.LimitsOk.setTracker ?_ _ ?_) _ ?_) _)
  · exact h.untouched rfl rfl rfl rfl rfl
  · exact List.length_take_le _ _
  · exact h.submits

theorem State.scanOn_limits {s : State} (h : s.LimitsOk) (c : Scan) (read : ReadOperation) :
    (s.scanOn c read).LimitsOk := h.untouched rfl rfl rfl rfl rfl

theorem State.nextExtent_limits {s : State} (h : s.LimitsOk) (c : Scan) : (s.nextExtent c).LimitsOk := by
  unfold State.nextExtent
  split
  · exact State.mountDone_limits h c
  · exact State.scanOn_limits h _ _

theorem State.nextBlankCheck_limits {s : State} (h : s.LimitsOk) (c : Scan) :
    (s.nextBlankCheck c).LimitsOk := by
  unfold State.nextBlankCheck
  split
  · exact State.scanOn_limits h _ _
  · exact State.nextExtent_limits h _

theorem State.headerRead_limits {s : State} (h : s.LimitsOk) (c : Scan) (k : Nat) :
    (s.headerRead c k).LimitsOk := by
  unfold State.headerRead
  dsimp only
  split
  · exact State.scanOn_limits h _ _
  · exact State.nextBlankCheck_limits h _

theorem State.pageRead_limits {s : State} (h : s.LimitsOk) (c : Scan) (x : Extent) (page : Nat) :
    (s.pageRead c x page).LimitsOk := by
  unfold State.pageRead
  dsimp only
  split
  · exact State.scanOn_limits h _ _
  · exact State.nextExtent_limits h _

/-! ### Every command -/

/-- The next state of a command is within the limits. -/
def State.NextLimited (s : State) (i : Instr) : Prop := ∃ t, exec i s = .next t ∧ t.LimitsOk

section Commands

variable {s : State} (h : s.LimitsOk)
include h

theorem execNextNotice_limits (m : Moment) : s.NextLimited (.nextNotice m) := by
  refine ⟨_, rfl, State.command_limits h .nextNotice m fun _ _ hu => ?_⟩
  split
  · exact hu.setPort _
  · exact hu

theorem execEnlist_limits (station n w rate p : Byte) (m : Moment) :
    s.NextLimited (.enlist station n w rate p m) := by
  refine ⟨_, rfl, State.command_limits h .enlist m fun _ _ hu => ?_⟩
  split
  · exact State.enlisted_limits hu _
  · exact hu.setPort _

theorem execFormat_limits (m : Moment) : s.NextLimited (.format m) := by
  refine ⟨_, rfl, State.command_limits h .format m fun _ _ hu => ?_⟩
  split
  · exact hu.setPort _
  · exact hu.setPort _
  · exact State.formatted_limits hu

theorem execQuiet_limits (m : Moment) : s.NextLimited (.quiet m) := by
  refine ⟨_, rfl, State.command_limits h .quiet m fun _ _ hu => ?_⟩
  split
  · exact State.quieted_limits hu
  · exact hu.setPort _

theorem execUnknownCode_limits (code : Byte) (m : Moment) :
    s.NextLimited (.unknownCode code m) := by
  refine ⟨_, rfl, ?_⟩
  split
  · exact h
  · exact State.select_inv h m _ _ _ (fun _ p hu => hu.setPort p) fun _ _ hu =>
      State.refuseUnknown_limits hu code

theorem execCommandDiscarded_limits (how : Discard) : s.NextLimited (.commandDiscarded how) := by
  refine ⟨_, rfl, ?_⟩
  dsimp only
  repeat' split
  all_goals exact h.untouched rfl rfl rfl rfl rfl

theorem execFrameStart_limits : s.NextLimited .frameStart := by
  refine ⟨_, rfl, ?_⟩
  repeat' split
  · exact State.setTransmitter_limits (State.setFramer_limits h _) _
  · exact h
  · exact h

theorem execBreakComplete_limits : s.NextLimited .breakComplete := by
  refine ⟨_, rfl, ?_⟩
  have broken : (s.setTransmitter .idle).leaveBroken.LimitsOk :=
    State.moveFramer_limits (State.setTransmitter_limits h _) _ _
  split
  · dsimp only
    split
    · exact State.enterMuted_limits broken
    · exact broken
  · exact h

theorem execRefillSendCompletion_limits : s.NextLimited .refillSendCompletion := by
  refine ⟨_, rfl, ?_⟩
  have sent := State.frameSent_limits h
  split
  · dsimp only
    repeat' split
    · exact State.conclude_limits (State.copySent_limits sent _ _ _)
    · exact State.conclude_limits (State.goneSent_limits sent _ _)
    · exact sent
  · exact h

theorem execSeekSendCompletion_limits : s.NextLimited .seekSendCompletion := by
  refine ⟨_, rfl, ?_⟩
  have sent := State.frameSent_limits h
  split
  · dsimp only
    split
    · exact sent.setRepair _ ((List.length_modify _ _ _).trans h.slots) h.responders
    · exact sent
  · exact h

theorem execPresenceSendCompletion_limits : s.NextLimited .presenceSendCompletion := by
  refine ⟨_, rfl, ?_⟩
  split
  · dsimp only
    split
    · exact (State.reportsSent_limits (State.frameSent_limits h) _).setPresence _
    · exact State.reportsSent_limits (State.frameSent_limits h) _
  · exact h

theorem execQuietingPresenceSendCompletion_limits :
    s.NextLimited .quietingPresenceSendCompletion := by
  refine ⟨_, rfl, ?_⟩
  split
  · dsimp only
    split
    · exact (State.reportsSent_limits (State.frameSent_limits h) _).untouched rfl rfl rfl rfl rfl
    · exact State.reportsSent_limits (State.frameSent_limits h) _
  · exact h

theorem execConfirmationWaitExpiry_limits (seq : Word) :
    s.NextLimited (.confirmationWaitExpiry seq) := by
  refine ⟨_, rfl, ?_⟩
  repeat' split
  · exact State.conclude_limits (State.unanswered_limits h _)
  · exact h
  · exact h

theorem execRepairWaitExpiry_limits (slot : Fin 4) : s.NextLimited (.repairWaitExpiry slot) := by
  refine ⟨_, rfl, ?_⟩
  repeat' split
  · exact State.conclude_limits (State.waitedOut_limits h _ _)
  · exact h
  · exact h

theorem execDeferExpiry_limits (requester origin : StationNumber) :
    s.NextLimited (.deferExpiry requester origin) := by
  refine ⟨_, rfl, ?_⟩
  repeat' split
  · exact State.conclude_limits (State.deferred_limits h _)
  · exact h
  · exact h

theorem execRecordProgramCompletion_limits (outcome : ProgramOutcome) :
    s.NextLimited (.recordProgramCompletion outcome) := by
  refine ⟨_, rfl, ?_⟩
  have idle : s.arrayIdle.LimitsOk := h.setArray _
  split
  · next jobs _ =>
    split
    · exact State.conclude_limits (State.programmed_limits idle jobs _)
    · exact State.conclude_limits (State.recordFailed_limits idle _)
  · exact h

theorem execHeaderProgramCompletion_limits (outcome : ProgramOutcome) :
    s.NextLimited (.headerProgramCompletion outcome) := by
  refine ⟨_, rfl, ?_⟩
  split
  · split
    · exact State.conclude_limits (State.headerWritten_limits (h.setArray _) _)
    · exact State.conclude_limits (h.untouched rfl rfl rfl rfl rfl)
  · exact h

theorem execFetchCompletion_limits (flaw : Option (List Byte)) :
    s.NextLimited (.fetchCompletion flaw) := by
  refine ⟨_, rfl, ?_⟩
  have idle : s.arrayIdle.LimitsOk := h.setArray _
  split
  · refine State.conclude_limits ?_
    split
    · exact State.fetchDone_limits idle _ _
    · exact State.fetchDropped_limits idle _ _
    · exact idle
  · exact h

theorem execBlankCheckCompletion_limits : s.NextLimited .blankCheckCompletion := by
  refine ⟨_, rfl, ?_⟩
  split
  · split
    · exact State.nextBlankCheck_limits h _
    · exact h
    · exact h
  · exact h

theorem execMountReadCompletion_limits : s.NextLimited .mountReadCompletion := by
  refine ⟨_, rfl, ?_⟩
  split
  · split
    · exact State.headerRead_limits h _ _
    · exact State.pageRead_limits h _ _ _
    · exact h
  · exact h

theorem execEraseCompletion_limits (outcome : EraseOutcome) :
    s.NextLimited (.eraseCompletion outcome) := by
  refine ⟨_, rfl, ?_⟩
  split
  · exact State.conclude_limits (State.afterErase_limits
      (State.eraseDone_limits (h.setArray _) _ _) _)
  · exact h

theorem execResumeMinimumReached_limits : s.NextLimited .resumeMinimumReached := by
  refine ⟨_, rfl, ?_⟩
  repeat' split
  · exact h
  · exact (h.setArray _).still (State.checkSuspend_still _) (State.checkSuspend_keeps _)
      (State.checkSuspend_tables _)
  · exact h

/-- Every command keeps the limits. -/
theorem exec_limits (i : Instr) : s.NextLimited i := by
  cases i with
  | stationReset cut => exact ⟨_, rfl, s.stationReset_limits cut⟩
  | status m => exact ⟨_, rfl, State.command_limits h .status m fun _ _ hu => hu.setPort _⟩
  | result m => exact ⟨_, rfl, State.command_limits h .result m fun _ _ hu => hu⟩
  | readBuffer m => exact ⟨_, rfl, State.command_limits h .readBuffer m fun _ _ hu => hu⟩
  | nextNotice m => exact execNextNotice_limits h m
  | readPosition p m =>
    exact ⟨_, rfl, State.command_limits h .readPosition m fun _ _ hu =>
      State.conclude_limits (State.takeRead_limits hu _ _ _)⟩
  | readRecord o seq m =>
    exact ⟨_, rfl, State.command_limits h .readRecord m fun _ _ hu =>
      State.conclude_limits (State.takeRead_limits hu _ _ _)⟩
  | submit tag payload m =>
    exact ⟨_, rfl, State.command_limits h .submit m fun _ _ hu => State.decideSubmit_limits hu _ _⟩
  | release p m =>
    exact ⟨_, rfl, State.command_limits h .release m fun _ _ hu => State.releaseTo_limits hu _⟩
  | enlist station n w rate p m => exact execEnlist_limits h station n w rate p m
  | format m => exact execFormat_limits h m
  | quiet m => exact execQuiet_limits h m
  | wake m => exact ⟨_, rfl, State.command_limits h .wake m fun _ _ hu => State.woken_limits hu⟩
  | lineResume m =>
    exact ⟨_, rfl, State.command_limits h .lineResume m fun _ _ hu =>
      (hu.setPort _).setLine _ (Nat.zero_le _)⟩
  | reset cut m =>
    exact ⟨_, rfl, State.command_limits h .reset m fun _ u _ => u.stationReset_limits cut⟩
  | unknownCode code m => exact execUnknownCode_limits h code m
  | commandDiscarded how => exact execCommandDiscarded_limits h how
  | hold asserted => exact ⟨_, rfl, h.setPort _⟩
  | heldFrame sender origin value =>
    exact ⟨_, rfl, State.hearFrame_limits h _ fun _ hu => State.takeHeld_limits hu _ _ _⟩
  | presenceFrame sender joining full vector =>
    exact ⟨_, rfl, State.hearFrame_limits h _ fun _ hu => State.takePresence_limits hu _ _ _ _⟩
  | quietingPresenceFrame sender full vector =>
    exact ⟨_, rfl, State.hearFrame_limits h _ fun _ hu => State.takePresence_limits hu _ _ _ _⟩
  | appendFrame sender seq tag payload check =>
    exact ⟨_, rfl, State.hearFrame_limits h _ fun _ hu =>
      State.arrive_limits (State.hearPeer_limits hu _ _) _⟩
  | refillCopyFrame sender requester origin seq tag payload check =>
    exact ⟨_, rfl, State.hearFrame_limits h _ fun _ hu =>
      State.takeCopy_limits (State.hearPeer_limits hu _ _) _⟩
  | refillGoneFrame sender requester origin first last =>
    exact ⟨_, rfl, State.hearFrame_limits h _ fun _ hu =>
      State.takeGone_limits (State.hearPeer_limits hu _ _) _ _ _⟩
  | seekFrame sender origin first last =>
    exact ⟨_, rfl, State.hearFrame_limits h _ fun _ hu => State.answerSeek_limits
      (State.followSeek_limits (State.hearPeer_limits hu _ _) _ _ _) _ _ _ _⟩
  | frameDiscarded bytes =>
    refine ⟨_, rfl, ?_⟩
    split
    · exact State.setFramer_limits h _
    · exact h
  | separatorDominant => exact ⟨_, rfl, State.moveFramer_limits h _ _⟩
  | dominantRunEnd => exact ⟨_, rfl, State.moveFramer_limits h _ _⟩
  | gapEnd => exact ⟨_, rfl, State.moveFramer_limits h _ _⟩
  | huntIdleRun => exact ⟨_, rfl, State.moveFramer_limits h _ _⟩
  | startBitSeen => exact ⟨_, rfl, State.moveFramer_limits h _ _⟩
  | dominantBitInGap => exact ⟨_, rfl, State.moveFramer_limits h _ _⟩
  | frameStart => exact execFrameStart_limits h
  | arbitrationLoss =>
    refine ⟨_, rfl, ?_⟩
    split
    · exact State.setTransmitter_limits h _
    · exact h
  | transmitFailure =>
    refine ⟨_, rfl, ?_⟩
    split
    · exact h.setLine _ (Nat.min_le_left _ _)
    · exact h
  | breakComplete => exact execBreakComplete_limits h
  | heldSendCompletion =>
    refine ⟨_, rfl, ?_⟩
    split
    · exact ((State.frameSent_limits h).setLine _ (Nat.zero_le _)).setTracker _ h.gaps
    · exact h
  | appendSendCompletion =>
    refine ⟨_, rfl, ?_⟩
    split
    · exact State.conclude_limits (State.appendSent_limits (State.frameSent_limits h) _)
    · exact h
  | refillSendCompletion => exact execRefillSendCompletion_limits h
  | seekSendCompletion => exact execSeekSendCompletion_limits h
  | presenceSendCompletion => exact execPresenceSendCompletion_limits h
  | quietingPresenceSendCompletion => exact execQuietingPresenceSendCompletion_limits h
  | presenceTimerExpiry =>
    refine ⟨_, rfl, ?_⟩
    split
    · exact h.setPresence _
    · exact h
  | silenceTimerExpiry peers =>
    refine ⟨_, rfl, ?_⟩
    split
    · exact h
    · exact State.conclude_limits (State.silenceExpired_limits _ h)
  | joiningEnd =>
    refine ⟨_, rfl, ?_⟩
    split
    · exact State.conclude_limits (h.untouched rfl rfl rfl rfl rfl)
    · exact h
  | confirmationWaitExpiry seq => exact execConfirmationWaitExpiry_limits h seq
  | repairWaitExpiry slot => exact execRepairWaitExpiry_limits h slot
  | deferExpiry requester origin => exact execDeferExpiry_limits h requester origin
  | recordProgramCompletion outcome => exact execRecordProgramCompletion_limits h outcome
  | headerProgramCompletion outcome => exact execHeaderProgramCompletion_limits h outcome
  | hostReadCompletion flaw =>
    refine ⟨_, rfl, ?_⟩
    split
    · exact State.conclude_limits (State.hostReadDone_limits (h.setArray _) _ _)
    · exact h
  | fetchCompletion flaw => exact execFetchCompletion_limits h flaw
  | blankCheckCompletion => exact execBlankCheckCompletion_limits h
  | mountReadCompletion => exact execMountReadCompletion_limits h
  | eraseCompletion outcome => exact execEraseCompletion_limits h outcome
  | resumeMinimumReached => exact execResumeMinimumReached_limits h
  | suspensionCompletion =>
    refine ⟨_, rfl, ?_⟩
    split
    · exact State.conclude_limits (h.setArray _)
    · exact h

end Commands

end Sys2Proof.Machine

namespace Sys2Proof

open Machine

/-- Settles O53: by command, with the limits kept by every operation that adds to a queue or a table. -/
theorem stepKeepsLimits : Obligations.StepKeepsLimits := by
  intro s t h stepped
  unfold Machine.step at stepped
  split at stepped
  · obtain rfl := Host.Outcome.next.inj stepped
    exact h
  · next c rest _ =>
    have limits : (s.setPending rest).LimitsOk := h.untouched rfl rfl rfl rfl rfl
    exact next_unique (exec_limits limits c) stepped

end Sys2Proof

/-! ## Reads answered without flash (R43, R154, R158, R159) -/

namespace Sys2Proof.Machine

/-! ### The lookups that answer with a code -/

section Answers

variable (s : State)

theorem State.lookupPosition_zero : s.lookupPosition 0 = .answered .badArg := rfl

theorem State.lookupPosition_unplaced {position : Nat} (nonzero : position ≠ 0)
    (unplaced : s.writer.nextPosition ≤ position) :
    s.lookupPosition position = .answered .notFound := by
  rw [State.lookupPosition, if_neg nonzero, if_pos unplaced]

theorem State.lookupPosition_below {position : Nat} (nonzero : position ≠ 0)
    (placed : position < s.writer.nextPosition) (below : position < s.oldestPosition) :
    s.lookupPosition position = .answered .reclaimed := by
  rw [State.lookupPosition, if_neg nonzero, if_neg (Nat.not_le.2 placed), if_pos below]

theorem State.lookupRecord_invalid {origin seq : Nat} (invalid : 15 < origin ∨ seq = 0) :
    s.lookupRecord origin seq = .answered .badArg := by
  rw [State.lookupRecord, if_pos invalid]

variable {origin seq : Nat} (valid : origin ≤ 15) (nonzero : seq ≠ 0)
  (unstored : s.segments.findData origin seq = none)
include valid nonzero unstored

theorem State.lookupRecord_below (below : seq ≤ s.oldestFloor origin) :
    s.lookupRecord origin seq = .answered .reclaimed := by
  rw [State.lookupRecord, if_neg (not_or.2 ⟨Nat.not_lt.2 valid, nonzero⟩), unstored]
  exact if_pos below

theorem State.lookupRecord_nowhere (above : s.oldestFloor origin < seq)
    (nowhere : s.segments.findHole origin seq = none) :
    s.lookupRecord origin seq = .answered .notFound := by
  rw [State.lookupRecord, if_neg (not_or.2 ⟨Nat.not_lt.2 valid, nonzero⟩), unstored]
  dsimp only
  rw [if_neg (Nat.not_le.2 above), nowhere]

end Answers

/-! ### What the answer leaves (R154) -/

section Taken

variable {s : State} (c : HostCommand) (target : Target)

/-- A read that its lookup answers, taken by a slot that is not PENDING: the slot is DONE with the code,
which the end of the event leaves. -/
theorem State.takeRead_answered (free : ∀ t, s.port.slot ≠ .pending t) (code : Code) :
    let t := ((s.setReturned Sdo.zeros).takeRead c target (.answered code)).conclude
    t.port.slot = .done target code ∧ (s.setReturned Sdo.zeros).Keeps t ∧ s.KeepsTables t := by
  let u := (s.setReturned Sdo.zeros).setPort
    { (s.setReturned Sdo.zeros).port with slot := .done target code }
  have taken : (s.setReturned Sdo.zeros).takeRead c target (.answered code) = u := by
    unfold State.takeRead
    split
    · next t pending => exact absurd pending (free t)
    · rfl
  rw [taken]
  exact ⟨State.conclude_slot (.inr fun _ h => nomatch h),
    .trans (t := u) (by constructor <;> rfl) u.conclude_keeps,
    .trans (t := u) ⟨rfl, rfl, rfl⟩ u.conclude_tables⟩

/-- A read while the slot is PENDING is answered BUSY, whatever its lookup gives. -/
theorem State.takeRead_pending {held : Target} (pending : s.port.slot = .pending held) (l : Lookup) :
    let t := ((s.setReturned Sdo.zeros).takeRead c target l).conclude
    State.Keeps (s.replied (.drives [] []) .busy c.code) t ∧ s.KeepsTables t := by
  let u := s.replied (.drives [] []) .busy c.code
  have turned : (s.setReturned Sdo.zeros).takeRead c target l = u := by
    unfold State.takeRead
    rw [State.setReturned_port, pending]
    rfl
  rw [turned]
  exact ⟨u.conclude_keeps, .trans (t := u) ⟨rfl, rfl, rfl⟩ u.conclude_tables⟩

end Taken

end Sys2Proof.Machine

namespace Sys2Proof

open Machine

/-- Settles O8: the lookup's code by the conditions of R158 and R159 in their order, or BUSY from a
PENDING slot, through the end of the event. -/
theorem readsAnswered : Obligations.ReadsAnswered := by
  intro s ready serves
  refine ⟨fun position code free condition => ?_, fun origin seq code free condition => ?_,
    fun target pending => ⟨fun position => ?_, fun origin seq => ?_⟩⟩
  · refine ⟨_, execReadPosition_taken ready serves position, ?_⟩
    have answered : s.lookupPosition position.toNat = .answered code := by
      obtain ⟨rfl, rfl⟩ | ⟨nonzero, unplaced, rfl⟩ | ⟨nonzero, placed, below, rfl⟩ := condition
      · exact s.lookupPosition_zero
      · exact s.lookupPosition_unplaced (by bv_omega) unplaced
      · exact s.lookupPosition_below (by bv_omega) placed below
    rw [answered]
    exact State.takeRead_answered _ _ free code
  · refine ⟨_, execReadRecord_taken ready serves origin seq, ?_⟩
    have answered : s.lookupRecord origin.toNat seq.toNat = .answered code := by
      obtain ⟨invalid, rfl⟩ | ⟨valid, nonzero, unstored, ⟨below, rfl⟩ | ⟨above, nowhere, rfl⟩⟩ :=
        condition
      · exact s.lookupRecord_invalid (invalid.imp_right fun zero => by rw [zero]; rfl)
      · exact s.lookupRecord_below valid (by bv_omega) unstored below
      · exact s.lookupRecord_nowhere valid (by bv_omega) unstored above
          (nowhere.elim id Segments.findHole_none)
    rw [answered]
    exact State.takeRead_answered _ _ free code
  · exact ⟨_, execReadPosition_taken ready serves position,
      State.takeRead_pending .readPosition _ pending _⟩
  · exact ⟨_, execReadRecord_taken ready serves origin seq,
      State.takeRead_pending .readRecord _ pending _⟩

end Sys2Proof

/-! ## RELEASE (R47, R52, R161) -/

namespace Sys2Proof.Machine

/-! ### The RELEASE job of a raised mark (R47) -/

theorem Job.withMark_body {j : Job} (release : j.body.isRelease = true) (mark : Nat) :
    (j.withMark mark).body = .release mark := by
  unfold Job.withMark
  split
  · rfl
  · next other =>
    cases body : j.body with
    | release old => exact absurd body (other old)
    | data => rw [body] at release; cases release
    | hole => rw [body] at release; cases release

theorem State.unservedJobs_idle {s : State} (unserved : s.array.recordInProgress = false) :
    s.unservedJobs = s.writer.jobs := by
  rw [State.unservedJobs, unserved]
  rfl

theorem State.unservedJobs_busy {s : State} (served : s.array.recordInProgress = true) :
    s.unservedJobs = s.writer.jobs.tail := by
  rw [State.unservedJobs, served]
  rfl

/-- A RELEASE job that no program serves waits; one behind the head is such a job. -/
theorem State.unservedJobs_waits {s : State} (condition : s.array.recordInProgress = false ∨
      s.writer.jobs.any (·.body.isRelease) = false ∨
      s.writer.jobs.tail.any (·.body.isRelease) = true) :
    s.unservedJobs.any (·.body.isRelease) = true ∨
      s.writer.jobs.any (·.body.isRelease) = false := by
  obtain unserved | unqueued | behind := condition
  · rw [State.unservedJobs_idle unserved]
    exact Bool.eq_false_or_eq_true _
  · exact .inr unqueued
  · refine .inl ?_
    cases served : s.array.recordInProgress with
    | true =>
      rw [State.unservedJobs_busy served]
      exact behind
    | false =>
      obtain ⟨j, mem, release⟩ := List.any_eq_true.1 behind
      rw [State.unservedJobs_idle served]
      exact List.any_eq_true.2 ⟨j, List.mem_of_mem_tail mem, release⟩

/-- A RELEASE job that waits takes the mark; with none in the queue one joins at its tail. -/
theorem State.queueRelease_carries {s : State} (mark : Nat)
    (waits : s.unservedJobs.any (·.body.isRelease) = true ∨
      s.writer.jobs.any (·.body.isRelease) = false) :
    ∃ j ∈ (s.queueRelease mark).writer.jobs, j.body = .release mark := by
  unfold State.queueRelease
  split
  · next found =>
    obtain ⟨j, mem, release⟩ := List.any_eq_true.1 found
    refine ⟨j.withMark mark, ?_, Job.withMark_body release mark⟩
    cases served : s.array.recordInProgress with
    | true =>
      rw [State.unservedJobs_busy served] at mem
      exact List.mem_append_right _ (List.mem_map_of_mem mem)
    | false =>
      rw [State.unservedJobs_idle served] at mem
      exact List.mem_map_of_mem mem
  · next missing =>
    rw [waits.resolve_left missing]
    exact ⟨_, List.mem_append_right _ (List.mem_singleton_self _), rfl⟩

/-- While the only RELEASE job is being programmed none is queued (log 18). -/
theorem State.queueRelease_left {s : State} (mark : Nat)
    (unserved : s.unservedJobs.any (·.body.isRelease) = false)
    (queued : s.writer.jobs.any (·.body.isRelease) = true) : s.queueRelease mark = s := by
  rw [State.queueRelease, unserved, queued]
  rfl

/-! ### The jobs at the end of an event -/

theorem State.conclude_jobs (s : State) : s.conclude.writer.jobs = s.excessTest.writer.jobs := by
  rw [State.conclude_writer, State.placed, s.refilled.placeHead_still.jobs, State.refilled,
    s.excessTest.fillSlots_still.jobs]

/-- The end of an event queues no RELEASE job. -/
theorem State.conclude_releases (s : State) :
    s.conclude.writer.jobs.countP (·.body.isRelease) = s.writer.jobs.countP (·.body.isRelease) := by
  rw [State.conclude_jobs]
  unfold State.excessTest
  repeat' split
  · rfl
  · exact List.countP_append.trans (Nat.add_zero _)
  · rfl

/-! ### The command (R52, R161) -/

/-- The answer to a RELEASE that raises the mark, with the mark raised. -/
def State.raisedTo (s : State) (position : Nat) : State :=
  { s.replied (.drives [] []) .ok 0xA6 with writer := { s.writer with releaseMark := position } }

section Released

variable {s : State} {position : Word} (ready : s.PortReady) (serves : s.mode.serves)
include ready serves

theorem execRelease_taken : exec (.release position .whole) s =
    .next ((s.setReturned Sdo.zeros).releaseTo position.toNat) := by
  have taken : HostCommand.release.verdict s.mode = .taken := by
    obtain mode | mode | mode := serves <;> rw [mode] <;> rfl
  show Host.Outcome.next (s.command .release .whole _) = _
  rw [State.command_taken ready _ taken, State.drives_zeros taken rfl]

theorem execRelease_unplaced (unplaced : s.writer.nextPosition ≤ position.toNat) :
    exec (.release position .whole) s = .next (s.replied (.drives [] []) .badArg 0xA6) := by
  rw [execRelease_taken ready serves, State.releaseTo, State.setReturned_writer,
    if_pos unplaced]
  rfl

theorem execRelease_below (placed : position.toNat < s.writer.nextPosition)
    (below : position.toNat ≤ s.writer.releaseMark) :
    exec (.release position .whole) s = .next (s.replied (.drives [] []) .ok 0xA6) := by
  rw [execRelease_taken ready serves, State.releaseTo, State.setReturned_writer,
    if_neg (Nat.not_le.2 placed), if_pos below]
  rfl

theorem execRelease_raised (placed : position.toNat < s.writer.nextPosition)
    (above : s.writer.releaseMark < position.toNat) :
    exec (.release position .whole) s =
      .next ((s.raisedTo position.toNat).queueRelease position.toNat).conclude := by
  rw [execRelease_taken ready serves, State.releaseTo, State.setReturned_writer,
    if_neg (Nat.not_le.2 placed), if_neg (Nat.not_le.2 above)]
  rfl

end Released

end Sys2Proof.Machine

namespace Sys2Proof

open Machine

/-- Settles O12: by the position's place beside the next position and the mark; a raised mark's job
outlasts the end of the event, which queues no other. -/
theorem releaseCommand : Obligations.ReleaseCommand := by
  refine ⟨fun cut a b c d => rfl, fun s position ready serves => ⟨execRelease_unplaced ready serves,
    execRelease_below ready serves, fun placed above => ?_⟩⟩
  let u := (s.raisedTo position.toNat).queueRelease position.toNat
  have kept : (s.raisedTo position.toNat).Keeps u.conclude :=
    (State.queueRelease_keeps _ _).trans u.conclude_keeps
  refine ⟨u.conclude, execRelease_raised ready serves placed above, kept.result, kept.releaseMark,
    fun condition => ?_, fun served head tail => ?_, kept,
    .trans (t := s.raisedTo position.toNat) ⟨rfl, rfl, rfl⟩
      ((State.queueRelease_tables _ _).trans u.conclude_tables)⟩
  · obtain ⟨j, mem, body⟩ := State.queueRelease_carries (s := s.raisedTo position.toNat)
      position.toNat (State.unservedJobs_waits condition)
    exact ⟨j, u.conclude_grows.jobs.subset mem, body⟩
  · obtain ⟨j, first, release⟩ := (Option.any_eq_true _ _).1 head
    rw [← State.unservedJobs_busy served] at tail
    have left : u = s.raisedTo position.toNat := State.queueRelease_left _ tail
      (List.any_eq_true.2 ⟨j, List.mem_of_head? first, release⟩)
    rw [State.conclude_releases, left]
    rfl

end Sys2Proof

/-! ## Erase requests and reclaim (R56 to R58, R83) -/

namespace Sys2Proof.Machine

/-! ### DIRTY segments (R56) -/

theorem isDirty_iff (v : SegmentState) : v.isDirty = true ↔ v = .dirty := by
  cases v <;> simp [SegmentState.isDirty]

theorem Segments.firstDirty_lowest {m : Segments} {k : Nat} {e : Segment} (he : m.table[k]? = some e)
    (dirty : e.state = .dirty)
    (lowest : ∀ i x, i < k → m.table[i]? = some x → x.state ≠ .dirty) : m.firstDirty = some k := by
  obtain ⟨hk, rfl⟩ := List.getElem?_eq_some_iff.1 he
  refine List.findIdx?_eq_some_iff_getElem.2 ⟨hk, (isDirty_iff _).2 dirty, fun i hi h => ?_⟩
  exact lowest i _ hi (List.getElem?_eq_getElem _) ((isDirty_iff _).1 h)

theorem Mode.erases_of_onLine {m : Mode} (h : m.onLine = true) : m.erases = true := by
  cases m <;> first | rfl | cases h

/-- The request of a segment's erase, as the change of its entry and of the erase context. -/
theorem State.requestErase_eq {s : State} {k : Nat} {e : Segment}
    (he : s.segments.table[k]? = some e) : s.requestErase k = { s with
      segments := { s.segments with table := s.segments.table.set k { e with state := .erasing } }
      array := { s.array with context := some ⟨k, false, false, false, false⟩ } } := by
  have table : s.segments.table.modify k (fun x => { x with state := .erasing })
      = s.segments.table.set k { e with state := .erasing } := by
    rw [List.modify_eq_set_getElem?, he]
    rfl
  rw [← table]
  rfl

/-! ### The decision of R56 -/

/-- A reclaim start of a segment is due: no erase is in hand, none is DIRTY, fewer than two are ERASED,
and the segment is the oldest in use, not OPEN, under the conditions of R57. -/
structure State.Reclaims (s : State) (k : Nat) (u : InUse) : Prop where
  context : s.array.context = none
  clean : s.segments.firstDirty = none
  onLine : s.mode.onLine = true
  reserve : s.segments.erasedCount < 2
  oldest : s.segments.oldest = some (k, u)
  closed : s.segments.table[k]?.map (·.state.isOpen) = some false
  conditions : s.reclaimable u = true

theorem State.scheduleErase_requests {s : State} {k : Nat} (context : s.array.context = none)
    (erases : s.mode.erases = true) (dirty : s.segments.firstDirty = some k) :
    s.scheduleErase = s.requestErase k := by
  rw [State.scheduleErase, context, erases, dirty]
  rfl

theorem State.scheduleErase_reclaims {s : State} {k : Nat} {u : InUse} (h : s.Reclaims k u) :
    s.scheduleErase = s.reclaimStart k u := by
  obtain ⟨context, clean, onLine, reserve, oldest, closed, conditions⟩ := h
  have few : decide (s.segments.erasedCount < Config.reserveTarget) = true := decide_eq_true reserve
  unfold State.scheduleErase
  rw [context, Mode.erases_of_onLine onLine, clean, onLine, few, oldest]
  dsimp only
  rw [closed, conditions]
  rfl

/-- All that the Segment Manager's decision can do. -/
theorem State.scheduleErase_cases (s : State) :
    s.scheduleErase = s ∨
      (∃ k, s.array.context = none ∧ s.segments.firstDirty = some k ∧
        s.scheduleErase = s.requestErase k) ∨
      ∃ k u, s.Reclaims k u ∧ s.scheduleErase = s.reclaimStart k u := by
  unfold State.scheduleErase
  split
  · exact .inl rfl
  · next free =>
    have context : s.array.context = none := by
      cases h : s.array.context with
      | none => rfl
      | some c => rw [h] at free; exact absurd rfl free
    split
    · next k dirty => exact .inr (.inl ⟨k, context, dirty, rfl⟩)
    · next clean =>
      split
      · next due =>
        obtain ⟨onLine, few⟩ := Bool.and_eq_true_iff.1 due
        split
        · next k u oldest =>
          dsimp only
          split
          · next may =>
            obtain ⟨closed, conditions⟩ := Bool.and_eq_true_iff.1 may
            refine .inr (.inr ⟨k, u, ⟨context, clean, onLine, of_decide_eq_true few, oldest, ?_,
              conditions⟩, rfl⟩)
            obtain ⟨e, he, -⟩ := Segments.oldest_some oldest
            rw [he] at closed ⊢
            exact congrArg some ((Bool.not_eq_true' _).mp closed)
          · exact .inl rfl
        · exact .inl rfl
      · exact .inl rfl

/-! ### The four conditions (R57) -/

section Conditions

variable (s : State) (u : InUse)

theorem State.released_iff :
    s.released u = true ↔ u.lastPosition.getD (u.firstPosition - 1) ≤ s.writer.releaseMark :=
  decide_eq_true_iff

theorem State.heldByPeers_iff : s.heldByPeers u = true ↔
    ∀ sp ∈ u.spans, sp.origin < s.clusterSize → ∀ p < s.clusterSize, s.isOwn p = false →
      (s.presence.peer p).state ≠ .absent →
      sp.high ≤ (s.presence.peer p).reported.getD sp.origin 0 := by
  simp only [State.heldByPeers, List.all_eq_true, Bool.or_eq_true, decide_eq_true_eq, List.mem_range]
  refine forall₂_congr fun sp _ => ⟨fun h below p within peer absent => ?_, fun h => ?_⟩
  · rcases (h.resolve_left (Nat.not_le.2 below)) p within with (own | gone) | held
    · rw [peer] at own
      cases own
    · exact absurd gone absent
    · exact held
  · by_cases below : sp.origin < s.clusterSize
    · refine .inr fun p within => ?_
      by_cases own : s.isOwn p = true
      · exact .inl (.inl own)
      · by_cases absent : (s.presence.peer p).state = .absent
        · exact .inl (.inr absent)
        · exact .inr (h below p within (Bool.not_eq_true _ ▸ own) absent)
    · exact .inl (Nat.not_lt.1 below)

theorem State.notAwaited_iff : s.notAwaited u = true ↔
    ∀ sp ∈ u.spans, s.isOwn sp.origin = true → ∀ e ∈ s.submission.queue, sp.high < e.seq := by
  simp only [State.notAwaited, List.all_eq_true, Bool.or_eq_true, decide_eq_true_eq,
    Bool.not_eq_true', ← Bool.not_eq_true, ← imp_iff_not_or]

theorem State.coveredByFloor_iff : s.coveredByFloor u = true ↔
    ∃ j v, s.segments.following u.firstPosition = some (j, v) ∧
      (∀ sp ∈ u.spans, sp.origin < s.clusterSize → sp.high ≤ v.floor.getD sp.origin 0) ∧
      ∀ h ∈ u.holes, h.origin < s.clusterSize → h.high ≤ v.floor.getD h.origin 0 := by
  unfold State.coveredByFloor
  split
  · next last => simp [last]
  · next j v follows =>
    simp only [Bool.and_eq_true, List.all_eq_true, Bool.or_eq_true, decide_eq_true_eq, follows,
      ← Nat.not_lt, ← imp_iff_not_or]
    exact ⟨fun h => ⟨j, v, rfl, h⟩, fun ⟨_, _, rfl, h⟩ => h⟩

theorem State.reclaimable_iff : s.reclaimable u = true ↔
    s.released u = true ∧ s.heldByPeers u = true ∧ s.notAwaited u = true ∧
      s.coveredByFloor u = true := by
  simp only [State.reclaimable, Bool.and_eq_true, and_assoc]

end Conditions

/-! ### The reclaim start (R58, R83) -/

/-- The high seq of the own origin's spans is their greatest, 0 without one. -/
theorem State.ownSpanHigh_greatest (s : State) (u : InUse) :
    (∀ sp ∈ u.spans, s.isOwn sp.origin = true → sp.high ≤ s.ownSpanHigh u) ∧
      (s.ownSpanHigh u = 0 ∨
        ∃ sp ∈ u.spans, s.isOwn sp.origin = true ∧ s.ownSpanHigh u = sp.high) := by
  have greatest : s.ownSpanHigh u = ((u.spans.filter fun sp => s.isOwn sp.origin).map
      fun sp => (sp.low, sp.high)).foldl (fun m c => max m c.2) 0 := by
    rw [State.ownSpanHigh, List.foldl_map, List.foldl_map]
  obtain ⟨-, each, reached⟩ := foldl_max_last
    ((u.spans.filter fun sp => s.isOwn sp.origin).map fun sp => (sp.low, sp.high)) 0
  rw [greatest]
  refine ⟨fun sp mem own => each _ (List.mem_map_of_mem (List.mem_filter.2 ⟨mem, own⟩)),
    reached.imp_right fun ⟨c, mem, high⟩ => ?_⟩
  obtain ⟨sp, owned, rfl⟩ := List.mem_map.1 mem
  obtain ⟨mem, own⟩ := List.mem_filter.1 owned
  exact ⟨sp, mem, own, high⟩

section Started

variable (s : State) (k : Nat) (u : InUse)

theorem State.reclaimStart_table (i : Nat) : (s.reclaimStart k u).segments.table[i]? =
    if k = i then s.segments.table[i]?.map fun e => { e with state := .erasing }
    else s.segments.table[i]? :=
  Segments.setState_getElem? _ k i .erasing

/-- The own reclaimed floor rises to the own spans' high seq when that is above it (R58). -/
theorem State.reclaimStart_ownFloor :
    let floor := (s.reclaimStart k u).segments.ownFloor
    s.segments.ownFloor ≤ floor ∧
      (∀ sp ∈ u.spans, s.isOwn sp.origin = true → sp.high ≤ floor) ∧
      (floor = s.segments.ownFloor ∨ ∃ sp ∈ u.spans, s.isOwn sp.origin = true ∧ floor = sp.high) := by
  obtain ⟨each, reached⟩ := s.ownSpanHigh_greatest u
  have risen : (s.reclaimStart k u).segments.ownFloor
      = max s.segments.ownFloor (s.ownSpanHigh u) := rfl
  rw [risen]
  refine ⟨le_max_left _ _, fun sp mem own => (each sp mem own).trans (le_max_right _ _), ?_⟩
  rcases le_total (s.ownSpanHigh u) s.segments.ownFloor with low | high
  · exact .inl (max_eq_left low)
  · rw [max_eq_right high]
    refine reached.imp_left fun zero => ?_
    omega

end Started

end Sys2Proof.Machine

namespace Sys2Proof

open Machine

/-- Settles O51: a DIRTY segment's request whatever else; without one, the decision's cases, of which the
reclaim start alone changes anything, and what it sets. -/
theorem reclaimConditions : Obligations.ReclaimConditions := by
  intro s context
  refine ⟨fun k e he dirty lowest mode => ?_, fun clean => ?_⟩
  · have erases : s.mode.erases = true := by
      obtain mode | mode | mode := mode <;> rw [mode] <;> rfl
    rw [State.scheduleErase_requests context erases (Segments.firstDirty_lowest he dirty lowest),
      State.requestErase_eq he]
  intro may
  have due (k : Nat) (u : InUse) : may k u ↔ s.Reclaims k u := by
    have conditions := s.reclaimable_iff u
    rw [s.released_iff, s.heldByPeers_iff, s.notAwaited_iff, s.coveredByFloor_iff] at conditions
    exact ⟨fun ⟨oldest, reserve, onLine, closed, rest⟩ =>
        ⟨context, clean, onLine, reserve, oldest, closed, conditions.2 rest⟩,
      fun h => ⟨h.oldest, h.reserve, h.onLine, h.closed, conditions.1 h.conditions⟩⟩
  refine ⟨fun changed => ?_, fun k u reclaims => ?_⟩
  · rcases s.scheduleErase_cases with same | ⟨k, -, dirty, -⟩ | ⟨k, u, reclaims, -⟩
    · exact absurd same changed
    · cases clean.symm.trans dirty
    · exact ⟨k, u, (due k u).2 reclaims⟩
  · have reclaims := (due k u).1 reclaims
    obtain ⟨e, he, -⟩ := Segments.oldest_some reclaims.oldest
    obtain ⟨rises, covers, reached⟩ := s.reclaimStart_ownFloor k u
    rw [State.scheduleErase_reclaims reclaims]
    refine ⟨rfl, ?_, fun i other => ?_, rises, covers, reached, rfl, rfl⟩
    · rw [State.reclaimStart_table, if_pos rfl, he]
      rfl
    · rw [State.reclaimStart_table, if_neg other.symm]

end Sys2Proof

/-! ## ENLIST (R58, R79, R98, R130, R156, R176, R180, R181) -/

namespace Sys2Proof.Machine

/-! ### The arguments (R156) -/

theorem Rate.ofByte_byte (r : Rate) : Rate.ofByte r.byte = some r := by
  cases r <;> rfl

theorem Rate.ofByte_some {b : Byte} {r : Rate} (h : Rate.ofByte b = some r) : b = r.byte := by
  unfold Rate.ofByte at h
  repeat' split at h
  all_goals cases h
  all_goals assumption

/-- The least P, in its units, that is at least four frame slots at a rate. -/
def Rate.leastUnits : Rate → Nat
  | .kbit125 => 8
  | .kbit250 => 4
  | .kbit500 => 2
  | .kbit1000 => 1

theorem longEnough_iff (r : Rate) (p : Nat) : longEnough r p = true ↔ r.leastUnits ≤ p := by
  rw [longEnough, decide_eq_true_iff]
  cases r <;> simp only [Rate.bitTime, Rate.leastUnits] <;> omega

theorem enlistmentOf_eq_some {station n w rate p : Byte} {e : Enlistment} :
    enlistmentOf station n w rate p = some e ↔
      ∃ r : Rate, rate = r.byte ∧ 2 ≤ n.toNat ∧ n.toNat ≤ 16 ∧ station.toNat < n.toNat ∧
        w.toNat < n.toNat ∧ r.leastUnits ≤ p.toNat ∧
        e = ⟨station.toNat, n.toNat, w.toNat, r, p.toNat⟩ := by
  have positive (r : Rate) : 1 ≤ r.leastUnits := by cases r <;> decide
  unfold enlistmentOf
  constructor
  · intro h
    split at h
    · cases h
    · next r known =>
      split at h
      · next checks =>
        obtain ⟨low, high, member, target, -, long⟩ := checks
        exact ⟨r, Rate.ofByte_some known, low, high, member, target, (longEnough_iff r _).1 long,
          (Option.some.inj h).symm⟩
      · cases h
  · rintro ⟨r, rfl, low, high, member, target, long, rfl⟩
    rw [Rate.ofByte_byte]
    exact if_pos ⟨low, high, member, target, (positive r).trans long, (longEnough_iff r _).2 long⟩

/-- The arguments that R156 refuses name no enlistment. -/
theorem enlistmentOf_refused {station n w rate p : Byte}
    (wrong : ¬ (2 ≤ n.toNat ∧ n.toNat ≤ 16) ∨ n.toNat ≤ station.toNat ∨ n.toNat ≤ w.toNat ∨
      ¬ (1 ≤ rate.toNat ∧ rate.toNat ≤ 4) ∨ p = 0 ∨
      rate = 0x01 ∧ p.toNat < 8 ∨ rate = 0x02 ∧ p.toNat < 4 ∨ rate = 0x03 ∧ p.toNat < 2) :
    enlistmentOf station n w rate p = none := by
  refine Option.eq_none_iff_forall_ne_some.2 fun e named => ?_
  obtain ⟨r, rfl, low, high, member, target, long, -⟩ := enlistmentOf_eq_some.1 named
  obtain size | own | copies | rate | zero | short := wrong
  · exact size ⟨low, high⟩
  · omega
  · omega
  · exact rate (by cases r <;> decide)
  · subst zero
    exact absurd long (by cases r <;> decide)
  · cases r <;> simp [Rate.byte, Rate.leastUnits] at short long <;> omega

/-! ### What a taken ENLIST sets (R180) -/

/-- What a taken ENLIST sets in the blocks before JOINING is entered. -/
def State.enlisting (s : State) (e : Enlistment) : State :=
  { s.replied (.drives [] []) .ok 0xA1 with
    enlistment := some e
    line := { s.line with transmitter := .idle, framer := .hunt }
    tracker := s.tracker.enlisted e.n
    segments := { s.segments with ownFloor := s.oldestFloor e.station }
    submission := { s.submission with durable := s.submission.kept.getD e.station 0 }
    presence := s.presence.forget }

/-- The state that a taken ENLIST hands to the end of its event. -/
def State.enlistedAs (s : State) (e : Enlistment) : State := (s.enlisting e).enterJoining

theorem State.enlisted_eq (s : State) (e : Enlistment) :
    (s.setReturned Sdo.zeros).enlisted e = (s.enlistedAs e).conclude :=
  congrArg (fun t => (State.enterJoining t).conclude) (rfl : _ = s.enlisting e)

section Taken

variable {s : State} {station n w rate p : Byte} (ready : s.PortReady) (mode : s.mode = .unenlisted)
include ready mode

theorem execEnlist_refused (refused : enlistmentOf station n w rate p = none) :
    exec (.enlist station n w rate p .whole) s =
      .next (s.replied (.drives [] []) .badArg 0xA1) := by
  have taken : HostCommand.enlist.verdict s.mode = .taken := by rw [mode]; rfl
  show Host.Outcome.next (s.command .enlist .whole _) = _
  rw [State.command_taken ready _ taken, State.drives_zeros taken rfl, refused]
  rfl

theorem execEnlist_enlisted {e : Enlistment} (named : enlistmentOf station n w rate p = some e) :
    exec (.enlist station n w rate p .whole) s = .next (s.enlistedAs e).conclude := by
  have taken : HostCommand.enlist.verdict s.mode = .taken := by rw [mode]; rfl
  show Host.Outcome.next (s.command .enlist .whole _) = _
  rw [State.command_taken ready _ taken, State.drives_zeros taken rfl, named]
  exact congrArg Host.Outcome.next (s.enlisted_eq e)

end Taken

/-- The holdings of an origin after ENLIST (R98). -/
theorem Tracker.enlisted_holding {t : Tracker} {n : Nat} (within : n ≤ t.holdings.length) (o : Nat) :
    (t.enlisted n).holding o = if o < n then
      { t.holding o with known := (t.holding o).accepted, due := false } else ⟨0, 0, 0, false⟩ := by
  unfold Tracker.holding Tracker.enlisted
  simp only [List.getD_eq_getElem?_getD, List.getElem?_map, List.getElem?_zipIdx, Nat.zero_add]
  by_cases below : o < n
  · rw [if_pos below, List.getElem?_eq_getElem (below.trans_le within)]
    simp [below]
  · rw [if_neg below]
    cases t.holdings[o]? <;> simp [below]

theorem Presence.forget_peer (p : Presence) (k : Nat) : p.forget.peer k = Peer.reset := by
  unfold Presence.peer Presence.forget
  rw [List.getD_eq_getElem?_getD, List.getElem?_map]
  cases p.peers[k]? <;> rfl

/-- The entry into JOINING starts the silence timers of the peers (R181). -/
theorem State.enterJoining_peer {s : State} {k : Nat} (within : k < s.presence.peers.length) :
    s.enterJoining.presence.peer k =
      if s.isPeer k then { s.presence.peer k with timer := true } else s.presence.peer k := by
  simp [Presence.peer, State.enterJoining, within]

/-- A peer table entry after ENLIST (R130, R181). -/
theorem State.enlistedAs_peer {s : State} (e : Enlistment) {k : Nat}
    (within : k < s.presence.peers.length) : (s.enlistedAs e).presence.peer k =
      ⟨.unknown, decide (k < e.n ∧ k ≠ e.station), List.replicate 16 0, false, false⟩ := by
  have forgotten : (s.enlisting e).presence.peer k = Peer.reset := s.presence.forget_peer k
  have peer : (s.enlisting e).isPeer k = decide (k < e.n ∧ k ≠ e.station) := by
    have own : decide (e.station = k) = decide (k = e.station) := decide_eq_decide.2 eq_comm
    rw [Bool.decide_and, decide_not, ← own]
    rfl
  rw [State.enlistedAs, State.enterJoining_peer ((List.length_map _).symm ▸ within), forgotten, peer]
  cases decide (k < e.n ∧ k ≠ e.station) <;> rfl

/-! ### The transmitter at the end of an event -/

theorem State.mapRequest_idle {s : State} (idle : s.line.transmitter = .idle) (f : Request → Request) :
    (s.mapRequest f).line.transmitter = .idle := by
  show s.line.transmitter.mapRequest f = .idle
  rw [idle]
  rfl

theorem State.takeNext_idle {s : State} (idle : s.line.transmitter = .idle) (e : Responder)
    (l : List Nat) : (s.takeNext e l).line.transmitter = .idle := by
  unfold State.takeNext
  repeat' split
  · exact idle
  · exact idle
  · exact idle
  · exact State.mapRequest_idle idle _

theorem State.skipSeq_idle {s : State} (idle : s.line.transmitter = .idle) (q o seq : Nat) :
    (s.skipSeq q o seq).line.transmitter = .idle := by
  unfold State.skipSeq
  split
  · exact State.takeNext_idle idle _ _
  · exact idle

theorem State.serve_idle {s : State} (idle : s.line.transmitter = .idle) :
    s.serve.line.transmitter = .idle := by
  refine serveClaims_rel
    (R := fun s t => s.line.transmitter = .idle → t.line.transmitter = .idle) ?_ ?_ _ s idle
  · intro s t served idle
    cases served <;> exact idle
  · intro s t u refused later idle
    cases refused with
    | host c => exact later idle
    | fetch c rest =>
      refine later (State.skipSeq_idle ?_ _ _ _)
      exact idle

theorem State.fillSlots_line (s : State) : s.fillSlots.line = s.line := by
  have fill (s : State) : s.fillSlot.line = s.line := by
    unfold State.fillSlot
    split <;> rfl
  unfold State.fillSlots
  split
  · exact repeat_rel (R := fun s t : State => t.line = s.line) (fun _ => rfl)
      (fun a b => b.trans a) fill 4 s
  · rfl

theorem State.excessTest_line (s : State) : s.excessTest.line = s.line := by
  unfold State.excessTest
  repeat' split
  all_goals rfl

theorem State.placeHead_line (s : State) : s.placeHead.line = s.line := by
  have room : s.askRoom.line = s.line := by
    unfold State.askRoom
    dsimp only
    split <;> rfl
  unfold State.placeHead
  repeat' split
  all_goals first | rfl | exact room

theorem State.scheduleErase_line (s : State) : s.scheduleErase.line = s.line := by
  rcases s.scheduleErase_cases with h | ⟨k, -, -, h⟩ | ⟨k, u, -, h⟩ <;> rw [h] <;> rfl

theorem State.checkSuspend_line (s : State) : s.checkSuspend.line = s.line := by
  unfold State.checkSuspend
  repeat' split
  all_goals rfl

/-- An IDLE transmitter is IDLE at the end of an event: it has no request to rewrite. -/
theorem State.conclude_idle {s : State} (idle : s.line.transmitter = .idle) :
    s.conclude.line.transmitter = .idle := by
  have placed : s.placed.line = s.line := by
    rw [State.placed, State.placeHead_line, State.refilled, State.fillSlots_line,
      State.excessTest_line]
  have first := State.serve_idle (s := s.placed.scheduleErase)
    (by rw [State.scheduleErase_line, placed]; exact idle)
  have second := State.serve_idle (s := s.placed.scheduleErase.serve.scheduleErase)
    (by rw [State.scheduleErase_line]; exact first)
  rw [State.conclude_eq]
  exact (congrArg Line.transmitter (State.checkSuspend_line _)).trans second

/-! ### The own reclaimed floor at the end of an event (R56, R58, R83) -/

/-- The own reclaimed floor and the check index are as they were: no reclaim has started. -/
structure State.Unreclaimed (s t : State) : Prop where
  ownFloor : t.segments.ownFloor = s.segments.ownFloor
  index : t.tracker.index = s.tracker.index

theorem State.Unreclaimed.trans {s t u : State} (a : s.Unreclaimed t) (b : t.Unreclaimed u) :
    s.Unreclaimed u := ⟨b.ownFloor.trans a.ownFloor, b.index.trans a.index⟩

theorem State.placeHead_ownFloor (s : State) :
    s.placeHead.segments.ownFloor = s.segments.ownFloor := by
  have room : s.askRoom.segments.ownFloor = s.segments.ownFloor := by
    have sealed : s.segments.seal.ownFloor = s.segments.ownFloor := by
      rcases s.segments.seal_cases with h | ⟨k, u, c, n, -, h⟩ <;> rw [h]
      rfl
    unfold State.askRoom
    dsimp only
    split <;> exact sealed
  unfold State.placeHead
  repeat' split
  all_goals first | rfl | exact room

theorem State.placed_unreclaimed (s : State) : s.Unreclaimed s.placed where
  ownFloor := by rw [State.placed, State.placeHead_ownFloor, s.refilled_fields.1]
  index := (congrArg Tracker.index s.placed_tracker).trans s.excessTest_index

theorem State.serve_unreclaimed (s : State) : s.Unreclaimed s.serve := by
  refine ⟨?_, congrArg Tracker.index s.serve_fixes.tracker⟩
  refine serveClaims_rel (R := fun s t => t.segments.ownFloor = s.segments.ownFloor) ?_ ?_ _ s
  · intro s t served
    cases served <;> rfl
  · intro s t u refused later
    refine later.trans ?_
    cases refused with
    | host c => rfl
    | fetch c rest => rw [(State.skipSeq_fetchOnly _ _ _ _).segments]; rfl

theorem State.checkSuspend_unreclaimed (s : State) : s.Unreclaimed s.checkSuspend.flush :=
  ⟨congrArg Segments.ownFloor s.checkSuspend_segments,
    congrArg Tracker.index s.checkSuspend_fixes.tracker⟩

theorem State.scheduleErase_ownFloor (s : State) :
    s.segments.ownFloor ≤ s.scheduleErase.segments.ownFloor := by
  rcases s.scheduleErase_cases with h | ⟨k, -, -, h⟩ | ⟨k, u, -, h⟩
  · rw [h]
  · rw [h]
    exact le_rfl
  · rw [h]
    exact (s.reclaimStart_ownFloor k u).1

/-- The end of an event does not lower the own reclaimed floor. -/
theorem State.conclude_ownFloor (s : State) :
    s.segments.ownFloor ≤ s.conclude.segments.ownFloor := by
  rw [State.conclude_eq, (State.checkSuspend_unreclaimed _).ownFloor,
    (State.serve_unreclaimed _).ownFloor]
  refine le_trans ?_ (State.scheduleErase_ownFloor _)
  rw [(State.serve_unreclaimed _).ownFloor, ← s.placed_unreclaimed.ownFloor]
  exact State.scheduleErase_ownFloor _

/-- With a DIRTY segment, or an erase in hand, no reclaim start is due. -/
theorem State.scheduleErase_taken {s : State} (erases : s.mode.erases = true)
    (taken : s.array.context ≠ none ∨ s.segments.firstDirty ≠ none) :
    s.Unreclaimed s.scheduleErase ∧ s.scheduleErase.array.context ≠ none := by
  cases context : s.array.context with
  | some c =>
    have held : s.array.context ≠ none := by rw [context]; nofun
    rw [State.scheduleErase_held held]
    exact ⟨⟨rfl, rfl⟩, held⟩
  | none =>
    obtain ⟨k, dirty⟩ := Option.ne_none_iff_exists'.1 (taken.resolve_left fun h => h context)
    rw [State.scheduleErase_requests context erases dirty]
    exact ⟨⟨rfl, rfl⟩, nofun⟩

theorem State.conclude_unreclaimed {s : State} (erases : s.mode.erases = true)
    (taken : s.array.context ≠ none ∨ s.segments.firstDirty ≠ none) : s.Unreclaimed s.conclude := by
  have dirty : s.placed.segments.firstDirty = s.segments.firstDirty := by
    rw [State.placed, State.placeHead_firstDirty, s.refilled_fields.1]
  obtain ⟨first, held⟩ := State.scheduleErase_taken (s := s.placed)
    (by rw [s.placed_keeps.mode]; exact erases) (by rw [State.placed_array, dirty]; exact taken)
  have served : s.placed.scheduleErase.serve.array.context ≠ none := serveClaims_held _ held
  rw [State.conclude_eq, State.scheduleErase_held served]
  exact s.placed_unreclaimed.trans <| first.trans <| (State.serve_unreclaimed _).trans <|
    (State.serve_unreclaimed _).trans (State.checkSuspend_unreclaimed _)

end Sys2Proof.Machine

namespace Sys2Proof

open Machine

/-- Settles O13: the arguments by the enlistment they name; a taken one's state by blocks, each through
the end of the event. -/
theorem enlistCommand : Obligations.EnlistCommand := by
  intro s station n w rate p ready mode
  refine ⟨fun wrong => execEnlist_refused ready mode (enlistmentOf_refused wrong),
    fun r low high member target units peers tracking => ?_⟩
  have rated : rate = r.byte ∧ r.leastUnits ≤ p.toNat := by
    obtain ⟨rfl, rfl, long⟩ | ⟨rfl, rfl, long⟩ | ⟨rfl, rfl, long⟩ | ⟨rfl, rfl, long⟩ := units <;>
      exact ⟨rfl, long⟩
  have named := enlistmentOf_eq_some.2 ⟨r, rated.1, low, high, member, target, rated.2, rfl⟩
  let e : Enlistment := ⟨station.toNat, n.toNat, w.toNat, r, p.toNat⟩
  have keeps := (s.enlistedAs e).conclude_keeps
  have tables := (s.enlistedAs e).conclude_tables
  have holding (o : Nat) := Tracker.enlisted_holding (t := s.tracker) (n := n.toNat)
    (by rw [tracking.length]; exact high) o
  have unreclaimed (taken : s.array.context ≠ none ∨ s.segments.firstDirty ≠ none) :
      (s.enlistedAs e).Unreclaimed (s.enlistedAs e).conclude :=
    State.conclude_unreclaimed rfl taken
  have same (o : Nat) : (s.enlistedAs e).conclude.tracker.holding o
      = (s.tracker.enlisted n.toNat).holding o := by
    rw [Tracker.holding, tables.holdings]
    rfl
  refine ⟨(s.enlistedAs e).conclude, execEnlist_enlisted ready mode named, keeps.mode,
    keeps.enlistment, keeps.result, keeps.framer, State.conclude_idle rfl,
    (s.enlistedAs e).conclude_ownFloor, fun taken => (unreclaimed taken).ownFloor, keeps.failures,
    keeps.muted, keeps.heldCursor, fun k within => ?_, congrArg Presence.request keeps.presence,
    congrArg Presence.presenceTimer keeps.presence, congrArg Presence.joiningTimer keeps.presence,
    (congrArg Presence.quieting keeps.presence).trans rfl, keeps.submission,
    fun o below => ?_, fun o above => ?_, tables.gaps, tables.excess,
    fun x mem => (s.enlistedAs e).conclude_grows.pending.subset mem,
    fun taken => (unreclaimed taken).index, keeps.flash, keeps.nextPosition, keeps.releaseMark,
    keeps.buffer⟩
  · rw [keeps.presence]
    exact State.enlistedAs_peer e (by rw [peers.length]; exact within)
  · rw [same, holding, if_pos below]
  · rw [same, holding, if_neg (Nat.not_lt.2 above)]

end Sys2Proof

/-! ## The peer line: the framer's moves, losses, failures and breaks (R65 to R69, R73, R75) -/

namespace Sys2Proof.Machine

/-! ### The framer (R65, R66, R69) -/

theorem State.moveFramer_from {s : State} {source : Framer} (target : Framer)
    (framer : s.line.framer = source) :
    s.moveFramer source target = { s with line := { s.line with framer := target } } :=
  if_pos framer

theorem State.moveFramer_other {s : State} {source : Framer} (target : Framer)
    (framer : s.line.framer ≠ source) : s.moveFramer source target = s :=
  if_neg framer

theorem execFrameDiscarded_failing {s : State} {bytes : List Byte} (follows : s.follows = true)
    (fails : passes s.clusterSize bytes = false) : exec (.frameDiscarded bytes) s =
      .next { s with line := { s.line with framer := .gap } } := by
  show Host.Outcome.next _ = _
  rw [follows, fails]
  rfl

/-! ### Frames that fail their checks (R73, R187) -/

theorem passes_of_unparsed (n : Nat) {bytes : List Byte} (unparsed : parseFrame bytes = none) :
    passes n bytes = false := by
  rw [passes, unparsed]
  rfl

/-- No kind value above 4 names a frame (R64). -/
theorem parseBody_kind {kind : BitVec 4} (high : 5 ≤ kind.toNat) (sender : StationNumber)
    (body : List Byte) : parseBody kind sender body = none := by
  have other (k : BitVec 4) (low : k.toNat < 5) : kind ≠ k := by
    rintro rfl
    omega
  unfold parseBody
  rw [if_neg (other 0 (by decide)), if_neg (other 1 (by decide)), if_neg (other 2 (by decide)),
    if_neg (other 3 (by decide)), if_neg (other 4 (by decide))]

theorem parseFrame_key {key : Byte} (high : 0x50 ≤ key.toNat) (length : Byte) (rest : List Byte) :
    parseFrame (key :: length :: rest) = none := by
  have kind : 5 ≤ (key.extractLsb' 4 4).toNat := by
    rw [BitVec.extractLsb'_toNat, Nat.shiftRight_eq_div_pow]
    have := key.isLt
    omega
  simp only [parseFrame, parseBody_kind kind, ite_self]

theorem parseFrame_length (key : Byte) {length : Byte} {rest : List Byte}
    (disagrees : rest.length ≠ length.toNat + 2) : parseFrame (key :: length :: rest) = none := by
  rw [parseFrame, if_neg disagrees]

/-- The two CRC bytes of a frame determine its CRC-16 (R187). -/
theorem crcBytes_inj {a b : BitVec 16} (high : a.extractLsb' 8 8 = b.extractLsb' 8 8)
    (low : a.extractLsb' 0 8 = b.extractLsb' 0 8) : a = b := by
  have joined (c : BitVec 16) : c.extractLsb' 8 8 ++ c.extractLsb' 0 8 = c := by
    rw [BitVec.extractLsb'_append_extractLsb'_eq_extractLsb' (by omega)]
    exact BitVec.extractLsb'_eq_self
  rw [← joined a, high, low, joined b]

theorem parseFrame_crc {key length : Byte} {rest : List Byte} {crc : BitVec 16}
    (disagrees : crc ≠ crc16 (key :: length :: rest)) :
    parseFrame (key :: length :: rest ++ [crc.extractLsb' 8 8, crc.extractLsb' 0 8]) = none := by
  show parseFrame (key :: length :: (rest ++ _)) = none
  by_cases size : rest.length = length.toNat
  · rw [parseFrame, if_pos (by simp [size]), ← size, List.take_left, List.drop_left]
    refine if_neg fun agrees => disagrees ?_
    obtain ⟨high, low, -⟩ := by simpa only [List.cons.injEq] using agrees
    exact crcBytes_inj high low
  · exact parseFrame_length key (by simpa using size)

theorem Frame.fieldsGood_sender {n : Nat} {f : Frame} (foreign : n ≤ f.sender.toNat) :
    f.fieldsGood n = false := by
  unfold Frame.fieldsGood
  rw [decide_eq_false (Nat.not_lt.2 foreign), Bool.false_and]

/-! ### Losses, failures and breaks (R67, R68, R75) -/

theorem Transmitter.onLine?_eq {t : Transmitter} {r : Request} {f : Frame}
    (onLine : t = .sending r f ∨ t = .arbitrating r f) : t.onLine? = some (r, f) := by
  rcases onLine with rfl | rfl <;> rfl

theorem execArbitrationLoss_lost {s : State} {r : Request} {f : Frame}
    (onLine : s.line.transmitter = .arbitrating r f) : exec .arbitrationLoss s =
      .next { s with line := { s.line with transmitter := .idle } } := by
  show execArbitrationLoss s = _
  rw [execArbitrationLoss, onLine]
  rfl

theorem execTransmitFailure_failed {s : State} {r : Request} {f : Frame}
    (onLine : s.line.transmitter.onLine? = some (r, f)) : exec .transmitFailure s =
      .next { s with line := { s.line with
        transmitter := .breaking r, failures := min 16 (s.line.failures + 1) } } := by
  show execTransmitFailure s = _
  rw [execTransmitFailure, onLine]
  rfl

section Broken

variable {s : State} {r : Request} (breaking : s.line.transmitter = .breaking r)
include breaking

theorem execBreakComplete_below (below : s.line.failures < 16) :
    exec .breakComplete s = .next (s.setTransmitter .idle).leaveBroken := by
  show execBreakComplete s = _
  simp only [execBreakComplete, breaking]
  rw [if_neg below.ne]

theorem execBreakComplete_limit (limit : s.line.failures = 16) :
    exec .breakComplete s = .next (s.setTransmitter .idle).leaveBroken.enterMuted := by
  show execBreakComplete s = _
  simp only [execBreakComplete, breaking]
  rw [if_pos limit]

end Broken

/-- MUTED is set and its notice handed over: in QUIET the line interface is turned off and the QUIETING
request withdrawn (R75, R78; log 20). -/
def State.muting (s : State) : State := { s with
  line := { s.line with
    muted := true
    transmitter := if s.mode = .quiet then .off else s.line.transmitter
    framer := if s.mode = .quiet then .off else s.line.framer }
  presence := if s.mode = .quiet then { s.presence with quieting := false } else s.presence
  raised := s.raised ++ [(.lineInterface, .muted)] }

theorem State.enterMuted_eq (s : State) : s.enterMuted = s.muting.flush := by
  unfold State.enterMuted State.muting
  by_cases quiet : s.mode = .quiet
  · simp only [if_pos quiet]
    exact congrArg State.flush (if_pos quiet)
  · simp only [if_neg quiet]
    exact congrArg State.flush (if_neg quiet)

/-- The MUTED notice joins alone (R75, R167). -/
theorem State.muting_notices {s : State} (raised : s.raised = [])
    (room : s.port.notices.length < 16) : s.muting.flush.port.notices = s.port.notices ++ [.muted] := by
  rw [State.flush_oneBlock (b := .lineInterface) (l := [.muted])]
  · exact Port.take_room (n := .muted) rfl room
  · exact congrArg (· ++ [(.lineInterface, .muted)]) raised

end Sys2Proof.Machine

namespace Sys2Proof

open Machine

/-- Settles O27: each move by the framer's state, and each failed check by the stage of the decoding
that refuses it. -/
theorem framerMoves : Obligations.FramerMoves := by
  refine ⟨fun s => ⟨fun framer => ?_, fun framer => ⟨?_, ?_⟩, fun framer => ⟨?_, ?_⟩, fun framer => ?_,
    fun bytes => execFrameDiscarded_failing⟩, fun n key length rest =>
    ⟨fun high => passes_of_unparsed n (parseFrame_key high length rest),
      fun disagrees => passes_of_unparsed n (parseFrame_length key disagrees),
      fun crc disagrees => passes_of_unparsed n (parseFrame_crc disagrees),
      fun f => Frame.fieldsGood_sender⟩⟩
  all_goals exact congrArg Host.Outcome.next (State.moveFramer_from _ framer)

/-- Settles O29: the end of a break by the count, and below the limit by the framer. -/
theorem arbitrationAndFailure : Obligations.ArbitrationAndFailure := by
  intro s r f
  refine ⟨execArbitrationLoss_lost,
    fun onLine => execTransmitFailure_failed (Transmitter.onLine?_eq onLine.symm),
    fun breaking below other => ?_, fun breaking below following => ?_,
    fun breaking limit other raised room => ?_⟩
  · rw [execBreakComplete_below breaking below]
    exact congrArg Host.Outcome.next (State.moveFramer_other _ other)
  · rw [execBreakComplete_below breaking below]
    exact congrArg Host.Outcome.next (State.moveFramer_from _ following)
  · have left : (s.setTransmitter .idle).leaveBroken = s.setTransmitter .idle :=
      State.moveFramer_other _ other
    refine ⟨(s.setTransmitter .idle).muting.flush, ?_, rfl, limit, rfl, rfl,
      State.muting_notices raised room, rfl, rfl, rfl, rfl, rfl, rfl, rfl, rfl⟩
    rw [execBreakComplete_limit breaking limit, left, State.enterMuted_eq]

end Sys2Proof

/-! ## The peer line: completions of this station's frames (R70, R72, R94, R106, R118, R134, R143) -/

namespace Sys2Proof.Machine

/-- A frame of this station that the own framer followed has reached its last separator (R65, R70). -/
def State.sent (s : State) : State :=
  { s with line := { s.line with transmitter := .idle, failures := 0, framer := .gap } }

theorem State.sent_tables (s : State) : s.KeepsTables s.sent := ⟨rfl, rfl, rfl⟩

theorem State.frameSent_followed {s : State} (following : s.line.framer = .frame) :
    s.frameSent = s.sent := by
  unfold State.frameSent
  rw [if_pos following]
  rfl

/-! ### Reports sent (R94) -/

/-- The HELD-due flag of an origin once a held-through has been sent (R94). -/
def Holding.reported (h : Holding) (v : Nat) : Holding :=
  { h with due := h.due && decide (h.through ≠ v) }

theorem Tracker.reportSent_same {t : Tracker} {o : Nat} (within : o < t.holdings.length) (v : Nat) :
    (t.reportSent o v).holding o = (t.holding o).reported v :=
  (t.holding_change o o _ within).trans (if_pos rfl)

theorem Tracker.reportSent_other (t : Tracker) {o p : Nat} (other : p ≠ o) (v : Nat) :
    (t.reportSent o v).holding p = t.holding p :=
  t.holding_change_ne o p _ other

theorem Tracker.reportsSent_holdings (l : List Word) (t : Tracker) (o : Nat) :
    { t.reportsSent o l with holdings := t.holdings } = t := by
  induction l generalizing t o with
  | nil => rfl
  | cons v l ih => exact congrArg (fun u : Tracker => { u with holdings := t.holdings }) (ih _ _)

/-- Origins below the first of a vector are left. -/
theorem Tracker.reportsSent_below (l : List Word) (t : Tracker) {o p : Nat} (below : p < o) :
    (t.reportsSent o l).holding p = t.holding p := by
  induction l generalizing t o with
  | nil => rfl
  | cons v l ih => exact (ih _ (by omega)).trans (t.reportSent_other below.ne _)

/-- Origins past the last of a vector are left. -/
theorem Tracker.reportsSent_above (l : List Word) (t : Tracker) {o p : Nat}
    (above : o + l.length ≤ p) : (t.reportsSent o l).holding p = t.holding p := by
  induction l generalizing t o with
  | nil => rfl
  | cons v l ih =>
    rw [List.length_cons] at above
    exact (ih _ (by omega)).trans (t.reportSent_other (by omega) _)

/-- Each origin of a vector is reported with its value. -/
theorem Tracker.reportsSent_within (l : List Word) (t : Tracker) (o : Nat)
    (room : o + l.length ≤ t.holdings.length) {i : Nat} {v : Word} (value : l[i]? = some v) :
    (t.reportsSent o l).holding (o + i) = (t.holding (o + i)).reported v.toNat := by
  induction l generalizing t o i with
  | nil => cases value
  | cons w l ih =>
    rw [List.length_cons] at room
    cases i with
    | zero =>
      cases value
      exact (Tracker.reportsSent_below l _ (Nat.lt_succ_self o)).trans
        (Tracker.reportSent_same (by omega) _)
    | succ i =>
      have later := ih (t.reportSent o w.toNat) (o + 1)
        (by rw [Tracker.reportSent, Tracker.change, List.length_modify]; omega) (i := i) value
      rw [t.reportSent_other (by omega)] at later
      rwa [show o + 1 + i = o + (i + 1) by omega] at later

/-! ### HELD and PRESENCE (R70, R94, R118, R120) -/

theorem execHeldSendCompletion_sent {s : State} {o : Nat} {k : StationNumber} {b : Byte} {value : Word}
    (following : s.line.framer = .frame)
    (onLine : s.line.transmitter.onLine? = some (.held o, .held k b value)) :
    exec .heldSendCompletion s = .next { s.sent with
      line := { s.sent.line with heldCursor := o }, tracker := s.tracker.reportSent o value.toNat } := by
  show execHeldSendCompletion s = _
  simp only [execHeldSendCompletion, onLine, State.frameSent_followed following]
  rfl

/-- The station once a vector of this station has been sent (R94). -/
def State.vectorSent (s : State) (vector : List Word) : State :=
  { s.sent with tracker := s.tracker.reportsSent 0 vector }

section Presence

variable {s : State} {k : StationNumber} {mode : PresenceMode} {full : Bool} {vector : List Word}
  {live : Bool} (following : s.line.framer = .frame)
include following

theorem execPresenceSendCompletion_sent
    (onLine : s.line.transmitter.onLine? = some (.presence live, .presence k mode full vector)) :
    exec .presenceSendCompletion s = .next { s.vectorSent vector with
      presence := if live then { s.presence with request := false, presenceTimer := true }
        else s.presence } := by
  show execPresenceSendCompletion s = _
  simp only [execPresenceSendCompletion, onLine, State.frameSent_followed following]
  cases live <;> rfl

theorem execQuietingPresenceSendCompletion_sent
    (onLine : s.line.transmitter.onLine? = some (.quieting live, .presence k mode full vector)) :
    exec .quietingPresenceSendCompletion s = .next { s.vectorSent vector with
      line := { s.line with
        transmitter := if live then .off else .idle
        framer := if live then .off else .gap
        failures := 0 }
      presence := { s.presence with quieting := if live then false else s.presence.quieting } } := by
  show execQuietingPresenceSendCompletion s = _
  simp only [execQuietingPresenceSendCompletion, onLine, State.frameSent_followed following]
  cases live <;> rfl

end Presence

/-! ### APPEND (R70, R106, R109) -/

theorem execAppendSendCompletion_sent {s : State} {seq : Nat} {f : Frame}
    (onLine : s.line.transmitter.onLine? = some (.append seq, f)) :
    exec .appendSendCompletion s = .next (s.frameSent.appendSent seq).conclude := by
  show execAppendSendCompletion s = _
  simp only [execAppendSendCompletion, onLine]

/-- An APPEND sent changes its entry alone. -/
theorem State.appendSent_eq (s : State) (seq : Nat) :
    s.appendSent seq = s.setSubmission (s.appendSent seq).submission := by
  unfold State.appendSent
  repeat' split
  all_goals rfl

theorem State.appendSent_absent {s : State} {seq : Nat} (absent : ∀ e ∈ s.submission.queue, e.seq ≠ seq) :
    s.appendSent seq = s := by
  have none : s.submission.entry? seq = none :=
    List.find?_eq_none.2 fun e mem => by simpa using absent e mem
  rw [State.appendSent, none]

section Entry

variable {s : State} {seq : Nat} {e : Entry}
  (found : s.submission.queue.find? (fun e => decide (e.seq = seq)) = some e)
include found

theorem State.appendSent_declared (declared : e.declared = true) :
    s.appendSent seq = s.dropEntry seq := by
  have entry : s.submission.entry? seq = some e := found
  simp only [State.appendSent, entry]
  exact if_pos declared

theorem State.appendSent_waits (undeclared : e.declared = false) : s.appendSent seq =
    s.changeEntry seq fun e => { e with stage := .waiting, sends := e.sends + 1 } := by
  have entry : s.submission.entry? seq = some e := found
  simp only [State.appendSent, entry]
  exact if_neg (Bool.eq_false_iff.1 undeclared)

end Entry

/-! ### REFILL (R70, R143, R144) -/

section Refill

variable {s : State} {q o : Nat} {live : Bool} {f : Frame} (following : s.line.framer = .frame)
include following

theorem execRefillSendCompletion_copy {k : StationNumber} {a b : Byte} {seq : Word} {tag : Byte}
    {payload : List Byte} {check : Word} (onLine : s.line.transmitter.onLine? =
      some (.refill q o true, .copy k a b seq tag payload check)) :
    exec .refillSendCompletion s = .next (s.sent.copySent q o seq.toNat).conclude := by
  show execRefillSendCompletion s = _
  simp only [execRefillSendCompletion, onLine, State.frameSent_followed following]
  rfl

theorem execRefillSendCompletion_gone {k : StationNumber} {a b : Byte} {first last : Word}
    (onLine : s.line.transmitter.onLine? = some (.refill q o true, .gone k a b first last)) :
    exec .refillSendCompletion s = .next (s.sent.goneSent q o).conclude := by
  show execRefillSendCompletion s = _
  simp only [execRefillSendCompletion, onLine, State.frameSent_followed following]
  rfl

theorem execRefillSendCompletion_dropped
    (onLine : s.line.transmitter.onLine? = some (.refill q o false, f)) :
    exec .refillSendCompletion s = .next s.sent := by
  show execRefillSendCompletion s = _
  simp only [execRefillSendCompletion, onLine, State.frameSent_followed following]
  rfl

end Refill

theorem State.copySent_keeps (s : State) (q o seq : Nat) : s.Keeps (s.copySent q o seq) := by
  unfold State.copySent
  repeat' split
  · exact .refl s
  · exact s.skipSeq_keeps _ _ _
  · exact .refl s

theorem State.copySent_tables (s : State) (q o seq : Nat) : s.KeepsTables (s.copySent q o seq) := by
  unfold State.copySent
  repeat' split
  · exact .refl s
  · exact s.skipSeq_tables _ _ _
  · exact .refl s

theorem State.goneSent_keeps (s : State) (q o : Nat) : s.Keeps (s.goneSent q o) := by
  unfold State.goneSent
  split
  · exact .refl s
  · exact (s.changeResponder_keeps _ _ _).trans (State.takeNext_keeps _ _ _)

theorem State.goneSent_tables (s : State) (q o : Nat) : s.KeepsTables (s.goneSent q o) := by
  unfold State.goneSent
  split
  · exact .refl s
  · exact (s.changeResponder_tables _ _ _).trans (State.takeNext_tables _ _ _)

/-- After the COPY of a seq that its entry lists, no entry of that key lists it (R144). -/
theorem State.copySent_lacks {s : State} {q o seq : Nat} {e : Responder}
    (found : s.repair.responder? q o = some e) (listed : seq ∈ e.list) :
    ∀ x ∈ (s.copySent q o seq).repair.responders, x.requester = q → x.origin = o → seq ∉ x.list := by
  have skips : s.copySent q o seq = s.skipSeq q o seq := by
    simp only [State.copySent, found]
    exact if_pos (List.contains_iff_mem.2 listed)
  rw [skips]
  exact s.skipSeq_lacks q o seq

/-- After a GONE its entry has no GONE range left (R143). -/
theorem State.goneSent_goneless (s : State) (q o : Nat) :
    ∀ x ∈ (s.goneSent q o).repair.responders, x.requester = q → x.origin = o → x.gone = none := by
  intro x mem requester origin
  unfold State.goneSent at mem
  split at mem
  · next absent =>
    have other := List.find?_eq_none.1 absent x mem
    simp [requester, origin] at other
  · next e found =>
    obtain ⟨stands, rfl, rfl⟩ := Repair.responder?_mem found
    have cleared : { e with gone := none } ∈ (s.changeResponder e.requester e.origin fun e =>
        { e with gone := none }).repair.responders := List.mem_map.2 ⟨e, stands, if_pos ⟨rfl, rfl⟩⟩
    obtain ⟨-, y, mem, hq, ho, same⟩ := State.takeNext_shrinks cleared (List.Subset.refl _) x mem
    obtain ⟨z, -, rfl⟩ := State.mem_changeResponder mem (hq.trans requester) (ho.trans origin)
    exact same.symm

/-! ### SEEK (R70, R134) -/

section Seek

variable {s : State} {i : Nat} {f : Frame} (following : s.line.framer = .frame)
include following

theorem execSeekSendCompletion_due {sl : SeekSlot} (due : sl.state = .asking false)
    (slot : s.repair.slots[i]? = some (some sl))
    (onLine : s.line.transmitter.onLine? = some (.seek i true, f)) :
    exec .seekSendCompletion s = .next { s.sent with repair := { s.repair with
      slots := s.repair.slots.set i (some { sl with state := .asking true }) } } := by
  have slots : s.repair.slots.modify i (·.map SeekSlot.sent)
      = s.repair.slots.set i (some { sl with state := .asking true }) := by
    rw [List.modify_eq_set_getElem?, slot]
    simp [SeekSlot.sent, due]
  show execSeekSendCompletion s = _
  simp only [execSeekSendCompletion, onLine, State.frameSent_followed following, if_true]
  exact congrArg (fun l => Host.Outcome.next { s.sent with repair := { s.repair with slots := l } }) slots

theorem execSeekSendCompletion_dropped
    (onLine : s.line.transmitter.onLine? = some (.seek i false, f)) :
    exec .seekSendCompletion s = .next s.sent := by
  show execSeekSendCompletion s = _
  simp only [execSeekSendCompletion, onLine, State.frameSent_followed following]
  rfl

end Seek

end Sys2Proof.Machine

namespace Sys2Proof

open Machine

/-- Settles O30: the completion is one report sent, of the origin on the line. -/
theorem heldSent : Obligations.HeldSent := by
  intro s o k b value tracking below following onLine
  exact ⟨_, execHeldSendCompletion_sent following (Transmitter.onLine?_eq onLine), rfl,
    Tracker.reportSent_same (by rw [tracking.length]; exact below) _,
    fun p other => s.tracker.reportSent_other other _, rfl, rfl⟩

/-- Settles O31: the entry's change, carried through the end of the event by what that keeps. -/
theorem appendSent : Obligations.AppendSent := by
  intro s seq f onLine
  have keeps := (s.frameSent.appendSent seq).conclude_keeps
  have tables := (s.frameSent.appendSent seq).conclude_tables
  have alone := s.frameSent.appendSent_eq seq
  refine ⟨(s.frameSent.appendSent seq).conclude,
    execAppendSendCompletion_sent (Transmitter.onLine?_eq onLine), fun absent => ?_,
    fun e found => ⟨fun declared => ?_, fun undeclared => ?_⟩, fun following => ?_, ?_⟩
  · rw [keeps.submission, State.appendSent_absent (s := s.frameSent) absent]
    rfl
  · rw [keeps.submission, State.appendSent_declared (s := s.frameSent) found declared]
    rfl
  · rw [keeps.submission, State.appendSent_waits (s := s.frameSent) found undeclared]
    rfl
  · rw [keeps.submission]
    refine State.Keeps.trans ?_ keeps
    rw [State.frameSent_followed following] at alone ⊢
    rw [alone]
    exact .refl _
  · refine State.KeepsTables.trans ?_ tables
    rw [alone]
    exact ⟨rfl, rfl, rfl⟩

/-- Settles O32: what the completion does to the entry's list and range, which the end of the event only
shrinks; and the slot whose wait starts. -/
theorem refillAndSeekSent : Obligations.RefillAndSeekSent := by
  refine ⟨fun s q o k a b => ⟨fun seq tag payload check onLine following => ?_,
    fun first last onLine following => ?_, fun f onLine following =>
      execRefillSendCompletion_dropped following (Transmitter.onLine?_eq onLine)⟩,
    fun s i f following => ⟨fun sl onLine slot due =>
      execSeekSendCompletion_due following due slot (Transmitter.onLine?_eq onLine), fun onLine =>
      execSeekSendCompletion_dropped following (Transmitter.onLine?_eq onLine)⟩⟩
  · refine ⟨_, execRefillSendCompletion_copy following (Transmitter.onLine?_eq onLine), ?_,
      (s.sent.copySent_keeps _ _ _).trans (State.conclude_keeps _),
      s.sent_tables.trans ((s.sent.copySent_tables _ _ _).trans (State.conclude_tables _))⟩
    rintro ⟨e, found, listed⟩ x mem requester origin
    obtain ⟨⟨y, mem, hq, ho, part⟩, -⟩ := State.conclude_shrinks _ x mem
    exact fun h => State.copySent_lacks (s := s.sent) found listed y mem (hq.trans requester)
      (ho.trans origin) (part h)
  · refine ⟨_, execRefillSendCompletion_gone following (Transmitter.onLine?_eq onLine), ?_,
      (s.sent.goneSent_keeps _ _).trans (State.conclude_keeps _),
      s.sent_tables.trans ((s.sent.goneSent_tables _ _).trans (State.conclude_tables _))⟩
    intro x mem requester origin
    obtain ⟨-, y, mem, hq, ho, same⟩ := State.conclude_shrinks _ x mem
    exact same.symm.trans (s.sent.goneSent_goneless q o y mem (hq.trans requester) (ho.trans origin))

/-- Settles O33: the reports of the vector, and what each completion does to the line and the requests. -/
theorem presenceSent : Obligations.PresenceSent := by
  intro s k mode full vector tracking short following
  have within (o : Nat) (v : Word) (value : vector[o]? = some v) :
      (s.tracker.reportsSent 0 vector).holding o = (s.tracker.holding o).reported v.toNat := by
    have reported := Tracker.reportsSent_within vector s.tracker 0
      (by rw [tracking.length]; omega) value
    rwa [Nat.zero_add] at reported
  have above (o : Nat) (above : vector.length ≤ o) :
      (s.tracker.reportsSent 0 vector).holding o = s.tracker.holding o :=
    Tracker.reportsSent_above vector s.tracker (by omega)
  exact ⟨fun live onLine =>
      ⟨_, execPresenceSendCompletion_sent following (Transmitter.onLine?_eq onLine), rfl, rfl, within,
        above, Tracker.reportsSent_holdings vector s.tracker 0, rfl⟩,
    fun live onLine =>
      ⟨_, execQuietingPresenceSendCompletion_sent following (Transmitter.onLine?_eq onLine), rfl, rfl,
        within, above, Tracker.reportsSent_holdings vector s.tracker 0, rfl⟩⟩

end Sys2Proof

/-! ## The peer line: the start of a frame (R67, R75, R77, R78) -/

namespace Sys2Proof.Machine

/-! ### What each kind of request has to send (R77) -/

section Requests

variable {s : State}

/-- The first due origin after the HELD cursor (R77). -/
theorem State.heldRequest_due {d : Nat} (below : d < 16)
    (due : (s.tracker.holding ((s.line.heldCursor + 1 + d) % 16)).due = true)
    (earlier : ∀ e < d, (s.tracker.holding ((s.line.heldCursor + 1 + e) % 16)).due = false) :
    s.heldRequest = some ((s.line.heldCursor + 1 + d) % 16) := by
  rw [State.heldRequest, List.find?_map, List.find?_range_eq_some.2
    ⟨due, List.mem_range.2 below, fun e he => by simp [earlier e he]⟩]
  rfl

theorem State.heldRequest_none (none : ∀ o < 16, (s.tracker.holding o).due = false) :
    s.heldRequest = .none := by
  refine List.find?_eq_none.2 fun o mem => ?_
  obtain ⟨i, -, rfl⟩ := List.mem_map.1 mem
  rw [none _ (Nat.mod_lt _ (by decide))]
  exact Bool.false_ne_true

/-- The first SENDING entry, while ACTIVE (R77). -/
theorem State.appendRequest_sending {before after : List Entry} {e : Entry} (active : s.mode = .active)
    (queue : s.submission.queue = before ++ e :: after) (sending : e.stage = .sending)
    (earlier : ∀ x ∈ before, x.stage ≠ .sending) : s.appendRequest = some e := by
  rw [State.appendRequest, if_pos active, queue]
  exact List.find?_eq_some_iff_append.2 ⟨decide_eq_true sending, before, after, rfl,
    fun x mem => by simpa using earlier x mem⟩

theorem State.appendRequest_none
    (none : s.mode ≠ .active ∨ ∀ e ∈ s.submission.queue, e.stage ≠ .sending) :
    s.appendRequest = .none := by
  unfold State.appendRequest
  split
  · next active =>
    exact List.find?_eq_none.2 fun e mem => by simpa using none.resolve_left (absurd active) e mem
  · rfl

/-- The first READY responder, with its frame (R77). -/
theorem State.refillRequest_ready {before after : List Responder} {e : Responder} {f : Frame}
    (queue : s.repair.responders = before ++ e :: after)
    (earlier : ∀ x ∈ before, s.refillFrame x = none) (ready : s.refillFrame e = some f) :
    s.refillRequest = some (.refill e.requester e.origin true, f) := by
  rw [State.refillRequest, queue]
  exact List.findSome?_eq_some_iff.2 ⟨before, e, after, rfl, by rw [ready]; rfl,
    fun x mem => by rw [earlier x mem]; rfl⟩

theorem State.refillRequest_none (none : ∀ e ∈ s.repair.responders, s.refillFrame e = .none) :
    s.refillRequest = .none :=
  List.findSome?_eq_none_iff.2 fun e mem => by rw [none e mem]; rfl

/-- The frame of a READY responder entry (R143, R144). -/
theorem State.refillFrame_ready {e : Responder} {f : Frame}
    (ready : (∃ r : Content, e.state = .readyCopy r ∧ f = .copy s.key (natByte e.requester)
        (natByte e.origin) r.seq r.tag r.payload r.check) ∨
      (∃ g : Nat × Nat, e.state = .readyGone ∧ e.gone = some g ∧
        f = .gone s.key (natByte e.requester) (natByte e.origin) (BitVec.ofNat 32 g.1)
          (BitVec.ofNat 32 g.2))) : s.refillFrame e = some f := by
  unfold State.refillFrame
  rcases ready with ⟨r, copy, rfl⟩ | ⟨g, goes, gone, rfl⟩
  · rw [copy]
  · rw [goes, gone]
    rfl

/-- The lowest-numbered slot whose SEEK is due (R77, R134). -/
theorem State.seekRequest_due {i : Nat} {sl : SeekSlot} (slot : s.repair.slots[i]? = some (some sl))
    (due : sl.state = .asking false)
    (earlier : ∀ (j : Nat) (x : SeekSlot), j < i → s.repair.slots[j]? = some (some x) →
      x.state ≠ .asking false) :
    s.seekRequest = some (.seek i true, .seek s.key (natByte sl.origin) (BitVec.ofNat 32 sl.first)
      (BitVec.ofNat 32 sl.last)) := by
  obtain ⟨below, value⟩ := List.getElem?_eq_some_iff.1 slot
  have cut : s.repair.slots.zipIdx = (s.repair.slots.take i).zipIdx ++
      (some sl, i) :: (s.repair.slots.drop (i + 1)).zipIdx (i + 1) := by
    conv_lhs => rw [← List.take_append_drop i s.repair.slots, List.drop_eq_getElem_cons below, value,
      List.zipIdx_append, List.length_take_of_le below.le, List.zipIdx_cons, Nat.zero_add]
  refine List.findSome?_eq_some_iff.2 ⟨_, _, _, cut, if_pos due, fun x mem => ?_⟩
  obtain ⟨_ | y, j⟩ := x
  · rfl
  · obtain ⟨lower, entry⟩ := List.getElem?_eq_some_iff.1 (List.mem_zipIdx_iff_getElem?.1 mem)
    rw [List.length_take_of_le below.le] at lower
    rw [List.getElem_take] at entry
    exact if_neg (earlier j y lower (List.getElem?_eq_some_iff.2 ⟨lower.trans below, entry⟩))

theorem State.seekRequest_none
    (none : ∀ sl : SeekSlot, some sl ∈ s.repair.slots → sl.state ≠ .asking false) :
    s.seekRequest = .none := by
  refine List.findSome?_eq_none_iff.2 fun x mem => ?_
  obtain ⟨_ | sl, i⟩ := x
  · rfl
  · exact if_neg (none sl (List.fst_mem_of_mem_zipIdx mem))

/-! ### The choice (R67, R77, R78) -/

theorem State.chosen_quiet (quiet : s.mode = .quiet) : s.chosen =
    if s.presence.quieting then some (.quieting true, s.presenceFrame .quieting) else none :=
  if_pos quiet

theorem State.chosen_held {o : Nat} (loud : s.mode ≠ .quiet) (held : s.heldRequest = some o) :
    s.chosen = some (.held o, .held s.key (natByte o)
      (BitVec.ofNat 32 (s.tracker.holding o).through)) := by
  rw [State.chosen, if_neg loud, held]
  rfl

theorem State.chosen_append {e : Entry} (loud : s.mode ≠ .quiet) (held : s.heldRequest = none)
    (append : s.appendRequest = some e) : s.chosen = some (.append e.seq,
      .append s.key (BitVec.ofNat 32 e.seq) e.tag e.payload e.check) := by
  rw [State.chosen, if_neg loud, held, append]
  rfl

/-- With neither a HELD nor an APPEND to send, repair is served before presence (R77). -/
theorem State.chosen_later (loud : s.mode ≠ .quiet) (held : s.heldRequest = none)
    (append : s.appendRequest = none) :
    s.chosen = s.refillRequest.or (s.seekRequest.or s.presenceRequest) := by
  rw [State.chosen, if_neg loud, held, append]
  rfl

/-! ### The start (R67, R75) -/

theorem execFrameStart_begun {r : Request} {f : Frame} (free : s.line.framer = .free)
    (idle : s.line.transmitter = .idle) (unmuted : s.line.muted = false)
    (chosen : s.chosen = some (r, f)) : exec .frameStart s = .next (s.begun r f) := by
  show execFrameStart s = _
  rw [execFrameStart, if_pos ⟨free, idle, unmuted⟩, chosen]
  rfl

theorem execFrameStart_none (none : s.chosen = none) : exec .frameStart s = .next s := by
  show execFrameStart s = _
  simp only [execFrameStart, none, ite_self]

theorem execFrameStart_barred
    (barred : s.line.muted = true ∨ s.line.framer ≠ .free ∨ s.line.transmitter ≠ .idle) :
    exec .frameStart s = .next s := by
  refine congrArg Host.Outcome.next (if_neg ?_)
  rintro ⟨free, idle, unmuted⟩
  rcases barred with muted | framer | transmitter
  · rw [unmuted] at muted
    cases muted
  · exact framer free
  · exact transmitter idle

end Requests

end Sys2Proof.Machine

namespace Sys2Proof

open Machine

/-- Settles O28: one request after another in the selector's order, each with those before it absent. -/
theorem frameStartChooses : Obligations.FrameStartChooses := by
  refine ⟨fun s free idle unmuted => ?_, fun s mode => rfl, fun s => execFrameStart_barred⟩
  have begins {r : Request} {f : Machine.Frame} : s.chosen = some (r, f) →
      exec .frameStart s = .next (s.begun r f) := execFrameStart_begun free idle unmuted
  refine ⟨fun quiet request => begins ?_, fun quiet request => execFrameStart_none ?_,
    fun loud o d below origin due earlier => begins ?_, fun loud none => ?_⟩
  · rw [State.chosen_quiet quiet, if_pos request]
  · rw [State.chosen_quiet quiet, request]
    rfl
  · subst origin
    exact State.chosen_held loud (State.heldRequest_due below due earlier)
  · have held := State.heldRequest_none none
    refine ⟨fun before after e active queue sending earlier => begins (State.chosen_append loud held
      (State.appendRequest_sending active queue sending earlier)), fun unsent => ?_⟩
    have later := State.chosen_later loud held (State.appendRequest_none unsent)
    refine ⟨fun before after e f queue earlier ready => begins ?_, fun unready => ?_⟩
    · rw [later, State.refillRequest_ready queue earlier (State.refillFrame_ready ready)]
      rfl
    · rw [State.refillRequest_none unready, Option.none_or] at later
      refine ⟨fun i sl slot due earlier => begins ?_, fun undue => ?_⟩
      · rw [later, State.seekRequest_due slot due earlier]
        rfl
      · rw [State.seekRequest_none undue, Option.none_or] at later
        exact ⟨fun request => begins (later.trans (if_pos request)), fun unrequested =>
          execFrameStart_none (later.trans (if_neg (Bool.eq_false_iff.1 unrequested)))⟩

end Sys2Proof

/-! ## QUIET (R78, R120, R131, R146, R162, R183) -/

namespace Sys2Proof.Machine

/-! ### What a taken QUIET leaves (R183) -/

theorem Transmitter.mapRequest_mapRequest (t : Transmitter) (f g : Request → Request) :
    (t.mapRequest f).mapRequest g = t.mapRequest fun r => g (f r) := by
  cases t <;> rfl

/-- The request on the line no longer finds what QUIET withdraws (R120, R134, R144). -/
def Request.quieted : Request → Request
  | .seek i _ => .seek i false
  | .refill q o _ => .refill q o false
  | .presence _ => .presence false
  | r => r

/-- The Array Engine with every fetch withdrawn (R146). -/
def ArrayEngine.fetchless (a : ArrayEngine) : ArrayEngine := { a with
  fetchClaims := []
  activity := match a.activity with
    | .read (.fetch c _) => .read (.fetch c .orphaned)
    | other => other }

/-- The state that a taken QUIET leaves, its line interface off when MUTED (R78, R183). -/
def State.quieting (s : State) : State := { s.replied (.drives [] []) .ok 0xC5 with
  mode := .quiet
  presence := s.presence.quieted s.line.muted
  repair := Repair.reset
  array := s.array.fetchless
  line := { s.line with
    transmitter := if s.line.muted then .off else s.line.transmitter.mapRequest Request.quieted
    framer := if s.line.muted then .off else s.line.framer } }

theorem State.quieted_eq (s : State) : (s.setReturned Sdo.zeros).quieted = s.quieting := by
  have requests : (s.line.transmitter.mapRequest fun r => match r with
      | .seek i _ => .seek i false
      | .refill q o _ => .refill q o false
      | r => r).mapRequest Request.dropPresence = s.line.transmitter.mapRequest Request.quieted := by
    rw [Transmitter.mapRequest_mapRequest]
    congr 1
    funext r
    cases r <;> rfl
  unfold State.quieting
  by_cases muted : s.line.muted = true
  · simp only [if_pos muted]
    exact if_pos muted
  · simp only [if_neg muted]
    rw [← requests]
    exact if_neg muted

theorem State.mayQuiet_iff (s : State) : s.mayQuiet = true ↔
    s.submission.queue = [] ∧ s.writer.jobs = [] ∧ s.array.context = none := by
  simp [State.mayQuiet, and_assoc]

/-! ### The command (R162) -/

section Commanded

variable {s : State} (ready : s.PortReady) (mode : s.mode = .joining ∨ s.mode = .active)
include ready mode

theorem execQuiet_taken : exec (.quiet .whole) s = .next (if s.mayQuiet then
    (s.setReturned Sdo.zeros).quieted else s.replied (.drives [] []) .busy 0xC5) := by
  have taken : HostCommand.quiet.verdict s.mode = .taken := by
    rcases mode with mode | mode <;> rw [mode] <;> rfl
  show Host.Outcome.next (s.command .quiet .whole _) = _
  rw [State.command_taken ready _ taken, State.drives_zeros taken rfl]
  rfl

theorem execQuiet_busy
    (busy : s.submission.queue ≠ [] ∨ s.writer.jobs ≠ [] ∨ s.array.context ≠ none) :
    exec (.quiet .whole) s = .next (s.replied (.drives [] []) .busy 0xC5) := by
  rw [execQuiet_taken ready mode, if_neg]
  rw [State.mayQuiet_iff]
  rintro ⟨queue, jobs, context⟩
  exact busy.elim (· queue) (Or.elim · (· jobs) (· context))

theorem execQuiet_quieted (queue : s.submission.queue = []) (jobs : s.writer.jobs = [])
    (context : s.array.context = none) : exec (.quiet .whole) s =
      .next s.quieting := by
  rw [execQuiet_taken ready mode, if_pos (s.mayQuiet_iff.2 ⟨queue, jobs, context⟩),
    State.quieted_eq]

end Commanded

/-! ## A HELD frame heard (R65, R74, R92, R123, R124, R127) -/

theorem State.hearPeer_line (s : State) (p : Nat) (quieting : Bool) :
    (s.hearPeer p quieting).line = s.line := by
  obtain ⟨q, d, r, form, -, -⟩ := s.hearPeer_form p quieting
  rw [form]
  rfl

theorem State.mergePeer_line (s : State) (p : Nat) (f : Peer → Peer) :
    (s.mergePeer p f).line = s.line := by
  obtain ⟨q, d, r, form, -, -⟩ := s.mergePeer_form p f
  rw [form]
  rfl

theorem State.isPeer_congr {s t : State} (enlistment : t.enlistment = s.enlistment) (p : Nat) :
    t.isPeer p = s.isPeer p := by
  unfold State.isPeer State.clusterSize State.isOwn
  rw [enlistment]

theorem State.learnable_congr {s t : State} (rests : s.Rests t) (o v : Nat) :
    t.learnable o v = s.learnable o v := by
  unfold State.learnable State.isOwn
  rw [rests.enlistment, rests.mode, rests.nextSeq]

/-- The peer table after a frame heard and a merge: the sender's entry alone, and none of the own
number. -/
theorem State.heardPeer_presence (s : State) (p : Nat) (quieting : Bool) (f : Peer → Peer) :
    ((s.hearPeer p quieting).mergePeer p f).presence =
      if s.isPeer p then s.presence.change p fun e => f (e.heard quieting) else s.presence := by
  rw [State.mergePeer_presence, State.hearPeer_presence,
    State.isPeer_congr (s.hearPeer_rests p quieting).enlistment]
  split
  · simp only [Presence.change, List.modify_modify_eq]
    rfl
  · rfl

/-- What the hand-on of a HELD leaves (R74). -/
theorem State.takeHeld_rests (s : State) (p origin value : Nat) : s.Rests (s.takeHeld p origin value) :=
  (s.hearPeer_rests p false).trans ((State.mergePeer_rests _ _ _).trans (State.learn_rests _ _ _))

theorem State.takeHeld_tracker (s : State) (p origin value : Nat) :
    (s.takeHeld p origin value).tracker = s.tracker.change origin fun h =>
      { h with known := max h.known (s.learnable origin value) } := by
  have rests := (s.hearPeer_rests p false).trans
    ((s.hearPeer p false).mergePeer_rests p (Peer.report origin value))
  rw [State.takeHeld, State.learn_form, State.learnable_congr rests, State.mergePeer_tracker,
    State.hearPeer_tracker]
  rfl

theorem State.takeHeld_presence (s : State) (p origin value : Nat) :
    (s.takeHeld p origin value).presence = if s.isPeer p then
      s.presence.change p fun e => (e.heard false).report origin value else s.presence :=
  s.heardPeer_presence p false (Peer.report origin value)

theorem State.takeHeld_line (s : State) (p origin value : Nat) :
    (s.takeHeld p origin value).line = s.line :=
  (State.mergePeer_line _ _ _).trans (s.hearPeer_line p false)

/-- A value merged into a zeroed vector is the value set (R123, R124). -/
theorem modify_max_zeros (n o v : Nat) :
    (List.replicate n 0).modify o (max v) = (List.replicate n 0).set o v := by
  refine List.ext_getElem? fun i => ?_
  rw [List.getElem?_modify, List.getElem?_set, List.getElem?_replicate, List.length_replicate]
  by_cases at_o : o = i
  · by_cases within : i < n <;> simp [at_o, within]
  · by_cases within : i < n <;> simp [at_o, within]

theorem Peer.heard_fresh {e : Peer} (quieting : Bool) (fresh : e.state = .unknown ∨ e.state = .absent) :
    e.heard quieting = ⟨if quieting then .silent else .present, true, List.replicate 16 0, false,
      quieting⟩ := by
  have fresh : e.fresh = true := by rcases fresh with h | h <;> rw [Peer.fresh, h]
  rw [Peer.heard, fresh]
  rfl

theorem Peer.heard_known {e : Peer} (quieting : Bool) (known : e.state = .present ∨ e.state = .silent) :
    e.heard quieting = ⟨if quieting then .silent else .present, true, e.reported, e.full,
      quieting⟩ := by
  have known : e.fresh = false := by rcases known with h | h <;> rw [Peer.fresh, h]
  rw [Peer.heard, known]
  rfl

theorem execHeldFrame_handedOn {s : State} {sender : StationNumber} {origin : Byte} {value : Word}
    (follows : s.follows = true) (onLine : s.mode.onLine = true)
    (good : (Frame.held sender origin value).fieldsGood s.clusterSize = true) :
    exec (.heldFrame sender origin value) s = .next
      ((s.setFramer .gap).takeHeld sender.toNat origin.toNat value.toNat).conclude :=
  congrArg Host.Outcome.next (State.hearFrame_eq follows onLine good)

theorem State.isPeer_lt {s : State} {p : Nat} (peer : s.isPeer p = true) : p < s.clusterSize := by
  simp only [State.isPeer, Bool.and_eq_true, decide_eq_true_eq] at peer
  exact peer.1

/-- N is at most 16 (R156). -/
theorem State.TrackingOk.clusterSize {s : State} (h : s.TrackingOk) : s.clusterSize ≤ 16 := by
  unfold State.clusterSize
  split
  · next e enlisted => exact (h.enlistment e enlisted).2
  · exact Nat.zero_le _

end Sys2Proof.Machine

namespace Sys2Proof

open Machine

/-- Settles O15: refused by the condition that fails, and otherwise one state, its line interface off
when MUTED. -/
theorem quietCommand : Obligations.QuietCommand := by
  intro s ready mode
  refine ⟨execQuiet_busy ready mode, fun queue jobs context => ⟨s.quieting,
    execQuiet_quieted ready mode queue jobs context, rfl, rfl, rfl, rfl, rfl, rfl, rfl, rfl, rfl, rfl,
    rfl, rfl, fun muted => if_pos muted, fun unmuted => ?_, rfl, rfl, rfl, rfl, rfl, rfl, rfl, rfl, rfl,
    rfl, rfl⟩⟩
  refine (if_neg (Bool.eq_false_iff.1 unmuted)).trans (congrArg _ ?_)
  funext r
  cases r <;> rfl

/-- Settles O19: the frame's hand-on, read block by block through the end of the event. -/
theorem heldFrameTaken : Obligations.HeldFrameTaken := by
  intro s sender origin value peers tracking follows onLine good
  have within : origin.toNat < 16 := by
    have below : origin.toNat < s.clusterSize := by
      simp only [Frame.fieldsGood, Bool.and_eq_true, decide_eq_true_eq] at good
      exact good.2.1
    exact below.trans_le tracking.clusterSize
  let u := (s.setFramer .gap).takeHeld sender.toNat origin.toNat value.toNat
  have keeps : u.Keeps u.conclude := u.conclude_keeps
  have tables : u.KeepsTables u.conclude := u.conclude_tables
  have presence : u.conclude.presence = if s.isPeer sender.toNat then s.presence.change sender.toNat
      fun e => (e.heard false).report origin.toNat value.toNat else s.presence :=
    keeps.presence.trans (State.takeHeld_presence _ _ _ _)
  have holding (o : Nat) : u.conclude.tracker.holding o =
      (s.tracker.change origin.toNat fun h =>
        { h with known := max h.known (s.learnable origin.toNat value.toNat) }).holding o := by
    rw [Tracker.holding, tables.holdings, State.takeHeld_tracker]
    rfl
  have rests : s.Rests u.conclude :=
    (s.setFramer_rests .gap).trans ((State.takeHeld_rests _ _ _ _).trans keeps.rests)
  refine ⟨u.conclude, execHeldFrame_handedOn follows onLine good, ?_, fun peer => ?_, fun p other => ?_,
    ?_, fun o other => ?_, ?_, ?_, rests⟩
  · rw [keeps.framer, State.takeHeld_line]
    rfl
  · have entry : u.conclude.presence.peer sender.toNat =
        ((s.presence.peer sender.toNat).heard false).report origin.toNat value.toNat := by
      rw [presence, if_pos peer, Presence.peer_change, if_pos rfl]
      rw [peers.length]
      exact (State.isPeer_lt peer).trans_le tracking.clusterSize
    rw [entry]
    refine ⟨rfl, rfl, rfl, fun fresh => ?_, fun known => ?_⟩
    · rw [Peer.heard_fresh false fresh]
      exact ⟨rfl, modify_max_zeros 16 _ _⟩
    · rw [Peer.heard_known false known]
      exact ⟨rfl, rfl⟩
  · rw [presence]
    split
    · next peer =>
      exact Presence.peer_change_ne _ _ _ _ (other.resolve_right (by rw [peer]; nofun))
    · rfl
  · rw [holding, Tracker.holding_change _ _ _ _ (by rw [tracking.length]; exact within), if_pos rfl]
  · rw [holding, Tracker.holding_change_ne _ _ _ _ other]
  · rw [tables.gaps, State.takeHeld_tracker]
    rfl
  · rw [tables.excess, State.takeHeld_tracker]
    rfl

end Sys2Proof

/-! ## The round trip of the line frames (R63, R64, R73, R185, R187) -/

namespace Sys2Proof.Machine

theorem toNat_natByte {n : Nat} (short : n ≤ 255) : (natByte n).toNat = n :=
  (BitVec.toNat_ofNat n 8).trans (Nat.mod_eq_of_lt (by omega))

/-- The layout checks come down to the body's (R63, R64, R187). -/
theorem parseFrame_bytes {f : Frame} (short : f.body.length ≤ 255) :
    parseFrame f.bytes = parseBody f.kind f.sender f.body := by
  have length : f.body.length = (natByte f.body.length).toNat := (toNat_natByte short).symm
  have kind : f.key.extractLsb' 4 4 = f.kind := BitVec.extractLsb'_append_eq_left
  have sender : f.key.extractLsb' 0 4 = f.sender := BitVec.extractLsb'_append_eq_right
  show parseFrame (f.key :: natByte f.body.length :: (f.body ++ _)) = _
  rw [parseFrame, if_pos (by rw [← length, List.length_append]; rfl), ← length, List.take_left,
    List.drop_left, kind, sender]
  exact if_pos rfl

/-- The record fields that an APPEND or a COPY carries are read back (R187). -/
theorem parseCarried_bytes (seq : Word) (tag : Byte) {payload : List Byte} (check : Word)
    (short : payload.length ≤ 200) :
    parseCarried (wordBytes seq ++ tag :: natByte payload.length :: payload ++ wordBytes check)
      = some (seq, tag, payload, check) := by
  have length : (natByte payload.length).toNat = payload.length := toNat_natByte (by omega)
  show parseCarried (_ :: _ :: _ :: _ :: tag :: natByte payload.length :: (payload ++ _)) = _
  rw [parseCarried, if_pos (by rw [length, List.length_append]; rfl), length, List.take_left,
    List.drop_left, ofBytes_wordBytes, ← List.append_nil (wordBytes check), frontWord_wordBytes]

@[simp] theorem PresenceMode.ofByte_byte (m : PresenceMode) : PresenceMode.ofByte m.byte = some m := by
  cases m <;> rfl

theorem wordsOf_wordBytes (l : List Word) : wordsOf (l.flatMap wordBytes) = l := by
  induction l with
  | nil => rfl
  | cons v l ih => exact congrArg₂ List.cons (ofBytes_wordBytes v) ih

/-- The body of a frame that passes the field checks is read back, kind by kind (R73, 12.3). -/
theorem parseBody_body {n : Nat} {f : Frame} (stations : n ≤ 16) (good : f.fieldsGood n = true) :
    parseBody f.kind f.sender f.body = some f := by
  have words (first last : Word) : frontWord (wordBytes first ++ wordBytes last) = first ∧
      frontWord ((wordBytes first ++ wordBytes last).drop 4) = last :=
    ⟨frontWord_wordBytes first _, ofBytes_wordBytes last⟩
  simp only [Frame.fieldsGood, Bool.and_eq_true, decide_eq_true_eq] at good
  obtain ⟨-, good⟩ := good
  cases f with
  | held sender origin value =>
    show some (Frame.held sender origin (ofBytes _ _ _ _)) = _
    rw [ofBytes_wordBytes]
  | append sender seq tag payload check =>
    simp only [Bool.and_eq_true, decide_eq_true_eq] at good
    obtain ⟨⟨-, short⟩, -⟩ := good
    show (parseCarried _).map _ = _
    rw [Frame.body, parseCarried_bytes seq tag check short]
    rfl
  | copy sender requester origin seq tag payload check =>
    simp only [Bool.and_eq_true, decide_eq_true_eq] at good
    obtain ⟨⟨-, short⟩, -⟩ := good
    show (parseCarried (wordBytes seq ++ tag :: natByte payload.length :: payload
      ++ wordBytes check)).map _ = _
    rw [parseCarried_bytes seq tag check short]
    rfl
  | gone sender requester origin first last =>
    obtain ⟨front, back⟩ := words first last
    show some (Frame.gone sender requester origin (frontWord (wordBytes first ++ wordBytes last))
      (frontWord ((wordBytes first ++ wordBytes last).drop 4))) = _
    rw [front, back]
  | seek sender origin first last =>
    obtain ⟨front, back⟩ := words first last
    show some (Frame.seek sender origin (frontWord (wordBytes first ++ wordBytes last))
      (frontWord ((wordBytes first ++ wordBytes last).drop 4))) = _
    rw [front, back]
  | presence sender mode full vector =>
    have count : (natByte vector.length).toNat = vector.length :=
      toNat_natByte (by simp only [decide_eq_true_eq] at good; omega)
    show parseBody 4 sender (mode.byte :: (if full then 0x01 else 0x00) :: natByte vector.length ::
      vector.flatMap wordBytes) = _
    cases full <;> simp [parseBody, count, wordsOf_wordBytes, Nat.mul_comm]

end Sys2Proof.Machine

namespace Sys2Proof

open Machine

/-- Settles O59: the layout around the body, then the body kind by kind. -/
theorem frameRoundTrip : Obligations.FrameRoundTrip := by
  intro n f stations good short
  rw [parseFrame_bytes short, parseBody_body stations good]

end Sys2Proof

/-! ## The holdings and the peer table through every command (R80, R84, R121) -/

namespace Sys2Proof.Machine

/-! ### What a change of the state keeps -/

/-- The order of the holdings, the bound of the gap table and the peer table's shape carry over. -/
structure State.KeepsHoldings (s t : State) : Prop where
  tracking : s.TrackingOk → t.TrackingOk
  peers : s.PeersOk → t.PeersOk

theorem State.KeepsHoldings.refl (s : State) : s.KeepsHoldings s := ⟨id, id⟩

theorem State.KeepsHoldings.trans {s t u : State} (a : s.KeepsHoldings t) (b : t.KeepsHoldings u) :
    s.KeepsHoldings u := ⟨fun h => b.tracking (a.tracking h), fun h => b.peers (a.peers h)⟩

theorem State.PeersOk.of_eq {s t : State} (h : s.PeersOk) (presence : t.presence = s.presence) :
    t.PeersOk := ⟨by rw [presence]; exact h.length, by rw [presence]; exact h.reported⟩

/-- New tables in order, with the enlistment and the peer table as they were. -/
theorem State.KeepsHoldings.of_tracker {s t : State} (ok : s.TrackingOk → t.tracker.Ok)
    (enlistment : t.enlistment = s.enlistment) (presence : t.presence = s.presence) :
    s.KeepsHoldings t := ⟨fun h => h.mk' (ok h) enlistment, fun h => h.of_eq presence⟩

/-- A new peer table of the same shape, with the tables and the enlistment as they were. -/
theorem State.KeepsHoldings.of_peers {s t : State} (tracker : t.tracker = s.tracker)
    (enlistment : t.enlistment = s.enlistment) (peers : s.PeersOk → t.PeersOk) : s.KeepsHoldings t :=
  ⟨fun h => h.mk' (by rw [tracker]; exact h.tracker) enlistment, peers⟩

theorem State.KeepsHoldings.of_eq {s t : State} (tracker : t.tracker = s.tracker)
    (enlistment : t.enlistment = s.enlistment) (presence : t.presence = s.presence) :
    s.KeepsHoldings t := .of_peers tracker enlistment fun h => h.of_eq presence

theorem State.Keeps.holdings {s t : State} (k : s.Keeps t) (g : s.KeepsTables t) :
    s.KeepsHoldings t := .of_tracker (fun h => g.ok h.tracker) k.enlistment k.presence

theorem State.KeepsHoldings.conclude {s t : State} (h : s.KeepsHoldings t) :
    s.KeepsHoldings t.conclude := h.trans (t.conclude_keeps.holdings t.conclude_tables)

theorem State.KeepsHoldings.setPort {s t : State} (h : s.KeepsHoldings t) (p : Port) :
    s.KeepsHoldings (t.setPort p) := h.trans (.of_eq rfl rfl rfl)

/-! ### The peer table's shape (R121) -/

/-- A peer table of as many entries, each with as many values as one before, keeps its shape. -/
theorem State.PeersOk.of_lengths {s t : State} (h : s.PeersOk)
    (length : t.presence.peers.length = s.presence.peers.length)
    (reported : ∀ e ∈ t.presence.peers, e.reported.length = 16 ∨
      ∃ x ∈ s.presence.peers, e.reported.length = x.reported.length) : t.PeersOk where
  length := length.trans h.length
  reported := fun e mem => (reported e mem).elim id fun ⟨x, old, same⟩ => same.trans (h.reported x old)

/-- One peer's entry changed, its vector keeping its 16 values. -/
theorem State.PeersOk.change {s t : State} (h : s.PeersOk) {k : Nat} {f : Peer → Peer}
    (presence : t.presence = s.presence.change k f)
    (values : ∀ e, e.reported.length = 16 → (f e).reported.length = 16) : t.PeersOk := by
  refine h.of_lengths (by rw [presence]; exact List.length_modify _ _ _) fun e mem => .inl ?_
  rw [presence] at mem
  obtain ⟨i, within, rfl⟩ := List.getElem_of_mem mem
  have entry : i < s.presence.peers.length := (List.length_modify _ _ _).symm ▸ within
  have old := h.reported _ (List.getElem_mem entry)
  simp only [Presence.change, List.getElem_modify]
  split
  · exact values _ old
  · exact old

theorem Peer.heard_values (e : Peer) (quieting : Bool) (values : e.reported.length = 16) :
    (e.heard quieting).reported.length = 16 := by
  unfold Peer.heard
  dsimp only
  split
  · exact List.length_replicate
  · exact values

theorem Peer.reports_length (l : List Word) (e : Peer) (o : Nat) :
    (e.reports o l).reported.length = e.reported.length := by
  induction l generalizing e o with
  | nil => rfl
  | cons v l ih => exact (ih _ _).trans (List.length_modify _ _ _)

theorem Peer.aged_reported (e : Peer) : e.aged.reported = e.reported := by
  unfold Peer.aged
  split <;> rfl

/-! ### The Presence Unit and the Submission Controller (chapters 6 and 7) -/

theorem State.confirmTest_holdings (s : State) : s.KeepsHoldings s.confirmTest := by
  obtain ⟨q, d, r, form, -, -⟩ := s.confirmTest_form
  rw [form]
  exact .of_eq rfl rfl rfl

theorem State.hearPeer_holdings (s : State) (p : Nat) (quieting : Bool) :
    s.KeepsHoldings (s.hearPeer p quieting) := by
  refine .of_peers (s.hearPeer_tracker p quieting) (s.hearPeer_rests p quieting).enlistment fun h => ?_
  have presence := s.hearPeer_presence p quieting
  split at presence
  · exact h.change presence fun e => e.heard_values quieting
  · exact h.of_eq presence

/-- A merge that keeps the number of values keeps the peer table's shape (R124). -/
theorem State.mergePeer_holdings (s : State) (p : Nat) {f : Peer → Peer}
    (values : ∀ e, (f e).reported.length = e.reported.length) :
    s.KeepsHoldings (s.mergePeer p f) := by
  refine .of_peers (s.mergePeer_tracker p f) (s.mergePeer_rests p f).enlistment fun h => ?_
  have presence := s.mergePeer_presence p f
  split at presence
  · exact h.change presence fun e => (values e).trans
  · exact h.of_eq presence

theorem State.learn_holdings (s : State) (o v : Nat) : s.KeepsHoldings (s.learn o v) :=
  .of_tracker (fun h => State.learn_ok h.tracker o v) rfl rfl

theorem State.learnAll_holdings (l : List Word) (s : State) (o : Nat) :
    s.KeepsHoldings (s.learnAll o l) := by
  induction l generalizing s o with
  | nil => exact .refl s
  | cons v l ih => exact (s.learn_holdings o v.toNat).trans (ih _ _)

theorem State.takeHeld_holdings (s : State) (p origin value : Nat) :
    s.KeepsHoldings (s.takeHeld p origin value) :=
  ((s.hearPeer_holdings p false).trans
    (State.mergePeer_holdings _ p fun _ => List.length_modify _ _ _)).trans
    (State.learn_holdings _ origin value)

theorem State.takePresence_holdings (s : State) (p : Nat) (quieting full : Bool) (vector : List Word) :
    s.KeepsHoldings (s.takePresence p quieting full vector) :=
  ((s.hearPeer_holdings p quieting).trans
    (State.mergePeer_holdings _ p (f := Peer.presence full vector)
      fun e => e.reports_length vector 0)).trans
    (State.learnAll_holdings vector _ 0)

theorem State.enterJoining_holdings (s : State) : s.KeepsHoldings s.enterJoining := by
  refine .of_peers rfl rfl fun h => h.of_lengths ?_ fun e mem => .inr ?_
  · exact (List.length_map _).trans List.length_zipIdx
  · obtain ⟨⟨x, i⟩, old, rfl⟩ := List.mem_map.1 mem
    refine ⟨x, List.mem_of_getElem? (List.mem_zipIdx_iff_getElem?.1 old), ?_⟩
    dsimp only
    split <;> rfl

theorem State.forget_holdings (s : State) (quieting : Bool) :
    s.KeepsHoldings (s.setPresence { s.presence.forget with quieting := quieting }) := by
  refine .of_peers rfl rfl fun h => h.of_lengths (List.length_map _) fun e mem => .inl ?_
  obtain ⟨x, -, rfl⟩ := List.mem_map.1 mem
  exact List.length_replicate

theorem State.quieted_holdings (s : State) : s.KeepsHoldings s.quieted := by
  have timers : s.KeepsHoldings (s.setPresence (s.presence.quieted s.line.muted)) := by
    refine .of_peers rfl rfl fun h => h.of_lengths (List.length_map _) fun e mem => .inr ?_
    obtain ⟨x, old, rfl⟩ := List.mem_map.1 mem
    exact ⟨x, old, rfl⟩
  unfold State.quieted
  dsimp only
  split
  · exact timers.trans (.of_eq rfl rfl rfl)
  · exact timers.trans (.of_eq rfl rfl rfl)

theorem State.woken_holdings (s : State) : s.KeepsHoldings s.woken := by
  unfold State.woken
  refine .conclude (.trans (.trans (.trans ?_ (State.forget_holdings _ false))
    (State.confirmTest_holdings _)) (State.enterJoining_holdings _))
  split <;> exact .of_eq rfl rfl rfl

theorem State.silenceExpired_holdings (l : List Nat) (s : State) :
    s.KeepsHoldings (l.foldl State.silenceExpired s) := by
  refine foldl_rel .refl .trans (fun u p => ?_) l s
  exact .of_peers rfl rfl fun h => h.change rfl fun e => (congrArg List.length e.aged_reported).trans

/-! ### Host commands (chapter 9) -/

theorem State.command_holdings (s : State) (c : HostCommand) (m : Moment)
    {body : Completed → State → State} (kept : ∀ k (u : State), u.KeepsHoldings (body k u)) :
    s.KeepsHoldings (s.command c m body) :=
  State.command_inv (.refl s) c m body (fun _ p h => h.setPort p) fun k u h => h.trans (kept k u)

theorem State.takeRead_holdings (s : State) (c : HostCommand) (t : Target) (l : Lookup) :
    s.KeepsHoldings (s.takeRead c t l) := by
  unfold State.takeRead
  repeat' split
  all_goals exact .of_eq rfl rfl rfl

/-- The own number is below 16 (R156). -/
theorem State.TrackingOk.ownNumber {s : State} (h : s.TrackingOk) : s.ownNumber < 16 := by
  unfold State.ownNumber
  split
  · next e enlisted =>
    obtain ⟨below, stations⟩ := h.enlistment e enlisted
    exact below.trans_le stations
  · exact Nat.zero_lt_succ _

theorem State.takeCommit_holdings {s t : State} {a : Arrival} (own : a.origin = s.ownNumber)
    (taken : s.takeCommit a = some t) : s.KeepsHoldings t := by
  have ok (h : s.TrackingOk) : t.tracker.Ok :=
    State.takeCommit_ok h.tracker (own ▸ h.ownNumber) taken
  unfold State.takeCommit at taken
  split at taken
  · cases taken
  · cases taken
    exact .of_tracker ok rfl rfl

theorem State.submitTaken_holdings (s : State) (a : Arrival) : s.KeepsHoldings (s.submitTaken a) := by
  refine .trans ?_ (State.confirmTest_holdings _)
  exact .of_eq rfl rfl rfl

theorem State.decideSubmit_holdings (s : State) (tag : Byte) (payload : List Byte) :
    s.KeepsHoldings (s.decideSubmit tag payload) := by
  unfold State.decideSubmit
  split
  · exact .of_eq rfl rfl rfl
  · split
    · exact .of_eq rfl rfl rfl
    · next taken =>
      exact .conclude ((State.takeCommit_holdings rfl taken).trans (State.submitTaken_holdings _ _))

theorem State.releaseTo_holdings (s : State) (position : Nat) :
    s.KeepsHoldings (s.releaseTo position) := by
  unfold State.releaseTo
  repeat' split
  · exact .of_eq rfl rfl rfl
  · exact .of_eq rfl rfl rfl
  · refine .conclude (.trans ?_ ((State.queueRelease_keeps _ _).holdings (State.queueRelease_tables _ _)))
    exact .of_eq rfl rfl rfl

/-- What ENLIST's argument checks say of the number and N (R156). -/
theorem enlistmentOf_bounds {station n w rate p : Byte} {e : Enlistment}
    (named : enlistmentOf station n w rate p = some e) : e.station < e.n ∧ e.n ≤ 16 := by
  obtain ⟨r, -, -, stations, below, -, -, rfl⟩ := enlistmentOf_eq_some.1 named
  exact ⟨below, stations⟩

theorem State.enlisted_holdings (s : State) {e : Enlistment} (valid : e.station < e.n ∧ e.n ≤ 16) :
    s.KeepsHoldings (s.enlisted e) := by
  have tracked : s.KeepsHoldings
      ((s.setTracker (s.tracker.enlisted e.n)).setEnlistment (some e)) := by
    refine ⟨fun h => ?_, fun h => h.of_eq rfl⟩
    have ok := h.tracker.enlisted e.n
    refine ⟨ok.length, ok.order, ok.gaps, fun x named => ?_⟩
    cases named
    exact valid
  unfold State.enlisted
  refine .conclude (.trans (.trans tracked (State.forget_holdings _ s.presence.quieting))
    (.trans ?_ (State.enterJoining_holdings _)))
  exact .of_eq rfl rfl rfl

theorem State.formatStep_holdings (s : State) (k : Nat) : s.KeepsHoldings (s.formatStep k) := by
  unfold State.formatStep
  split <;> exact .of_eq rfl rfl rfl

theorem State.formatted_holdings (s : State) : s.KeepsHoldings s.formatted := by
  have empty {t : State} (tracker : t.tracker = Tracker.formatted)
      (enlistment : t.enlistment = s.enlistment) (presence : t.presence = s.presence) :
      s.KeepsHoldings t :=
    .of_tracker (fun _ => by rw [tracker]; exact Tracker.reset_ok) enlistment presence
  unfold State.formatted
  refine .conclude ?_
  split
  · exact empty rfl rfl rfl
  · refine .trans ?_ (State.formatStep_holdings _ 0)
    exact empty rfl rfl rfl

theorem State.reset_tracking : State.reset.TrackingOk :=
  ⟨Tracker.reset_ok.length, Tracker.reset_ok.order, Tracker.reset_ok.gaps, nofun⟩

theorem State.reset_peers : State.reset.PeersOk :=
  ⟨rfl, fun e mem => by rw [List.eq_of_mem_replicate mem]; rfl⟩

theorem State.stationReset_holdings (s : State) (cut : CutShort) :
    s.KeepsHoldings (s.stationReset cut) where
  tracking := fun _ => State.reset_tracking.mk' Tracker.reset_ok rfl
  peers := fun _ => State.reset_peers.of_eq rfl

/-! ### Frames received (chapters 4, 5 and 8) -/

theorem State.clusterSize_congr {s t : State} (enlistment : t.enlistment = s.enlistment) :
    t.clusterSize = s.clusterSize := by
  unfold State.clusterSize
  rw [enlistment]

/-- The end of a frame keeps what its hand-on keeps, the frame passing the checks of R73. -/
theorem State.hearFrame_holdings (s : State) (f : Machine.Frame) {g : State → State}
    (kept : ∀ u : State, f.fieldsGood u.clusterSize = true → u.KeepsHoldings (g u)) :
    s.KeepsHoldings (s.hearFrame f g) := by
  unfold State.hearFrame
  split
  · split
    · next handedOn =>
      rw [State.handsOn, Bool.and_eq_true] at handedOn
      exact .conclude (.trans (t := s.setFramer .gap) (.of_eq rfl rfl rfl) (kept _ handedOn.1))
    · exact .of_eq rfl rfl rfl
  · exact .refl s

theorem Frame.sender_lt {n : Nat} {f : Machine.Frame} (good : f.fieldsGood n = true) :
    f.sender.toNat < n := by
  unfold Frame.fieldsGood at good
  exact of_decide_eq_true (Bool.and_eq_true _ _ ▸ good).1

theorem State.arrive_holdings (s : State) {a : Arrival} (within : a.origin < s.clusterSize) :
    s.KeepsHoldings (s.arrive a).1 :=
  .of_tracker (fun h => State.arrive_ok h.tracker (within.trans_le h.clusterSize))
    (s.arrive_rests a).enlistment (s.arrive_presence a)

theorem State.heardArrival_holdings (s : State) (p : Nat) {a : Arrival}
    (within : a.origin < s.clusterSize) : s.KeepsHoldings ((s.hearPeer p false).arrive a).1 :=
  (s.hearPeer_holdings p false).trans (State.arrive_holdings _
    (by rw [State.clusterSize_congr (s.hearPeer_rests p false).enlistment]; exact within))

theorem State.cancelRefill_holdings (s : State) (o : Nat) (gone : Nat → Bool) :
    s.KeepsHoldings (s.cancelRefill o gone) :=
  (s.cancelRefill_keeps o gone).holdings (s.cancelRefill_tables o gone)

theorem State.takeCopy_holdings (s : State) {a : Arrival} (within : a.origin < s.clusterSize) :
    s.KeepsHoldings (s.takeCopy a) := by
  unfold State.takeCopy
  refine .trans (.trans (s.arrive_holdings within) ?_) (State.cancelRefill_holdings _ _ _)
  split
  · exact (State.narrowOrigin_keeps _ _).holdings (State.narrowOrigin_tables _ _)
  · exact .refl _

theorem State.declareGone_holdings (s : State) (o first last : Nat) :
    s.KeepsHoldings (s.declareGone o first last) :=
  have kept := s.declareGone_keeps o first last
  .of_tracker (fun h => State.declareGone_ok h.tracker o first last) kept.enlistment kept.presence

theorem State.takeGone_holdings (s : State) (origin first last : Nat) :
    s.KeepsHoldings (s.takeGone origin first last) :=
  ((s.learn_holdings origin last).trans (State.declareGone_holdings _ _ _ _)).trans
    (State.cancelRefill_holdings _ _ _)

theorem State.moveFramer_holdings (s : State) (a b : Framer) : s.KeepsHoldings (s.moveFramer a b) := by
  unfold State.moveFramer
  split <;> exact .of_eq rfl rfl rfl

/-! ### The transmitter and the timers (chapters 4 and 8) -/

theorem State.enterMuted_holdings (s : State) : s.KeepsHoldings s.enterMuted := by
  unfold State.enterMuted
  refine .trans ?_ ((State.flush_keeps _).holdings (State.flush_tables _))
  dsimp only
  split <;> exact .of_peers rfl rfl fun h => ⟨h.length, h.reported⟩

theorem State.setSlot_holdings (s : State) (i : Nat) (v : Option SeekSlot) :
    s.KeepsHoldings (s.setSlot i v) := (s.setSlot_keeps i v).holdings (s.setSlot_tables i v)

theorem declareSlot_holdings (fuel : Nat) (s : State) (i : Nat) :
    s.KeepsHoldings (declareSlot fuel s i) :=
  have kept := declareSlot_keeps fuel s i
  .of_tracker (fun h => declareSlot_ok fuel h.tracker i) kept.enlistment kept.presence

theorem State.waitedOut_holdings (s : State) (i : Nat) (sl : SeekSlot) :
    s.KeepsHoldings (s.waitedOut i sl) := by
  unfold State.waitedOut State.attempted
  repeat' split
  · exact s.setSlot_holdings _ _
  · exact s.setSlot_holdings _ _
  · exact s.setSlot_holdings _ _
  · exact (s.setSlot_holdings _ _).trans (declareSlot_holdings 17 _ _)

theorem State.changeResponder_holdings (s : State) (q o : Nat) (f : Responder → Responder) :
    s.KeepsHoldings (s.changeResponder q o f) := .of_eq rfl rfl rfl

theorem State.takeNext_holdings (s : State) (e : Responder) (l : List Nat) :
    s.KeepsHoldings (s.takeNext e l) := (s.takeNext_keeps e l).holdings (s.takeNext_tables e l)

theorem State.skipSeq_holdings (s : State) (q o seq : Nat) : s.KeepsHoldings (s.skipSeq q o seq) :=
  (s.skipSeq_keeps q o seq).holdings (s.skipSeq_tables q o seq)

/-! ### The array and mount (chapters 2, 3 and 10) -/

theorem State.offerHoles_holdings (s : State) : s.KeepsHoldings s.offerHoles :=
  .of_tracker (fun h => State.offerHoles_ok h.tracker) s.offerHoles_keeps.enlistment
    s.offerHoles_keeps.presence

theorem State.excessTest_holdings (s : State) : s.KeepsHoldings s.excessTest :=
  s.excessTest_keeps.holdings s.excessTest_tables

theorem State.trackCompletion_holdings (s : State) (j : Job) :
    s.KeepsHoldings (s.trackCompletion j) := by
  obtain ⟨t, form, -⟩ := s.trackCompletion_form j
  refine .of_tracker (fun h => State.trackCompletion_ok h.tracker j) ?_ ?_ <;> rw [form] <;> rfl

theorem State.commitHandOn_holdings (s : State) (j : Job) : s.KeepsHoldings (s.commitHandOn j) := by
  obtain ⟨q, d, r, form, -, -⟩ := s.commitHandOn_form j
  rw [form]
  exact .of_eq rfl rfl rfl

theorem State.followRelease_holdings (s : State) (body : JobBody) :
    s.KeepsHoldings (s.followRelease body) := by
  unfold State.followRelease
  repeat' split
  all_goals exact .of_eq rfl rfl rfl

theorem State.programmed_holdings (s : State) (j : Job) (rest : List Job) (p : Place) :
    s.KeepsHoldings (s.programmed j rest p) := by
  have placed : s.KeepsHoldings (s.recordPlaced j rest p) := .of_eq rfl rfl rfl
  unfold State.programmed
  exact ((((placed.trans (State.trackCompletion_holdings _ j)).trans
    (State.commitHandOn_holdings _ j)).trans (State.followRelease_holdings _ j.body)).trans
    (State.excessTest_holdings _)).trans (State.offerHoles_holdings _)

theorem State.eraseDone_holdings (s : State) (k : Nat) (outcome : EraseOutcome) :
    s.KeepsHoldings (s.eraseDone k outcome) := by
  obtain ⟨tracker, enlistment, presence⟩ : (s.eraseDone k outcome).tracker = s.tracker ∧
      (s.eraseDone k outcome).enlistment = s.enlistment ∧
      (s.eraseDone k outcome).presence = s.presence := by
    unfold State.eraseDone
    cases outcome
    all_goals dsimp only; split <;> simp [State.raise]
  exact .of_eq tracker enlistment presence

theorem State.afterErase_holdings (s : State) (wasFull : Bool) :
    s.KeepsHoldings (s.afterErase wasFull) := by
  unfold State.afterErase
  repeat' split
  · exact s.formatStep_holdings _
  · exact s.excessTest_holdings.trans (State.offerHoles_holdings _)
  · exact .refl s

theorem State.mountDone_holdings (s : State) (c : Scan) : s.KeepsHoldings (s.mountDone c) :=
  .conclude (.of_tracker (fun _ => mountTracker_ok _ _) rfl rfl)

theorem State.nextExtent_holdings (s : State) (c : Scan) : s.KeepsHoldings (s.nextExtent c) := by
  unfold State.nextExtent
  split
  · exact s.mountDone_holdings c
  · exact .of_eq rfl rfl rfl

theorem State.nextBlankCheck_holdings (s : State) (c : Scan) :
    s.KeepsHoldings (s.nextBlankCheck c) := by
  unfold State.nextBlankCheck
  split
  · exact .of_eq rfl rfl rfl
  · exact s.nextExtent_holdings _

theorem State.headerRead_holdings (s : State) (c : Scan) (k : Nat) :
    s.KeepsHoldings (s.headerRead c k) := by
  unfold State.headerRead
  dsimp only
  split
  · exact .of_eq rfl rfl rfl
  · exact s.nextBlankCheck_holdings _

theorem State.pageRead_holdings (s : State) (c : Scan) (x : Extent) (page : Nat) :
    s.KeepsHoldings (s.pageRead c x page) := by
  unfold State.pageRead
  dsimp only
  split
  · exact .of_eq rfl rfl rfl
  · exact s.nextExtent_holdings _

/-! ### Every command -/

/-- The next state of a command keeps the order of the holdings and the peer table's shape. -/
def State.NextHolds (s : State) (i : Instr) : Prop := ∃ t, exec i s = .next t ∧ s.KeepsHoldings t

section Commands

variable (s : State)

theorem execEnlist_holdings (station n w rate p : Byte) (m : Moment) :
    s.NextHolds (.enlist station n w rate p m) := by
  refine ⟨_, rfl, s.command_holdings .enlist m fun _ u => ?_⟩
  split
  · next named => exact u.enlisted_holdings (enlistmentOf_bounds named)
  · exact .of_eq rfl rfl rfl

theorem execFormat_holdings (m : Moment) : s.NextHolds (.format m) := by
  refine ⟨_, rfl, s.command_holdings .format m fun _ u => ?_⟩
  split
  · exact .of_eq rfl rfl rfl
  · exact .of_eq rfl rfl rfl
  · exact u.formatted_holdings

theorem execUnknownCode_holdings (code : Byte) (m : Moment) : s.NextHolds (.unknownCode code m) := by
  refine ⟨_, rfl, ?_⟩
  split
  · exact .refl s
  · refine State.select_inv (.refl s) m _ _ _ (fun _ p h => h.setPort p) fun _ u h => h.trans ?_
    unfold State.refuseUnknown
    split
    all_goals exact .of_eq rfl rfl rfl

theorem execBreakComplete_holdings : s.NextHolds .breakComplete := by
  refine ⟨_, rfl, ?_⟩
  have broken : s.KeepsHoldings (s.setTransmitter .idle).leaveBroken :=
    .trans (t := s.setTransmitter .idle) (.of_eq rfl rfl rfl) (State.moveFramer_holdings _ _ _)
  split
  · dsimp only
    split
    · exact broken.trans (State.enterMuted_holdings _)
    · exact broken
  · exact .refl s

theorem execRefillSendCompletion_holdings : s.NextHolds .refillSendCompletion := by
  refine ⟨_, rfl, ?_⟩
  have sent : s.KeepsHoldings s.frameSent := .of_eq rfl rfl rfl
  split
  · dsimp only
    repeat' split
    · exact .conclude (sent.trans ((State.copySent_keeps _ _ _ _).holdings
        (State.copySent_tables _ _ _ _)))
    · exact .conclude (sent.trans ((State.goneSent_keeps _ _ _).holdings (State.goneSent_tables _ _ _)))
    · exact sent
  · exact .refl s

/-- A vector sent changes HELD-due flags alone (R94). -/
theorem State.reportsSent_holdings (v : List Word) :
    s.KeepsHoldings (s.frameSent.setTracker (s.frameSent.tracker.reportsSent 0 v)) :=
  .of_tracker (fun h => h.tracker.reportsSent 0 v) rfl rfl

theorem execPresenceSendCompletion_holdings : s.NextHolds .presenceSendCompletion := by
  refine ⟨_, rfl, ?_⟩
  split
  · dsimp only
    split
    · exact (s.reportsSent_holdings _).trans (.of_peers rfl rfl fun h => ⟨h.length, h.reported⟩)
    · exact s.reportsSent_holdings _
  · exact .refl s

theorem execQuietingPresenceSendCompletion_holdings :
    s.NextHolds .quietingPresenceSendCompletion := by
  refine ⟨_, rfl, ?_⟩
  split
  · dsimp only
    split
    · exact (s.reportsSent_holdings _).trans (.of_peers rfl rfl fun h => ⟨h.length, h.reported⟩)
    · exact s.reportsSent_holdings _
  · exact .refl s

theorem execRecordProgramCompletion_holdings (outcome : ProgramOutcome) :
    s.NextHolds (.recordProgramCompletion outcome) := by
  refine ⟨_, rfl, ?_⟩
  split
  · split
    · exact .conclude (.trans (t := s.arrayIdle) (.of_eq rfl rfl rfl) (State.programmed_holdings _ _ _ _))
    · rw [State.recordFailed_eq]
      exact .conclude (.of_eq rfl rfl rfl)
  · exact .refl s

theorem execHeaderProgramCompletion_holdings (outcome : ProgramOutcome) :
    s.NextHolds (.headerProgramCompletion outcome) := by
  refine ⟨_, rfl, ?_⟩
  split
  · split
    · refine .conclude ?_
      unfold State.headerWritten
      split <;> exact .of_eq rfl rfl rfl
    · exact .conclude (.of_eq rfl rfl rfl)
  · exact .refl s

theorem execHostReadCompletion_holdings (flaw : Option (List Byte)) :
    s.NextHolds (.hostReadCompletion flaw) := by
  refine ⟨_, rfl, ?_⟩
  split
  · refine .conclude ?_
    unfold State.hostReadDone
    split <;> exact .of_eq rfl rfl rfl
  · exact .refl s

theorem execFetchCompletion_holdings (flaw : Option (List Byte)) :
    s.NextHolds (.fetchCompletion flaw) := by
  refine ⟨_, rfl, ?_⟩
  have idle : s.KeepsHoldings s.arrayIdle := .of_eq rfl rfl rfl
  split
  · refine .conclude ?_
    unfold State.fetchDone State.fetchDropped
    repeat' split
    · exact .of_eq rfl rfl rfl
    · exact idle.trans (State.skipSeq_holdings _ _ _ _)
    · exact idle.trans (State.takeNext_holdings _ _ _)
    all_goals exact idle
  · exact .refl s

theorem execBlankCheckCompletion_holdings : s.NextHolds .blankCheckCompletion := by
  refine ⟨_, rfl, ?_⟩
  split
  · split
    · exact s.nextBlankCheck_holdings _
    · exact .refl s
    · exact .refl s
  · exact .refl s

theorem execMountReadCompletion_holdings : s.NextHolds .mountReadCompletion := by
  refine ⟨_, rfl, ?_⟩
  split
  · split
    · exact s.headerRead_holdings _ _
    · exact s.pageRead_holdings _ _ _
    · exact .refl s
  · exact .refl s

theorem execEraseCompletion_holdings (outcome : EraseOutcome) :
    s.NextHolds (.eraseCompletion outcome) := by
  refine ⟨_, rfl, ?_⟩
  have ended : s.KeepsHoldings s.eraseEnded := .of_eq rfl rfl rfl
  split
  · exact .conclude ((ended.trans (State.eraseDone_holdings _ _ _)).trans
      (State.afterErase_holdings _ _))
  · exact .refl s

theorem execResumeMinimumReached_holdings : s.NextHolds .resumeMinimumReached := by
  refine ⟨_, rfl, ?_⟩
  repeat' split
  · exact .refl s
  · refine .trans ?_ ((State.checkSuspend_keeps _).holdings (State.checkSuspend_tables _))
    exact .of_eq rfl rfl rfl
  · exact .refl s

/-- Every command keeps the order of the holdings, the bound of the gap table and the peer table's
shape. -/
theorem exec_holdings (i : Instr) : s.NextHolds i := by
  cases i with
  | stationReset cut => exact ⟨_, rfl, s.stationReset_holdings cut⟩
  | status m => exact ⟨_, rfl, s.command_holdings .status m fun _ _ => .of_eq rfl rfl rfl⟩
  | result m => exact ⟨_, rfl, s.command_holdings .result m fun _ u => .refl u⟩
  | readBuffer m => exact ⟨_, rfl, s.command_holdings .readBuffer m fun _ u => .refl u⟩
  | nextNotice m =>
    exact ⟨_, rfl, s.command_holdings .nextNotice m fun _ _ => by split <;> exact .of_eq rfl rfl rfl⟩
  | readPosition p m =>
    exact ⟨_, rfl, s.command_holdings .readPosition m fun _ u => (u.takeRead_holdings _ _ _).conclude⟩
  | readRecord o seq m =>
    exact ⟨_, rfl, s.command_holdings .readRecord m fun _ u => (u.takeRead_holdings _ _ _).conclude⟩
  | submit tag payload m =>
    exact ⟨_, rfl, s.command_holdings .submit m fun _ u => u.decideSubmit_holdings _ _⟩
  | release p m => exact ⟨_, rfl, s.command_holdings .release m fun _ u => u.releaseTo_holdings _⟩
  | enlist station n w rate p m => exact execEnlist_holdings s station n w rate p m
  | format m => exact execFormat_holdings s m
  | quiet m =>
    refine ⟨_, rfl, s.command_holdings .quiet m fun _ u => ?_⟩
    split
    · exact u.quieted_holdings
    · exact .of_eq rfl rfl rfl
  | wake m => exact ⟨_, rfl, s.command_holdings .wake m fun _ u => u.woken_holdings⟩
  | lineResume m => exact ⟨_, rfl, s.command_holdings .lineResume m fun _ _ => .of_eq rfl rfl rfl⟩
  | reset cut m => exact ⟨_, rfl, s.command_holdings .reset m fun _ u => u.stationReset_holdings cut⟩
  | unknownCode code m => exact execUnknownCode_holdings s code m
  | commandDiscarded how => exact ⟨_, rfl, by (repeat' split) <;> exact .of_eq rfl rfl rfl⟩
  | hold asserted => exact ⟨_, rfl, .of_eq rfl rfl rfl⟩
  | heldFrame sender origin value =>
    exact ⟨_, rfl, s.hearFrame_holdings _ fun u _ => u.takeHeld_holdings _ _ _⟩
  | presenceFrame sender joining full vector =>
    exact ⟨_, rfl, s.hearFrame_holdings _ fun u _ => u.takePresence_holdings _ _ _ _⟩
  | quietingPresenceFrame sender full vector =>
    exact ⟨_, rfl, s.hearFrame_holdings _ fun u _ => u.takePresence_holdings _ _ _ _⟩
  | appendFrame sender seq tag payload check =>
    exact ⟨_, rfl, s.hearFrame_holdings _ fun u good =>
      u.heardArrival_holdings _ (Frame.sender_lt good)⟩
  | refillCopyFrame sender requester origin seq tag payload check =>
    refine ⟨_, rfl, s.hearFrame_holdings _ fun u good => ?_⟩
    have heard := u.hearPeer_rests sender.toNat false
    refine (u.hearPeer_holdings _ false).trans (State.takeCopy_holdings _ ?_)
    rw [State.clusterSize_congr heard.enlistment]
    simp only [Frame.fieldsGood, Bool.and_eq_true, decide_eq_true_eq] at good
    obtain ⟨-, ⟨⟨⟨⟨-, within⟩, -⟩, -⟩, -⟩, -⟩ := good
    exact within
  | refillGoneFrame sender requester origin first last =>
    exact ⟨_, rfl, s.hearFrame_holdings _ fun u _ =>
      (u.hearPeer_holdings _ false).trans (State.takeGone_holdings _ _ _ _)⟩
  | seekFrame sender origin first last =>
    refine ⟨_, rfl, s.hearFrame_holdings _ fun u _ => ?_⟩
    have follow (v : State) (o a b : Nat) : v.KeepsHoldings (v.followSeek o a b) := .of_eq rfl rfl rfl
    exact ((u.hearPeer_holdings _ false).trans (follow _ _ _ _)).trans
      ((State.answerSeek_keeps _ _ _ _ _).holdings (State.answerSeek_tables _ _ _ _ _))
  | frameDiscarded bytes => exact ⟨_, rfl, by split <;> exact .of_eq rfl rfl rfl⟩
  | separatorDominant => exact ⟨_, rfl, s.moveFramer_holdings _ _⟩
  | dominantRunEnd => exact ⟨_, rfl, s.moveFramer_holdings _ _⟩
  | gapEnd => exact ⟨_, rfl, s.moveFramer_holdings _ _⟩
  | huntIdleRun => exact ⟨_, rfl, s.moveFramer_holdings _ _⟩
  | startBitSeen => exact ⟨_, rfl, s.moveFramer_holdings _ _⟩
  | dominantBitInGap => exact ⟨_, rfl, s.moveFramer_holdings _ _⟩
  | frameStart => exact ⟨_, rfl, by (repeat' split) <;> exact .of_eq rfl rfl rfl⟩
  | arbitrationLoss => exact ⟨_, rfl, by split <;> exact .of_eq rfl rfl rfl⟩
  | transmitFailure => exact ⟨_, rfl, by split <;> exact .of_eq rfl rfl rfl⟩
  | breakComplete => exact execBreakComplete_holdings s
  | heldSendCompletion =>
    refine ⟨_, rfl, ?_⟩
    split
    · exact .of_tracker (fun h => h.tracker.reportSent _ _) rfl rfl
    · exact .refl s
  | appendSendCompletion =>
    refine ⟨_, rfl, ?_⟩
    split
    · rw [State.appendSent_eq]
      exact .conclude (.of_eq rfl rfl rfl)
    · exact .refl s
  | refillSendCompletion => exact execRefillSendCompletion_holdings s
  | seekSendCompletion => exact ⟨_, rfl, by dsimp only; (repeat' split) <;> exact .of_eq rfl rfl rfl⟩
  | presenceSendCompletion => exact execPresenceSendCompletion_holdings s
  | quietingPresenceSendCompletion => exact execQuietingPresenceSendCompletion_holdings s
  | presenceTimerExpiry =>
    refine ⟨_, rfl, ?_⟩
    split
    · exact .of_peers rfl rfl fun h => ⟨h.length, h.reported⟩
    · exact .refl s
  | silenceTimerExpiry peers =>
    refine ⟨_, rfl, ?_⟩
    split
    · exact .refl s
    · exact (State.silenceExpired_holdings _ s).conclude
  | joiningEnd =>
    refine ⟨_, rfl, ?_⟩
    split
    · exact .conclude (.of_peers rfl rfl fun h => ⟨h.length, h.reported⟩)
    · exact .refl s
  | confirmationWaitExpiry seq =>
    refine ⟨_, rfl, ?_⟩
    repeat' split
    · refine .conclude ?_
      unfold State.unanswered
      split <;> exact .of_eq rfl rfl rfl
    · exact .refl s
    · exact .refl s
  | repairWaitExpiry slot =>
    refine ⟨_, rfl, ?_⟩
    repeat' split
    · exact (s.waitedOut_holdings _ _).conclude
    · exact .refl s
    · exact .refl s
  | deferExpiry requester origin =>
    refine ⟨_, rfl, ?_⟩
    repeat' split
    · refine .conclude ?_
      unfold State.deferred
      split
      · exact s.changeResponder_holdings _ _ _
      · exact s.takeNext_holdings _ _
    · exact .refl s
    · exact .refl s
  | recordProgramCompletion outcome => exact execRecordProgramCompletion_holdings s outcome
  | headerProgramCompletion outcome => exact execHeaderProgramCompletion_holdings s outcome
  | hostReadCompletion flaw => exact execHostReadCompletion_holdings s flaw
  | fetchCompletion flaw => exact execFetchCompletion_holdings s flaw
  | blankCheckCompletion => exact execBlankCheckCompletion_holdings s
  | mountReadCompletion => exact execMountReadCompletion_holdings s
  | eraseCompletion outcome => exact execEraseCompletion_holdings s outcome
  | resumeMinimumReached => exact execResumeMinimumReached_holdings s
  | suspensionCompletion =>
    refine ⟨_, rfl, ?_⟩
    split
    · exact .conclude (.of_eq rfl rfl rfl)
    · exact .refl s

end Commands

end Sys2Proof.Machine

namespace Sys2Proof

open Machine

/-- Settles O55: by command, each operation on the holdings, the gap table or the peer table keeping
their order and shape. -/
theorem stepKeepsHoldings : Obligations.StepKeepsHoldings := by
  intro s t stepped
  have kept : s.KeepsHoldings t := by
    unfold Machine.step at stepped
    split at stepped
    · obtain rfl := Host.Outcome.next.inj stepped
      exact .refl s
    · next c rest _ =>
      exact .trans (t := s.setPending rest) (.of_eq rfl rfl rfl)
        (next_unique (exec_holdings _ c) stepped)
  exact ⟨kept.tracking, kept.peers⟩

end Sys2Proof

/-! ## The state after reset -/

namespace Sys2Proof

open Machine

/-- Settles O52: invariant by invariant, of tables that are empty or zero. -/
theorem resetMeetsInvariants : Obligations.ResetMeetsInvariants :=
  ⟨State.reset_limits, ⟨Nat.zero_le _, Nat.zero_le _, Nat.zero_le _⟩, State.reset_tracking,
    State.reset_peers, nofun, reset_flash_wf⟩

end Sys2Proof

/-! ## Held-through after a completion (R91) -/

namespace Sys2Proof.Machine

theorem Pending.run_contains (p : Pending) (o seq : Nat) :
    p.run.contains o seq = (p.coversHole o seq || p.isData o seq) := by
  rw [Bool.eq_iff_iff, Run.contains_iff]
  cases p with
  | hole origin first last => simp [Pending.run, Pending.coversHole, Pending.isData, and_assoc]
  | data origin s check mark =>
    simp only [Pending.run, Pending.coversHole, Pending.isData, Bool.false_or, Bool.and_eq_true,
      decide_eq_true_eq]
    exact and_congr_right fun _ => by omega

/-- What a blocker of an origin holds: what lies in a gap entry or an excess run, or is pending. -/
theorem Tracker.blockers_contain (t : Tracker) (o seq : Nat) :
    (∃ r ∈ t.blockers o, r.contains o seq = true) ↔ t.gaps.any (·.contains o seq) = true ∨
      t.excess.any (·.contains o seq) = true ∨ t.pending.any (·.coversHole o seq) = true ∨
      t.pending.any (·.isData o seq) = true := by
  have own (r : Run) (holds : r.contains o seq = true) : r.origin = o := (Run.contains_iff.1 holds).1
  have pending : (∃ p ∈ t.pending, p.run.contains o seq = true) ↔
      t.pending.any (·.coversHole o seq) = true ∨ t.pending.any (·.isData o seq) = true := by
    simp only [Pending.run_contains, Bool.or_eq_true, List.any_eq_true, and_or_left, exists_or]
  rw [← pending, List.any_eq_true, List.any_eq_true]
  simp only [Tracker.blockers, List.mem_filter, List.mem_append, List.mem_map, decide_eq_true_eq]
  constructor
  · rintro ⟨r, ⟨(mem | mem) | ⟨p, mem, rfl⟩, -⟩, holds⟩
    · exact .inl ⟨r, mem, holds⟩
    · exact .inr (.inl ⟨r, mem, holds⟩)
    · exact .inr (.inr ⟨p, mem, holds⟩)
  · rintro (⟨r, mem, holds⟩ | ⟨r, mem, holds⟩ | ⟨p, mem, holds⟩)
    · exact ⟨r, ⟨.inl (.inl mem), own r holds⟩, holds⟩
    · exact ⟨r, ⟨.inl (.inr mem), own r holds⟩, holds⟩
    · exact ⟨p.run, ⟨.inr ⟨p, mem, rfl⟩, own _ holds⟩, holds⟩

/-- The limit that the blockers set: below each that ends above held-through, and met by one unless it
is highest accepted. -/
theorem Tracker.advanced_limit (t : Tracker) (o : Nat) : ∃ limit,
    t.advanced o = max (t.holding o).through limit ∧ limit ≤ (t.holding o).accepted ∧
    (∀ r ∈ t.blockers o, (t.holding o).through < r.last →
      limit ≤ max ((t.holding o).through + 1) r.first - 1) ∧
    (limit = (t.holding o).accepted ∨ ∃ r ∈ t.blockers o, (t.holding o).through < r.last ∧
      limit = max ((t.holding o).through + 1) r.first - 1) := by
  refine ⟨_, rfl, ?_⟩
  simp only [List.foldl_filter, decide_eq_true_eq]
  exact foldl_limit (fun r : Run => (t.holding o).through < r.last) _ (t.blockers o) _

/-- A blocker of well-formed tables has a seq. -/
theorem Tracker.blockers_range {t : Tracker} {o : Nat} (gaps : ∀ r ∈ t.gaps, r.first ≤ r.last)
    (excess : ∀ r ∈ t.excess, r.first ≤ r.last)
    (holes : ∀ a b c, .hole a b c ∈ t.pending → b ≤ c) :
    ∀ r ∈ t.blockers o, r.origin = o ∧ r.first ≤ r.last := by
  intro r mem
  simp only [Tracker.blockers, List.mem_filter, List.mem_append, List.mem_map,
    decide_eq_true_eq] at mem
  obtain ⟨(mem | mem) | ⟨p, mem, rfl⟩, origin⟩ := mem
  · exact ⟨origin, gaps r mem⟩
  · exact ⟨origin, excess r mem⟩
  · cases p with
    | data => exact ⟨origin, le_rfl⟩
    | hole a b c => exact ⟨origin, holes a b c mem⟩

end Sys2Proof.Machine

namespace Sys2Proof

open Machine

/-- Settles O49: the limit lies below every blocker passed, and is the front of one when it stops. -/
theorem heldThroughAdvances : Obligations.HeldThroughAdvances := by
  intro t o order gaps excess holes
  obtain ⟨limit, advanced, -, below, met⟩ := t.advanced_limit o
  refine ⟨by rw [advanced]; exact Nat.le_max_left _ _, Tracker.advanced_le order,
    fun seq above passed lacking => ?_, fun stops => ?_⟩
  · obtain ⟨r, mem, holds⟩ := (t.blockers_contain o seq).2 lacking
    obtain ⟨-, low, high⟩ := Run.contains_iff.1 holds
    have bound := below r mem (above.trans_le high)
    clear met
    omega
  · refine (t.blockers_contain o _).1 ?_
    obtain met | ⟨r, mem, ends, met⟩ := met
    · omega
    · obtain ⟨origin, range⟩ := Tracker.blockers_range gaps excess holes r mem
      exact ⟨r, mem, Run.contains_iff.2 ⟨origin, by omega, by omega⟩⟩

end Sys2Proof

/-! ## The gap table after an acceptance (R84, R88, R89) -/

namespace Sys2Proof.Machine

theorem insertRun_perm (r : Run) (l : List Run) : (insertRun r l).Perm (r :: l) := by
  induction l with
  | nil => exact .refl _
  | cons a l ih =>
    unfold insertRun
    split
    · exact .refl _
    · exact (ih.cons a).trans (.swap r a l)

/-- A cut leaves what other origins' runs hold. -/
theorem any_cutRuns_other (runs : List Run) {o p : Nat} (other : p ≠ o) (first last seq : Nat) :
    (∃ x ∈ cutRuns runs o first last, x.contains p seq = true) ↔
      ∃ x ∈ runs, x.contains p seq = true := by
  have whole (r : Run) (origin : r.origin = p) : r.cut o first last = [r] :=
    if_neg fun meets => other (origin.symm.trans meets.1)
  rw [cutRuns_eq]
  constructor
  · rintro ⟨x, mem, holds⟩
    obtain ⟨r, hr, piece⟩ := List.mem_flatMap.1 mem
    have origin : r.origin = p := by
      rw [← (Run.contains_iff.1 holds).1]
      rcases Run.mem_cut.1 piece with ⟨-, rfl⟩ | ⟨-, ⟨-, rfl⟩ | ⟨-, rfl⟩⟩ <;> rfl
    rw [whole r origin, List.mem_singleton] at piece
    exact ⟨r, hr, piece ▸ holds⟩
  · rintro ⟨r, hr, holds⟩
    refine ⟨r, List.mem_flatMap.2 ⟨r, hr, ?_⟩, holds⟩
    rw [whole r (Run.contains_iff.1 holds).1]
    exact List.mem_singleton_self r

/-- One seq cut from a run in which it does not lie strictly leaves one piece at most. -/
theorem Run.cut_one_length {r : Run} {o seq : Nat}
    (edge : r.origin = o → ¬ (r.first < seq ∧ seq < r.last)) : (r.cut o seq seq).length ≤ 1 := by
  unfold Run.cut
  split
  · next meets =>
    have := edge meets.1
    by_cases below : r.first < seq
    · rw [if_pos below, if_neg (by omega)]
      exact le_rfl
    · rw [if_neg below]
      split <;> simp
  · exact le_rfl

theorem cutRuns_length_le {runs : List Run} {o seq : Nat}
    (edge : ∀ r ∈ runs, r.origin = o → ¬ (r.first < seq ∧ seq < r.last)) :
    (cutRuns runs o seq seq).length ≤ runs.length := by
  rw [cutRuns_eq]
  induction runs with
  | nil => exact le_rfl
  | cons r runs ih =>
    rw [List.flatMap_cons, List.length_append, List.length_cons, Nat.add_comm]
    exact Nat.add_le_add (ih fun x mem => edge x (List.mem_cons_of_mem _ mem))
      (Run.cut_one_length (edge r List.mem_cons_self))

/-- Runs that do not hold a seq are left by its cut. -/
theorem cutRuns_absent {runs : List Run} {o seq : Nat} (absent : ∀ r ∈ runs, r.contains o seq = false) :
    cutRuns runs o seq seq = runs := by
  have whole : ∀ r ∈ runs, r.cut o seq seq = [r] := fun r mem => if_neg fun meets => by
    have holds : r.contains o seq = true := Run.contains_iff.2 meets
    rw [absent r mem] at holds
    exact Bool.false_ne_true holds
  rw [cutRuns_eq, List.flatMap_congr whole, List.flatMap_singleton']

/-- A seq cut from inside a run splits it in its place. -/
theorem cutRuns_split {before after : List Run} {r : Run} {seq : Nat} (low : r.first < seq)
    (high : seq < r.last) (absent : ∀ x ∈ before ++ after, x.contains r.origin seq = false) :
    cutRuns (before ++ r :: after) r.origin seq seq =
      before ++ [⟨r.origin, r.first, seq - 1⟩, ⟨r.origin, seq + 1, r.last⟩] ++ after := by
  have split : cutRuns [r] r.origin seq seq =
      [⟨r.origin, r.first, seq - 1⟩, ⟨r.origin, seq + 1, r.last⟩] := by
    simp [cutRuns, low.le, high.le, low, high]
  have parts : cutRuns (before ++ r :: after) r.origin seq seq =
      cutRuns before r.origin seq seq ++ cutRuns [r] r.origin seq seq ++
        cutRuns after r.origin seq seq := by
    simp [cutRuns_eq]
  rw [parts, split, cutRuns_absent fun x mem => absent x (List.mem_append_left _ mem),
    cutRuns_absent fun x mem => absent x (List.mem_append_right _ mem)]

section Acceptance

variable {t : Tracker} {o seq : Nat}

/-- The seq after highest accepted leaves the gap table (R88). -/
theorem Tracker.gapsAfter_next (next : seq = (t.holding o).accepted + 1) :
    t.gapsAfter o seq = some t.gaps := by
  unfold Tracker.gapsAfter
  dsimp only
  rw [if_pos next, if_pos (Nat.le_max_right _ _)]

/-- A later seq adds the entry of those between, where there is room (R88). -/
theorem Tracker.gapsAfter_above (above : (t.holding o).accepted + 1 < seq) :
    t.gapsAfter o seq = if t.gaps.length + 1 ≤ max 32 t.gaps.length then
      some (insertRun ⟨o, (t.holding o).accepted + 1, seq - 1⟩ t.gaps) else none := by
  unfold Tracker.gapsAfter
  dsimp only
  rw [if_neg above.ne', if_pos (Nat.lt_of_succ_lt above), (insertRun_perm _ _).length_eq]
  rfl

/-- A seq at or below highest accepted is cut from its entry, where there is room (R89). -/
theorem Tracker.gapsAfter_fill (below : seq ≤ (t.holding o).accepted) :
    t.gapsAfter o seq = if (cutRuns t.gaps o seq seq).length ≤ max 32 t.gaps.length then
      some (cutRuns t.gaps o seq seq) else none := by
  unfold Tracker.gapsAfter
  dsimp only
  rw [if_neg (Nat.lt_succ_of_le below).ne, if_neg (Nat.not_lt_of_le below)]

theorem Tracker.gapsAfter_fill_holds (below : seq ≤ (t.holding o).accepted) {gaps : List Run}
    (room : t.gapsAfter o seq = some gaps) (p x : Nat) :
    gaps.any (·.contains p x) = true ↔
      t.gaps.any (·.contains p x) = true ∧ ¬ (p = o ∧ x = seq) := by
  have cut : gaps = cutRuns t.gaps o seq seq := by
    rw [Tracker.gapsAfter_fill below] at room
    split at room
    · exact (Option.some.inj room).symm
    · cases room
  rw [cut, List.any_eq_true, List.any_eq_true]
  by_cases own : p = o
  · rw [own, any_cutRuns]
    refine and_congr_right fun _ => not_congr ?_
    omega
  · rw [any_cutRuns_other _ own]
    exact (and_iff_left fun both => own both.1).symm

end Acceptance

end Sys2Proof.Machine

namespace Sys2Proof

open Machine

/-- Settles O22: by where the seq lies, after highest accepted, beyond it or at or below it. -/
theorem gapsAfterAcceptance : Obligations.GapsAfterAcceptance := by
  intro t o seq size _
  refine ⟨Tracker.gapsAfter_next, fun above room =>
    ⟨insertRun _ t.gaps, ?_, insertRun_perm _ _⟩, fun above full => ?_,
    fun below gaps room => Tracker.gapsAfter_fill_holds below room, fun below edge => ⟨cutRuns t.gaps o seq seq, ?_⟩,
    fun before after r table below origin low high absent => ?_⟩
  · rw [Tracker.gapsAfter_above above, if_pos (by omega)]
  · rw [Tracker.gapsAfter_above above, if_neg (by omega)]
  · rw [Tracker.gapsAfter_fill below, if_pos ((cutRuns_length_le edge).trans (Nat.le_max_right _ _))]
  · subst origin
    rw [Tracker.gapsAfter_fill below, table, cutRuns_split low high absent, ← table]
    have length : (before ++ [(⟨r.origin, r.first, seq - 1⟩ : Run), ⟨r.origin, seq + 1, r.last⟩]
        ++ after).length = t.gaps.length + 1 := by
      rw [table]
      simp only [List.length_append, List.length_cons, List.length_nil]
      omega
    rw [length]
    exact ⟨fun room => if_pos (by omega), fun full => if_neg (by omega)⟩

end Sys2Proof

/-! ## Arriving records that are dropped (R86 to R88, R92) -/

namespace Sys2Proof.Machine

/-! ### The divergence mark (R87) -/

theorem Tracker.pendingData_cons (t : Tracker) (o seq : Nat) (p : Pending) (l : List Pending) :
    ({ t with pending := p :: l } : Tracker).pendingData o seq =
      match p with
      | .data origin s check mark => if origin = o ∧ s = seq then some (check, mark)
          else ({ t with pending := l } : Tracker).pendingData o seq
      | .hole .. => ({ t with pending := l } : Tracker).pendingData o seq := by
  unfold Tracker.pendingData
  rw [List.findSome?_cons]
  cases p with
  | hole => rfl
  | data origin s check mark =>
    by_cases same : origin = o ∧ s = seq
    · simp only [if_pos same]
    · simp only [if_neg same]

/-- The divergence mark set in a pending entry of a seq, as Tracker.setMark sets it. -/
def Pending.marked (o seq : Nat) : Pending → Pending
  | .data origin s check mark =>
    if origin = o ∧ s = seq then .data origin s check true else .data origin s check mark
  | p => p

theorem Tracker.pendingData_marked (t : Tracker) (o seq : Nat) (l : List Pending) :
    ({ t with pending := l.map (Pending.marked o seq) } : Tracker).pendingData o seq =
      (({ t with pending := l } : Tracker).pendingData o seq).map fun d => (d.1, true) := by
  induction l with
  | nil => rfl
  | cons p l ih =>
    rw [List.map_cons, Tracker.pendingData_cons, Tracker.pendingData_cons]
    cases p with
    | hole => exact ih
    | data origin s check mark =>
      by_cases same : origin = o ∧ s = seq
      · simp [Pending.marked, same]
      · simp only [Pending.marked, if_neg same]
        exact ih

theorem Tracker.setMark_pending {t : Tracker} {o seq : Nat} {d : Word × Bool}
    (pending : t.pendingData o seq = some d) :
    t.setMark o seq = { t with pending := t.pending.map (Pending.marked o seq) } := by
  unfold Tracker.setMark
  rw [pending]
  refine congrArg (fun l => { t with pending := l }) (List.map_congr_left fun p _ => ?_)
  cases p <;> rfl

theorem Tracker.setMark_index {t : Tracker} {o seq : Nat} (unpending : t.pendingData o seq = none) :
    t.setMark o seq = { t with index := t.index.map fun e =>
      if e.origin = o ∧ e.seq = seq then { e with mark := true } else e } := by
  rw [Tracker.setMark, unpending]

/-- A mark that an entry carries is set by setMark. -/
theorem Tracker.setMark_markOf {t : Tracker} {o seq : Nat} {mark : Bool}
    (carried : t.markOf o seq = some mark) : (t.setMark o seq).markOf o seq = some true := by
  cases pending : t.pendingData o seq with
  | some d =>
    have marked : (t.setMark o seq).pendingData o seq = some (d.1, true) := by
      rw [Tracker.setMark_pending pending, Tracker.pendingData_marked]
      exact congrArg _ pending
    rw [Tracker.markOf, marked]
  | none =>
    rw [Tracker.markOf, pending] at carried
    obtain ⟨e, found, -⟩ := Option.map_eq_some_iff.1 carried
    have found : t.index.find? (fun e => decide (e.origin = o) && decide (e.seq = seq)) = some e := found
    have at_seq := List.find?_some found
    simp only [Bool.and_eq_true, decide_eq_true_eq] at at_seq
    have unpending : (t.setMark o seq).pendingData o seq = none := by
      rw [Tracker.setMark_index pending]
      exact pending
    have indexed : (t.setMark o seq).indexed o seq = some { e with mark := true } := by
      rw [Tracker.setMark_index pending, Tracker.indexed, List.find?_map]
      have same : ((fun e : IndexEntry => decide (e.origin = o) && decide (e.seq = seq)) ∘
          fun e => if e.origin = o ∧ e.seq = seq then { e with mark := true } else e) =
          fun e => decide (e.origin = o) && decide (e.seq = seq) := by
        funext x
        dsimp only [Function.comp]
        split <;> rfl
      rw [same, found, Option.map_some, if_pos at_seq]
    rw [Tracker.markOf, unpending, indexed]
    rfl

section Marks

variable {s : State} {o seq : Nat} (sender : Nat)

theorem State.markDivergent_clear (clear : s.tracker.markOf o seq = some false) :
    s.markDivergent o seq sender = (s.setTracker (s.tracker.setMark o seq)).divergent o seq sender := by
  rw [State.markDivergent, clear]

theorem State.markDivergent_set (set : s.tracker.markOf o seq = some true) :
    s.markDivergent o seq sender = s := by
  rw [State.markDivergent, set]

theorem State.markDivergent_none (none : s.tracker.markOf o seq = .none) :
    s.markDivergent o seq sender = s.raise .streamTracker (.divergent o seq sender) := by
  rw [State.markDivergent, none]
  rfl

end Marks

/-! ### The fates (R86 to R88, R92) -/

section Fates

variable {s : State} {a : Arrival}

theorem State.arrive_clash (append : a.refill = false) (clash : s.isOwn a.sender = true) :
    s.arrive a = (s.markDivergent a.origin a.seq a.sender, false) := by
  unfold State.arrive
  rw [if_pos (by rw [append, clash]; rfl)]

/-- A record that is no clash is learned, and then dropped as an own seq not yet given, or decided. -/
theorem State.arrive_learned (heard : a.refill = true ∨ s.isOwn a.sender = false) :
    s.arrive a = if s.isOwn a.origin && decide (s.mode = .active) && s.submission.beyondNext a.seq then
      ((s.learn a.origin a.seq).divergent a.origin a.seq a.sender, false)
    else (s.learn a.origin a.seq).decideArrival a := by
  unfold State.arrive
  rw [if_neg]
  obtain refill | other := heard
  · rw [refill]
    exact Bool.false_ne_true
  · rw [other, Bool.and_false]
    exact Bool.false_ne_true

theorem State.arrive_decided (heard : a.refill = true ∨ s.isOwn a.sender = false)
    (placed : s.isOwn a.origin = false ∨ s.mode ≠ .active) :
    s.arrive a = (s.learn a.origin a.seq).decideArrival a := by
  rw [State.arrive_learned heard, if_neg]
  obtain other | inactive := placed
  · rw [other]
    exact Bool.false_ne_true
  · rw [decide_eq_false inactive, Bool.and_false]
    exact Bool.false_ne_true

/-- Learning changes neither the checks held nor what holds a seq without one. -/
theorem State.learn_checkOf (s : State) (o v p seq : Nat) :
    (s.learn o v).tracker.checkOf p seq = s.tracker.checkOf p seq := rfl

theorem State.learn_heldOtherwise (s : State) (o v p seq : Nat) :
    (s.learn o v).tracker.heldOtherwise p seq = s.tracker.heldOtherwise p seq := by
  have same (f : Holding → Nat) (kept : ∀ h v, f { h with known := v } = f h) :
      f ((s.learn o v).tracker.holding p) = f (s.tracker.holding p) :=
    Tracker.holding_change_field f s.tracker o p fun x => kept x _
  unfold Tracker.heldOtherwise
  rw [same Holding.through fun _ _ => rfl, same Holding.accepted fun _ _ => rfl]
  rfl

end Fates

end Sys2Proof.Machine

namespace Sys2Proof

open Machine

/-- Settles O23: the conditions of R86 to R88 and R92 in their order, and the mark of R87 by the entry
that carries it. -/
theorem arrivalDropped : Obligations.ArrivalDropped := by
  refine ⟨fun s a => ⟨State.arrive_clash, fun heard => ⟨fun own active next given beyond => ?_,
    fun placed => ?_⟩⟩, fun s o seq sender => ⟨fun clear => ?_, s.markDivergent_set sender,
    s.markDivergent_none sender⟩⟩
  · have beyond : s.submission.beyondNext a.seq = true := by
      rw [Submission.beyondNext, given]
      exact decide_eq_true beyond
    rw [State.arrive_learned heard, own, active, beyond]
    rfl
  · rw [State.arrive_decided heard placed]
    unfold State.decideArrival
    rw [State.learn_checkOf, State.learn_heldOtherwise]
    refine ⟨fun duplicate => ?_, fun check held other => ?_, fun unchecked dropped => ?_⟩
    · rw [duplicate]
      exact if_pos rfl
    · rw [held]
      exact if_neg other
    · rw [unchecked]
      refine if_pos ?_
      obtain held | closed := dropped
      · rw [held]
        rfl
      · have closed : (s.learn a.origin a.seq).admissionOpen = false := closed
        rw [closed, Bool.not_false, Bool.or_true]
  · rw [State.markDivergent_clear sender clear]
    exact ⟨rfl, Tracker.setMark_markOf clear⟩

end Sys2Proof

/-! ## A PRESENCE frame heard (R65, R74, R92, R123 to R125, R127) -/

namespace Sys2Proof.Machine

theorem getD_zeros (n o : Nat) : (List.replicate n 0).getD o 0 = 0 := by
  rw [List.getD_eq_getElem?_getD, List.getElem?_replicate]
  split <;> rfl

/-! ### The vector merged into the sender's entry (R124) -/

theorem Peer.reports_eq (l : List Word) (e : Peer) (o : Nat) :
    e.reports o l = { e with reported := (e.reports o l).reported } := by
  induction l generalizing e o with
  | nil => rfl
  | cons v l ih => exact ih _ _

theorem Peer.report_getD {e : Peer} {o p : Nat} (within : p < e.reported.length) (v : Nat) :
    (e.report o v).reported.getD p 0 =
      if p = o then max v (e.reported.getD p 0) else e.reported.getD p 0 := by
  simp only [Peer.report, List.getD_eq_getElem?_getD, List.getElem?_modify,
    List.getElem?_eq_getElem within]
  by_cases same : p = o
  · simp [same]
  · simp [same, Ne.symm same]

theorem Peer.reports_below (l : List Word) (e : Peer) {o p : Nat} (below : p < o)
    (within : p < e.reported.length) :
    (e.reports o l).reported.getD p 0 = e.reported.getD p 0 := by
  induction l generalizing e o with
  | nil => rfl
  | cons v l ih =>
    have same : (e.report o v.toNat).reported.length = e.reported.length := List.length_modify _ _ _
    exact (ih _ (Nat.lt_succ_of_lt below) (same ▸ within)).trans
      ((Peer.report_getD within _).trans (if_neg below.ne))

/-- A value of the vector raises that of its origin; where the vector ends nothing is raised. -/
theorem Peer.reports_getD (l : List Word) (e : Peer) (o i : Nat) (within : o + i < e.reported.length) :
    (e.reports o l).reported.getD (o + i) 0 =
      max ((l.map BitVec.toNat).getD i 0) (e.reported.getD (o + i) 0) := by
  induction l generalizing e o i with
  | nil => exact (Nat.zero_max _).symm
  | cons v l ih =>
    have same : (e.report o v.toNat).reported.length = e.reported.length := List.length_modify _ _ _
    cases i with
    | zero =>
      exact (Peer.reports_below l _ (Nat.lt_succ_self o) (same ▸ within)).trans
        ((Peer.report_getD within _).trans (if_pos rfl))
    | succ i =>
      have later : o + (i + 1) = o + 1 + i := by omega
      rw [later] at within ⊢
      refine (ih (e.report o v.toNat) (o + 1) i (same ▸ within)).trans (congrArg _ ?_)
      exact (Peer.report_getD within _).trans (if_neg (by omega))

/-! ### The values learned (R92) -/

theorem State.learnAll_below (l : List Word) (s : State) {o p : Nat} (below : p < o) :
    (s.learnAll o l).tracker.holding p = s.tracker.holding p := by
  induction l generalizing s o with
  | nil => rfl
  | cons v l ih =>
    exact (ih _ (Nat.lt_succ_of_lt below)).trans (Tracker.holding_change_ne _ _ _ _ below.ne)

theorem State.learnAll_above (l : List Word) (s : State) {o p : Nat} (above : o + l.length ≤ p) :
    (s.learnAll o l).tracker.holding p = s.tracker.holding p := by
  induction l generalizing s o with
  | nil => rfl
  | cons v l ih =>
    rw [List.length_cons] at above
    exact (ih _ (by omega)).trans (Tracker.holding_change_ne _ _ _ _ (by omega))

/-- Known high of each origin that the vector names is learned from its value (R92, R124). -/
theorem State.learnAll_within (l : List Word) (s : State) (o : Nat)
    (room : o + l.length ≤ s.tracker.holdings.length) {i : Nat} (within : i < l.length) :
    (s.learnAll o l).tracker.holding (o + i) = { s.tracker.holding (o + i) with
      known := max (s.tracker.holding (o + i)).known
        (s.learnable (o + i) ((l.map BitVec.toNat).getD i 0)) } := by
  induction l generalizing s o i with
  | nil => cases within
  | cons v l ih =>
    rw [List.length_cons] at room within
    have length : (s.learn o v.toNat).tracker.holdings.length = s.tracker.holdings.length :=
      List.length_modify _ _ _
    cases i with
    | zero =>
      exact (State.learnAll_below l _ (Nat.lt_succ_self o)).trans
        ((Tracker.holding_change _ _ _ _ (by omega)).trans (if_pos rfl))
    | succ i =>
      have later : o + (i + 1) = o + 1 + i := by omega
      have other : (s.learn o v.toNat).tracker.holding (o + 1 + i) = s.tracker.holding (o + 1 + i) :=
        Tracker.holding_change_ne _ _ _ _ (by omega)
      have learned := ih (s.learn o v.toNat) (o + 1) (i := i) (by omega) (by omega)
      rw [other, State.learnable_congr (s.learn_rests o v.toNat)] at learned
      rw [later]
      exact learned

/-! ### The hand-on -/

section Presence

variable (s : State) (p : Nat) (quieting full : Bool) (vector : List Word)

theorem State.takePresence_rests : s.Rests (s.takePresence p quieting full vector) :=
  (s.hearPeer_rests p quieting).trans
    ((State.mergePeer_rests _ _ _).trans (State.learnAll_rests _ _ _))

theorem State.takePresence_presence : (s.takePresence p quieting full vector).presence =
    if s.isPeer p then s.presence.change p fun e => (e.heard quieting).presence full vector
    else s.presence := by
  obtain ⟨holdings, form⟩ :=
    ((s.hearPeer p quieting).mergePeer p (Peer.presence full vector)).learnAll_form vector 0
  rw [State.takePresence, form]
  exact s.heardPeer_presence p quieting _

theorem State.takePresence_line : (s.takePresence p quieting full vector).line = s.line := by
  obtain ⟨holdings, form⟩ :=
    ((s.hearPeer p quieting).mergePeer p (Peer.presence full vector)).learnAll_form vector 0
  rw [State.takePresence, form]
  exact (State.mergePeer_line _ _ _).trans (s.hearPeer_line p quieting)

/-- A PRESENCE changes the holdings alone, by learning from its vector. -/
theorem State.takePresence_tracker : ∃ holdings, (s.takePresence p quieting full vector).tracker =
    { s.tracker with holdings := holdings } := by
  obtain ⟨holdings, form⟩ :=
    ((s.hearPeer p quieting).mergePeer p (Peer.presence full vector)).learnAll_form vector 0
  refine ⟨holdings, ?_⟩
  rw [State.takePresence, form, State.mergePeer_tracker, State.hearPeer_tracker]
  rfl

variable {s vector}

theorem State.takePresence_learned (room : vector.length ≤ s.tracker.holdings.length) {o : Nat}
    (within : o < vector.length) :
    (s.takePresence p quieting full vector).tracker.holding o = { s.tracker.holding o with
      known := max (s.tracker.holding o).known
        (s.learnable o ((vector.map BitVec.toNat).getD o 0)) } := by
  let t := (s.hearPeer p quieting).mergePeer p (Peer.presence full vector)
  have tracker : t.tracker = s.tracker :=
    (State.mergePeer_tracker _ _ _).trans (s.hearPeer_tracker p quieting)
  have rests : s.Rests t := (s.hearPeer_rests p quieting).trans (State.mergePeer_rests _ _ _)
  have learned := t.learnAll_within vector 0 (by rw [tracker]; omega) within
  rw [Nat.zero_add, tracker, State.learnable_congr rests] at learned
  exact learned

theorem State.takePresence_unlearned {o : Nat} (beyond : vector.length ≤ o) :
    (s.takePresence p quieting full vector).tracker.holding o = s.tracker.holding o := by
  refine (State.learnAll_above vector _ (by omega)).trans ?_
  rw [State.mergePeer_tracker, State.hearPeer_tracker]

end Presence

/-- The hand-on of each of the three PRESENCE frames (R123, R125). -/
theorem execPresenceFrame_handedOn {s : State} {sender : StationNumber} {full : Bool}
    {vector : List Word} {i : Instr} {mode : PresenceMode}
    (frame : i = .presenceFrame sender true full vector ∧ mode = .joining ∨
      i = .presenceFrame sender false full vector ∧ mode = .active ∨
      i = .quietingPresenceFrame sender full vector ∧ mode = .quieting)
    (follows : s.follows = true) (onLine : s.mode.onLine = true)
    (good : (Frame.presence sender mode full vector).fieldsGood s.clusterSize = true) :
    exec i s = .next ((s.setFramer .gap).takePresence sender.toNat (decide (mode = .quieting)) full
      vector).conclude := by
  rcases frame with ⟨rfl, rfl⟩ | ⟨rfl, rfl⟩ | ⟨rfl, rfl⟩
  all_goals exact congrArg Host.Outcome.next (State.hearFrame_eq follows onLine good)

end Sys2Proof.Machine

namespace Sys2Proof

open Machine

/-- Settles O20: the frame's hand-on, read block by block through the end of the event. -/
theorem presenceFrameTaken : Obligations.PresenceFrameTaken := by
  intro s sender full vector i mode frame peers tracking follows onLine good
  have size : vector.length = s.clusterSize := by
    simp only [Frame.fieldsGood, Bool.and_eq_true, decide_eq_true_eq] at good
    exact good.2
  have room : vector.length ≤ s.tracker.holdings.length := by
    rw [size, tracking.length]
    exact tracking.clusterSize
  let quieting := decide (mode = .quieting)
  let u := (s.setFramer .gap).takePresence sender.toNat quieting full vector
  have keeps : u.Keeps u.conclude := u.conclude_keeps
  have tables : u.KeepsTables u.conclude := u.conclude_tables
  have presence : u.conclude.presence = if s.isPeer sender.toNat then
      s.presence.change sender.toNat fun e => (e.heard quieting).presence full vector
      else s.presence :=
    keeps.presence.trans (State.takePresence_presence _ _ _ _ _)
  have holding (o : Nat) : u.conclude.tracker.holding o = u.tracker.holding o := by
    rw [Tracker.holding, tables.holdings]
    rfl
  obtain ⟨holdings, tracker⟩ :=
    (s.setFramer .gap).takePresence_tracker sender.toNat quieting full vector
  refine ⟨u.conclude, execPresenceFrame_handedOn frame follows onLine good, ?_, fun peer => ?_,
    fun p other => ?_, fun o within => ?_, fun o beyond => ?_, ?_, ?_, ?_⟩
  · rw [keeps.framer, State.takePresence_line]
    rfl
  · have within : sender.toNat < s.presence.peers.length := by
      rw [peers.length]
      exact (State.isPeer_lt peer).trans_le tracking.clusterSize
    have values : (s.presence.peer sender.toNat).reported.length = 16 := by
      rw [Presence.peer, List.getD_eq_getElem?_getD, List.getElem?_eq_getElem within]
      exact peers.reported _ (List.getElem_mem within)
    have entry : u.conclude.presence.peer sender.toNat =
        ((s.presence.peer sender.toNat).heard quieting).presence full vector := by
      rw [presence, if_pos peer, Presence.peer_change _ _ _ _ within, if_pos rfl]
    have merged (o : Nat) (below : o < 16) :
        (u.conclude.presence.peer sender.toNat).reported.getD o 0 =
          max ((vector.map BitVec.toNat).getD o 0)
            (((s.presence.peer sender.toNat).heard quieting).reported.getD o 0) := by
      have raised := Peer.reports_getD vector ((s.presence.peer sender.toNat).heard quieting) 0 o
        (by rw [Peer.heard_values _ _ values]; omega)
      rw [Nat.zero_add] at raised
      rw [entry]
      exact raised
    refine ⟨?_, ?_, by rw [entry]; rfl, ?_, fun fresh o below => ?_, fun known o below => ?_⟩
    · rw [entry, Peer.presence, Peer.reports_eq]
      exact if_congr decide_eq_true_iff rfl rfl
    · rw [entry, Peer.presence, Peer.reports_eq]
      rfl
    · rw [entry, Peer.presence, Peer.reports_eq]
      rfl
    · rw [merged o below, Peer.heard_fresh quieting fresh, getD_zeros, Nat.max_zero]
    · rw [merged o below, Peer.heard_known quieting known]
  · rw [presence]
    split
    · next peer =>
      exact Presence.peer_change_ne _ _ _ _ (other.resolve_right (by rw [peer]; nofun))
    · rfl
  · have learned := State.takePresence_learned (s := s.setFramer .gap) sender.toNat quieting full
      room (o := o) (by rw [size]; exact within)
    rw [State.learnable_congr (s.setFramer_rests .gap)] at learned
    exact (holding o).trans learned
  · exact (holding o).trans (State.takePresence_unlearned _ _ _ (by rw [size]; exact beyond))
  · rw [tables.gaps, tracker]
    rfl
  · rw [tables.excess, tracker]
    rfl
  · exact (s.setFramer_rests .gap).trans ((State.takePresence_rests _ _ _ _ _).trans keeps.rests)

end Sys2Proof

/-! ## An APPEND frame that is accepted (R86, R88 to R90) -/

namespace Sys2Proof.Machine

/-! ### An acceptance (R88 to R90) -/

theorem State.learnable_le (s : State) (o v : Nat) : s.learnable o v ≤ v := by
  unfold State.learnable
  repeat' split
  · exact Nat.min_le_left _ _
  · exact le_rfl
  · exact le_rfl

theorem State.learn_accepted (s : State) (o v p : Nat) :
    ((s.learn o v).tracker.holding p).accepted = (s.tracker.holding p).accepted :=
  Tracker.holding_change_field Holding.accepted s.tracker o p fun _ => rfl

theorem State.learn_gapsAfter (s : State) (o v p seq : Nat) :
    (s.learn o v).tracker.gapsAfter p seq = s.tracker.gapsAfter p seq := by
  unfold Tracker.gapsAfter
  rw [State.learn_accepted]
  rfl

/-- What R87 to R89 ask of a record for its acceptance: no check is held for its seq, nothing holds or
awaits it, incoming admission is open, and the gap table takes it. -/
structure State.Admits (s : State) (a : Arrival) (gaps : List Run) : Prop where
  admission : s.admissionOpen = true
  unchecked : s.tracker.checkOf a.origin a.seq = none
  lacked : s.tracker.heldOtherwise a.origin a.seq = false
  room : s.tracker.gapsAfter a.origin a.seq = some gaps

theorem State.Admits.congr {s t : State} {a : Arrival} {gaps : List Run} (h : s.Admits a gaps)
    (admission : t.admissionOpen = s.admissionOpen) (tracker : t.tracker = s.tracker) :
    t.Admits a gaps := by
  obtain ⟨opened, unchecked, lacked, room⟩ := h
  exact ⟨by rw [admission, opened], by rw [tracker, unchecked], by rw [tracker, lacked],
    by rw [tracker, room]⟩

section Accepted

variable {s : State} {a : Arrival} {gaps : List Run} (admits : s.Admits a gaps)
include admits

theorem State.arrive_accepted (heard : a.refill = true ∨ s.isOwn a.sender = false)
    (other : s.isOwn a.origin = false) :
    s.arrive a = ((s.learn a.origin a.seq).accept a gaps, true) := by
  rw [State.arrive_decided heard (.inl other), State.decideArrival, State.learn_checkOf,
    State.learn_heldOtherwise, State.learn_gapsAfter, admits.unchecked, admits.lacked, admits.room]
  have opened : (s.learn a.origin a.seq).admissionOpen = true := admits.admission
  rw [opened]
  rfl

end Accepted

/-- The holdings of its origin after a record that is learned and accepted (R88 to R90, R92). -/
theorem State.accept_holding {s : State} {a : Arrival} (within : a.origin < s.tracker.holdings.length)
    (gaps : List Run) : ((s.learn a.origin a.seq).accept a gaps).tracker.holding a.origin =
      { s.tracker.holding a.origin with
        accepted := max (s.tracker.holding a.origin).accepted a.seq
        known := max (s.tracker.holding a.origin).known a.seq } := by
  have learned : (s.learn a.origin a.seq).tracker.holding a.origin = { s.tracker.holding a.origin with
      known := max (s.tracker.holding a.origin).known (s.learnable a.origin a.seq) } :=
    (Tracker.holding_change _ _ _ _ within).trans (if_pos rfl)
  have length : (s.learn a.origin a.seq).tracker.holdings.length = s.tracker.holdings.length :=
    List.length_modify _ _ _
  have accepted : ((s.learn a.origin a.seq).accept a gaps).tracker.holding a.origin =
      { (s.learn a.origin a.seq).tracker.holding a.origin with
        accepted := max ((s.learn a.origin a.seq).tracker.holding a.origin).accepted a.seq
        known := max ((s.learn a.origin a.seq).tracker.holding a.origin).known a.seq } :=
    (Tracker.holding_change _ _ _ _ (by rw [length]; exact within)).trans (if_pos rfl)
  rw [accepted, learned, Nat.max_assoc, Nat.max_eq_right (s.learnable_le _ _)]

theorem State.accept_other (s : State) (a : Arrival) (gaps : List Run) {p : Nat}
    (other : p ≠ a.origin) :
    ((s.learn a.origin a.seq).accept a gaps).tracker.holding p = s.tracker.holding p :=
  (Tracker.holding_change_ne _ _ _ _ other).trans (Tracker.holding_change_ne _ _ _ _ other)

/-! ### The end of an event -/

/-- The holdings, the gap table and the excess list read the same after the end of an event. -/
theorem State.conclude_holding (s : State) (o : Nat) :
    s.conclude.tracker.holding o = s.tracker.holding o := by
  rw [Tracker.holding, s.conclude_tables.holdings]
  rfl

/-- Only the sender's entry of the peer table changes at a frame heard (R123). -/
theorem State.hearPeer_peer_other (s : State) {p q : Nat} (quieting : Bool) (other : q ≠ p) :
    (s.hearPeer p quieting).presence.peer q = s.presence.peer q := by
  rw [State.hearPeer_presence]
  split
  · exact Presence.peer_change_ne _ _ _ _ other
  · rfl

theorem State.hearPeer_peer {s : State} {p : Nat} (quieting : Bool) (peer : s.isPeer p = true)
    (within : p < s.presence.peers.length) :
    (s.hearPeer p quieting).presence.peer p = (s.presence.peer p).heard quieting := by
  rw [State.hearPeer_presence, if_pos peer, Presence.peer_change _ _ _ _ within, if_pos rfl]

/-- A frame heard leaves the job queue, the segment table, the Repair Controller and the array. -/
theorem State.hearPeer_others (s : State) (p : Nat) (quieting : Bool) :
    (s.hearPeer p quieting).writer = s.writer ∧ (s.hearPeer p quieting).segments = s.segments ∧
      (s.hearPeer p quieting).repair = s.repair := by
  obtain ⟨q, d, r, form, -, -⟩ := s.hearPeer_form p quieting
  rw [form]
  exact ⟨rfl, rfl, rfl⟩

theorem State.admissionOpen_congr {s t : State} (writer : t.writer = s.writer)
    (segments : t.segments = s.segments) : t.admissionOpen = s.admissionOpen := by
  rw [State.admissionOpen, writer, segments]
  rfl

theorem State.isOwn_congr {s t : State} (enlistment : t.enlistment = s.enlistment) (p : Nat) :
    t.isOwn p = s.isOwn p := by
  unfold State.isOwn
  rw [enlistment]

/-- A frame heard, before its content is taken: the framer in GAP and the sender's sign of life (R65,
R123). -/
def State.heardFrom (s : State) (p : Nat) : State := (s.setFramer .gap).hearPeer p false

section Heard

variable (s : State) (p : Nat)

theorem State.heardFrom_rests : s.Rests (s.heardFrom p) :=
  (s.setFramer_rests .gap).trans (State.hearPeer_rests _ p false)

theorem State.heardFrom_tracker : (s.heardFrom p).tracker = s.tracker :=
  State.hearPeer_tracker _ p false

theorem State.heardFrom_framer : (s.heardFrom p).line.framer = .gap := by
  rw [State.heardFrom, State.hearPeer_line]
  rfl

theorem State.heardFrom_repair : (s.heardFrom p).repair = s.repair :=
  (State.hearPeer_others _ p false).2.2

theorem State.heardFrom_admission : (s.heardFrom p).admissionOpen = s.admissionOpen :=
  State.admissionOpen_congr (State.hearPeer_others _ p false).1 (State.hearPeer_others _ p false).2.1

theorem State.heardFrom_isOwn (o : Nat) : (s.heardFrom p).isOwn o = s.isOwn o :=
  State.isOwn_congr (s.heardFrom_rests p).enlistment o

theorem State.heardFrom_other {q : Nat} (other : q ≠ p) :
    (s.heardFrom p).presence.peer q = s.presence.peer q :=
  State.hearPeer_peer_other _ false other

end Heard

theorem State.Admits.heardFrom {s : State} {a : Arrival} {gaps : List Run} (h : s.Admits a gaps)
    (p : Nat) : (s.heardFrom p).Admits a gaps :=
  h.congr (s.heardFrom_admission p) (s.heardFrom_tracker p)

theorem State.arrive_line (s : State) (a : Arrival) : (s.arrive a).1.line = s.line := by
  have mark (u : State) (o seq p : Nat) : (u.markDivergent o seq p).line = u.line := by
    unfold State.markDivergent
    repeat' split
    all_goals rfl
  unfold State.arrive
  dsimp only
  repeat' split
  · exact mark _ _ _ _
  · rfl
  · unfold State.decideArrival
    repeat' split
    all_goals first | rfl | exact mark _ _ _ _

theorem execAppendFrame_handedOn {s : State} {sender : StationNumber} {seq : Word} {tag : Byte}
    {payload : List Byte} {check : Word} (follows : s.follows = true) (onLine : s.mode.onLine = true)
    (good : (Frame.append sender seq tag payload check).fieldsGood s.clusterSize = true) :
    exec (.appendFrame sender seq tag payload check) s = .next ((s.heardFrom sender.toNat).arrive
      ⟨sender.toNat, sender.toNat, seq.toNat, tag, payload, check, false⟩).1.conclude :=
  congrArg Host.Outcome.next (State.hearFrame_eq follows onLine good)

/-- A sender that passes the checks of R73 has an entry in the tables. -/
theorem State.TrackingOk.sender {s : State} (h : s.TrackingOk) {f : Frame}
    (good : f.fieldsGood s.clusterSize = true) : f.sender.toNat < 16 :=
  (Frame.sender_lt good).trans_le h.clusterSize

end Sys2Proof.Machine

namespace Sys2Proof

open Machine

/-- Settles O21: the acceptance of the record, its job and entry kept through the end of the event. -/
theorem appendFrameAccepted : Obligations.AppendFrameAccepted := by
  intro s sender seq tag payload check gaps peers tracking follows onLine good other admission
    unchecked lacked room
  let a : Arrival := ⟨sender.toNat, sender.toNat, seq.toNat, tag, payload, check, false⟩
  let heard := s.heardFrom sender.toNat
  let u := (heard.arrive a).1
  have within : sender.toNat < 16 := tracking.sender good
  have admits : heard.Admits a gaps :=
    State.Admits.heardFrom ⟨admission, unchecked, lacked, room⟩ sender.toNat
  have own : heard.isOwn sender.toNat = false := (s.heardFrom_isOwn _ _).trans other
  have accepted : u = (heard.learn a.origin a.seq).accept a gaps :=
    congrArg Prod.fst (State.arrive_accepted admits (.inr own) own)
  have tracker : heard.tracker = s.tracker := s.heardFrom_tracker _
  have size : heard.tracker.holdings.length = 16 := by rw [tracker, tracking.length]
  have grows : u.Grows u.conclude := u.conclude_grows
  have presence : u.conclude.presence = heard.presence :=
    u.conclude_keeps.presence.trans (heard.arrive_presence a)
  refine ⟨u.conclude, execAppendFrame_handedOn follows onLine good, ?_, grows.jobs.subset ?_,
    grows.pending.subset ?_, ?_, fun o others => ?_, ?_, fun peer => ?_, fun p others => ?_,
    (s.heardFrom_rests _).trans ((heard.arrive_rests a).trans u.conclude_keeps.rests)⟩
  · rw [u.conclude_keeps.framer, heard.arrive_line a]
    exact s.heardFrom_framer _
  · rw [accepted]
    exact List.mem_append_right _ (List.mem_singleton_self _)
  · rw [accepted]
    exact List.mem_append_right _ (List.mem_singleton_self _)
  · rw [State.conclude_holding, accepted, State.accept_holding (size ▸ within), tracker]
  · rw [State.conclude_holding, accepted, State.accept_other heard a gaps others, tracker]
  · rw [u.conclude_tables.gaps, accepted]
    rfl
  · rw [presence]
    refine congrArg Peer.state (State.hearPeer_peer (s := s.setFramer .gap) false peer ?_)
    exact within.trans_eq peers.length.symm
  · rw [presence]
    exact s.heardFrom_other _ others

end Sys2Proof

/-! ## A REFILL COPY frame (R86 to R90, R136, R145) -/

namespace Sys2Proof.Machine

/-! ### What an arriving record leaves of the holdings (R87 to R90, R92) -/

theorem State.markDivergent_holdings (s : State) (o seq p : Nat) :
    (s.markDivergent o seq p).tracker.holdings = s.tracker.holdings := by
  unfold State.markDivergent
  repeat' split
  · rfl
  · exact s.tracker.setMark_holdings o seq
  · rfl

/-- What an arriving record leaves of the holdings: those of other origins, and held-through. -/
structure Tracker.LeavesThrough (t u : Tracker) (o : Nat) : Prop where
  through : ∀ p, (u.holding p).through = (t.holding p).through
  other : ∀ p, p ≠ o → u.holding p = t.holding p

theorem Tracker.LeavesThrough.of_eq {t u : Tracker} (o : Nat) (holdings : u.holdings = t.holdings) :
    t.LeavesThrough u o :=
  have same (p : Nat) : u.holding p = t.holding p := by rw [Tracker.holding, holdings]; rfl
  ⟨fun p => congrArg Holding.through (same p), fun p _ => same p⟩

theorem Tracker.LeavesThrough.trans {t u v : Tracker} {o : Nat} (a : t.LeavesThrough u o)
    (b : u.LeavesThrough v o) : t.LeavesThrough v o :=
  ⟨fun p => (b.through p).trans (a.through p), fun p h => (b.other p h).trans (a.other p h)⟩

/-- One origin's highest accepted and known high changed. -/
theorem Tracker.LeavesThrough.change (t : Tracker) (o : Nat) {f : Holding → Holding}
    (through : ∀ h, (f h).through = h.through) : t.LeavesThrough (t.change o f) o :=
  ⟨fun p => t.holding_change_field Holding.through o p through,
    fun p other => t.holding_change_ne o p f other⟩

theorem State.learn_leavesThrough (s : State) (o v : Nat) :
    s.tracker.LeavesThrough (s.learn o v).tracker o := .change _ _ fun _ => rfl

theorem State.decideArrival_leavesThrough (s : State) (a : Arrival) :
    s.tracker.LeavesThrough (s.decideArrival a).1.tracker a.origin := by
  unfold State.decideArrival
  repeat' split
  · exact .of_eq _ rfl
  · exact .of_eq _ (s.markDivergent_holdings _ _ _)
  · exact .of_eq _ rfl
  · next gaps _ =>
    have taken := Tracker.LeavesThrough.change s.tracker a.origin
      (f := fun h => { h with accepted := max h.accepted a.seq, known := max h.known a.seq })
      fun _ => rfl
    exact taken.trans (.of_eq _ rfl)
  · exact .of_eq _ rfl

theorem State.arrive_leavesThrough (s : State) (a : Arrival) :
    s.tracker.LeavesThrough (s.arrive a).1.tracker a.origin := by
  unfold State.arrive
  dsimp only
  repeat' split
  · exact .of_eq _ (s.markDivergent_holdings _ _ _)
  · exact s.learn_leavesThrough _ _
  · exact (s.learn_leavesThrough _ _).trans (State.decideArrival_leavesThrough _ a)

/-! ### The seek slots (R133, R136) -/

theorem Tracker.narrowed_congr {t u : Tracker} (holdings : u.holdings = t.holdings)
    (gaps : u.gaps = t.gaps) (sl : SeekSlot) : u.narrowed sl = t.narrowed sl := by
  have want : u.isWant sl.origin = t.isWant sl.origin := by
    funext seq
    rw [Tracker.isWant, Tracker.holding, holdings, gaps]
    rfl
  unfold Tracker.narrowed Tracker.slotWants
  rw [want]

/-- A place of the slot table once the slots of an origin have narrowed (R136). -/
def Tracker.narrowedOf (t : Tracker) (o : Nat) : Option SeekSlot → Option SeekSlot
  | some sl => if sl.origin = o then t.narrowed sl else some sl
  | none => none

theorem State.setSlot_slots (s : State) (i : Nat) (v : Option SeekSlot) :
    (s.setSlot i v).repair.slots = s.repair.slots.set i v := by
  unfold State.setSlot
  dsimp only
  split <;> rfl

/-- One place narrows, when its slot is of the origin. -/
theorem State.narrowPlace_slots (s : State) (o i j : Nat) :
    (if (s.repair.slot? i).any (·.origin = o) then s.narrowSlot i else s).repair.slots[j]? =
      if j = i then s.repair.slots[j]?.map (s.tracker.narrowedOf o) else s.repair.slots[j]? := by
  have place : s.repair.slot? i = s.repair.slots[i]?.getD none := List.getD_eq_getElem?_getD
  cases slot : s.repair.slots[i]? with
  | none =>
    rw [slot] at place
    rw [place, if_neg (by exact Bool.false_ne_true)]
    split
    · next same => rw [same, slot]; rfl
    · rfl
  | some x =>
    rw [slot] at place
    cases x with
    | none =>
      rw [place, if_neg (by exact Bool.false_ne_true)]
      split
      · next same => rw [same, slot]; rfl
      · rfl
    | some sl =>
      have place : s.repair.slot? i = some sl := place
      have within : i < s.repair.slots.length := (List.getElem?_eq_some_iff.1 slot).1
      by_cases own : sl.origin = o
      · rw [place, if_pos (by exact decide_eq_true own),
          State.narrowSlot, place]
        dsimp only
        rw [State.setSlot_slots]
        by_cases same : j = i
        · rw [if_pos same, same, List.getElem?_set_self within, slot]
          exact congrArg some (if_pos own).symm
        · rw [if_neg same, List.getElem?_set_ne (Ne.symm same)]
      · rw [place, if_neg (by simpa using own)]
        split
        · next same =>
          rw [same, slot]
          exact congrArg some (if_neg own).symm
        · rfl

theorem State.narrowPlace_tables (s : State) (o i : Nat) :
    s.KeepsTables (if (s.repair.slot? i).any (·.origin = o) then s.narrowSlot i else s) := by
  split
  · exact s.narrowSlot_tables i
  · exact .refl s

theorem Tracker.narrowedOf_congr {t u : Tracker} (holdings : u.holdings = t.holdings)
    (gaps : u.gaps = t.gaps) (o : Nat) : u.narrowedOf o = t.narrowedOf o := by
  funext x
  cases x with
  | none => rfl
  | some sl => rw [Tracker.narrowedOf, Tracker.narrowedOf, Tracker.narrowed_congr holdings gaps]

/-- Every slot of the origin narrows, once, and the others stay (R136). -/
theorem State.narrowOrigin_slots (s : State) (o : Nat) {i : Nat} (within : i < 4) :
    (s.narrowOrigin o).repair.slots[i]? = s.repair.slots[i]?.map (s.tracker.narrowedOf o) := by
  let f := fun (s : State) (i : Nat) =>
    if (s.repair.slot? i).any (·.origin = o) then s.narrowSlot i else s
  have tables (n : Nat) : s.KeepsTables ((List.range n).foldl f s) :=
    foldl_rel .refl .trans (fun s i => s.narrowPlace_tables o i) _ s
  have places (n : Nat) : ((List.range n).foldl f s).repair.slots[i]? =
      if i < n then s.repair.slots[i]?.map (s.tracker.narrowedOf o) else s.repair.slots[i]? := by
    induction n with
    | zero => rfl
    | succ n ih =>
      have step := ((List.range n).foldl f s).narrowPlace_slots o n i
      rw [Tracker.narrowedOf_congr (tables n).holdings (tables n).gaps, ih] at step
      rw [List.range_succ, List.foldl_append]
      refine step.trans ?_
      by_cases same : i = n
      · rw [if_pos same, if_neg (by omega), if_pos (by omega)]
      · rw [if_neg same]
        exact if_congr (by omega) rfl rfl
  exact (places 4).trans (if_pos within)

/-- A slot in use after an event's end stood there before it, or is a fresh one with its SEEK due. -/
def State.Refills (s t : State) : Prop := ∀ (i : Nat) (x : SeekSlot),
  t.repair.slots[i]? = some (some x) →
    s.repair.slots[i]? = some (some x) ∨ x.state = .asking false ∧ x.attempts = 0

theorem State.Refills.of_eq {s t : State} (slots : t.repair.slots = s.repair.slots) : s.Refills t :=
  fun i x h => .inl (by rw [← slots]; exact h)

theorem State.Refills.refl (s : State) : s.Refills s := .of_eq rfl

theorem State.Refills.trans {s t u : State} (a : s.Refills t) (b : t.Refills u) : s.Refills u :=
  fun i x h => (b i x h).elim (a i x) .inr

theorem State.fillSlot_refills (s : State) : s.Refills s.fillSlot := by
  unfold State.fillSlot
  split
  · next j r found _ =>
    intro i x h
    rw [State.setSlot_slots] at h
    by_cases same : j = i
    · rw [← same] at h
      have within : j < s.repair.slots.length := (List.findIdx?_eq_some_iff_getElem.1 found).1
      rw [List.getElem?_set_self within] at h
      obtain rfl := Option.some.inj (Option.some.inj h)
      exact .inr ⟨rfl, rfl⟩
    · rw [List.getElem?_set_ne same] at h
      exact .inl h
  · exact .refl s

theorem State.fillSlots_refills (s : State) : s.Refills s.fillSlots := by
  unfold State.fillSlots
  split
  · exact repeat_rel .refl .trans State.fillSlot_refills 4 s
  · exact .refl s

theorem State.takeNext_slots (s : State) (e : Responder) (l : List Nat) :
    (s.takeNext e l).repair.slots = s.repair.slots := by
  unfold State.takeNext
  repeat' split
  all_goals rfl

theorem State.skipSeq_slots (s : State) (q o seq : Nat) :
    (s.skipSeq q o seq).repair.slots = s.repair.slots := by
  unfold State.skipSeq
  split
  · exact s.takeNext_slots _ _
  · rfl

theorem State.serve_slots (s : State) : s.serve.repair.slots = s.repair.slots := by
  refine serveClaims_rel (R := fun s t => t.repair.slots = s.repair.slots) (fun served => ?_)
    (fun refused later => later.trans ?_) _ s
  · cases served <;> rfl
  · cases refused with
    | host c => rfl
    | fetch c rest => exact State.skipSeq_slots _ _ _ _

theorem State.conclude_refills (s : State) : s.Refills s.conclude := by
  have last : s.conclude.repair.slots = s.refilled.repair.slots := by
    show (State.checkSuspend _).repair.slots = _
    rw [State.checkSuspend_repair, State.serve_slots, State.scheduleErase_repair, State.serve_slots,
      State.scheduleErase_repair, State.placeHead_repair]
    rfl
  exact ((State.Refills.of_eq (by rw [State.excessTest_repair])).trans
    s.excessTest.fillSlots_refills).trans (.of_eq last)

/-! ### The responder lists (R145) -/

/-- The entries of a key list nothing but what is wanted of them, and the other entries are as they
were. -/
def State.Relists (s t : State) (q o : Nat) (P : Nat → Prop) : Prop :=
  ∀ x ∈ t.repair.responders, (x.requester = q ∧ x.origin = o ∧ ∀ seq ∈ x.list, P seq) ∨
    x ∈ s.repair.responders ∧ ¬ (x.requester = q ∧ x.origin = o)

section Relists

variable (s : State) {P : Nat → Prop}

theorem State.changeResponder_relists {q o : Nat} {f : Responder → Responder}
    (key : ∀ y, (f y).requester = y.requester ∧ (f y).origin = y.origin)
    (lists : ∀ y, ∀ seq ∈ (f y).list, P seq) : s.Relists (s.changeResponder q o f) q o P := by
  intro x mem
  obtain ⟨y, old, rfl⟩ := List.mem_map.1 mem
  split
  · next same => exact .inl ⟨(key y).1.trans same.1, (key y).2.trans same.2, lists y⟩
  · next other => exact .inr ⟨old, other⟩

theorem State.freeResponder_relists (q o : Nat) : s.Relists (s.freeResponder q o) q o P := by
  intro x mem
  obtain ⟨old, other⟩ := List.mem_filter.1 mem
  exact .inr ⟨old, fun both => by simp [both] at other⟩

theorem State.takeNext_relists (e : Responder) {l : List Nat} (wanted : ∀ seq ∈ l, P seq) :
    s.Relists (s.takeNext e l) e.requester e.origin P := by
  unfold State.takeNext
  split
  · exact s.changeResponder_relists (fun _ => ⟨rfl, rfl⟩) fun _ => wanted
  · split
    · next stored =>
      exact s.changeResponder_relists (fun _ => ⟨rfl, rfl⟩) fun _ seq mem =>
        wanted seq ((Segments.firstStored_suffix stored).subset mem)
    · split
      · exact s.changeResponder_relists (fun _ => ⟨rfl, rfl⟩) fun _ _ => nofun
      · exact s.freeResponder_relists _ _

/-- An entry that lists a cancelled seq is cut, with all of its key, or freed (R145). -/
theorem State.cancelIn_relists {gone : Nat → Bool} {e : Responder} (listed : e.list.any gone = true) :
    s.Relists (s.cancelIn gone e) e.requester e.origin (gone · = false) := by
  have wanted : ∀ seq ∈ e.list.filter (fun seq => !gone seq), gone seq = false := fun seq mem => by
    simpa using (List.mem_filter.1 mem).2
  have keep := s.changeResponder_relists (q := e.requester) (o := e.origin)
    (f := fun x => { x with list := e.list.filter fun seq => !gone seq }) (fun _ => ⟨rfl, rfl⟩)
    fun _ => wanted
  unfold State.cancelIn
  dsimp only
  rw [listed, if_neg (by exact Bool.false_ne_true)]
  repeat' split
  · exact s.freeResponder_relists _ _
  · exact keep
  · exact State.takeNext_relists _ e wanted
  · exact keep
  · exact keep
  · exact s.takeNext_relists e wanted
  · exact keep

end Relists

/-- A cancelled seq that an entry of the origin still lists is listed by an entry of its key that is
yet to be taken. -/
def State.CancelsLeft (s : State) (o : Nat) (gone : Nat → Bool) (left : List Responder) : Prop :=
  ∀ x ∈ s.repair.responders, x.origin = o → x.list.any gone = true →
    ∃ e ∈ left, e.requester = x.requester ∧ e.list.any gone = true

theorem State.CancelsLeft.cancelIn {s : State} {gone : Nat → Bool} {e : Responder}
    {left : List Responder} (h : s.CancelsLeft e.origin gone (e :: left)) :
    (s.cancelIn gone e).CancelsLeft e.origin gone left := by
  intro x mem origin listed
  cases any : e.list.any gone with
  | false =>
    have same : s.cancelIn gone e = s := by
      unfold State.cancelIn
      dsimp only
      rw [any, if_pos (by exact Bool.not_false)]
    rw [same] at mem
    obtain ⟨y, old, key, lists⟩ := h x mem origin listed
    obtain rfl | old := List.mem_cons.1 old
    · exact absurd (any.symm.trans lists) Bool.false_ne_true
    · exact ⟨y, old, key, lists⟩
  | true =>
    obtain ⟨-, -, clear⟩ | ⟨old, other⟩ := s.cancelIn_relists any x mem
    · obtain ⟨seq, mem, cancelled⟩ := List.any_eq_true.1 listed
      exact absurd ((clear seq mem).symm.trans cancelled) Bool.false_ne_true
    · obtain ⟨y, left, key, lists⟩ := h x old origin listed
      obtain rfl | left := List.mem_cons.1 left
      · exact absurd ⟨key.symm, origin⟩ other
      · exact ⟨y, left, key, lists⟩

/-- A REFILL heard leaves its seqs in no list of its origin (R145). -/
theorem State.cancelRefill_clears (s : State) (o : Nat) (gone : Nat → Bool) :
    ∀ x ∈ (s.cancelRefill o gone).repair.responders, x.origin = o → ∀ seq ∈ x.list,
      gone seq = false := by
  have start : s.CancelsLeft o gone (s.repair.responders.filter (·.origin = o)) :=
    fun x mem origin listed => ⟨x, List.mem_filter.2 ⟨mem, decide_eq_true origin⟩, rfl, listed⟩
  have origins : ∀ e ∈ s.repair.responders.filter (·.origin = o), e.origin = o := fun e mem =>
    of_decide_eq_true (List.mem_filter.1 mem).2
  have done : (s.cancelRefill o gone).CancelsLeft o gone [] := by
    unfold State.cancelRefill
    revert start origins
    generalize s.repair.responders.filter (·.origin = o) = left
    intro start origins
    induction left generalizing s with
    | nil => exact start
    | cons e left ih =>
      obtain rfl := origins e List.mem_cons_self
      exact ih _ start.cancelIn fun x mem => origins x (List.mem_cons_of_mem _ mem)
  intro x mem origin seq listed
  refine Bool.eq_false_iff.2 fun cancelled => ?_
  obtain ⟨_, none, -⟩ := done x mem origin (List.any_eq_true.2 ⟨seq, listed, cancelled⟩)
  cases none

theorem State.cancelRefill_slots (s : State) (o : Nat) (gone : Nat → Bool) :
    (s.cancelRefill o gone).repair.slots = s.repair.slots := by
  refine foldl_rel (R := fun s t => t.repair.slots = s.repair.slots) (fun _ => rfl)
    (fun a b => b.trans a) (fun u e => ?_) _ s
  unfold State.cancelIn
  dsimp only
  repeat' split
  all_goals first | rfl | exact State.takeNext_slots _ _ _

/-! ### The hand-on -/

section Copy

variable (s : State) (a : Arrival)

/-- After the decision on the record only slots narrow and responder lists shrink (R136, R145). -/
theorem State.takeCopy_keeps : (s.arrive a).1.Keeps (s.takeCopy a) := by
  refine .trans ?_ (State.cancelRefill_keeps _ _ _)
  split
  · exact State.narrowOrigin_keeps _ _
  · exact .refl _

theorem State.takeCopy_tables : (s.arrive a).1.KeepsTables (s.takeCopy a) := by
  refine .trans ?_ (State.cancelRefill_tables _ _ _)
  split
  · exact State.narrowOrigin_tables _ _
  · exact .refl _

theorem State.takeCopy_jobs : (s.takeCopy a).writer.jobs = (s.arrive a).1.writer.jobs := by
  refine (State.cancelRefill_still _ _ _).jobs.trans ?_
  split
  · exact (State.narrowOrigin_still _ _).jobs
  · rfl

theorem State.takeCopy_clears : ∀ e ∈ (s.takeCopy a).repair.responders, e.origin = a.origin →
    a.seq ∉ e.list := by
  intro e mem origin listed
  have kept := State.cancelRefill_clears _ a.origin (· = a.seq) e mem origin a.seq listed
  simp at kept

variable {s a}

theorem State.takeCopy_slots {t : State} (accepted : s.arrive a = (t, true)) {i : Nat}
    (within : i < 4) :
    (s.takeCopy a).repair.slots[i]? = t.repair.slots[i]?.map (t.tracker.narrowedOf a.origin) := by
  have slots := t.narrowOrigin_slots a.origin within
  unfold State.takeCopy
  rw [accepted, State.cancelRefill_slots]
  exact slots

/-- The place of a slot after the end of the event: another origin's slot stays, one of the origin is
narrowed, and where it left use a slot is a fresh one (R136). -/
theorem State.takeCopy_settled {t : State} (accepted : s.arrive a = (t, true)) {i : Nat}
    (within : i < 4) {sl : SeekSlot} (slot : t.repair.slots[i]? = some (some sl)) :
    (sl.origin ≠ a.origin → (s.takeCopy a).conclude.repair.slots[i]? = some (some sl)) ∧
    (sl.origin = a.origin →
      (∀ nl, t.tracker.narrowed sl = some nl →
        (s.takeCopy a).conclude.repair.slots[i]? = some (some nl)) ∧
      (t.tracker.narrowed sl = none → ∀ x,
        (s.takeCopy a).conclude.repair.slots[i]? = some (some x) →
        x.state = .asking false ∧ x.attempts = 0)) := by
  have place : (s.takeCopy a).repair.slots[i]? = some (t.tracker.narrowedOf a.origin (some sl)) := by
    rw [State.takeCopy_slots accepted within, slot]
    rfl
  refine ⟨fun other => ?_, fun own => ⟨fun nl narrowed => ?_, fun left x after => ?_⟩⟩
  · refine (s.takeCopy a).conclude_grows.slots i sl (place.trans ?_)
    rw [Tracker.narrowedOf, if_neg other]
  · refine (s.takeCopy a).conclude_grows.slots i nl (place.trans ?_)
    rw [Tracker.narrowedOf, if_pos own, narrowed]
  · obtain before | fresh := (s.takeCopy a).conclude_refills i x after
    · rw [place, Tracker.narrowedOf, if_pos own, left] at before
      cases before
    · exact fresh

end Copy

theorem execRefillCopyFrame_handedOn {s : State} {sender : StationNumber} {requester origin : Byte}
    {seq : Word} {tag : Byte} {payload : List Byte} {check : Word} (follows : s.follows = true)
    (onLine : s.mode.onLine = true)
    (good : (Frame.copy sender requester origin seq tag payload check).fieldsGood s.clusterSize = true) :
    exec (.refillCopyFrame sender requester origin seq tag payload check) s = .next
      ((s.heardFrom sender.toNat).takeCopy
        ⟨sender.toNat, origin.toNat, seq.toNat, tag, payload, check, true⟩).conclude :=
  congrArg Host.Outcome.next (State.hearFrame_eq follows onLine good)

/-- The lists of an origin after the end of an event are parts of those before it. -/
theorem State.conclude_lacks {s : State} {o : Nat} {P : Nat → Prop}
    (lists : ∀ e ∈ s.repair.responders, e.origin = o → ∀ seq ∈ e.list, P seq) :
    ∀ e ∈ s.conclude.repair.responders, e.origin = o → ∀ seq ∈ e.list, P seq := by
  intro e mem origin seq listed
  obtain ⟨⟨x, old, -, same, part⟩, -⟩ := s.conclude_shrinks e mem
  exact lists x old (same.trans origin) seq (part listed)

end Sys2Proof.Machine

namespace Sys2Proof

open Machine

/-- Settles O24: the decision on the record, then the narrowing of slots and the cancelling of lists,
each carried through the end of the event. -/
theorem refillCopyTaken : Obligations.RefillCopyTaken := by
  intro s sender requester origin seq tag payload check peers tracking follows onLine good
  let a : Arrival := ⟨sender.toNat, origin.toNat, seq.toNat, tag, payload, check, true⟩
  let heard := s.heardFrom sender.toNat
  let u := heard.takeCopy a
  have within : origin.toNat < 16 := by
    simp only [Frame.fieldsGood, Bool.and_eq_true, decide_eq_true_eq] at good
    obtain ⟨-, ⟨⟨⟨⟨-, within⟩, -⟩, -⟩, -⟩, -⟩ := good
    exact within.trans_le tracking.clusterSize
  have tracker : heard.tracker = s.tracker := s.heardFrom_tracker _
  have size : heard.tracker.holdings.length = 16 := by rw [tracker, tracking.length]
  have keeps : (heard.arrive a).1.Keeps u := heard.takeCopy_keeps a
  have tables : (heard.arrive a).1.KeepsTables u := heard.takeCopy_tables a
  have holding (o : Nat) :
      u.conclude.tracker.holding o = (heard.arrive a).1.tracker.holding o := by
    rw [State.conclude_holding, Tracker.holding, tables.holdings]
    rfl
  have leaves : s.tracker.LeavesThrough (heard.arrive a).1.tracker origin.toNat :=
    tracker ▸ heard.arrive_leavesThrough a
  have presence : u.conclude.presence = heard.presence :=
    u.conclude_keeps.presence.trans (keeps.presence.trans (heard.arrive_presence a))
  refine ⟨u.conclude, execRefillCopyFrame_handedOn follows onLine good, ?_,
    fun other admission unchecked lacked gaps room => ?_, ?_, fun o others => ?_,
    fun e mem same listed => ?_, fun p others => ?_,
    (s.heardFrom_rests _).trans ((heard.arrive_rests a).trans (keeps.rests.trans
      u.conclude_keeps.rests))⟩
  · rw [u.conclude_keeps.framer, keeps.framer, heard.arrive_line a]
    exact s.heardFrom_framer _
  · have admits : heard.Admits a gaps :=
      State.Admits.heardFrom ⟨admission, unchecked, lacked, room⟩ sender.toNat
    have accepted := State.arrive_accepted admits (.inl rfl) ((s.heardFrom_isOwn _ _).trans other)
    refine ⟨u.conclude_grows.jobs.subset ?_, ?_, ?_, fun i place sl slot => ?_⟩
    · rw [heard.takeCopy_jobs a, accepted]
      exact List.mem_append_right _ (List.mem_singleton_self _)
    · rw [holding, accepted, State.accept_holding (a := a) (size.symm ▸ within), tracker]
    · rw [u.conclude_tables.gaps, tables.gaps, accepted]
      rfl
    · have before : ((heard.learn a.origin a.seq).accept a gaps).repair.slots[i]? = some (some sl) := by
        rw [← slot, ← s.heardFrom_repair sender.toNat]
        rfl
      have narrowed : u.conclude.tracker.narrowed sl =
          ((heard.learn a.origin a.seq).accept a gaps).tracker.narrowed sl := by
        have tables := tables.trans u.conclude_tables
        rw [accepted] at tables
        exact Tracker.narrowed_congr tables.holdings tables.gaps sl
      rw [narrowed]
      exact State.takeCopy_settled accepted place before
  · rw [holding]
    exact leaves.through _
  · rw [holding]
    exact leaves.other o others
  · have clear (e : Responder) (mem : e ∈ u.repair.responders) (same : e.origin = origin.toNat) :
        ∀ x ∈ e.list, x ≠ seq.toNat := fun x listed equal =>
      heard.takeCopy_clears a e mem same (show seq.toNat ∈ e.list by rw [← equal]; exact listed)
    exact State.conclude_lacks clear e mem same _ listed rfl
  · rw [presence]
    exact s.heardFrom_other _ others

end Sys2Proof

/-! ## A REFILL GONE frame (R92, R95, R96, R140, R145) -/

namespace Sys2Proof.Machine

/-! ### The offers of a declared range (R95, R96, R140) -/

/-- What the offers of holes leave of the holdings: held-through and known high, and the holdings of
other origins. -/
structure State.Declares (o : Nat) (s t : State) : Prop where
  leaves : s.tracker.LeavesThrough t.tracker o
  known : (t.tracker.holding o).known = (s.tracker.holding o).known

theorem State.Declares.of_tables {s t : State} (o : Nat) (h : s.KeepsTables t) : s.Declares o t :=
  ⟨.of_eq o h.holdings, by rw [Tracker.holding, h.holdings]; rfl⟩

theorem State.Declares.trans {o : Nat} {s t u : State} (a : s.Declares o t) (b : t.Declares o u) :
    s.Declares o u := ⟨a.leaves.trans b.leaves, b.known.trans a.known⟩

theorem State.offerHole_declares {s t : State} {o first last : Nat}
    (offered : s.offerHole o first last = some t) : s.Declares o t := by
  obtain ⟨-, -, -, rfl⟩ := State.offerHole_some offered
  have change := Tracker.LeavesThrough.change s.tracker o
    (f := fun h => { h with accepted := max h.accepted last }) fun _ => rfl
  exact ⟨change.trans (.of_eq o rfl), s.tracker.holding_change_field Holding.known o o fun _ => rfl⟩

theorem State.declareGone_declares (s : State) (o first last : Nat) :
    s.Declares o (s.declareGone o first last) := by
  refine foldl_rel (fun s => .of_tables o (.refl s)) .trans (fun s r => ?_) _ s
  split
  · next offered =>
    exact (State.offerHole_declares offered).trans (.of_tables o (State.holeAdmitted_tables _ _ _ _))
  · exact .of_tables o (.refl s)

/-- Of the wants of an origin, a range above highest accepted meets the tail gap alone. -/
theorem Tracker.Ok.wants_above {t : Tracker} (h : t.Ok) {o first last : Nat}
    (above : (t.holding o).accepted < first) (ordered : first ≤ last)
    (known : last ≤ (t.holding o).known) :
    (t.wantsOf o).filterMap (Run.within first last) = [⟨o, first, last⟩] := by
  have interior : (t.gaps.filter (·.origin = o)).filterMap (Run.within first last) = [] := by
    refine List.filterMap_eq_nil_iff.2 fun r mem => if_neg ?_
    obtain ⟨entry, origin⟩ := List.mem_filter.1 mem
    have below := (h.gaps r entry).2
    rw [of_decide_eq_true origin] at below
    omega
  have tail : Run.within first last ⟨o, (t.holding o).accepted + 1, (t.holding o).known⟩ =
      some ⟨o, first, last⟩ := by
    have low : max ((t.holding o).accepted + 1) first = first := by omega
    have high : min (t.holding o).known last = last := by omega
    unfold Run.within
    rw [low, high, if_pos ordered]
  rw [Tracker.wantsOf, List.filterMap_append, interior, if_pos (by omega), List.nil_append,
    List.filterMap_cons, tail]
  rfl

/-- A hole above highest accepted takes at most one gap entry more (R96). -/
theorem Tracker.Ok.gapsAfterHole_above {t : Tracker} (h : t.Ok) {o first : Nat} (last : Nat)
    (above : (t.holding o).accepted < first) :
    (t.gapsAfterHole o first last).length ≤ t.gaps.length + 1 := by
  have whole : cutRuns t.gaps o first last = t.gaps := by
    have missed : ∀ r ∈ t.gaps, r.cut o first last = [r] := fun r mem => if_neg fun meets => by
      have below := (h.gaps r mem).2
      rw [meets.1] at below
      omega
    rw [cutRuns_eq, List.flatMap_congr missed, List.flatMap_singleton']
  unfold Tracker.gapsAfterHole
  dsimp only
  rw [whole]
  split
  · rw [(insertRun_perm _ _).length_eq, List.length_cons]
  · exact Nat.le_succ _

/-- A range above highest accepted is admitted, as one HOLE job, when admission is open and a gap entry
is free (R95, R96, R140). -/
theorem State.declareGone_above {s : State} (h : s.tracker.Ok) {o first last : Nat}
    (above : (s.tracker.holding o).accepted < first) (ordered : first ≤ last)
    (known : last ≤ (s.tracker.holding o).known) (opened : s.admissionOpen = true)
    (room : s.tracker.gaps.length < 32) :
    ∃ t, s.offerHole o first last = some t ∧
      s.declareGone o first last = t.holeAdmitted o first last := by
  have wanted : s.tracker.rangeWanted o first last = true := by
    rw [Tracker.rangeWanted, decide_eq_true above, decide_eq_true known]
    exact Bool.or_true _
  have fits : (s.tracker.gapsAfterHole o first last).length ≤
      max Config.gapPlaces s.tracker.gaps.length :=
    (h.gapsAfterHole_above last above).trans (le_max_of_le_left room)
  have admitted : (s.tracker.rangeWanted o first last && s.admissionOpen
      && decide ((s.tracker.gapsAfterHole o first last).length
        ≤ max Config.gapPlaces s.tracker.gaps.length)) = true := by
    rw [wanted, opened, decide_eq_true fits]
    rfl
  have offered : ∃ t, s.offerHole o first last = some t := ⟨_, if_pos admitted⟩
  obtain ⟨t, offered⟩ := offered
  refine ⟨t, offered, ?_⟩
  rw [State.declareGone, h.wants_above above ordered known, List.foldl_cons, List.foldl_nil, offered]

/-- What such an admission leaves behind it. -/
theorem State.offerHole_job {s t : State} {o first last : Nat} (within : o < s.tracker.holdings.length)
    (offered : s.offerHole o first last = some t) :
    (⟨.hole o first last, .declared⟩ : Job) ∈ t.writer.jobs ∧
      (t.tracker.holding o).accepted = max (s.tracker.holding o).accepted last := by
  obtain ⟨-, -, -, rfl⟩ := State.offerHole_some offered
  refine ⟨List.mem_append_right _ (List.mem_singleton_self _), ?_⟩
  exact congrArg Holding.accepted ((Tracker.holding_change _ _ _ _ within).trans (if_pos rfl))

/-! ### The hand-on -/

section Gone

variable (s : State) (o first last : Nat)

theorem State.takeGone_rests : s.Rests (s.takeGone o first last) :=
  (s.learn_rests o last).trans
    ((State.declareGone_keeps _ _ _ _).trans (State.cancelRefill_keeps _ _ _)).rests

theorem State.takeGone_framer : (s.takeGone o first last).line.framer = s.line.framer :=
  ((State.declareGone_keeps _ _ _ _).trans (State.cancelRefill_keeps _ _ _)).framer

theorem State.takeGone_tables :
    ((s.learn o last).declareGone o first last).KeepsTables (s.takeGone o first last) :=
  State.cancelRefill_tables _ _ _

theorem State.takeGone_jobs : (s.takeGone o first last).writer.jobs =
    ((s.learn o last).declareGone o first last).writer.jobs :=
  (State.cancelRefill_still _ _ _).jobs

theorem State.takeGone_clears : ∀ e ∈ (s.takeGone o first last).repair.responders, e.origin = o →
    ∀ seq ∈ e.list, ¬ (first ≤ seq ∧ seq ≤ last) := by
  intro e mem origin seq listed inside
  have kept := State.cancelRefill_clears _ o _ e mem origin seq listed
  simp [inside] at kept

/-- The holdings after a GONE, but for the own highest accepted (R92, R96). -/
theorem State.takeGone_holdings_left : s.tracker.LeavesThrough (s.takeGone o first last).tracker o :=
  ((s.learn_leavesThrough o last).trans (State.declareGone_declares _ _ _ _).leaves).trans
    (.of_eq o (s.takeGone_tables o first last).holdings)

variable {s o}

/-- A value of another station's stream is learned whole (R92). -/
theorem State.learn_known (within : o < s.tracker.holdings.length) (other : s.isOwn o = false)
    (v : Nat) :
    ((s.learn o v).tracker.holding o).known = max (s.tracker.holding o).known v := by
  have learned : ((s.learn o v).tracker.holding o).known =
      max (s.tracker.holding o).known (s.learnable o v) :=
    congrArg Holding.known ((Tracker.holding_change _ _ _ _ within).trans (if_pos rfl))
  have learnable : s.learnable o v = v := by
    rw [State.learnable, other]
    rfl
  rw [learned, learnable]

theorem State.takeGone_known (within : o < s.tracker.holdings.length) (other : s.isOwn o = false) :
    ((s.takeGone o first last).tracker.holding o).known = max (s.tracker.holding o).known last := by
  have kept := (State.declareGone_declares (s.learn o last) o first last).trans
    (.of_tables o (s.takeGone_tables o first last))
  rw [kept.known, State.learn_known within other]

variable {first last}

/-- A range above highest accepted becomes a HOLE job when admission is open and a gap entry is free
(R95, R96, R140). -/
theorem State.takeGone_above (tracking : s.tracker.Ok) (within : o < 16) (other : s.isOwn o = false)
    (above : (s.tracker.holding o).accepted < first) (ordered : first ≤ last)
    (opened : s.admissionOpen = true) (room : s.tracker.gaps.length < 32) :
    (⟨.hole o first last, .declared⟩ : Job) ∈ (s.takeGone o first last).writer.jobs ∧
      ((s.takeGone o first last).tracker.holding o).accepted = last := by
  have size : (s.learn o last).tracker.holdings.length = 16 :=
    (List.length_modify _ _ _).trans tracking.length
  have accepted := s.learn_accepted o last o
  have known : last ≤ ((s.learn o last).tracker.holding o).known := by
    rw [State.learn_known (tracking.length.symm ▸ within) other]
    exact le_max_right _ _
  obtain ⟨t, offered, admitted⟩ := State.declareGone_above (State.learn_ok tracking o last)
    (by rw [accepted]; exact above) ordered known opened room
  obtain ⟨job, raised⟩ := State.offerHole_job (size.symm ▸ within) offered
  refine ⟨?_, ?_⟩
  · rw [s.takeGone_jobs, admitted, (State.holeAdmitted_still _ _ _ _).jobs]
    exact job
  · have tables := (t.holeAdmitted_tables o first last).holdings
    rw [Tracker.holding, (s.takeGone_tables o first last).holdings, admitted, tables]
    refine raised.trans ?_
    rw [accepted]
    omega

end Gone

theorem execRefillGoneFrame_handedOn {s : State} {sender : StationNumber} {requester origin : Byte}
    {first last : Word} (follows : s.follows = true) (onLine : s.mode.onLine = true)
    (good : (Frame.gone sender requester origin first last).fieldsGood s.clusterSize = true) :
    exec (.refillGoneFrame sender requester origin first last) s = .next
      ((s.heardFrom sender.toNat).takeGone origin.toNat first.toNat last.toNat).conclude :=
  congrArg Host.Outcome.next (State.hearFrame_eq follows onLine good)

end Sys2Proof.Machine

namespace Sys2Proof

open Machine

/-- Settles O25: learning, the offers of the wants in the range and the cancelling of lists, each carried
through the end of the event. -/
theorem refillGoneTaken : Obligations.RefillGoneTaken := by
  intro s sender requester origin first last peers tracking follows onLine good other
  let heard := s.heardFrom sender.toNat
  let u := heard.takeGone origin.toNat first.toNat last.toNat
  have ⟨within, ordered⟩ : origin.toNat < 16 ∧ first.toNat ≤ last.toNat := by
    simp only [Frame.fieldsGood, Bool.and_eq_true, decide_eq_true_eq] at good
    obtain ⟨-, ⟨⟨⟨-, within⟩, -⟩, ordered⟩, -⟩ := good
    exact ⟨within.trans_le tracking.clusterSize, ordered⟩
  have tracker : heard.tracker = s.tracker := s.heardFrom_tracker _
  have ok : heard.tracker.Ok := by
    rw [tracker]
    exact tracking.tracker
  have other : heard.isOwn origin.toNat = false := (s.heardFrom_isOwn _ _).trans other
  have leaves : s.tracker.LeavesThrough u.tracker origin.toNat :=
    tracker ▸ heard.takeGone_holdings_left origin.toNat first.toNat last.toNat
  refine ⟨u.conclude, execRefillGoneFrame_handedOn follows onLine good, ?_, ?_, ?_, fun o others => ?_,
    State.conclude_lacks (heard.takeGone_clears origin.toNat first.toNat last.toNat),
    fun above opened room => ?_,
    (s.heardFrom_rests _).trans ((heard.takeGone_rests _ _ _).trans u.conclude_keeps.rests)⟩
  · rw [u.conclude_keeps.framer, heard.takeGone_framer]
    exact s.heardFrom_framer _
  · rw [State.conclude_holding, State.takeGone_known _ _ (ok.length.symm ▸ within) other, tracker]
  · rw [State.conclude_holding]
    exact leaves.through _
  · rw [State.conclude_holding]
    exact leaves.other o others
  · rw [← tracker] at above room
    obtain ⟨job, accepted⟩ := State.takeGone_above ok within other above ordered
      ((s.heardFrom_admission _).trans opened) room
    refine ⟨u.conclude_grows.jobs.subset job, ?_⟩
    rw [State.conclude_holding]
    exact accepted

end Sys2Proof

/-! ## A SUBMIT that is taken (R93, R101, R102, R157) -/

namespace Sys2Proof.Machine

/-! ### The own record's acceptance (R93) -/

section Commit

variable {s t : State} {a : Arrival} {gaps : List Run}

/-- A local commit that the gap table takes, by the form of its update (R93). -/
theorem State.takeCommit_some (room : s.tracker.gapsAfter a.origin a.seq = some gaps) :
    s.takeCommit a = some ((s.setTracker { s.tracker.change a.origin fun h =>
        { h with accepted := max h.accepted a.seq, known := max h.known a.seq } with
      gaps := gaps
      pending := s.tracker.pending ++ [.data a.origin a.seq a.check false] }).queueJob
        ⟨.data a.origin a.tag a.seq a.payload a.check, .commit⟩) := by
  rw [State.takeCommit, room]
  rfl

/-- What a local commit changes: the gap table, the pending list, one holding and the job queue. -/
theorem State.takeCommit_keeps (room : s.tracker.gapsAfter a.origin a.seq = some gaps)
    (taken : s.takeCommit a = some t) : s.Keeps t := by
  rw [State.takeCommit_some room] at taken
  cases taken
  constructor <;> rfl

theorem State.takeCommit_job (room : s.tracker.gapsAfter a.origin a.seq = some gaps)
    (taken : s.takeCommit a = some t) :
    (⟨.data a.origin a.tag a.seq a.payload a.check, .commit⟩ : Job) ∈ t.writer.jobs := by
  rw [State.takeCommit_some room] at taken
  cases taken
  exact List.mem_append_right _ (List.mem_singleton_self _)

theorem State.takeCommit_lists (room : s.tracker.gapsAfter a.origin a.seq = some gaps)
    (taken : s.takeCommit a = some t) :
    t.tracker.gaps = gaps ∧ t.tracker.excess = s.tracker.excess := by
  rw [State.takeCommit_some room] at taken
  cases taken
  exact ⟨rfl, rfl⟩

/-- A commit above highest accepted brings it to the seq. -/
theorem State.takeCommit_holding (room : s.tracker.gapsAfter a.origin a.seq = some gaps)
    (taken : s.takeCommit a = some t) (within : a.origin < s.tracker.holdings.length)
    (above : (s.tracker.holding a.origin).accepted < a.seq) :
    t.tracker.holding a.origin = { s.tracker.holding a.origin with
      accepted := a.seq, known := max (s.tracker.holding a.origin).known a.seq } := by
  rw [State.takeCommit_some room] at taken
  cases taken
  have raised := (Tracker.holding_change s.tracker a.origin a.origin (fun h =>
    { h with accepted := max h.accepted a.seq, known := max h.known a.seq }) within).trans (if_pos rfl)
  rw [Nat.max_eq_right above.le] at raised
  exact raised

theorem State.takeCommit_other (room : s.tracker.gapsAfter a.origin a.seq = some gaps)
    (taken : s.takeCommit a = some t) {o : Nat} (other : o ≠ a.origin) :
    t.tracker.holding o = s.tracker.holding o := by
  rw [State.takeCommit_some room] at taken
  cases taken
  exact Tracker.holding_change_ne _ _ _ _ other

end Commit

/-! ### The submit queue (R102, R107) -/

/-- The confirmation test by its parts, an entry that it does not test among those that stay (R108). -/
theorem State.confirmTest_untested {s : State} {e : Entry} (mem : e ∈ s.submission.queue)
    (untested : s.testHolds e = false) : e ∈ s.confirmTest.submission.queue := by
  unfold State.confirmTest
  split
  · exact mem
  · obtain ⟨d, r, form, -⟩ := declareDurable_form (s.submission.queue.filter s.testHolds)
      (s.setSubmission { s.submission with queue := s.submission.queue.filter fun e => !s.testHolds e })
    dsimp only
    rw [form]
    exact List.mem_filter.2 ⟨mem, by rw [untested]; rfl⟩

/-- The state of a SUBMIT taken, before the test of R107: the entry, the raised counters and the
answer (R102). -/
def State.submitted (s : State) (a : Arrival) : State :=
  let b := s.submission
  let t := s.setSubmission { b with
    queue := b.queue ++ [⟨b.ticket, a.seq, a.tag, a.payload, a.check, .committing, 0, false⟩]
    nextSeq := some (a.seq + 1)
    ticket := b.ticket + 1 }
  t.setPort { t.port with
    result := ⟨.ok, some HostCommand.submit.code, some (b.ticket, a.seq)⟩ }

/-- A SUBMIT taken changes the Submission Controller, the command result and the notices handed over;
the durable mark does not fall. -/
theorem State.submitTaken_form (s : State) (a : Arrival) :
    ∃ q d r, s.submitTaken a = ((s.submitted a).setSubmission
      { (s.submitted a).submission with queue := q, durable := d }).setRaised r ∧
      s.submission.durable ≤ d := by
  obtain ⟨q, d, r, form, -, durable⟩ := (s.submitted a).confirmTest_form
  exact ⟨q, d, r, form, durable⟩

section Taken

variable (s : State) (a : Arrival)

theorem State.submitTaken_entry :
    (⟨s.submission.ticket, a.seq, a.tag, a.payload, a.check, .committing, 0, false⟩ : Entry) ∈
      (s.submitTaken a).submission.queue :=
  State.confirmTest_untested (s := s.submitted a)
    (List.mem_append_right _ (List.mem_singleton_self _)) rfl

theorem State.submitTaken_counters :
    (s.submitTaken a).submission.nextSeq = some (a.seq + 1) ∧
    (s.submitTaken a).submission.ticket = s.submission.ticket + 1 ∧
    (s.submitTaken a).submission.kept = s.submission.kept ∧
    s.submission.durable ≤ (s.submitTaken a).submission.durable := by
  obtain ⟨q, d, r, form, durable⟩ := s.submitTaken_form a
  rw [form]
  exact ⟨rfl, rfl, rfl, durable⟩

theorem State.submitTaken_blocks :
    (s.submitTaken a).tracker = s.tracker ∧ (s.submitTaken a).writer = s.writer := by
  obtain ⟨q, d, r, form, -⟩ := s.submitTaken_form a
  rw [form]
  exact ⟨rfl, rfl⟩

/-- The Submission Controller's state and the command result put into a state. -/
def State.answeredBy (s : State) (b : Submission) (r : CommandResult) : State :=
  { s with submission := b, port := { s.port with result := r } }

theorem State.Keeps.answeredBy {s t : State} (h : s.Keeps t) (b : Submission) (r : CommandResult) :
    (s.answeredBy b r).Keeps (t.answeredBy b r) := by
  obtain ⟨⟩ := h
  constructor <;> first | assumption | rfl

theorem State.submitTaken_keeps :
    (s.answeredBy (s.submitTaken a).submission
      ⟨.ok, some 0xA4, some (s.submission.ticket, a.seq)⟩).Keeps (s.submitTaken a) := by
  obtain ⟨q, d, r, form, -⟩ := s.submitTaken_form a
  rw [form]
  constructor <;> rfl

end Taken

/-! ### The decision (R101) -/

section Decision

variable {s : State} {next : Nat}

/-- The conditions of R101 that the Submission Controller checks itself. -/
theorem State.submitCheck_admits {length : Nat} (active : s.mode = .active)
    (heard : s.line.muted = false) (nonempty : 1 ≤ length) (short : length ≤ 200)
    (counted : s.submission.nextSeq = some next) (left : next ≤ 0xFFFFFFFF)
    (room : s.segments.full = false) (place : s.submission.queue.length < 8) :
    s.submitCheck length = .ok next := by
  have payload : ¬ (length < 1 ∨ 200 < length) := by omega
  have seq : ¬ Config.maxSeq < next := Nat.not_lt.2 left
  have places : ¬ Config.submitPlaces ≤ s.submission.queue.length := Nat.not_le.2 place
  have audible : ¬ s.line.muted = true := by rw [heard]; exact Bool.false_ne_true
  have free : ¬ s.segments.full = true := by rw [room]; exact Bool.false_ne_true
  rw [State.submitCheck, if_neg (not_not.2 active), if_neg audible, if_neg payload, counted]
  dsimp only
  rw [if_neg seq, if_neg free, if_neg places]

/-- An own next seq above highest accepted finds room in the gap table when it is the next one, or an
entry is free (R88, R101). -/
theorem Tracker.gapsAfter_own {t : Tracker} {o : Nat}
    (room : next = (t.holding o).accepted + 1 ∨
      (t.holding o).accepted + 1 < next ∧ t.gaps.length < 32) :
    ∃ gaps, t.gapsAfter o next = some gaps ∧
      (next = (t.holding o).accepted + 1 → gaps = t.gaps) ∧
      ((t.holding o).accepted + 1 < next →
        gaps = insertRun ⟨o, (t.holding o).accepted + 1, next - 1⟩ t.gaps) := by
  obtain same | ⟨above, entry⟩ := room
  · exact ⟨_, t.gapsAfter_next same, fun _ => rfl, fun above => absurd same above.ne'⟩
  · refine ⟨_, (Tracker.gapsAfter_above above).trans (if_pos ?_), fun same => absurd same above.ne',
      fun _ => rfl⟩
    exact le_max_of_le_left entry

end Decision

/-- A SUBMIT of a station in ACTIVE is decided when its selection is complete (R148, R157). -/
theorem execSubmit_decided {s : State} (ready : s.PortReady) (active : s.mode = .active) (tag : Byte)
    (payload : List Byte) : exec (.submit tag payload .whole) s =
      .next ((s.setReturned Sdo.zeros).decideSubmit tag payload) := by
  have taken : HostCommand.submit.verdict s.mode = .taken := by
    rw [active]
    rfl
  refine congrArg Host.Outcome.next ?_
  rw [State.command_taken ready _ taken, State.drives_zeros taken rfl]

end Sys2Proof.Machine

namespace Sys2Proof

open Machine

/-- Settles O10: the checks pass, the commit is taken, and the entry joins; each carried through the end
of the event. -/
theorem submitTaken : Obligations.SubmitTaken := by
  intro s e tag payload next ready tracking enlisted active heard nonempty short counted left room place
    gap
  let decided := s.setReturned Sdo.zeros
  let a : Arrival := ⟨e.station, e.station, next, tag, payload,
    recordCheck .data (natByte e.station) tag (BitVec.ofNat 32 next) payload, false⟩
  have record : decided.ownRecord tag payload next = a := by
    have own : decided.ownNumber = e.station := by
      rw [State.ownNumber, show decided.enlistment = some e from enlisted]
    rw [State.ownRecord, own]
  obtain ⟨gaps, fits, same, inserted⟩ := Tracker.gapsAfter_own gap
  have fits : decided.tracker.gapsAfter a.origin a.seq = some gaps := fits
  obtain ⟨t, taken⟩ : ∃ t, decided.takeCommit a = some t := ⟨_, State.takeCommit_some fits⟩
  let u := t.submitTaken a
  have outcome : decided.decideSubmit tag payload = u.conclude := by
    rw [State.decideSubmit, State.submitCheck_admits (s := decided) active heard nonempty short counted
      left room place]
    dsimp only
    rw [record, taken]
  have within : a.origin < decided.tracker.holdings.length := by
    obtain ⟨below, stations⟩ := tracking.enlistment e enlisted
    exact (below.trans_le stations).trans_eq tracking.length.symm
  have before : t.submission = s.submission :=
    (State.takeCommit_submission taken : t.submission = decided.submission)
  have submission : u.conclude.submission = u.submission := u.conclude_keeps.submission
  obtain ⟨tracker, writer⟩ := t.submitTaken_blocks a
  obtain ⟨counter, ticket, kept, durable⟩ := t.submitTaken_counters a
  obtain ⟨table, excess⟩ := State.takeCommit_lists fits taken
  have holding (o : Nat) : u.conclude.tracker.holding o = t.tracker.holding o := by
    rw [State.conclude_holding, tracker]
  have gapTable : u.conclude.tracker.gaps = gaps := by
    rw [u.conclude_tables.gaps, tracker, table]
  have keeps := (((State.takeCommit_keeps fits taken).answeredBy u.submission _).trans
    (t.submitTaken_keeps a)).trans u.conclude_keeps
  rw [before] at keeps
  refine ⟨u.conclude, (execSubmit_decided ready active tag payload).trans (congrArg _ outcome),
    keeps.result, ?_, ?_, ?_, u.conclude_grows.jobs.subset ?_, ?_, fun o other => ?_,
    fun following => gapTable.trans (same following), fun above => gapTable.trans (inserted above), ?_,
    ?_, ?_, ?_⟩
  · rw [submission, counter]
  · rw [submission, ticket, before]
  · rw [submission, ← before]
    exact t.submitTaken_entry a
  · rw [writer]
    exact State.takeCommit_job fits taken
  · rw [holding]
    refine State.takeCommit_holding fits taken within ?_
    show (s.tracker.holding e.station).accepted < next
    omega
  · rw [holding]
    exact State.takeCommit_other fits taken other
  · rw [u.conclude_tables.excess, tracker, excess]
    rfl
  · rw [submission, ← before]
    exact durable
  · rw [submission, kept, before]
  · rw [submission]
    exact keeps

end Sys2Proof

/-! ## The taking of FORMAT (R98, R165, R178) -/

namespace Sys2Proof.Machine

/-! ### The end of an event off line -/

/-- Off line no reclaim starts (R56). -/
theorem State.scheduleErase_offLine {s : State} (off : s.mode.onLine = false) :
    s.Unreclaimed s.scheduleErase := by
  obtain same | ⟨k, -, -, requested⟩ | ⟨k, u, reclaims, -⟩ := s.scheduleErase_cases
  · rw [same]
    exact ⟨rfl, rfl⟩
  · rw [requested]
    exact ⟨rfl, rfl⟩
  · exact absurd (off.symm.trans reclaims.onLine) Bool.false_ne_true

theorem State.conclude_offLine {s : State} (off : s.mode.onLine = false) (jobs : s.writer.jobs = []) :
    s.Unreclaimed s.conclude := by
  have mode : s.scheduleErase.serve.mode.onLine = false := by
    rw [(State.serve_keeps _).mode, s.scheduleErase_keeps.mode, off]
  rw [State.conclude_eq, State.placed_offLine off jobs]
  exact (State.scheduleErase_offLine off).trans <| (State.serve_unreclaimed _).trans <|
    (State.scheduleErase_offLine mode).trans <| (State.serve_unreclaimed _).trans
      (State.checkSuspend_unreclaimed _)

/-- The erase context belongs to a segment, and no other claim waits. -/
structure State.ErasesAlone (s : State) (k : Nat) : Prop where
  demand : s.array.demand = false
  context : ∃ c, s.array.context = some c ∧ c.segment = k

section ErasesAlone

variable {s : State} {k : Nat} (alone : s.ErasesAlone k)
include alone

theorem State.serve_alone : s.serve.ErasesAlone k ∧ s.serve.segments = s.segments := by
  obtain ⟨demand, c, context, segment⟩ := alone
  obtain ⟨host, program, fetch⟩ := ArrayEngine.demand_eq_false.1 demand
  by_cases idle : s.array.activity = .idle
  · cases running : c.running with
    | false =>
      have started : s.serve = s.setArray { s.array with activity := .erase, context := some c.start } :=
        serveClaims_erase _ idle host program fetch context running
      rw [started]
      exact ⟨⟨demand, c.start, rfl, segment⟩, rfl⟩
    | true =>
      have rests : s.serve = s := by
        rw [State.serve, serveClaims, if_neg (not_not.2 idle), host, program, fetch, context]
        exact if_pos running
      rw [rests]
      exact ⟨⟨demand, c, context, segment⟩, rfl⟩
  · rw [State.serve_busy idle]
    exact ⟨⟨demand, c, context, segment⟩, rfl⟩

theorem State.checkSuspend_alone : s.checkSuspend.ErasesAlone k := by
  obtain ⟨demand, c, context, segment⟩ := alone
  by_cases running : s.array.activity = .erase
  · rw [State.checkSuspend_withdraw running context demand]
    exact ⟨demand, _, rfl, segment⟩
  · rw [State.checkSuspend_other running]
    exact ⟨demand, c, context, segment⟩

/-- Off line, with no job and no claim but the erase claim, the end of an event leaves the segment
table and keeps the erase in hand. -/
theorem State.conclude_alone (off : s.mode.onLine = false) (jobs : s.writer.jobs = []) :
    s.conclude.ErasesAlone k ∧ s.conclude.segments = s.segments := by
  have held : s.array.context ≠ none := by
    obtain ⟨-, c, context, -⟩ := alone
    rw [context]
    nofun
  obtain ⟨served, first⟩ := State.serve_alone alone
  obtain ⟨again, second⟩ := State.serve_alone served
  obtain ⟨demand, context⟩ := State.checkSuspend_alone again
  rw [State.conclude_held held, State.placed_offLine off jobs]
  exact ⟨⟨demand, context⟩, (State.checkSuspend_segments _).trans (second.trans first)⟩

end ErasesAlone

/-! ### The clearing (R178) -/

/-- The state that FORMAT clears, before its first erase is chosen. -/
def State.cleared (s : State) : State :=
  let t := (s.answer .ok HostCommand.format.code).setMode .formatting
  let t := t.setTracker Tracker.formatted
  let t := t.setWriter { t.writer with place := none, nextPosition := 1, releaseMark := 0 }
  let t := t.setSegments { t.segments with ownFloor := 0 }
  t.setSubmission { t.submission with durable := 0, kept := List.replicate 16 0, ticket := 0 }

/-- FORMAT taken, before the end of its event: it waits for the erase in hand, or requests its first. -/
def State.formatBegun (s : State) : State :=
  if s.array.context.isSome then s.cleared.setFormatNext (some 0) else s.cleared.formatStep 0

theorem State.formatted_eq (s : State) : s.formatted = s.formatBegun.conclude := rfl

/-- What FORMAT's choice of a segment changes: mode, progress, array and segment table. -/
theorem State.formatStep_form (s : State) (k : Nat) :
    ∃ m f a g, s.formatStep k = { s with mode := m, formatNext := f, array := a, segments := g } ∧
      g.ownFloor = s.segments.ownFloor ∧ (m = s.mode ∨ m = .unenlisted) := by
  unfold State.formatStep
  split
  · exact ⟨_, _, _, _, rfl, rfl, .inl rfl⟩
  · exact ⟨_, _, _, _, rfl, rfl, .inr rfl⟩

theorem State.formatStep_mode (s : State) : (s.formatStep 0).mode =
    if s.segments.table.all (·.state.isRetired) = true then .unenlisted else s.mode := by
  unfold State.formatStep
  rw [List.drop_zero]
  split
  · next i found =>
    obtain ⟨within, usable, -⟩ := List.findIdx?_eq_some_iff_getElem.1 found
    rw [if_neg fun all => ?_]
    · rfl
    · have retired := List.all_eq_true.1 all _ (List.getElem_mem within)
      rw [retired] at usable
      exact Bool.false_ne_true usable
  · next none =>
    rw [if_pos (List.all_eq_true.2 fun e mem => ?_)]
    · rfl
    · have retired := List.findIdx?_eq_none_iff.1 none e mem
      simpa using retired

section Begun

variable (s : State)

theorem State.formatBegun_form :
    ∃ m f a g, s.formatBegun = { s.cleared with mode := m, formatNext := f, array := a, segments := g } ∧
      g.ownFloor = 0 ∧ m.onLine = false := by
  unfold State.formatBegun
  split
  · exact ⟨_, _, _, _, rfl, rfl, rfl⟩
  · obtain ⟨m, f, a, g, form, floor, mode⟩ := s.cleared.formatStep_form 0
    refine ⟨m, f, a, g, form, floor, ?_⟩
    obtain rfl | rfl := mode <;> rfl

theorem State.formatBegun_mode : s.formatBegun.mode =
    if s.array.context = none ∧ s.segments.table.all (·.state.isRetired) = true then .unenlisted
      else .formatting := by
  unfold State.formatBegun
  cases context : s.array.context with
  | some c => rfl
  | none =>
    exact s.cleared.formatStep_mode.trans (if_congr (by rw [eq_self, true_and]; rfl) rfl rfl)

/-- The Stream Tracker and the own reclaimed floor are as after reset once FORMAT is taken (R98). -/
theorem State.formatted_tracker (jobs : s.writer.jobs = []) :
    s.formatted.tracker = Tracker.reset ∧ s.formatted.segments.ownFloor = 0 := by
  obtain ⟨m, f, a, g, form, floor, off⟩ := s.formatBegun_form
  have tracker : s.formatBegun.tracker = Tracker.reset := congrArg State.tracker form
  have left := State.conclude_offLine (s := s.formatBegun) (by rw [form]; exact off)
    (by rw [form]; exact jobs)
  have pending : s.formatBegun.conclude.tracker.pending = [] := by
    rw [State.conclude_pending, State.excessTest, tracker]
    exact congrArg Tracker.pending tracker
  obtain ⟨holdings, gaps, excess⟩ := s.formatBegun.conclude_tables
  have index := left.index
  rw [tracker] at holdings gaps excess index
  refine ⟨?_, left.ownFloor.trans (by rw [form]; exact floor)⟩
  show s.formatBegun.conclude.tracker = _
  revert holdings pending index gaps excess
  generalize s.formatBegun.conclude.tracker = t
  obtain ⟨_, _, _, _, _⟩ := t
  rintro rfl rfl rfl rfl rfl
  rfl

/-- What the taking of FORMAT leaves beyond the cleared blocks, the mode, its progress, the array and
the segment table. -/
theorem State.formatted_keeps :
    State.Keeps { s.cleared with mode := s.formatBegun.mode, formatNext := s.formatBegun.formatNext }
      s.formatted := by
  obtain ⟨m, f, a, g, form, -, -⟩ := s.formatBegun_form
  refine .trans (t := s.formatBegun) ?_ (State.conclude_keeps _)
  rw [form]
  constructor <;> rfl

variable {s}

/-- With an erase in hand FORMAT waits for its completion (R178). -/
theorem State.formatted_waits (jobs : s.writer.jobs = []) (demand : s.array.demand = false)
    (context : s.array.context ≠ none) :
    s.formatted.formatNext = some 0 ∧ s.formatted.segments.table = s.segments.table := by
  have begun : s.formatBegun = s.cleared.setFormatNext (some 0) :=
    if_pos (Option.isSome_iff_ne_none.2 context)
  obtain ⟨c, held⟩ := Option.ne_none_iff_exists'.1 context
  have alone : (s.cleared.setFormatNext (some 0)).ErasesAlone c.segment := ⟨demand, c, held, rfl⟩
  obtain ⟨-, table⟩ := State.conclude_alone alone rfl jobs
  rw [State.formatted_eq, begun]
  exact ⟨(State.conclude_keeps _).formatNext, by rw [table]; rfl⟩

/-- With none in hand the lowest-numbered segment that is not RETIRED is erased first (R178). -/
theorem State.formatted_erases (jobs : s.writer.jobs = []) (demand : s.array.demand = false)
    (context : s.array.context = none) {k : Nat} {e : Segment} (entry : s.segments.table[k]? = some e)
    (usable : e.state ≠ .retired)
    (lowest : ∀ i x, i < k → s.segments.table[i]? = some x → x.state = .retired) :
    s.formatted.formatNext = some (k + 1) ∧
      s.formatted.segments.table = s.segments.table.set k { e with state := .erasing } ∧
      (∃ c, s.formatted.array.context = some c ∧ c.segment = k) ∧
      (s.array.activity = .idle → s.formatted.array.activity = .erase) := by
  have begun : s.formatBegun = s.cleared.formatStep 0 := if_neg (by rw [context]; nofun)
  have before : ∀ i y, 0 ≤ i → i < k → s.segments.table[i]? = some y → y.state = .retired :=
    fun i y _ => lowest i y
  have step : s.cleared.formatStep 0 = (s.cleared.requestErase k).setFormatNext (some (k + 1)) :=
    State.formatStep_next (Nat.zero_le k) entry usable before
  have alone : ((s.cleared.requestErase k).setFormatNext (some (k + 1))).ErasesAlone k :=
    ⟨demand, _, rfl, rfl⟩
  obtain ⟨⟨-, erased⟩, table⟩ := State.conclude_alone alone rfl jobs
  have replaced : (s.cleared.requestErase k).segments.table =
      s.segments.table.set k { e with state := .erasing } := by
    show s.segments.table.modify k _ = _
    rw [List.modify_eq_set_getElem?, entry]
    rfl
  have runs (idle : s.array.activity = .idle) : s.formatted.array.activity = .erase := by
    rw [State.formatted_eq, begun]
    exact (State.formatStep_runs (s := s.cleared) rfl jobs idle demand (Nat.zero_le k) entry usable
      before).2.1
  refine ⟨?_, ?_, ?_, runs⟩ <;> rw [State.formatted_eq, begun, step]
  · exact (State.conclude_keeps _).formatNext
  · exact (congrArg Segments.table table).trans replaced
  · exact erased

end Begun

/-! ### The command (R165) -/

section Command

variable {s : State} (ready : s.PortReady) (mode : s.mode = .unenlisted)
include ready mode

/-- A FORMAT in UNENLISTED is decided when its selection is complete (R148, R152). -/
theorem State.command_unenlisted (body : Completed → State → State) :
    s.command .format .whole body = body (s.completed .format) (s.setReturned Sdo.zeros) := by
  have taken : HostCommand.format.verdict s.mode = .taken := by
    rw [mode]
    rfl
  rw [State.command_taken ready _ taken, State.drives_zeros taken rfl]

/-- A job that waits, or a PENDING slot, gives BUSY (R165). -/
theorem execFormat_busy (busy : s.writer.jobs ≠ [] ∨ ∃ target, s.port.slot = .pending target) :
    exec (.format .whole) s = .next (s.replied (.drives [] []) .busy 0xE7) := by
  refine congrArg Host.Outcome.next ?_
  rw [State.command_unenlisted ready mode]
  split
  · rfl
  · rfl
  · next none answered =>
    obtain waiting | ⟨target, asked⟩ := busy
    · exact absurd none waiting
    · exact absurd asked (answered target)

theorem execFormat_taken (jobs : s.writer.jobs = [])
    (answered : ∀ target, s.port.slot ≠ .pending target) :
    exec (.format .whole) s = .next (s.setReturned Sdo.zeros).formatted := by
  refine congrArg Host.Outcome.next ?_
  rw [State.command_unenlisted ready mode]
  split
  · next waiting => cases jobs.symm.trans waiting
  · next target _ asked => exact absurd asked (answered target)
  · rfl

end Command

end Sys2Proof.Machine

namespace Sys2Proof

open Machine

/-- Settles O14: BUSY, or the clearing and the choice of the first erase, each carried through the end of
the event. -/
theorem formatCommand : Obligations.FormatCommand := by
  intro s ready mode
  refine ⟨execFormat_busy ready mode, fun jobs answered => ?_⟩
  let u := s.setReturned Sdo.zeros
  obtain ⟨tracker, floor⟩ := u.formatted_tracker jobs
  have keeps := u.formatted_keeps
  have entered : u.formatted.mode = _ := keeps.mode.trans u.formatBegun_mode
  refine ⟨u.formatted, execFormat_taken ready mode jobs answered, keeps.result, entered, fun o => ?_,
    by rw [tracker]; rfl, by rw [tracker]; rfl, by rw [tracker]; rfl, by rw [tracker]; rfl,
    State.formatted_waits (s := u) jobs, fun demand context k e entry usable lowest =>
      State.formatted_erases (s := u) jobs demand context entry usable lowest,
    keeps.nextPosition, keeps.releaseMark, floor, keeps.submission, keeps.flash, keeps.presence,
    keeps.enlistment, keeps.framer⟩
  rw [tracker, Tracker.holding, List.getD_eq_getElem?_getD]
  exact List.getElem?_getD_replicate_default_eq _ 16 o

end Sys2Proof

/-! ## A SUBMIT that is refused (R101, R157) -/

namespace Sys2Proof.Machine

/-! ### The order of the conditions (R101) -/

section Order

variable {s : State} {length next : Nat}

theorem State.submitCheck_mode (refused : s.mode ≠ .active ∨ s.line.muted = true) :
    s.submitCheck length = .error .refusedMode := by
  unfold State.submitCheck
  split
  · rfl
  · next active => exact if_pos (refused.resolve_left active)

variable (active : s.mode = .active) (heard : s.line.muted = false)
include active heard

theorem State.submitCheck_length (outside : length = 0 ∨ 200 < length) :
    s.submitCheck length = .error .badArg := by
  rw [State.submitCheck, if_neg (not_not.2 active), if_neg (Bool.eq_false_iff.1 heard),
    if_pos (outside.imp_left Nat.lt_one_iff.2)]

/-- The conditions behind those of the mode and the payload. -/
theorem State.submitCheck_counted (nonempty : 1 ≤ length) (short : length ≤ 200)
    (counted : s.submission.nextSeq = some next) : s.submitCheck length =
      if 0xFFFFFFFF < next then .error .exhausted
      else if s.segments.full then .error .journalFull
      else if 8 ≤ s.submission.queue.length then .error .queueFull
      else .ok next := by
  have payload : ¬ (length < 1 ∨ 200 < length) := by omega
  rw [State.submitCheck, if_neg (not_not.2 active), if_neg (Bool.eq_false_iff.1 heard),
    if_neg payload, counted]

end Order

/-- A gap table without a free entry takes no commit that needs one (R84, R88, R93). -/
theorem State.takeCommit_none {s : State} {a : Arrival}
    (above : (s.tracker.holding a.origin).accepted + 1 < a.seq) (crowded : 32 ≤ s.tracker.gaps.length) :
    s.takeCommit a = none := by
  rw [State.takeCommit, Tracker.gapsAfter_above above, if_neg (by omega)]

/-! ### The command (R101, R157) -/

section Refused

variable {s : State} (ready : s.PortReady) (serves : s.mode.serves) {tag : Byte} {payload : List Byte}
include ready serves

/-- A SUBMIT is decided when its selection is complete, in every mode that decodes it (R152, R157). -/
theorem execSubmit_decoded : exec (.submit tag payload .whole) s =
    .next ((s.setReturned Sdo.zeros).decideSubmit tag payload) := by
  have taken : HostCommand.submit.verdict s.mode = .taken := by
    obtain mode | mode | mode := serves <;> rw [mode] <;> rfl
  refine congrArg Host.Outcome.next ?_
  rw [State.command_taken ready _ taken, State.drives_zeros taken rfl]

theorem execSubmit_refused {code : Code} (refused : s.submitCheck payload.length = .error code) :
    exec (.submit tag payload .whole) s = .next (s.replied (.drives [] []) code 0xA4) := by
  have refused : (s.setReturned Sdo.zeros).submitCheck payload.length = .error code := refused
  rw [execSubmit_decoded ready serves, State.decideSubmit, refused]
  rfl

theorem execSubmit_crowded {next : Nat} (passed : s.submitCheck payload.length = .ok next)
    (above : (s.tracker.holding s.ownNumber).accepted + 1 < next)
    (crowded : 32 ≤ s.tracker.gaps.length) :
    exec (.submit tag payload .whole) s = .next (s.replied (.drives [] []) .queueFull 0xA4) := by
  let decided := s.setReturned Sdo.zeros
  have passed : decided.submitCheck payload.length = .ok next := passed
  have untaken : decided.takeCommit (decided.ownRecord tag payload next) = none :=
    State.takeCommit_none above crowded
  rw [execSubmit_decoded ready serves, State.decideSubmit, passed]
  dsimp only
  rw [untaken]
  rfl

end Refused

end Sys2Proof.Machine

namespace Sys2Proof

open Machine

/-- Settles O11: each condition of R101 in its order, the gap table's last. -/
theorem submitRefused : Obligations.SubmitRefused := by
  intro s tag payload ready serves
  refine ⟨fun mode => execSubmit_refused ready serves (State.submitCheck_mode mode),
    fun active heard => ⟨fun outside => execSubmit_refused ready serves
      (State.submitCheck_length active heard outside), fun nonempty short next counted => ?_⟩⟩
  have order := State.submitCheck_counted active heard nonempty short counted
  refine ⟨fun exhausted => execSubmit_refused ready serves (order.trans (if_pos exhausted)),
    fun left => ?_⟩
  rw [if_neg (Nat.not_lt.2 left)] at order
  refine ⟨fun full => execSubmit_refused ready serves (order.trans (if_pos full)), fun room => ?_⟩
  rw [if_neg (Bool.eq_false_iff.1 room)] at order
  refine ⟨fun places => execSubmit_refused ready serves (order.trans (if_pos places)),
    fun place above crowded => ?_⟩
  rw [if_neg (Nat.not_le.2 place)] at order
  exact execSubmit_crowded ready serves order above crowded

end Sys2Proof

/-! ## The end of JOINING (R103, R128, R182) -/

namespace Sys2Proof

open Machine

/-- Settles O35: the state that adopts the own next seq, carried through the end of the event. -/
theorem joiningEnds : Obligations.JoiningEnds := by
  intro s e mode running enlisted
  have keeps := s.joined.conclude_keeps
  have own : s.ownNumber = e.station := by rw [State.ownNumber, enlisted]
  have adopted : s.adopted = max (s.tracker.holding e.station).accepted
      (s.tracker.holding e.station).known + 1 := by rw [State.adopted, own]
  have submission : s.joined.conclude.submission = { s.submission with nextSeq := some s.adopted } :=
    keeps.submission
  have presence : s.joined.conclude.presence = { s.presence with joiningTimer := false } :=
    keeps.presence
  refine ⟨s.joined.conclude, congrArg Host.Outcome.next (if_pos ⟨mode, running⟩), keeps.mode, presence,
    submission.trans (by rw [adopted]),
    .trans (t := s.joined) ⟨rfl, rfl, rfl⟩ s.joined.conclude_tables, ?_⟩
  rw [presence, submission]
  exact .trans (t := s.joined) (by constructor <;> rfl) keeps

end Sys2Proof

/-! ## The confirmation wait (R110) -/

namespace Sys2Proof.Machine

/-- What an unanswered entry changes: the queue, and with it the notices handed over. -/
theorem State.unanswered_keeps (s : State) (e : Entry) :
    State.Keeps { s with submission := (s.unanswered e).submission } (s.unanswered e) ∧
    s.KeepsTables (s.unanswered e) := by
  unfold State.unanswered
  split <;> exact ⟨by constructor <;> rfl, by constructor <;> rfl⟩

theorem State.unanswered_again {s : State} {e : Entry} (left : e.sends < 3) :
    (s.unanswered e).submission = { s.submission with
      queue := s.submission.queue.map fun x =>
        if x.seq = e.seq then { x with stage := .sending } else x } := by
  rw [State.unanswered, if_pos left]
  rfl

theorem State.unanswered_gone {s : State} {e : Entry} (spent : 3 ≤ e.sends) :
    (s.unanswered e).submission = { s.submission with
      queue := s.submission.queue.filter fun x => x.seq ≠ e.seq } := by
  rw [State.unanswered, if_neg (Nat.not_lt.2 spent)]
  rfl

theorem execConfirmationWaitExpiry_waiting {s : State} {seq : Word} {e : Entry}
    (found : s.submission.entry? seq.toNat = some e) (waiting : e.stage = .waiting) :
    exec (.confirmationWaitExpiry seq) s = .next (s.unanswered e).conclude := by
  show execConfirmationWaitExpiry seq s = _
  rw [execConfirmationWaitExpiry, found]
  exact congrArg Host.Outcome.next (if_pos waiting)

end Sys2Proof.Machine

namespace Sys2Proof

open Machine

/-- Settles O36: by the send count of the entry found, carried through the end of the event. -/
theorem confirmationWaitEnds : Obligations.ConfirmationWaitEnds := by
  intro s seq e found waiting
  obtain ⟨keeps, tables⟩ := s.unanswered_keeps e
  have named : e.seq = seq.toNat := by simpa using List.find?_some found
  have submission : (s.unanswered e).conclude.submission = (s.unanswered e).submission :=
    (State.conclude_keeps _).submission
  refine ⟨(s.unanswered e).conclude, execConfirmationWaitExpiry_waiting found waiting, fun left => ?_,
    fun spent => ?_, tables.trans (State.conclude_tables _), ?_⟩
  · rw [submission, State.unanswered_again left, named]
  · rw [submission, State.unanswered_gone spent, named]
  · rw [submission]
    exact keeps.trans (State.conclude_keeps _)

end Sys2Proof

/-! ## The confirmation test (R104, R107 to R109) -/

namespace Sys2Proof.Machine

/-! ### Declarations (R108, R109) -/

section Declared

variable (l : List Entry) (s : State)

/-- Declarations hand over one notice each, in order. -/
theorem declareDurables_raised : (l.foldl State.declareDurable s).raised =
    s.raised ++ l.map fun e => (.submissionController, .durable e.ticket e.seq) := by
  induction l generalizing s with
  | nil => exact (List.append_nil _).symm
  | cons e l ih => exact (ih (s.declareDurable e)).trans (List.append_assoc _ [_] _)

theorem declareDurables_queue :
    (l.foldl State.declareDurable s).submission.queue = s.submission.queue := by
  obtain ⟨d, r, form, -⟩ := declareDurable_form l s
  rw [form]
  rfl

theorem declareDurables_rises :
    s.submission.durable ≤ (l.foldl State.declareDurable s).submission.durable := by
  obtain ⟨d, r, form, rises⟩ := declareDurable_form l s
  rw [form]
  exact rises

/-- The durable mark reaches the seq of every entry declared. -/
theorem declareDurables_reaches {l : List Entry} {e : Entry} (mem : e ∈ l) :
    e.seq ≤ (l.foldl State.declareDurable s).submission.durable := by
  induction l generalizing s with
  | nil => cases mem
  | cons x l ih =>
    obtain rfl | behind := List.mem_cons.1 mem
    · exact (Nat.le_max_right s.submission.durable _).trans (declareDurables_rises l (s.declareDurable e))
    · exact ih (s.declareDurable x) behind

end Declared

/-! ### The test (R107, R108) -/

/-- The count of R107, once the own next seq is known. -/
theorem State.confirmationCount_counted {s : State} {next : Nat}
    (counted : s.submission.nextSeq = some next) (seq : Nat) : s.confirmationCount seq =
      ((List.range s.clusterSize).filter fun p => !s.isOwn p &&
        decide (seq ≤ (s.presence.peer p).reported.getD s.ownNumber 0) &&
        decide ((s.presence.peer p).reported.getD s.ownNumber 0 < next)).length := by
  rw [State.confirmationCount, counted]
  dsimp only
  rw [List.countP_eq_length_filter]
  refine congrArg List.length (List.filter_congr fun p mem => ?_)
  rw [State.confirms, State.isPeer, decide_eq_true (List.mem_range.1 mem), Bool.true_and]

section Tested

variable {s : State} (target : 1 ≤ s.replicationTarget)
include target

/-- With W of 1 or more the entries whose test holds leave the queue and are declared (R108). -/
theorem State.confirmTest_declares : s.confirmTest =
    (s.submission.queue.filter s.testHolds).foldl State.declareDurable
      (s.setSubmission { s.submission with
        queue := s.submission.queue.filter fun e => !s.testHolds e }) :=
  if_neg (Nat.pos_iff_ne_zero.1 target)

theorem State.confirmTest_queue :
    s.confirmTest.submission.queue = s.submission.queue.filter fun e => !s.testHolds e := by
  rw [State.confirmTest_declares target, declareDurables_queue]
  rfl

theorem State.confirmTest_raised : s.confirmTest.raised = s.raised ++
    (s.submission.queue.filter s.testHolds).map fun e =>
      (.submissionController, .durable e.ticket e.seq) := by
  rw [State.confirmTest_declares target, declareDurables_raised]
  rfl

theorem State.confirmTest_reaches {e : Entry} (mem : e ∈ s.submission.queue)
    (holds : s.testHolds e = true) : e.seq ≤ s.confirmTest.submission.durable := by
  rw [State.confirmTest_declares target]
  exact declareDurables_reaches _ (List.mem_filter.2 ⟨mem, holds⟩)

end Tested

theorem State.confirmTest_durable (s : State) :
    s.submission.durable ≤ s.confirmTest.submission.durable := by
  obtain ⟨q, d, r, form, -, rises⟩ := s.confirmTest_form
  rw [form]
  exact rises

theorem State.confirmTest_nextSeq (s : State) :
    s.confirmTest.submission.nextSeq = s.submission.nextSeq := by
  obtain ⟨q, d, r, form, -, -⟩ := s.confirmTest_form
  rw [form]
  rfl

/-! ### The commit completion (R104, R109) -/

section Committed

variable {s : State} {seq : Nat} {e : Entry} (found : s.submission.entry? seq = some e)
include found

theorem State.commitDone_tests (target : 1 ≤ s.replicationTarget) : s.commitDone seq =
    (s.changeEntry seq fun x => { x with stage := .sending }).confirmTest := by
  rw [State.commitDone, found]
  exact if_neg (Nat.pos_iff_ne_zero.1 target)

theorem State.commitDone_declares (target : s.replicationTarget = 0) : s.commitDone seq =
    (s.changeEntry seq fun x => { x with stage := .sending, declared := true }).declareDurable e := by
  rw [State.commitDone, found]
  exact if_pos target

end Committed

end Sys2Proof.Machine

namespace Sys2Proof

open Machine

/-- Settles O50: the statement's test is that of the model, whose count passes over the peers alone. -/
theorem confirmationTest : Obligations.ConfirmationTest := by
  refine ⟨fun s next target counted => ?_, fun s seq e found =>
    ⟨State.commitDone_tests found, State.commitDone_declares found⟩⟩
  intro holds
  have same : holds = s.testHolds := by
    funext e
    rw [State.testHolds, State.confirmationCount_counted counted]
  rw [same]
  exact ⟨State.confirmTest_queue target, State.confirmTest_raised target,
    fun e mem held => State.confirmTest_reaches target mem held, s.confirmTest_durable,
    s.confirmTest_nextSeq⟩

end Sys2Proof

/-! ## The presence timer, and the silence timers of peers (R118, R122, R126, R129) -/

namespace Sys2Proof.Machine

/-! ### Notices that find room (R168) -/

/-- Notices other than ARRIVALs join a queue that has room for them all, and nothing else of the Host
Port changes. -/
theorem Port.takes_room {l : List Notice} {p : Port} (kinds : ∀ n ∈ l, n.isArrival = false)
    (room : p.notices.length + l.length ≤ 16) :
    l.foldl Port.take p = { p with notices := p.notices ++ l } := by
  induction l generalizing p with
  | nil => rw [List.append_nil]; rfl
  | cons n l ih =>
    obtain ⟨kind, kinds⟩ := List.forall_mem_cons.1 kinds
    rw [List.length_cons] at room
    have joined : p.take n = { p with notices := p.notices ++ [n] } := by
      have joins : p.take n = p.join n := by
        cases n with
        | arrival => cases kind
        | _ => rfl
      have place : p.notices.length < Config.noticePlaces := by
        show p.notices.length < 16
        omega
      rw [joins, Port.join, if_pos place]
    have left : (p.notices ++ [n]).length + l.length ≤ 16 := by
      rw [List.length_append, List.length_singleton]
      omega
    rw [List.foldl_cons, joined, ih kinds left, List.append_assoc, List.singleton_append]

/-- With no job and no excess run the end of an event hands over no notice of its own. -/
theorem State.settle_raised_nil {s : State} (jobs : s.writer.jobs = [])
    (excess : s.tracker.excess = []) : s.settle.raised = s.raised := by
  have tested : s.excessTest = s := by rw [State.excessTest, excess]
  have filled : s.refilled.writer = s.writer := by
    rw [State.refilled, (State.fillSlots_fixes _).writer, tested]
  have placed : s.placed = s.refilled := State.placeHead_nil (by rw [filled]; exact jobs)
  rw [s.placed_after.raised, placed, s.refilled_fields.2.2.2]

/-! ### Entries that age (R126) -/

/-- The entry of a peer whose silence timer ran: the timer runs on only from PRESENT (R126). -/
theorem Peer.aged_running {e : Peer} (runs : e.timer = true) : e.aged = { e with
    state := if e.state = .present then .silent else .absent
    timer := decide (e.state = .present) } := by
  obtain ⟨state, timer, reported, full, quiet⟩ := e
  cases runs
  cases state <;> rfl

theorem Peer.aged_state (e : Peer) :
    e.aged.state = if e.state = .present then .silent else .absent := by
  obtain ⟨state, timer, reported, full, quiet⟩ := e
  cases state <;> rfl

/-- The entries of some peers age together. -/
def Presence.aging (p : Presence) (l : List Nat) : Presence :=
  l.foldl (fun p k => p.change k Peer.aged) p

theorem Presence.aging_peer_other {l : List Nat} {k : Nat} (other : k ∉ l) (p : Presence) :
    (p.aging l).peer k = p.peer k := by
  induction l generalizing p with
  | nil => rfl
  | cons j l ih =>
    obtain ⟨ne, other⟩ := not_or.1 (mt List.mem_cons.2 other)
    exact (ih other (p.change j Peer.aged)).trans (Presence.peer_change_ne p j k Peer.aged ne)

theorem Presence.aging_peer {l : List Nat} {k : Nat} (apart : l.Nodup) (mem : k ∈ l) {p : Presence}
    (within : k < p.peers.length) : (p.aging l).peer k = (p.peer k).aged := by
  induction l generalizing p with
  | nil => cases mem
  | cons j l ih =>
    obtain ⟨fresh, apart⟩ := List.nodup_cons.1 apart
    obtain rfl | behind := List.mem_cons.1 mem
    · have first : (p.change k Peer.aged).peer k = (p.peer k).aged :=
        (Presence.peer_change p k k Peer.aged within).trans (if_pos rfl)
      exact (Presence.aging_peer_other fresh _).trans first
    · have ne : k ≠ j := fun same => fresh (same ▸ behind)
      have same : (p.change j Peer.aged).peers.length = p.peers.length := List.length_modify _ _ _
      have later := ih apart behind (p := p.change j Peer.aged) (same ▸ within)
      rw [Presence.peer_change_ne p j k Peer.aged ne] at later
      exact later

/-! ### The expiry (R122, R126, R129) -/

/-- The PEER notice with the state that a peer's entry ages to (R122). -/
def State.agedNotice (s : State) (p : Nat) : Notice := .peer p (s.presence.peer p).aged.state

/-- Silence timers that run out together change the peer table and hand over one notice each, in
order. -/
theorem State.silenceExpired_all {l : List Nat} (apart : l.Nodup) (s : State) :
    l.foldl State.silenceExpired s = { s with
      presence := s.presence.aging l
      raised := s.raised ++ l.map fun p => (.presenceUnit, s.agedNotice p) } := by
  induction l generalizing s with
  | nil => rw [List.map_nil, List.append_nil]; rfl
  | cons p l ih =>
    obtain ⟨fresh, apart⟩ := List.nodup_cons.1 apart
    have notices : (l.map fun q => (Block.presenceUnit, (s.silenceExpired p).agedNotice q)) =
        l.map fun q => (.presenceUnit, s.agedNotice q) := by
      refine List.map_congr_left fun q behind => ?_
      have entry : (s.silenceExpired p).presence.peer q = s.presence.peer q :=
        Presence.peer_change_ne _ _ _ _ fun same => fresh (same ▸ behind)
      rw [State.agedNotice, entry]
      rfl
    rw [List.foldl_cons, ih apart, notices, List.map_cons, List.append_cons]
    rfl

/-- Where no named timer runs the event changes nothing; otherwise the timers run out, and the event
ends. -/
theorem execSilenceTimerExpiry_eq (s : State) (peers : List StationNumber) :
    exec (.silenceTimerExpiry peers) s = .next (if s.expiring peers = [] then s
      else ((s.expiring peers).foldl State.silenceExpired s).conclude) := by
  show execSilenceTimerExpiry peers s = _
  unfold execSilenceTimerExpiry
  split
  · next nobody => rw [if_pos nobody]
  · next someone => rw [if_neg someone]

theorem State.expiring_nodup (s : State) (peers : List StationNumber) : (s.expiring peers).Nodup :=
  (List.nodup_range.filter _).filter _

/-- A peer whose timer runs out has a running timer, and an entry in the peer table. -/
theorem State.expiring_runs {s : State} {peers : List StationNumber} {p : Nat}
    (mem : p ∈ s.expiring peers) : p < 16 ∧ (s.presence.peer p).timer = true := by
  obtain ⟨running, -⟩ := List.mem_filter.1 mem
  obtain ⟨within, runs⟩ := List.mem_filter.1 running
  exact ⟨List.mem_range.1 within, (Bool.and_eq_true_iff.1 runs).2⟩

section Expired

variable {s : State} {l : List Nat} (apart : l.Nodup)
include apart

theorem State.silenceExpired_keeps :
    State.Keeps { s with presence := s.presence.aging l } (l.foldl State.silenceExpired s) := by
  rw [State.silenceExpired_all apart]
  constructor <;> rfl

theorem State.silenceExpired_tables : s.KeepsTables (l.foldl State.silenceExpired s) := by
  rw [State.silenceExpired_all apart]
  constructor <;> rfl

/-- With nothing else handed over or waiting, the PEER notices join alone, in order (R129). -/
theorem State.silenceExpired_port (raised : s.raised = []) (jobs : s.writer.jobs = [])
    (excess : s.tracker.excess = []) (room : s.port.notices.length + l.length ≤ 16) :
    let t := (l.foldl State.silenceExpired s).conclude
    t.port.notices = s.port.notices ++ l.map s.agedNotice ∧ t.port.lost = s.port.lost := by
  let u := l.foldl State.silenceExpired s
  have form : u = { s with
      presence := s.presence.aging l
      raised := s.raised ++ l.map fun p => (.presenceUnit, s.agedNotice p) } :=
    State.silenceExpired_all apart s
  have handed : u.settle.raised =
      (l.map s.agedNotice).map fun n => (.presenceUnit, n) := by
    rw [State.settle_raised_nil (by rw [form]; exact jobs) (by rw [form]; exact excess), form,
      List.map_map]
    exact congrArg (· ++ _) raised
  obtain ⟨notices, lost⟩ := u.settle_notices
  have port : u.port = s.port := by rw [form]
  rw [port] at notices lost
  have kinds : ∀ n ∈ l.map s.agedNotice, n.isArrival = false := by
    intro n mem
    obtain ⟨p, -, rfl⟩ := List.mem_map.1 mem
    rfl
  have joined : u.conclude.port =
      { u.settle.port with notices := u.settle.port.notices ++ l.map s.agedNotice } :=
    (State.flush_oneBlock handed).trans
      (Port.takes_room kinds (by rw [notices, List.length_map]; exact room))
  exact ⟨by rw [joined, notices], by rw [joined, lost]⟩

end Expired

end Sys2Proof.Machine

namespace Sys2Proof

open Machine

/-- Settles O34: the peers of the statement are those that the model takes, whose entries and notices
are carried through the end of the event. -/
theorem presenceAndSilenceTimers : Obligations.PresenceAndSilenceTimers := by
  refine fun s => ⟨fun running => congrArg Host.Outcome.next (if_pos running),
    fun peers peersOk onLine => ?_⟩
  intro runs unknown named ends aged
  have expiring : s.expiring peers = (List.range 16).filter ends := by
    have running : s.silenceRuns = runs := by
      funext p
      rw [State.silenceRuns, onLine, Bool.true_and]
    have called (p : Nat) : (peers.any fun k => decide (k.toNat = p)) = named p := by
      rw [Bool.eq_iff_iff]
      simp [named]
    unfold State.expiring
    dsimp only
    rw [running, List.filter_filter]
    refine List.filter_congr fun p mem => ?_
    simp only [called, List.any_filter, ends, decide_eq_true (List.mem_range.1 mem), Bool.true_and,
      Bool.and_assoc]
    rw [Bool.and_comm]
  have mem_iff (p : Nat) : p ∈ s.expiring peers ↔ ends p = true := by
    rw [expiring, List.mem_filter, List.mem_range, and_iff_right_iff_imp]
    intro h
    simp only [ends, Bool.and_eq_true, decide_eq_true_eq] at h
    exact h.1.1
  have apart := s.expiring_nodup peers
  have notices : (s.expiring peers).map s.agedNotice =
      ((List.range 16).filter ends).map fun p => .peer p (aged p) := by
    rw [expiring]
    exact List.map_congr_left fun p _ => congrArg (Notice.peer p) (Peer.aged_state _)
  refine ⟨_, execSilenceTimerExpiry_eq s peers, ?_⟩
  split
  · next nobody =>
    rw [nobody] at notices mem_iff
    refine ⟨fun p h => (nomatch (mem_iff p).2 h), fun p _ => rfl, fun _ _ _ _ => ⟨?_, rfl⟩, .refl s,
      .refl s⟩
    rw [← notices]
    exact (List.append_nil _).symm
  · let u := (s.expiring peers).foldl State.silenceExpired s
    have keeps := u.conclude_keeps
    have presence : u.conclude.presence = s.presence.aging (s.expiring peers) :=
      keeps.presence.trans (State.silenceExpired_keeps apart).presence
    refine ⟨fun p h => ?_, fun p h => ?_, fun raised jobs excess room => ?_, ?_,
      (State.silenceExpired_tables apart).trans u.conclude_tables⟩
    · have mem := (mem_iff p).2 h
      obtain ⟨within, timer⟩ := State.expiring_runs mem
      rw [presence, Presence.aging_peer apart mem (by rw [peersOk.length]; exact within)]
      exact Peer.aged_running timer
    · rw [presence, Presence.aging_peer_other]
      rw [mem_iff, h]
      exact Bool.false_ne_true
    · rw [← notices]
      exact State.silenceExpired_port apart raised jobs excess (by rw [expiring]; exact room)
    · rw [presence]
      exact (State.silenceExpired_keeps apart).trans keeps

end Sys2Proof

/-! ## A SEEK frame heard (R65, R74, R135, R141 to R143, R146) -/

namespace Sys2Proof.Machine

/-! ### The answer (R141 to R143) -/

/-- The responder entry that answers a SEEK (R141 to R143). -/
def State.seekEntry (s : State) (q o first last : Nat) : Responder where
  requester := q
  origin := o
  first := first
  last := last
  gone := s.goneRange o first last
  list := s.storedSeqs o first last
  rank := rankOf s.ownNumber s.clusterSize q o
  state := .deferring

/-- What the answer to a SEEK is made of: the check index, the own reclaimed floor and the
enlistment. -/
theorem State.seekEntry_congr {s t : State} (tracker : t.tracker = s.tracker)
    (segments : t.segments = s.segments) (enlistment : t.enlistment = s.enlistment)
    (q o first last : Nat) : t.seekEntry q o first last = s.seekEntry q o first last := by
  have own : t.isOwn o = s.isOwn o := State.isOwn_congr enlistment o
  have gone : t.goneRange o first last = s.goneRange o first last := by
    rw [State.goneRange, State.goneRange, own, segments]
  have list : t.storedSeqs o first last = s.storedSeqs o first last := by
    rw [State.storedSeqs, State.storedSeqs, own, segments, tracker]
  have number : t.ownNumber = s.ownNumber := by rw [State.ownNumber, State.ownNumber, enlistment]
  have size : t.clusterSize = s.clusterSize := by
    rw [State.clusterSize, State.clusterSize, enlistment]
  rw [State.seekEntry, State.seekEntry, gone, list, number, size]

theorem Repair.responder?_isSome {r : Repair} {q o : Nat} :
    (∃ e, r.responder? q o = some e) ↔ ∃ e ∈ r.responders, e.requester = q ∧ e.origin = o := by
  constructor
  · rintro ⟨e, found⟩
    exact ⟨e, Repair.responder?_mem found⟩
  · rintro ⟨e, mem, key⟩
    exact Option.isSome_iff_exists.1 (List.find?_isSome.2 ⟨e, mem, by simpa using key⟩)

section Answer

variable {s : State} (q o first last : Nat)

/-- While MUTED no SEEK is answered (R142). -/
theorem State.answerSeek_muted (muted : s.line.muted = true) : s.answerSeek q o first last = s := by
  unfold State.answerSeek
  rw [muted]
  rfl

theorem State.answerSeek_slots : (s.answerSeek q o first last).repair.slots = s.repair.slots := by
  unfold State.answerSeek
  dsimp only
  repeat' split
  all_goals rfl

/-- An answer takes fetch claims away and makes none (R142). -/
theorem State.answerSeek_quiescent (h : s.Quiescent) : (s.answerSeek q o first last).Quiescent := by
  have withdrawn : (s.withdrawFetch q o).Quiescent := by
    refine h.imp (fun busy => ?_) fun nothing => ?_
    · show (s.array.withdraw q o FetchUse.withdraw).activity ≠ .idle
      unfold ArrayEngine.withdraw
      dsimp only
      split
      · nofun
      · exact busy
    · show s.array.fetchClaims.filter _ = []
      rw [nothing, List.filter_nil]
  unfold State.answerSeek
  dsimp only
  repeat' split
  · exact h
  · exact withdrawn
  · exact h
  · exact h

variable {q o first last}

/-- A SEEK that has an answer, and whose requester and origin have or can have an entry, leaves that
entry deferring (R141 to R143). -/
theorem State.answerSeek_entry (live : s.line.muted = false)
    (answer : s.storedSeqs o first last ≠ [] ∨ s.goneRange o first last ≠ none)
    (place : (∃ e ∈ s.repair.responders, e.requester = q ∧ e.origin = o) ∨
      s.repair.responders.length < 4) :
    s.seekEntry q o first last ∈ (s.answerSeek q o first last).repair.responders := by
  have answers : (s.line.muted ||
      ((s.goneRange o first last).isNone && (s.storedSeqs o first last).isEmpty)) = false := by
    rw [live, Bool.false_or, Bool.and_eq_false_iff, Option.isNone_eq_false_iff,
      Option.isSome_iff_ne_none, List.isEmpty_eq_false_iff]
    exact answer.symm
  unfold State.answerSeek
  dsimp only
  rw [answers, if_neg Bool.false_ne_true]
  cases found : s.repair.responder? q o with
  | some e => exact State.changeResponder_mem (s := (s.withdrawFetch q o).mapRequest _) found _
  | none =>
    have room : s.repair.responders.length < 4 := place.resolve_left fun held => by
      obtain ⟨e, other⟩ := Repair.responder?_isSome.2 held
      cases found.symm.trans other
    dsimp only
    rw [if_pos room]
    exact List.mem_append_right _ (List.mem_singleton_self _)

end Answer

/-! ### The hand-on -/

/-- A SEEK heard, before it is answered: the sender's sign of life, and the slots that hear it (R123,
R135). -/
def State.heardSeek (s : State) (p o first last : Nat) : State :=
  (s.heardFrom p).followSeek o first last

section Heard

variable (s : State) (p o first last : Nat)

theorem State.heardSeek_rests : s.Rests (s.heardSeek p o first last) :=
  (s.heardFrom_rests p).trans (by constructor <;> rfl)

theorem State.heardSeek_array : (s.heardSeek p o first last).array = s.array := by
  obtain ⟨q, d, r, form, -, -⟩ := (s.setFramer .gap).hearPeer_form p false
  rw [State.heardSeek, State.heardFrom, form]
  rfl

theorem State.heardSeek_entry (q : Nat) :
    (s.heardSeek p o first last).seekEntry q o first last = s.seekEntry q o first last :=
  State.seekEntry_congr (s.heardFrom_tracker p) (State.hearPeer_others _ p false).2.1
    (s.heardSeek_rests p o first last).enlistment _ _ _ _

theorem State.heardSeek_responders :
    (s.heardSeek p o first last).repair.responders = s.repair.responders := by
  show (s.heardFrom p).repair.responders = _
  rw [s.heardFrom_repair]

variable {o first last}

/-- A due slot of the origin that overlaps the SEEK follows it (R135). -/
theorem State.heardSeek_slot {i : Nat} {sl : SeekSlot}
    (slot : s.repair.slots[i]? = some (some sl)) (origin : sl.origin = o)
    (due : sl.state = .asking false) (low : sl.first ≤ last) (high : first ≤ sl.last) :
    (s.heardSeek p o first last).repair.slots[i]? = some (some { sl with state := .following }) := by
  have follows : sl.follow o first last = { sl with state := .following } :=
    if_pos ⟨origin, due, low, high⟩
  show ((s.heardFrom p).repair.slots.map _)[i]? = _
  rw [s.heardFrom_repair, List.getElem?_map, slot, ← follows]
  rfl

end Heard

theorem execSeekFrame_handedOn {s : State} {sender : StationNumber} {origin : Byte}
    {first last : Word} (follows : s.follows = true) (onLine : s.mode.onLine = true)
    (good : (Frame.seek sender origin first last).fieldsGood s.clusterSize = true) :
    exec (.seekFrame sender origin first last) s = .next
      ((s.heardSeek sender.toNat origin.toNat first.toNat last.toNat).answerSeek
        sender.toNat origin.toNat first.toNat last.toNat).conclude :=
  congrArg Host.Outcome.next (State.hearFrame_eq follows onLine good)

end Sys2Proof.Machine

namespace Sys2Proof

open Machine

/-- Settles O26: the slots that hear the SEEK and the entry that answers it, which the end of the event
leaves as they are, since an IDLE array has no fetch claim waiting. -/
theorem seekFrameTaken : Obligations.SeekFrameTaken := by
  intro s sender origin first last peers tracking follows onLine served good
  let q := sender.toNat
  let o := origin.toNat
  let heard := s.heardSeek q o first.toNat last.toNat
  let u := heard.answerSeek q o first.toNat last.toNat
  have keeps : heard.Keeps u := heard.answerSeek_keeps _ _ _ _
  have rests : s.Rests heard := s.heardSeek_rests _ _ _ _
  have tables : s.KeepsTables heard := by
    have same : heard.tracker = s.tracker := s.heardFrom_tracker _
    constructor <;> rw [same]
  have quiescent : heard.Quiescent := by
    rw [State.Quiescent, s.heardSeek_array]
    exact served.quiescent
  have responders : u.conclude.repair.responders = u.repair.responders :=
    State.conclude_rested (State.answerSeek_quiescent _ _ _ _ quiescent)
  have entry : heard.seekEntry q o first.toNat last.toNat = s.seekEntry q o first.toNat last.toNat :=
    s.heardSeek_entry q o first.toNat last.toNat q
  refine ⟨u.conclude, execSeekFrame_handedOn follows onLine good, ?_,
    fun i _ sl slot own due low high => ?_, fun live answer place => ?_, fun muted busy => ?_,
    tables.trans ((heard.answerSeek_tables _ _ _ _).trans u.conclude_tables), fun p other => ?_,
    rests.trans (keeps.rests.trans u.conclude_keeps.rests)⟩
  · rw [u.conclude_keeps.framer, keeps.framer]
    exact s.heardFrom_framer _
  · refine u.conclude_grows.slots i _ ?_
    rw [heard.answerSeek_slots]
    exact s.heardSeek_slot _ slot own due low high
  · have list := congrArg Responder.list entry
    have gone := congrArg Responder.gone entry
    have answered : s.seekEntry q o first.toNat last.toNat ∈ u.repair.responders := by
      rw [← entry]
      refine State.answerSeek_entry (rests.muted.trans live) ?_ ?_
      · exact answer.imp list.trans_ne gone.trans_ne
      · rw [s.heardSeek_responders]
        exact place
    exact ⟨_, responders ▸ answered, rfl, rfl, rfl, rfl, rfl, rfl, rfl, rfl⟩
  · rw [responders]
    show (heard.answerSeek _ _ _ _).repair.responders = _
    rw [State.answerSeek_muted _ _ _ _ (rests.muted.trans muted), s.heardSeek_responders]
  · rw [u.conclude_keeps.presence, keeps.presence]
    exact s.heardFrom_other _ other

end Sys2Proof

/-! ## The repair wait of a slot (R132, R133, R136, R138, R139) -/

namespace Sys2Proof.Machine

/-! ### Narrowing (R136) -/

/-- A rising list lies between its first and its last element. -/
theorem rising_bounds {a : Nat} {l : List Nat} (rising : (a :: l).Pairwise (· < ·)) :
    l.getLastD a ∈ a :: l ∧ ∀ x ∈ a :: l, a ≤ x ∧ x ≤ l.getLastD a := by
  induction l generalizing a with
  | nil =>
    refine ⟨List.mem_singleton_self a, fun x mem => ?_⟩
    obtain rfl := List.mem_singleton.1 mem
    exact ⟨le_rfl, le_rfl⟩
  | cons b l ih =>
    obtain ⟨above, rising⟩ := List.pairwise_cons.1 rising
    obtain ⟨last, bounds⟩ := ih rising
    have low : a < b := above b List.mem_cons_self
    rw [List.getLastD_cons]
    refine ⟨List.mem_cons_of_mem a last, fun x mem => ?_⟩
    obtain rfl | mem := List.mem_cons.1 mem
    · exact ⟨le_rfl, low.le.trans (bounds b List.mem_cons_self).2⟩
    · exact ⟨(above x mem).le, (bounds x mem).2⟩

theorem Tracker.slotWants_rising (t : Tracker) (sl : SeekSlot) :
    (t.slotWants sl).Pairwise (· < ·) := by
  refine List.Pairwise.filter _ (List.pairwise_map.2 ?_)
  exact List.pairwise_lt_range.imp fun h => Nat.add_lt_add_left h sl.first

theorem Tracker.narrowed_none {t : Tracker} {sl : SeekSlot} : t.narrowed sl = none ↔
    ∀ x, sl.first ≤ x → x ≤ sl.last → t.isWant sl.origin x = false := by
  have empty : t.narrowed sl = none ↔ t.slotWants sl = [] := by
    unfold Tracker.narrowed
    cases t.slotWants sl <;> simp
  simp [empty, List.eq_nil_iff_forall_not_mem, Tracker.mem_slotWants]

section Narrowed

variable {t : Tracker} {sl nl : SeekSlot} (narrowed : t.narrowed sl = some nl)
include narrowed

/-- A slot narrows to its lowest and its highest want, and changes in nothing else. -/
theorem Tracker.narrowed_some : nl = { sl with first := nl.first, last := nl.last } ∧
    ∃ rest, t.slotWants sl = nl.first :: rest ∧ rest.getLastD nl.first = nl.last := by
  unfold Tracker.narrowed at narrowed
  cases wants : t.slotWants sl with
  | nil =>
    rw [wants] at narrowed
    cases narrowed
  | cons a rest =>
    rw [wants] at narrowed
    obtain rfl := Option.some.inj narrowed
    exact ⟨rfl, rest, rfl, rfl⟩

theorem Tracker.narrowed_fields : nl.origin = sl.origin ∧ nl.attempts = sl.attempts := by
  obtain ⟨same, -⟩ := Tracker.narrowed_some narrowed
  exact ⟨(congrArg SeekSlot.origin same :), (congrArg SeekSlot.attempts same :)⟩

theorem Tracker.narrowed_bounds : nl.first ∈ t.slotWants sl ∧ nl.last ∈ t.slotWants sl ∧
    ∀ x ∈ t.slotWants sl, nl.first ≤ x ∧ x ≤ nl.last := by
  obtain ⟨-, rest, wants, last⟩ := Tracker.narrowed_some narrowed
  have rising := t.slotWants_rising sl
  rw [wants] at rising ⊢
  obtain ⟨mem, bounds⟩ := rising_bounds rising
  rw [last] at mem bounds
  exact ⟨List.mem_cons_self, mem, bounds⟩

/-- A slot that has narrowed keeps its wants, so that it narrows no further. -/
theorem Tracker.narrowed_wants : t.slotWants nl = t.slotWants sl := by
  obtain ⟨origin, -⟩ := Tracker.narrowed_fields narrowed
  obtain ⟨low, high, bounds⟩ := Tracker.narrowed_bounds narrowed
  rw [Tracker.mem_slotWants] at low high
  refine (t.slotWants_rising nl).eq_of_mem_iff (t.slotWants_rising sl) fun x => ⟨fun mem => ?_,
    fun mem => ?_⟩
  · rw [Tracker.mem_slotWants, origin] at mem
    exact Tracker.mem_slotWants.2 ⟨⟨low.1.1.trans mem.1.1, mem.1.2.trans high.1.2⟩, mem.2⟩
  · rw [Tracker.mem_slotWants, origin]
    exact ⟨bounds x mem, (Tracker.mem_slotWants.1 mem).2⟩

end Narrowed

/-! ### The filling of free slots (R133) -/

/-- A seq of an origin lies in the range of a slot of that origin. -/
def State.Covered (s : State) (o x : Nat) : Prop :=
  ∃ sl : SeekSlot, some sl ∈ s.repair.slots ∧ sl.origin = o ∧ sl.first ≤ x ∧ x ≤ sl.last

theorem State.covered_iff {s : State} {o x : Nat} :
    s.Covered o x ↔ (s.repair.slots.filterMap id).any (·.covers o x) = true := by
  rw [List.any_eq_true]
  simp [State.Covered, SeekSlot.covers, and_assoc]

theorem State.not_covered_iff {s : State} {o x : Nat} :
    ¬ s.Covered o x ↔ (s.repair.slots.filterMap id).any (·.covers o x) = false := by
  rw [State.covered_iff, Bool.not_eq_true]

theorem Tracker.wantsOf_origin {t : Tracker} {o : Nat} {r : Run} (mem : r ∈ t.wantsOf o) :
    r.origin = o := by
  obtain interior | tail := List.mem_append.1 mem
  · exact of_decide_eq_true (List.mem_filter.1 interior).2
  · rw [List.mem_ite_nil_right, List.mem_singleton] at tail
    rw [tail.2]

/-- A run of wants that is covered throughout gives a free slot nothing. -/
theorem State.Covered.noRun {s : State} {o : Nat} {r : Run} (mem : r ∈ s.tracker.wantsOf o)
    (h : ∀ y, r.first ≤ y → y ≤ r.last → s.Covered o y) :
    uncoveredRun (s.repair.slots.filterMap id) r = none :=
  uncoveredRun_none fun y low high => State.covered_iff.1 (Tracker.wantsOf_origin mem ▸ h y low high)

/-- The next run is that of the lowest origin and of its lowest run of wants that give one. -/
theorem State.nextRun_lowest {s : State} {o : Nat} {before after : List Run} {r run : Run}
    (within : o < s.clusterSize) (wants : s.tracker.wantsOf o = before ++ r :: after)
    (origins : ∀ p < o, ∀ x ∈ s.tracker.wantsOf p,
      uncoveredRun (s.repair.slots.filterMap id) x = none)
    (below : ∀ x ∈ before, uncoveredRun (s.repair.slots.filterMap id) x = none)
    (found : uncoveredRun (s.repair.slots.filterMap id) r = some run) : s.nextRun = some run := by
  have split : List.range s.clusterSize =
      List.range o ++ o :: (List.range (s.clusterSize - (o + 1))).map (o + 1 + ·) := by
    rw [← List.singleton_append, ← List.append_assoc, ← List.range_succ, ← List.range_add,
      Nat.add_sub_cancel' within]
  refine List.findSome?_eq_some_iff.2 ⟨_, o, _, split, ?_, fun p mem => ?_⟩
  · exact List.findSome?_eq_some_iff.2 ⟨before, r, after, wants, found, below⟩
  · exact List.findSome?_eq_none_iff.2 (origins p (List.mem_range.1 mem))

/-- The lowest free slot takes the next run, its SEEK due. -/
theorem State.fillSlot_lowest {s : State} {i : Nat} {r : Run} (free : s.repair.slots[i]? = some none)
    (lowest : ∀ j < i, s.repair.slots[j]? ≠ some none) (next : s.nextRun = some r) :
    s.fillSlot = { s with repair := { s.repair with
      slots := s.repair.slots.set i (some ⟨r.origin, r.first, r.last, 0, .asking false⟩) } } := by
  have found : s.repair.slots.findIdx? (·.isNone) = some i := by
    obtain ⟨within, value⟩ := List.getElem?_eq_some_iff.1 free
    refine List.findIdx?_eq_some_iff_getElem.2 ⟨within, by rw [value]; rfl, fun j below empty => ?_⟩
    refine lowest j below ?_
    rw [List.getElem?_eq_getElem (below.trans within), Option.isNone_iff_eq_none.1 empty]
  rw [State.fillSlot, found, next]
  rfl

/-- A free slot is filled from the lowest uncovered want on (R133). -/
theorem State.fillSlot_uncovered {s : State} {i o seq : Nat} {before after : List Run} {r : Run}
    (free : s.repair.slots[i]? = some none) (lowest : ∀ j < i, s.repair.slots[j]? ≠ some none)
    (within : o < s.clusterSize) (wants : s.tracker.wantsOf o = before ++ r :: after)
    (origins : ∀ p < o, ∀ x ∈ s.tracker.wantsOf p, ∀ y, x.first ≤ y → y ≤ x.last → s.Covered p y)
    (below : ∀ x ∈ before, ∀ y, x.first ≤ y → y ≤ x.last → s.Covered o y)
    (low : r.first ≤ seq) (high : seq ≤ r.last) (bare : ¬ s.Covered o seq)
    (filled : ∀ y, r.first ≤ y → y < seq → s.Covered o y) :
    ∃ last, s.fillSlot = { s with repair := { s.repair with
        slots := s.repair.slots.set i (some ⟨o, seq, last, 0, .asking false⟩) } } ∧
      seq ≤ last ∧ last ≤ r.last ∧ last ≤ seq + 15 ∧
      (∀ y, seq ≤ y → y ≤ last → ¬ s.Covered o y) ∧
      (last = r.last ∨ last = seq + 15 ∨
        ∃ sl : SeekSlot, some sl ∈ s.repair.slots ∧ sl.origin = o ∧ sl.first = last + 1) := by
  have mem (x : Run) (h : x ∈ before ∨ x = r) : x ∈ s.tracker.wantsOf o := by
    rw [wants]
    exact h.elim (List.mem_append_left _) fun same => by simp [same]
  obtain rfl : r.origin = o := Tracker.wantsOf_origin (mem r (.inr rfl))
  obtain ⟨last, found, first, ends, size, clear, edge⟩ := uncoveredRun_some low high
    (State.not_covered_iff.1 bare) fun y above under => State.covered_iff.1 (filled y above under)
  have next : s.nextRun = some ⟨r.origin, seq, last⟩ :=
    State.nextRun_lowest within wants
      (fun p under x mem => State.Covered.noRun mem (origins p under x mem))
      (fun x early => State.Covered.noRun (mem x (.inl early)) (below x early)) found
  refine ⟨last, State.fillSlot_lowest free lowest next, first, ends, size,
    fun y above under => State.not_covered_iff.2 (clear y above under),
    edge.imp_right (Or.imp_right ?_)⟩
  rintro ⟨sl, mem, slot⟩
  exact ⟨sl, by simpa using mem, slot⟩

theorem State.fillSlots_eq (s : State) :
    s.fillSlots = if s.mode.onLine then s.fillSlot.fillSlot.fillSlot.fillSlot else s := rfl

/-- What the filling of slots reads. -/
structure State.FillsAlike (s t : State) : Prop where
  slots : t.repair.slots = s.repair.slots
  mode : t.mode = s.mode
  enlistment : t.enlistment = s.enlistment
  holdings : t.tracker.holdings = s.tracker.holdings
  gaps : t.tracker.gaps = s.tracker.gaps

theorem State.FillsAlike.nextRun {s t : State} (h : s.FillsAlike t) : t.nextRun = s.nextRun := by
  have wants : t.tracker.wantsOf = s.tracker.wantsOf := by
    funext o
    rw [Tracker.wantsOf, Tracker.holding, h.gaps, h.holdings]
    rfl
  rw [State.nextRun, State.nextRun, wants, h.slots, State.clusterSize, h.enlistment]
  rfl

theorem State.FillsAlike.fillSlot {s t : State} (h : s.FillsAlike t) :
    s.fillSlot.FillsAlike t.fillSlot where
  slots := by
    rw [State.fillSlot, State.fillSlot, h.slots, h.nextRun]
    split
    · rw [State.setSlot_slots, State.setSlot_slots, h.slots]
    · exact h.slots
  mode := t.fillSlot_keeps.mode.trans (h.mode.trans s.fillSlot_keeps.mode.symm)
  enlistment := t.fillSlot_keeps.enlistment.trans
    (h.enlistment.trans s.fillSlot_keeps.enlistment.symm)
  holdings := t.fillSlot_tables.holdings.trans (h.holdings.trans s.fillSlot_tables.holdings.symm)
  gaps := t.fillSlot_tables.gaps.trans (h.gaps.trans s.fillSlot_tables.gaps.symm)

theorem State.FillsAlike.fillSlots {s t : State} (h : s.FillsAlike t) :
    t.fillSlots.repair.slots = s.fillSlots.repair.slots := by
  rw [State.fillSlots_eq, State.fillSlots_eq, h.mode]
  split
  · exact h.fillSlot.fillSlot.fillSlot.fillSlot.slots
  · exact h.slots

theorem State.conclude_slots (s : State) :
    s.conclude.repair.slots = s.excessTest.fillSlots.repair.slots := by
  show (State.checkSuspend _).repair.slots = _
  rw [State.checkSuspend_repair, State.serve_slots, State.scheduleErase_repair, State.serve_slots,
    State.scheduleErase_repair, State.placeHead_repair]

/-- A slot that leaves use is filled anew at the end of its event (R133). -/
theorem State.setSlot_none_refilled (s : State) (i : Nat) :
    (s.setSlot i none).conclude.repair.slots = (State.fillSlots { s with
      repair := { s.repair with slots := s.repair.slots.set i none } }).repair.slots := by
  let freed := s.setSlot i none
  have keeps := (s.setSlot_keeps i none).trans freed.excessTest_keeps
  have tables := (s.setSlot_tables i none).trans freed.excessTest_tables
  rw [State.conclude_slots]
  refine State.FillsAlike.fillSlots ⟨?_, keeps.mode, keeps.enlistment, tables.holdings, tables.gaps⟩
  rw [freed.excessTest_repair, State.setSlot_slots]

/-! ### A hole admitted (R95, R96, R139) -/

theorem Tracker.isWant_congr {t u : Tracker} (holdings : u.holdings = t.holdings)
    (gaps : u.gaps = t.gaps) (o x : Nat) : u.isWant o x = t.isWant o x := by
  rw [Tracker.isWant, Tracker.holding, holdings, gaps]
  rfl

section Admitted

variable {s : State} {o first last : Nat}

theorem State.offerHole_closed (closed : s.admissionOpen = false) :
    s.offerHole o first last = none := by
  rw [State.offerHole, closed, Bool.and_false, Bool.false_and, if_neg Bool.false_ne_true]

theorem State.offerHole_admitted (wanted : s.tracker.rangeWanted o first last = true)
    (opened : s.admissionOpen = true)
    (fits : (s.tracker.gapsAfterHole o first last).length ≤ 32) :
    ∃ t, s.offerHole o first last = some t := by
  refine ⟨_, if_pos ?_⟩
  rw [wanted, opened, decide_eq_true (le_max_of_le_left fits)]
  rfl

variable {t : State} (offered : s.offerHole o first last = some t)
include offered

/-- What an admission adds, and what it leaves of the notices. -/
theorem State.offerHole_adds :
    (⟨.hole o first last, .declared⟩ : Job) ∈ t.writer.jobs ∧
    (.hole o first last : Pending) ∈ t.tracker.pending ∧
    t.tracker.gaps = s.tracker.gapsAfterHole o first last ∧
    t.repair = s.repair ∧ t.raised = s.raised ∧ t.port = s.port := by
  obtain ⟨-, -, -, rfl⟩ := State.offerHole_some offered
  exact ⟨List.mem_append_right _ (List.mem_singleton_self _),
    List.mem_append_right _ (List.mem_singleton_self _), rfl, rfl, rfl, rfl⟩

theorem State.offerHole_holding (within : o < s.tracker.holdings.length) : t.tracker.holding o =
    { s.tracker.holding o with accepted := max (s.tracker.holding o).accepted last } := by
  obtain ⟨-, -, -, rfl⟩ := State.offerHole_some offered
  exact (Tracker.holding_change _ _ _ _ within).trans (if_pos rfl)

/-- The seqs of an admitted hole are no longer wants (R85, R96). -/
theorem State.offerHole_unwanted (within : o < s.tracker.holdings.length) :
    ∀ x, first ≤ x → x ≤ last → t.tracker.isWant o x = false := by
  intro x low high
  have gaps := (State.offerHole_adds offered).2.2.1
  have cut (r : Run) (mem : r ∈ cutRuns s.tracker.gaps o first last) : r.contains o x = false :=
    Bool.eq_false_iff.2 fun holds => ((any_cutRuns _ _ _ _ _).1 ⟨r, mem, holds⟩).2 ⟨low, high⟩
  rw [Tracker.isWant, gaps, State.offerHole_holding offered within, Bool.or_eq_false_iff,
    Bool.and_eq_false_iff]
  refine ⟨List.any_eq_false.2 fun r mem => Bool.eq_false_iff.1 ?_, .inl ?_⟩
  · unfold Tracker.gapsAfterHole at mem
    dsimp only at mem
    split at mem
    · obtain rfl | mem := mem_insertRun mem
      · refine Bool.eq_false_iff.2 fun holds => ?_
        have above := (Run.contains_iff.1 holds).2.2
        dsimp only at above
        omega
      · exact cut r mem
    · exact cut r mem
  · exact decide_eq_false (by show ¬ max _ last < x; omega)

end Admitted

theorem State.narrowOrigin_fixes (s : State) (o : Nat) : s.Fixes (s.narrowOrigin o) := by
  refine foldl_rel .refl .trans (fun s i => ?_) _ s
  split
  · unfold State.narrowSlot
    split
    · exact s.setSlot_fixes _ _
    · exact .refl s
  · exact .refl s

/-- A slot whose wants are all gone leaves use at the admission of a hole of its origin (R139). -/
theorem State.holeAdmitted_slot {s : State} {i : Nat} {sl : SeekSlot} (within : i < 4)
    (slot : s.repair.slots[i]? = some (some sl)) (gone : s.tracker.narrowed sl = none)
    (first last : Nat) : (s.holeAdmitted sl.origin first last).repair.slots[i]? = some none := by
  let raised := s.raise .repairController (.hole sl.origin first last)
  have narrowed : s.tracker.narrowedOf sl.origin (some sl) = none := by
    rw [Tracker.narrowedOf, if_pos rfl, gone]
  have place : (raised.narrowOrigin sl.origin).repair.slots[i]? =
      s.repair.slots[i]?.map (s.tracker.narrowedOf sl.origin) :=
    raised.narrowOrigin_slots sl.origin within
  refine place.trans ?_
  rw [slot, Option.map_some, narrowed]

/-! ### Notices of several blocks (R167, R168) -/

theorem nextNotices_subset (l : List (Block × Notice)) (seen : List Block) :
    nextNotices l seen ⊆ l := by
  induction l generalizing seen with
  | nil => exact List.Subset.refl _
  | cons e l ih =>
    unfold nextNotices
    split
    · exact List.subset_cons_of_subset e (ih seen)
    · exact List.cons_subset_cons e (ih (e.1 :: seen))

/-- The notices of an event all join, in some order. -/
theorem joinOrder_perm (l : List (Block × Notice)) (i : Nat) :
    (joinOrder l.length l i).1.Perm (l.map Prod.snd) := by
  generalize size : l.length = fuel
  induction fuel generalizing l i with
  | zero =>
    obtain rfl := List.length_eq_zero_iff.1 size
    exact .refl _
  | succ fuel ih =>
    have picked (e : Block × Notice) (mem : e ∈ nextNotices l []) (j : Nat) :
        (e.2 :: (joinOrder fuel (l.erase e) j).1).Perm (l.map Prod.snd) := by
      have mem := nextNotices_subset l [] mem
      have rest : (l.erase e).length = fuel := by rw [List.length_erase_of_mem mem, size]; rfl
      exact ((ih (l.erase e) j rest).cons e.2).trans ((List.perm_cons_erase mem).map Prod.snd).symm
    unfold joinOrder
    split
    · next nothing =>
      obtain ⟨e, rest, rfl⟩ := List.exists_cons_of_length_eq_add_one size
      cases nothing
    · next only next => exact picked only (by rw [next]; exact List.mem_singleton_self _) i
    · next first others _ next =>
      refine picked _ ?_ (i + 1)
      have within : Config.noticeOrder i % (others.length + 1) < (first :: others).length :=
        Nat.mod_lt _ (Nat.succ_pos _)
      rw [next, List.getD_eq_getElem _ _ within]
      exact List.getElem_mem within

/-- Notices other than ARRIVALs all reach a queue that has room for them. -/
theorem State.flush_room {s : State} (kinds : ∀ e ∈ s.raised, e.2.isArrival = false)
    (room : s.port.notices.length + s.raised.length ≤ 16) :
    ∀ e ∈ s.raised, e.2 ∈ s.flush.port.notices := by
  have order := joinOrder_perm s.raised s.freeIndex
  have joined : s.flush.port.notices =
      s.port.notices ++ (joinOrder s.raised.length s.raised s.freeIndex).1 := by
    refine congrArg Port.notices (Port.takes_room (fun n mem => ?_) ?_)
    · obtain ⟨e, handed, rfl⟩ := List.mem_map.1 (order.mem_iff.1 mem)
      exact kinds e handed
    · rw [order.length_eq, List.length_map]
      exact room
  intro e mem
  rw [joined]
  exact List.mem_append_right _ (order.mem_iff.2 (List.mem_map_of_mem mem))

/-- A single notice of an event, no ARRIVAL, joins at its end when two places are free. -/
theorem State.conclude_notice {s : State} {b : Block} {n : Notice} (raised : s.raised = [(b, n)])
    (kind : n.isArrival = false) (room : s.port.notices.length ≤ 14) :
    n ∈ s.conclude.port.notices := by
  have notices := s.settle_notices.1
  have handed := s.settle_raised
  rw [raised] at handed
  have joins (kinds : ∀ e ∈ s.settle.raised, e.2.isArrival = false)
      (count : s.settle.raised.length ≤ 2) (mem : (b, n) ∈ s.settle.raised) :
      n ∈ s.conclude.port.notices :=
    State.flush_room kinds (by rw [notices]; omega) (b, n) mem
  obtain handed | handed := handed
  · rw [handed] at joins
    exact joins (by simpa using kind) (by simp) (by simp)
  · rw [handed] at joins
    exact joins (by simpa [Notice.isArrival] using kind) (by simp) (by simp)

/-- What an admission adds stands after the end of its event. -/
theorem State.holeAdmitted_concluded {s t : State} {o first last : Nat}
    (offered : s.offerHole o first last = some t) (within : o < s.tracker.holdings.length) :
    let u := (t.holeAdmitted o first last).conclude
    (⟨.hole o first last, .declared⟩ : Job) ∈ u.writer.jobs ∧
    (.hole o first last : Pending) ∈ u.tracker.pending ∧
    u.tracker.holding o =
      { s.tracker.holding o with accepted := max (s.tracker.holding o).accepted last } ∧
    u.tracker.gaps = s.tracker.gapsAfterHole o first last ∧
    (∀ x, first ≤ x → x ≤ last → u.tracker.isWant o x = false) ∧
    (s.raised = [] → s.port.notices.length ≤ 14 →
      (.hole o first last : Notice) ∈ u.port.notices) := by
  let admitted := t.holeAdmitted o first last
  have fixes : (t.raise .repairController (.hole o first last)).Fixes admitted :=
    State.narrowOrigin_fixes _ o
  have tracker : admitted.tracker = t.tracker := fixes.tracker
  have tables := admitted.conclude_tables
  have grows := admitted.conclude_grows
  obtain ⟨job, pending, gaps, -, raised, port⟩ := State.offerHole_adds offered
  refine ⟨grows.jobs.subset ?_, grows.pending.subset ?_, ?_, ?_, fun x low high => ?_,
    fun silent room => ?_⟩
  · rw [fixes.writer]
    exact job
  · rw [tracker]
    exact pending
  · rw [State.conclude_holding, tracker, State.offerHole_holding offered within]
  · rw [tables.gaps, tracker, gaps]
  · rw [Tracker.isWant_congr tables.holdings tables.gaps, tracker]
    exact State.offerHole_unwanted offered within x low high
  · refine State.conclude_notice (b := .repairController) (fixes.raised.trans ?_) rfl ?_
    · rw [State.raise, State.setRaised_raised, raised, silent]
      rfl
    · rw [(t.holeAdmitted_still o first last).notices, port]
      exact room

/-! ### A DECLARING slot (R139) -/

theorem Repair.slot?_of {r : Repair} {i : Nat} {x : Option SeekSlot} (slot : r.slots[i]? = some x) :
    r.slot? i = x := by
  rw [Repair.slot?, List.getD_eq_getElem?_getD, slot, Option.getD_some]

/-- Consecutive wants end at the last of them. -/
theorem runEnd_whole {a : Nat} {l : List Nat} (rising : (a :: l).Pairwise (· < ·))
    (whole : ∀ x, a ≤ x → x ≤ l.getLastD a → x ∈ a :: l) : runEnd a l = l.getLastD a := by
  induction l generalizing a with
  | nil => rfl
  | cons b l ih =>
    obtain ⟨above, rising⟩ := List.pairwise_cons.1 rising
    rw [List.getLastD_cons] at whole ⊢
    have low : a < b := above b List.mem_cons_self
    have bounds := (rising_bounds rising).2
    have last : b ≤ l.getLastD b := (bounds b List.mem_cons_self).2
    have mem (x : Nat) (above : a < x) (below : x ≤ l.getLastD b) : x ∈ b :: l :=
      (List.mem_cons.1 (whole x above.le below)).resolve_left above.ne'
    have next : b = a + 1 := by
      have := (bounds (a + 1) (mem (a + 1) (Nat.lt_succ_self a) (by omega))).1
      omega
    rw [runEnd, if_pos next]
    exact ih rising fun x above below => mem x (by omega) below

section Declaring

variable {s : State} {i : Nat} {sl : SeekSlot} (slot : s.repair.slots[i]? = some (some sl))
  (state : sl.state = .declaring) (narrow : s.tracker.narrowed sl = some sl)
  (absent : s.originPresent sl.origin = false) (fuel : Nat)
include slot state narrow absent

/-- A slot that has narrowed stays as it is when admission is closed. -/
theorem declareSlot_closed (closed : s.admissionOpen = false) :
    declareSlot (fuel + 1) s i = s.setSlot i (some sl) := by
  obtain ⟨-, rest, wants, last⟩ := Tracker.narrowed_some narrow
  rw [declareSlot, Repair.slot?_of slot]
  dsimp only
  rw [if_neg (not_not_intro state), wants]
  dsimp only
  rw [absent, if_neg Bool.false_ne_true, State.offerHole_closed closed, last]

/-- A slot whose wants are one run offers them, and leaves use at the admission. -/
theorem declareSlot_whole (place : i < 4) {t : State}
    (whole : ∀ x, sl.first ≤ x → x ≤ sl.last → s.tracker.isWant sl.origin x = true)
    (within : sl.origin < s.tracker.holdings.length)
    (offered : s.offerHole sl.origin sl.first sl.last = some t) :
    declareSlot (fuel + 2) s i = t.holeAdmitted sl.origin sl.first sl.last := by
  obtain ⟨-, rest, wants, last⟩ := Tracker.narrowed_some narrow
  have run : runEnd sl.first rest = sl.last := by
    have rising := s.tracker.slotWants_rising sl
    rw [wants] at rising
    rw [← last]
    refine runEnd_whole rising fun x low high => ?_
    rw [last] at high
    exact wants ▸ Tracker.mem_slotWants.2 ⟨⟨low, high⟩, whole x low high⟩
  have gone : t.tracker.narrowed sl = none :=
    Tracker.narrowed_none.2 (State.offerHole_unwanted offered within)
  have left : (t.holeAdmitted sl.origin sl.first sl.last).repair.slot? i = none :=
    Repair.slot?_of (State.holeAdmitted_slot place
      (by rw [(State.offerHole_adds offered).2.2.2.1]; exact slot) gone _ _)
  rw [declareSlot, Repair.slot?_of slot]
  dsimp only
  rw [if_neg (not_not_intro state), wants]
  dsimp only
  rw [absent, if_neg Bool.false_ne_true, run, offered]
  dsimp only
  rw [declareSlot, left]

end Declaring

/-! ### The expiry (R138, R139) -/

theorem State.waitedOut_keeps (s : State) (i : Nat) (sl : SeekSlot) : s.Keeps (s.waitedOut i sl) := by
  unfold State.waitedOut State.attempted
  repeat' split
  · exact s.setSlot_keeps _ _
  · exact s.setSlot_keeps _ _
  · exact s.setSlot_keeps _ _
  · exact (s.setSlot_keeps _ _).trans (declareSlot_keeps _ _ _)

theorem execRepairWaitExpiry_waiting {s : State} {i : Fin 4} {sl : SeekSlot}
    (slot : s.repair.slots[i.val]? = some (some sl)) (waits : sl.waits = true) :
    exec (.repairWaitExpiry i) s = .next (s.waitedOut i sl).conclude := by
  show execRepairWaitExpiry i s = _
  rw [execRepairWaitExpiry, Repair.slot?_of slot]
  dsimp only
  rw [if_pos waits]

/-- A slot that turns to DECLARING (R138). -/
def SeekSlot.declaring (sl : SeekSlot) : SeekSlot := { sl with attempts := 3, state := .declaring }

theorem Tracker.narrowed_declaring {t : Tracker} {sl nl : SeekSlot} (narrow : t.narrowed sl = some nl) :
    t.narrowed nl.declaring = some nl.declaring := by
  obtain ⟨-, rest, wants, last⟩ := Tracker.narrowed_some narrow
  have same : t.slotWants nl.declaring = nl.first :: rest := (Tracker.narrowed_wants narrow).trans wants
  rw [Tracker.narrowed, same]
  dsimp only
  rw [last]
  rfl

theorem State.setSlot_self {s : State} {i : Nat} {x : Option SeekSlot}
    (slot : s.repair.slots[i]? = some x) (v : Option SeekSlot) :
    (s.setSlot i v).repair.slots[i]? = some v := by
  rw [State.setSlot_slots, List.getElem?_set_self (List.getElem?_eq_some_iff.1 slot).1]

section Expired

variable {s : State} {i : Nat} {sl nl : SeekSlot} (narrow : s.tracker.narrowed sl = some nl)
include narrow

theorem State.waitedOut_again (more : sl.attempts + 1 < 3) : s.waitedOut i sl =
    s.setSlot i (some { nl with attempts := sl.attempts + 1, state := .asking false }) := by
  obtain ⟨-, attempts⟩ := Tracker.narrowed_fields narrow
  rw [State.waitedOut, narrow]
  dsimp only
  rw [State.attempted, attempts, if_pos more]

theorem State.waitedOut_restarts (done : 3 ≤ sl.attempts + 1)
    (awaited : s.originPresent sl.origin = true ∨ s.mode = .joining) : s.waitedOut i sl =
    s.setSlot i (some { nl with attempts := 0, state := .asking false }) := by
  obtain ⟨origin, attempts⟩ := Tracker.narrowed_fields narrow
  rw [State.waitedOut, narrow]
  dsimp only
  rw [← origin] at awaited
  rw [State.attempted, attempts, if_neg (Nat.not_lt.2 done), if_pos (by simpa using awaited)]

theorem State.waitedOut_declares (done : 3 ≤ sl.attempts + 1)
    (absent : s.originPresent sl.origin = false) (mode : s.mode ≠ .joining) : s.waitedOut i sl =
    declareSlot 17 (s.setSlot i (some nl.declaring)) i := by
  obtain ⟨origin, attempts⟩ := Tracker.narrowed_fields narrow
  rw [State.waitedOut, narrow]
  dsimp only
  rw [← origin] at absent
  rw [State.attempted, attempts, if_neg (Nat.not_lt.2 done), if_neg (by simp [absent, mode])]
  rfl

/-- While admission is closed the slot stays DECLARING (R139). -/
theorem State.waitedOut_waits (slot : s.repair.slots[i]? = some (some sl))
    (done : 3 ≤ sl.attempts + 1) (absent : s.originPresent sl.origin = false)
    (mode : s.mode ≠ .joining) (closed : s.admissionOpen = false) :
    (s.waitedOut i sl).repair.slots[i]? = some (some nl.declaring) := by
  have turned := State.setSlot_self slot (some nl.declaring)
  obtain ⟨origin, -⟩ := Tracker.narrowed_fields narrow
  rw [State.waitedOut_declares narrow done absent mode, declareSlot_closed turned rfl
    (Tracker.narrowed_declaring narrow) (by rw [← origin] at absent; exact absent) 16 closed]
  exact State.setSlot_self turned _

/-- Wants that are one run become a HOLE job when it is admitted (R139). -/
theorem State.waitedOut_hole (slot : s.repair.slots[i]? = some (some sl)) (place : i < 4)
    (done : 3 ≤ sl.attempts + 1) (absent : s.originPresent sl.origin = false)
    (mode : s.mode ≠ .joining) (opened : s.admissionOpen = true)
    (within : sl.origin < s.tracker.holdings.length)
    (whole : ∀ x, nl.first ≤ x → x ≤ nl.last → s.tracker.isWant sl.origin x = true)
    (wanted : s.tracker.rangeWanted sl.origin nl.first nl.last = true)
    (fits : (s.tracker.gapsAfterHole sl.origin nl.first nl.last).length ≤ 32) :
    ∃ t, (s.setSlot i (some nl.declaring)).offerHole sl.origin nl.first nl.last = some t ∧
      s.waitedOut i sl = t.holeAdmitted sl.origin nl.first nl.last := by
  have turned := State.setSlot_self slot (some nl.declaring)
  obtain ⟨origin, -⟩ := Tracker.narrowed_fields narrow
  obtain ⟨t, offered⟩ := State.offerHole_admitted (s := s.setSlot i (some nl.declaring)) wanted opened
    fits
  refine ⟨t, offered, (State.waitedOut_declares narrow done absent mode).trans ?_⟩
  rw [← origin] at absent whole within offered ⊢
  exact declareSlot_whole turned rfl (Tracker.narrowed_declaring narrow) absent 15 place whole within
    offered

end Expired

end Sys2Proof.Machine

namespace Sys2Proof

open Machine

/-- Settles O37: the narrowing and the filling from the order of the wants, and the expiry by what is
left to the slot, each outcome carried through the end of the event. -/
theorem repairWaitEnds : Obligations.RepairWaitEnds := by
  refine ⟨fun t sl => ⟨Tracker.narrowed_none, fun nl narrow => ?_⟩, State.fillSlots_eq, ?_, ?_⟩
  · obtain ⟨low, high, bounds⟩ := Tracker.narrowed_bounds narrow
    have ordered := (bounds nl.first low).2
    rw [Tracker.mem_slotWants] at low high
    exact ⟨(Tracker.narrowed_some narrow).1, low.1.1, high.1.2, ordered, low.2, high.2,
      fun x above below want => bounds x (Tracker.mem_slotWants.2 ⟨⟨above, below⟩, want⟩)⟩
  · exact fun s i o seq before after r => State.fillSlot_uncovered
  · intro s i sl limits slot waits
    have grows := (s.waitedOut i.val sl).conclude_grows
    have freed (left : s.tracker.narrowed sl = none) : s.waitedOut i.val sl = s.setSlot i.val none := by
      rw [State.waitedOut, left]
    refine ⟨_, execRepairWaitExpiry_waiting slot waits, fun left x after => ?_, fun left => ?_,
      fun nl narrow => ⟨fun more => ?_, fun done awaited => ?_, fun done absent mode closed => ?_,
        fun done absent mode opened tracking whole wanted fits => ?_⟩,
      (s.waitedOut_keeps i sl).trans (State.conclude_keeps _)⟩
    · refine (State.conclude_refills _ i.val x after).resolve_left fun before => ?_
      rw [freed left, State.setSlot_self slot] at before
      cases before
    · rw [freed left, State.setSlot_none_refilled]
    · refine grows.slots i.val _ ?_
      rw [State.waitedOut_again narrow more, State.setSlot_self slot]
    · refine grows.slots i.val _ ?_
      rw [State.waitedOut_restarts narrow done awaited, State.setSlot_self slot]
    · exact grows.slots i.val _ (State.waitedOut_waits narrow slot done absent mode closed)
    · have ordered : nl.first ≤ nl.last :=
        ((Tracker.narrowed_bounds narrow).2.2 _ (Tracker.narrowed_bounds narrow).1).2
      have within : sl.origin < s.tracker.holdings.length := by
        rw [tracking.length]
        exact Tracker.rangeWanted_origin tracking.tracker wanted ordered
      obtain ⟨t, offered, admitted⟩ := State.waitedOut_hole narrow slot i.isLt done absent mode opened
        within whole wanted fits
      rw [admitted]
      exact State.holeAdmitted_concluded (s := s.setSlot i.val (some nl.declaring)) offered within

end Sys2Proof

/-! ## The selections of the Host Port (R148 to R152) -/

namespace Sys2Proof.Machine

/-! ### What a selection writes itself -/

/-- The progress of a selection leaves the command result and the notices with their lost count. -/
structure Port.Selects (p q : Port) : Prop where
  result : q.result = p.result
  notices : q.notices = p.notices
  lost : q.lost = p.lost

/-- What a selection does at any of its moments: its own writes in the Host Port, and after them its
effect, if any. -/
theorem State.select_cases (s : State) (m : Moment) (c : Completed) (o : Sdo)
    (effect : Completed → State → State) : ∃ p,
      (s.select m c o effect = s.setPort p ∨ ∃ k, s.select m c o effect = effect k (s.setPort p)) ∧
      s.port.Selects p := by
  have unmoved : s = s.setPort s.port := rfl
  unfold State.select
  cases m with
  | whole =>
    dsimp only
    repeat' split
    · exact ⟨_, .inl unmoved, rfl, rfl, rfl⟩
    · exact ⟨_, .inl rfl, rfl, rfl, rfl⟩
    · exact ⟨_, .inr ⟨c, rfl⟩, rfl, rfl, rfl⟩
  | select =>
    dsimp only [State.beginSelection]
    split
    · exact ⟨_, .inl unmoved, rfl, rfl, rfl⟩
    · exact ⟨_, .inl rfl, rfl, rfl, rfl⟩
  | complete =>
    dsimp only [State.completeSelection]
    split
    · exact ⟨_, .inl rfl, rfl, rfl, rfl⟩
    · exact ⟨_, .inl unmoved, rfl, rfl, rfl⟩
  | release =>
    dsimp only [State.releaseSelection]
    repeat' split
    · exact ⟨_, .inl rfl, rfl, rfl, rfl⟩
    · exact ⟨_, .inl unmoved, rfl, rfl, rfl⟩
    · exact ⟨_, .inl unmoved, rfl, rfl, rfl⟩
    · exact ⟨_, .inl rfl, rfl, rfl, rfl⟩
    · next k _ _ _ => exact ⟨_, .inr ⟨k, rfl⟩, rfl, rfl, rfl⟩

/-- Each host command is a command of the Host Port, with one body at every moment of its selection. -/
theorem hostCommand_exec {i : Instr} {c : HostCommand} {m : Moment}
    (host : i.hostCommand = some (c, m)) : i.atMoment m = i ∧
      ∃ body, ∀ n s, exec (i.atMoment n) s = .next (s.command c n body) := by
  cases i with
  | status | result | readBuffer | nextNotice | readPosition | readRecord | submit | release | enlist
  | format | quiet | wake | lineResume | reset =>
    cases host
    exact ⟨rfl, _, fun _ _ => rfl⟩
  | _ => cases host

/-- The reset of a state that heeds SEL# is not changed by what a selection returned. -/
theorem State.stationReset_setReturned {s : State} (heeded : s.port.selIgnored = false) (o : Sdo)
    (cut : CutShort) : (s.setReturned o).stationReset cut = s.stationReset cut := by
  unfold State.stationReset
  rw [heeded]
  rfl

/-! ### The table of R152 -/

theorem HostCommand.verdict_busy {c : HostCommand} {m : Mode} (mode : m = .mounting ∨ m = .formatting)
    (other : c ≠ .status) : c.verdict m = .busy := by
  rcases mode with rfl | rfl
  all_goals
    cases c with
    | status => exact absurd rfl other
    | _ => rfl

theorem HostCommand.verdict_quiet {c : HostCommand} (other : c ≠ .wake) :
    c.verdict .quiet = .noTrace := by
  cases c with
  | wake => exact absurd rfl other
  | _ => rfl

theorem HostCommand.verdict_unenlisted {c : HostCommand}
    (refused : c = .quiet ∨ c = .lineResume ∨ c = .wake) :
    c.verdict .unenlisted = .refusedMode := by
  rcases refused with rfl | rfl | rfl <;> rfl

theorem HostCommand.verdict_onLine {c : HostCommand} {m : Mode} (mode : m = .joining ∨ m = .active)
    (refused : c = .enlist ∨ c = .format ∨ c = .wake) : c.verdict m = .refusedMode := by
  rcases mode with rfl | rfl
  all_goals rcases refused with rfl | rfl | rfl <;> rfl

/-- STATUS is taken in every mode but QUIET (R155). -/
theorem HostCommand.verdict_status {m : Mode} (mode : m ≠ .quiet) :
    HostCommand.status.verdict m = .taken := by
  cases m with
  | quiet => exact absurd rfl mode
  | _ => rfl

/-- RESULT, READ BUFFER and RESET are taken in the modes that serve. -/
theorem HostCommand.verdict_serves {c : HostCommand} {m : Mode} (serves : m.serves)
    (reports : c = .result ∨ c = .readBuffer ∨ c = .reset) : c.verdict m = .taken := by
  rcases reports with rfl | rfl | rfl
  all_goals rcases serves with rfl | rfl | rfl <;> rfl

end Sys2Proof.Machine

namespace Sys2Proof

open Machine

/-- Settles O4: row by row of R152's table, the body of the command not being reached. -/
theorem modeRefusals : Obligations.ModeRefusals := by
  intro i c s host ready
  obtain ⟨whole, body, exec_eq⟩ := hostCommand_exec host
  have run : exec i s = .next (s.command c .whole body) := by rw [← exec_eq, whole]
  rw [run]
  refine ⟨fun mode other => ?_, fun mode refused => ?_, fun mode refused => ?_, fun mode other => ?_⟩
  · rw [State.command_busy ready body (HostCommand.verdict_busy mode other)]
  · rw [State.command_refused ready body]
    rw [mode, HostCommand.verdict_unenlisted refused]
  · rw [State.command_refused ready body (HostCommand.verdict_onLine mode refused)]
  · rw [State.command_noTrace ready body]
    rw [mode, HostCommand.verdict_quiet other]

/-! ### RESET and LINE RESUME -/

/-- Settles O3: the reset of the state that its selection leaves is that of the state itself; the other
modes by R152. -/
theorem resetCommand : Obligations.ResetCommand := by
  refine ⟨fun cut => rfl, fun cut s ready heeded => ?_, fun cut s => ⟨_, rfl, rfl⟩⟩
  obtain ⟨busy, -, -, quiet⟩ := modeRefusals (.reset cut .whole) .reset s rfl ready
  refine ⟨fun serves => ?_, fun mode => busy mode nofun, fun mode => ?_⟩
  · show Host.Outcome.next (s.command .reset .whole _) = .next (s.stationReset cut)
    rw [State.command_taken ready _ (HostCommand.verdict_serves serves (.inr (.inr rfl)))]
    rw [State.stationReset_setReturned heeded]
  · rw [quiet mode nofun, ← heeded]

/-- Settles O17: taken in JOINING and ACTIVE, and by R152 in the other modes. -/
theorem lineResumeCommand : Obligations.LineResumeCommand := by
  refine ⟨fun cut => rfl, fun s ready => ?_⟩
  obtain ⟨-, refused, -, quiet⟩ := modeRefusals (.lineResume .whole) .lineResume s rfl ready
  refine ⟨fun mode => ?_, fun mode => refused mode (.inr (.inl rfl)),
    fun mode => ⟨_, quiet mode nofun, rfl⟩⟩
  have taken : HostCommand.lineResume.verdict s.mode = .taken := by
    rcases mode with mode | mode <;> rw [mode] <;> rfl
  show Host.Outcome.next (s.command .lineResume .whole _) = _
  rw [State.command_taken ready _ taken, State.drives_zeros taken rfl]
  rfl

end Sys2Proof

/-! ### The three moments of a command (R148, R149) -/

namespace Sys2Proof.Machine

section Moments

variable {s : State} (c : HostCommand) (body : Completed → State → State)

theorem State.command_select (apart : s.port.selection = none) : s.command c .select body
    = { s with port := { s.port with selection := some .shifting, selIgnored := false } } := by
  dsimp only [State.command, State.select, State.beginSelection]
  rw [apart]
  rfl

theorem State.command_complete (shifting : s.port.selection = some .shifting)
    (free : s.port.holdPin = false) : s.command c .complete body = { s with port := { s.port with
      returned := s.drives c, selection := some (.completed (s.completed c)) } } := by
  dsimp only [State.command, State.select, State.completeSelection]
  rw [shifting, free]
  rfl

theorem State.command_release {k : Completed} (completed : s.port.selection = some (.completed k))
    (code : k.code = c.code) (free : s.port.holdPin = false) : s.command c .release body
      = (s.setPort { s.port with selection := none }).decode c (body k) := by
  dsimp only [State.command, State.select, State.releaseSelection]
  rw [completed, free]
  exact if_neg (not_not.2 code)

theorem State.command_whole (ready : s.PortReady) : s.command c .whole body
    = (s.setReturned (s.drives c)).decode c (body (s.completed c)) := by
  dsimp only [State.command, State.select]
  rw [ready.selection, ready.holdPin]
  rfl

end Moments

/-- A ready port, its selection taken away again. -/
theorem State.PortReady.setSelection_none {s : State} (ready : s.PortReady) :
    s.setPort { s.port with selection := none } = s := by
  obtain ⟨selection, -⟩ := ready
  rw [← selection]
  rfl

end Sys2Proof.Machine

namespace Sys2Proof

open Machine

/-- Settles O5: the bytes by the cases of what they show, the moments by the selection's. -/
theorem reportsReturned : Obligations.ReportsReturned := by
  refine ⟨fun r => ?_, fun slot buffer => ?_, ⟨rfl, rfl, rfl, rfl, rfl, rfl, rfl, rfl, rfl, rfl⟩,
    fun s ready => ⟨fun mode => ?_, fun serves => ?_⟩⟩
  · obtain ⟨code, command, _ | ⟨ticket, seq⟩⟩ := r <;> rfl
  · rcases slot with _ | (p | ⟨o, q⟩) | ⟨p | ⟨o, q⟩, code⟩ <;> rfl
  · have taken := HostCommand.verdict_status mode
    have responds : s.drives .status = .drives s.statusBytes [] := by
      rw [State.drives, taken]
      rfl
    have completed : s.completed .status = ⟨0x51, true, none, 0, false⟩ := by
      rw [State.completed, taken]
      rfl
    refine ⟨?_, ?_, fun c code => ?_⟩
    · show Host.Outcome.next (s.command .status .whole _) = _
      rw [State.command_taken ready _ taken, responds]
      rfl
    · refine congrArg Host.Outcome.next ((State.command_complete
        (s := s.setPort { s.port with selection := some .shifting }) .status _ rfl
        ready.holdPin).trans ?_)
      rw [← responds, ← completed]
      rfl
    · refine congrArg Host.Outcome.next ((State.command_release
        (s := s.setPort { s.port with selection := some (.completed c) }) .status _ rfl code
        ready.holdPin).trans ?_)
      refine (congrArg (State.decode · _ _) ready.setSelection_none).trans ?_
      rw [State.decode, taken]
      rfl
  · have reports {c : HostCommand} (named : c = .result ∨ c = .readBuffer ∨ c = .reset) :=
      HostCommand.verdict_serves serves named
    constructor
    · show Host.Outcome.next (s.command .result .whole _) = _
      rw [State.command_taken ready _ (reports (.inl rfl)), State.drives, reports (.inl rfl)]
      rfl
    · show Host.Outcome.next (s.command .readBuffer .whole _) = _
      rw [State.command_taken ready _ (reports (.inr (.inl rfl))), State.drives,
        reports (.inr (.inl rfl))]
      rfl

end Sys2Proof

/-! ### Releases that discard, and codes that name no command (R149, R152) -/

namespace Sys2Proof.Machine

section Discards

variable {s : State}

/-- A selection discarded with the port-error flag (R149, R151). -/
theorem State.discardSelection_error (heeded : s.port.selIgnored = false) (mode : s.mode ≠ .quiet) :
    s.discardSelection = { s with port := { s.port with selection := none, portError := true } } := by
  unfold State.discardSelection
  rw [decide_eq_true mode, Bool.or_true, ← heeded]
  rfl

/-- In QUIET no selection sets the port-error flag (R152). -/
theorem State.discardSelection_quiet (heeded : s.port.selIgnored = false) (mode : s.mode = .quiet) :
    s.discardSelection = { s with port := { s.port with selection := none } } := by
  unfold State.discardSelection
  rw [decide_eq_false (not_not.2 mode), Bool.or_false, ← heeded]
  rfl

theorem execUnknownCode_whole (ready : s.PortReady) {code : Byte}
    (unnamed : HostCommand.ofCode code = none) : exec (.unknownCode code .whole) s =
      .next ((s.setReturned s.mode.drivesUnknown).refuseUnknown code) := by
  show Host.Outcome.next (if (HostCommand.ofCode code).isSome then s else _) = _
  rw [unnamed]
  dsimp only [State.select]
  rw [ready.selection, ready.holdPin]
  rfl

theorem execCommandDiscarded_ignored (how : Discard) (ignored : s.port.selIgnored = true) :
    exec (.commandDiscarded how) s =
      .next { s with port := { s.port with selection := none, selIgnored := false } } :=
  congrArg Host.Outcome.next (if_pos ignored)

/-- What a release that discards leaves, by the first four rows of R149, SEL# being heeded. -/
def State.discarded (s : State) : Discard → State
  | .noBit => { s with port := { s.port with selection := none } }
  | .offBoundary | .duringHold => s.discardSelection
  | .incomplete code =>
    if s.port.holdPin then s.discardSelection
    else if s.mode ≠ .quiet ∧ (HostCommand.ofCode code).isSome then
      { s with port := { s.port with selection := none, result := ⟨.badArg, some code, none⟩ } }
    else { s with port := { s.port with selection := none } }

theorem execCommandDiscarded_heeded (how : Discard) (heeded : s.port.selIgnored = false) :
    exec (.commandDiscarded how) s = .next (s.discarded how) := by
  have ended : s.setPort { s.port with selection := none, selIgnored := false }
      = { s with port := { s.port with selection := none } } := by
    rw [← heeded]
    rfl
  refine congrArg Host.Outcome.next ((if_neg (Bool.eq_false_iff.1 heeded)).trans ?_)
  rw [ended]
  cases how <;> rfl

/-- In QUIET a release that discards only ends the selection (R152). -/
theorem State.discarded_quiet (heeded : s.port.selIgnored = false) (mode : s.mode = .quiet)
    (how : Discard) : s.discarded how = { s with port := { s.port with selection := none } } := by
  have unwritten (code : Byte) : ¬ (s.mode ≠ .quiet ∧ (HostCommand.ofCode code).isSome = true) :=
    fun h => h.1 mode
  cases how with
  | noBit => rfl
  | offBoundary => exact State.discardSelection_quiet heeded mode
  | duringHold => exact State.discardSelection_quiet heeded mode
  | incomplete code =>
    simp only [State.discarded, State.discardSelection_quiet heeded mode, if_neg (unwritten code),
      ite_self]

end Discards

end Sys2Proof.Machine

namespace Sys2Proof

open Machine

/-- Settles O18: the moments by what each leaves to the next, the discards by the rows of R149. -/
theorem portEvents : Obligations.PortEvents := by
  refine ⟨fun i c s host ready => ?_, fun s selection cut selected => ⟨_, rfl, rfl, ?_⟩,
    fun s code ready unnamed => ?_, fun s heeded => ?_, fun s how ignored =>
      execCommandDiscarded_ignored how ignored, fun s asserted => ⟨_, rfl, rfl, fun held => ?_⟩⟩
  · obtain ⟨whole, body, exec_eq⟩ := hostCommand_exec host
    have run : exec i s = .next (s.command c .whole body) := by rw [← exec_eq, whole]
    intro t u
    rw [exec_eq, exec_eq, exec_eq, run]
    refine ⟨congrArg Host.Outcome.next (State.command_select c body ready.selection), ?_,
      congrArg Host.Outcome.next (State.command_complete (s := t) c body rfl ready.holdPin), ?_,
      congrArg Host.Outcome.next ?_⟩
    · show (if s.port.holdPin then Sdo.highImpedance else _) = _
      rw [ready.holdPin]
      rfl
    · show (if s.port.holdPin then Sdo.highImpedance else _) = _
      rw [ready.holdPin]
      rfl
    · have ended : u.setPort { u.port with selection := none } = s.setReturned (s.drives c) := by
        rw [← ready.selection]
        rfl
      rw [State.command_release (s := u) c body rfl rfl ready.holdPin, ended,
        State.command_whole c body ready]
  · show (s.port.selection.isSome || s.port.selIgnored) = true
    rw [selected]
    rfl
  · rw [execUnknownCode_whole ready unnamed]
    rw [State.refuseUnknown, State.setReturned_mode]
    refine ⟨fun mode => ?_, fun serves => ?_, fun mode => ?_⟩
    · rcases mode with mode | mode <;> rw [mode] <;> rfl
    · rcases serves with mode | mode | mode <;> rw [mode] <;> rfl
    · show _ = Host.Outcome.next (s.setReturned .highImpedance)
      rw [mode]
      rfl
  · have run (how : Discard) := execCommandDiscarded_heeded how heeded
    refine ⟨run _, fun mode => ?_, fun mode how => ?_⟩
    · have error := State.discardSelection_error heeded mode
      refine ⟨(run _).trans (congrArg _ error), (run _).trans (congrArg _ error),
        fun code => ⟨fun held => ?_, fun free named => ?_⟩⟩
      · rw [run, State.discarded, if_pos held, error]
      · rw [run, State.discarded, if_neg (Bool.eq_false_iff.1 free), if_pos ⟨mode, named⟩]
    · rw [run, State.discarded_quiet heeded mode]
  · rw [Port.sdo, held]
    rfl

end Sys2Proof

/-! ## The layout of STATUS (R155, R188) -/

namespace Sys2Proof.Machine

/-- The mode, the enlistment and the flags, as STATUS shows them first. -/
def State.statusFront (s : State) : List Byte :=
  s.mode.byte :: (match s.enlistment with
    | some e => [natByte e.station, natByte e.n, natByte e.w, e.rate.byte, natByte e.p]
    | none => [0, 0, 0, 0, 0]) ++ [s.flagsByte]

/-- The read slot's bytes in STATUS. -/
def ReadSlot.statusBytes (r : ReadSlot) : List Byte := r.targetBytes ++ [r.codeByte]

/-- The notices, the lost count and the submit entries. -/
def State.statusCounts (s : State) : List Byte :=
  [natByte s.port.notices.length, natByte s.port.lost, natByte s.submission.queue.length]

/-- The durable mark, the positions, the release mark and the ERASED count. -/
def State.statusMarks (s : State) : List Byte :=
  natBytes s.submission.durable ++ natBytes (s.writer.nextPosition - 1)
    ++ natBytes s.oldestPosition ++ natBytes s.writer.releaseMark ++ [natByte s.segments.erasedCount]

/-- STATUS is five parts, one behind the other. -/
theorem State.statusBytes_eq (s : State) : s.statusBytes = s.statusFront ++ (s.port.slot.statusBytes
    ++ (s.statusCounts ++ (s.statusMarks ++ (List.range s.clusterSize).flatMap s.stationBytes))) := by
  unfold State.statusBytes State.statusFront
  cases s.enlistment <;>
    simp only [ReadSlot.statusBytes, State.statusCounts, State.statusMarks, List.append_assoc,
      List.cons_append, List.nil_append]

theorem State.statusFront_length (s : State) : s.statusFront.length = 7 := by
  unfold State.statusFront
  cases s.enlistment <;> rfl

theorem ReadSlot.statusBytes_eq (r : ReadSlot) : r.statusBytes = match r with
    | .idle => [0, 0, 0, 0, 0, 0, 0, 0]
    | .pending (.position p) => [1, 1, 0] ++ natBytes p ++ [1]
    | .pending (.record o q) => [1, 2, natByte o] ++ natBytes q ++ [1]
    | .done (.position p) code => [2, 1, 0] ++ natBytes p ++ [code.byte]
    | .done (.record o q) code => [2, 2, natByte o] ++ natBytes q ++ [code.byte] := by
  rcases r with _ | (p | ⟨o, q⟩) | ⟨p | ⟨o, q⟩, code⟩ <;> rfl

theorem ReadSlot.statusBytes_length (r : ReadSlot) : r.statusBytes.length = 8 := by
  rcases r with _ | (p | ⟨o, q⟩) | ⟨p | ⟨o, q⟩, code⟩ <;> rfl

theorem State.stationBytes_length (s : State) (p : Nat) : (s.stationBytes p).length = 2 := by
  unfold State.stationBytes
  split <;> rfl

/-- The two bytes of a station number: the own mode, or a peer's state with its flags. -/
theorem State.stationBytes_eq (s : State) (p : Nat) : s.stationBytes p =
    if s.isOwn p then [s.mode.byte, 0x00]
    else [(s.presence.peer p).state.byte,
      match (s.presence.peer p).full, (s.presence.peer p).quiet with
      | false, false => 0x00
      | true, false => 0x01
      | false, true => 0x02
      | true, true => 0x03] := by
  unfold State.stationBytes
  split
  · rfl
  · dsimp only
    cases (s.presence.peer p).full <;> cases (s.presence.peer p).quiet <;> rfl

end Sys2Proof.Machine

namespace Sys2Proof

open Machine

/-- Settles O6: each part of the report taken from behind the parts before it, whose lengths are
fixed. -/
theorem statusLayout : Obligations.StatusLayout := by
  refine ⟨⟨rfl, rfl, rfl, rfl, rfl⟩, ⟨rfl, rfl, rfl, rfl⟩, ⟨rfl, rfl, rfl, rfl⟩, fun s => ⟨rfl, ?_⟩⟩
  have front := s.statusFront_length
  have slot := s.port.slot.statusBytes_length
  have stations : ((List.range s.clusterSize).flatMap s.stationBytes).length = 2 * s.clusterSize := by
    simp [List.length_flatMap, State.stationBytes_length, mul_comm]
  have counts : s.statusCounts.length = 3 := rfl
  have marks : s.statusMarks.length = 17 := rfl
  rw [s.statusBytes_eq]
  refine ⟨?_, List.take_left' front, ?_, ?_, ?_, ?_⟩
  · simp only [List.length_append, front, slot, counts, marks, stations]
    omega
  · rw [List.drop_left' front, List.take_left' slot]
    exact s.port.slot.statusBytes_eq
  · rw [← List.append_assoc, ← List.append_assoc, ← List.append_assoc, List.drop_left']
    · exact congrArg (List.flatMap · (List.range s.clusterSize)) (funext s.stationBytes_eq)
    · simp only [List.length_append, front, slot, counts, marks]
  · rw [← List.append_assoc, List.drop_left', List.take_left' counts]
    · rfl
    · rw [List.length_append, front, slot]
  · rw [← List.append_assoc, ← List.append_assoc, List.drop_left', List.take_left' marks]
    · rfl
    · simp only [List.length_append, front, slot, counts]

end Sys2Proof

/-! ## The bytes of a selection read back (R148, R149) -/

namespace Sys2Proof

open Machine

theorem Machine.HostCommand.ofCode_code (c : HostCommand) : HostCommand.ofCode c.code = some c := by
  cases c <;> rfl

/-- A selection that begins with a command's code is read by that command's arguments. -/
theorem decodeSelection_code (cut : CutShort) (c : HostCommand) {rest : List Byte} {i : Instr}
    (spelt : commandOf cut c rest = some i) : decodeSelection cut (c.code :: rest) = i := by
  simp only [decodeSelection, HostCommand.ofCode_code, spelt, Option.getD_some]

/-- A payload that its length byte can state is read back whole (R157). -/
theorem commandOf_submit (cut : CutShort) (tag : Byte) {payload : List Byte}
    (short : payload.length ≤ 255) :
    commandOf cut .submit (tag :: natByte payload.length :: payload)
      = some (.submit tag payload .whole) := by
  have length : (natByte payload.length).toNat = payload.length :=
    Nat.mod_eq_of_lt (Nat.lt_succ_of_le short)
  simp only [commandOf, length, le_refl, if_true, List.take_length]

/-- Settles O60: a host command by its code and then its arguments, a code that names no command by
itself. -/
theorem selectionRoundTrip : Obligations.SelectionRoundTrip := by
  intro cut i bytes good reset spelt
  cases i with
  | status m | result m | readBuffer m | nextNotice m | enlist _ _ _ _ _ m | format m | quiet m
  | wake m | lineResume m =>
    cases m with
    | whole =>
      cases spelt
      exact decodeSelection_code cut _ rfl
    | _ => cases spelt
  | readPosition position m =>
    cases m with
    | whole =>
      cases spelt
      exact decodeSelection_code cut .readPosition
        (congrArg (fun w => some (Instr.readPosition w .whole)) (ofBytes_wordBytes position))
    | _ => cases spelt
  | readRecord origin seq m =>
    cases m with
    | whole =>
      cases spelt
      exact decodeSelection_code cut .readRecord
        (congrArg (fun w => some (Instr.readRecord origin w .whole)) (ofBytes_wordBytes seq))
    | _ => cases spelt
  | submit tag payload m =>
    cases m with
    | whole =>
      cases spelt
      exact decodeSelection_code cut .submit (commandOf_submit cut tag (of_decide_eq_true good))
    | _ => cases spelt
  | release position m =>
    cases m with
    | whole =>
      cases spelt
      exact decodeSelection_code cut .release
        (congrArg (fun w => some (Instr.release w .whole)) (ofBytes_wordBytes position))
    | _ => cases spelt
  | reset c m =>
    obtain rfl := reset c m rfl
    cases m with
    | whole =>
      cases spelt
      exact decodeSelection_code c .reset rfl
    | _ => cases spelt
  | unknownCode code m =>
    cases m with
    | whole =>
      cases spelt
      have unnamed : HostCommand.ofCode code = none := Option.isNone_iff_eq_none.1 good
      rw [decodeSelection, unnamed]
    | _ => cases spelt
  | commandDiscarded how =>
    cases how with
    | noBit =>
      cases spelt
      rfl
    | _ => cases spelt
  | _ => cases spelt

end Sys2Proof

/-! ## WAKE (R78, R131, R152, R163, R184) -/

namespace Sys2Proof.Machine

/-! ### The command result through QUIET -/

/-- In QUIET no other host command writes the command result (R152). -/
theorem State.command_result_quiet {s : State} {c : HostCommand} (quiet : s.mode = .quiet)
    (other : c ≠ .wake) (m : Moment) (body : Completed → State → State) :
    (s.command c m body).port.result = s.port.result := by
  obtain ⟨p, made | ⟨k, made⟩, selects⟩ := s.select_cases m (s.completed c) (s.drives c)
    fun k t => t.decode c (body k)
  · exact (congrArg (·.port.result) made).trans selects.result
  · refine (congrArg (·.port.result) made).trans (Eq.trans ?_ selects.result)
    rw [State.decode, State.setPort_mode, quiet, HostCommand.verdict_quiet other]
    rfl

theorem execUnknownCode_result_quiet {s : State} (quiet : s.mode = .quiet) (code : Byte)
    (m : Moment) : ∃ t, exec (.unknownCode code m) s = .next t ∧ t.port.result = s.port.result := by
  refine ⟨_, rfl, ?_⟩
  split
  · rfl
  · obtain ⟨p, made | ⟨k, made⟩, selects⟩ := s.select_cases m ⟨code, false, none, 0, false⟩
      s.mode.drivesUnknown fun _ t => t.refuseUnknown code
    · exact (congrArg (·.port.result) made).trans selects.result
    · refine (congrArg (·.port.result) made).trans (Eq.trans ?_ selects.result)
      rw [State.refuseUnknown, State.setPort_mode, quiet]
      rfl

theorem execCommandDiscarded_result_quiet {s : State} (quiet : s.mode = .quiet) (how : Discard) :
    ∃ t, exec (.commandDiscarded how) s = .next t ∧ t.port.result = s.port.result := by
  cases ignored : s.port.selIgnored with
  | true => exact ⟨_, execCommandDiscarded_ignored how ignored, rfl⟩
  | false =>
    refine ⟨_, execCommandDiscarded_heeded how ignored, ?_⟩
    rw [State.discarded_quiet ignored quiet]

/-! ### The line at the end of an event without fetch claims -/

/-- No fetch claim waits, so that none is refused and the line is as it was. -/
structure State.Fetchless (s t : State) : Prop where
  line : t.line = s.line
  claims : t.array.fetchClaims = []

theorem State.Fetchless.trans {s t u : State} (a : s.Fetchless t) (b : t.Fetchless u) :
    s.Fetchless u := ⟨b.line.trans a.line, b.claims⟩

theorem State.serve_fetchless {s : State} (unclaimed : s.array.fetchClaims = []) :
    s.Fetchless s.serve := by
  refine serveClaims_rel (R := fun s t => s.array.fetchClaims = [] → s.Fetchless t) ?_ ?_ _ s unclaimed
  · intro s t served unclaimed
    cases served with
    | fetch c rest _ _ waits => cases unclaimed.symm.trans waits
    | _ => exact ⟨rfl, unclaimed⟩
  · intro s t u refused later unclaimed
    cases refused with
    | host c => exact ⟨(later unclaimed).line, (later unclaimed).claims⟩
    | fetch c rest _ _ waits => cases unclaimed.symm.trans waits

theorem State.scheduleErase_fetchless {s : State} (unclaimed : s.array.fetchClaims = []) :
    s.Fetchless s.scheduleErase :=
  ⟨s.scheduleErase_line, by rw [State.scheduleErase_array]; exact unclaimed⟩

/-- With no fetch claim waiting the end of an event leaves the line. -/
theorem State.conclude_line {s : State} (unclaimed : s.array.fetchClaims = []) :
    s.conclude.line = s.line := by
  have placed : s.Fetchless s.placed := by
    refine ⟨?_, ?_⟩
    · rw [State.placed, State.placeHead_line, State.refilled, State.fillSlots_line,
        State.excessTest_line]
    · rw [State.placed, State.placeHead_array, s.refilled_fields.2.1]
      exact unclaimed
  have first := placed.trans (State.scheduleErase_fetchless placed.claims)
  have second := first.trans (State.serve_fetchless first.claims)
  have third := second.trans (State.scheduleErase_fetchless second.claims)
  have last := third.trans (State.serve_fetchless third.claims)
  rw [State.conclude_eq]
  exact (State.checkSuspend_line _).trans last.line

/-! ### What a taken WAKE leaves (R184) -/

/-- What a taken WAKE sets before the confirmation test and the entry into JOINING: the answer, the
line interface on, and the peer table forgotten. -/
def State.waking (s : State) : State := { s.replied (.drives [] []) .ok 0xC6 with
  line := { s.line with
    transmitter := if s.line.framer = .off then .idle
      else s.line.transmitter.mapRequest Request.dropQuieting
    framer := if s.line.framer = .off then .hunt else s.line.framer }
  presence := { s.presence.forget with quieting := false } }

theorem State.woken_eq (s : State) : (s.setReturned Sdo.zeros).woken
    = s.waking.confirmTest.enterJoining.conclude := by
  have answered : (if s.line.framer = .off then (s.replied (.drives [] []) .ok 0xC6).lineOn
      else (s.replied (.drives [] []) .ok 0xC6).mapRequest Request.dropQuieting)
        = { s.waking with presence := s.presence } := by
    unfold State.waking
    split <;> rfl
  refine congrArg (fun t => (State.enterJoining (State.confirmTest t)).conclude) ?_
  exact congrArg (fun t : State => t.setPresence { t.presence.forget with quieting := false }) answered

theorem execWake_woken {s : State} (ready : s.PortReady) (mode : s.mode = .quiet) :
    exec (.wake .whole) s = .next s.waking.confirmTest.enterJoining.conclude := by
  have taken : HostCommand.wake.verdict s.mode = .taken := by rw [mode]; rfl
  show Host.Outcome.next (s.command .wake .whole _) = _
  rw [State.command_taken ready _ taken, State.drives_zeros taken rfl, ← State.woken_eq]

/-- The state that a taken WAKE hands to the end of its event, with the submit queue, the durable mark and
the notices that the confirmation test leaves. -/
def State.wokenAs (s : State) (q : List Entry) (d : Nat) (r : List (Block × Notice)) : State :=
  ((s.waking.setSubmission { s.submission with queue := q, durable := d }).setRaised r).enterJoining

/-- A taken WAKE does not lower the durable mark (R108). -/
theorem State.wokenAs_form (s : State) :
    ∃ q d r, s.waking.confirmTest.enterJoining = s.wokenAs q d r ∧ s.submission.durable ≤ d := by
  obtain ⟨q, d, r, form, -, durable⟩ := s.waking.confirmTest_form
  exact ⟨q, d, r, congrArg State.enterJoining form, durable⟩

/-- A forgotten peer table entry after the entry into JOINING (R131, R181). -/
theorem State.enterJoining_forgotten {s : State} {k : Nat}
    (forgotten : s.presence.peer k = Peer.reset) (within : k < s.presence.peers.length) :
    s.enterJoining.presence.peer k = ⟨.unknown, s.isPeer k, List.replicate 16 0, false, false⟩ := by
  rw [State.enterJoining_peer within, forgotten]
  cases s.isPeer k <;> rfl

end Sys2Proof.Machine

namespace Sys2Proof

open Machine

/-- Settles O16: the refusals by R152; a taken WAKE by what it sets in each block, through the end of
its event. -/
theorem wakeCommand : Obligations.WakeCommand := by
  refine ⟨fun cut => rfl, fun s ready => ?_, fun s i quiet => ?_, fun s ready quiet peers => ?_⟩
  · obtain ⟨busy, unenlisted, onLine, -⟩ := modeRefusals (.wake .whole) .wake s rfl ready
    exact ⟨fun serves => serves.elim (unenlisted · (.inr (.inr rfl)))
      (onLine · (.inr (.inr rfl))), fun mode => busy mode nofun⟩
  · rintro (⟨c, m, host, other⟩ | ⟨code, m, rfl⟩ | ⟨how, rfl⟩)
    · obtain ⟨same, body, exec_eq⟩ := hostCommand_exec host
      exact ⟨_, by rw [← same, exec_eq], State.command_result_quiet quiet other m body⟩
    · exact execUnknownCode_result_quiet quiet code m
    · exact execCommandDiscarded_result_quiet quiet how
  · obtain ⟨q, d, r, form, durable⟩ := s.wokenAs_form
    have keeps := (s.wokenAs q d r).conclude_keeps
    have submission {α : Type} (f : Submission → α) :
        f (s.wokenAs q d r).conclude.submission = f (s.wokenAs q d r).submission :=
      congrArg f keeps.submission
    refine ⟨(s.wokenAs q d r).conclude, (execWake_woken ready quiet).trans
        (congrArg (Host.Outcome.next ·.conclude) form),
      keeps.mode, keeps.result, congrArg Presence.request keeps.presence,
      congrArg Presence.presenceTimer keeps.presence, congrArg Presence.joiningTimer keeps.presence,
      congrArg Presence.quieting keeps.presence, fun k within => ?_, keeps.framer,
      fun unclaimed => ?_, keeps.failures, keeps.muted, keeps.heldCursor, ?_,
      submission Submission.nextSeq, submission Submission.ticket, ?_, submission Submission.kept,
      keeps.flash, keeps.nextPosition, keeps.releaseMark, keeps.enlistment⟩
    · rw [keeps.presence]
      refine State.enterJoining_forgotten (s.presence.forget_peer k) ?_
      exact (List.length_map _).symm ▸ peers.length.symm ▸ within
    · rw [State.conclude_line (s := s.wokenAs q d r) unclaimed]
      refine congrArg (ite _ _ <| s.line.transmitter.mapRequest ·) ?_
      funext r
      cases r <;> rfl
    · exact .trans (t := s.wokenAs q d r) ⟨rfl, rfl, rfl⟩ (State.conclude_tables _)
    · rw [keeps.submission]
      exact durable

end Sys2Proof

/-! ## The notice queue through every command (R167, R168, R169) -/

namespace Sys2Proof.Machine

/-! ### What a change of the state keeps -/

/-- The limits of the notice queue and of the lost-notice count carry over. -/
def State.KeepsNotices (s t : State) : Prop := s.NoticesOk → t.NoticesOk

theorem State.KeepsNotices.refl (s : State) : s.KeepsNotices s := fun h => h

theorem State.KeepsNotices.trans {s t u : State} (a : s.KeepsNotices t) (b : t.KeepsNotices u) :
    s.KeepsNotices u := fun h => b (a h)

/-- The same notices and the same count keep their limits. -/
theorem State.KeepsNotices.of_eq {s t : State} (notices : t.port.notices = s.port.notices)
    (lost : t.port.lost = s.port.lost) : s.KeepsNotices t :=
  fun h => ⟨by rw [notices]; exact h.length, by rw [notices]; exact h.arrivals,
    by rw [lost]; exact h.lost⟩

theorem State.Still.keepsNotices {s t : State} (h : s.Still t) : s.KeepsNotices t :=
  .of_eq h.notices h.lost

/-- The notices that join at an event's end pass neither limit (R168). -/
theorem State.KeepsNotices.conclude {s t : State} (h : s.KeepsNotices t) :
    s.KeepsNotices t.conclude := h.trans State.conclude_notices

/-! ### Host commands (chapter 9) -/

/-- A NEXT NOTICE takes away the head of the queue at most, and sets the count within its limit
(R169). -/
theorem State.dropShown_notices (s : State) (c : Completed) :
    s.KeepsNotices (s.setPort (s.port.dropShown c)) := by
  intro h
  have fewer : (s.port.dropShown c).notices.Sublist s.port.notices := by
    unfold Port.dropShown
    dsimp only
    repeat' split
    · exact .refl _
    · exact .refl _
    · exact List.tail_sublist _
  exact ⟨fewer.length_le.trans h.length, fewer.countP_le.trans h.arrivals, Nat.min_le_left _ _⟩

/-- A selection keeps the limits when its effect does. -/
theorem State.select_notices (s : State) (m : Moment) (c : Completed) (o : Sdo)
    {effect : Completed → State → State} (kept : ∀ k (u : State), u.KeepsNotices (effect k u)) :
    s.KeepsNotices (s.select m c o effect) := by
  obtain ⟨p, made | ⟨k, made⟩, selects⟩ := s.select_cases m c o effect
  all_goals rw [made]
  · exact .of_eq selects.notices selects.lost
  · exact .trans (t := s.setPort p) (.of_eq selects.notices selects.lost) (kept k _)

/-- A command keeps the limits when its body does. -/
theorem State.command_notices (s : State) (c : HostCommand) (m : Moment)
    {body : Completed → State → State} (kept : ∀ k (u : State), u.KeepsNotices (body k u)) :
    s.KeepsNotices (s.command c m body) := by
  refine s.select_notices m _ _ fun k u => ?_
  unfold State.decode
  split
  · exact kept k u
  · exact .of_eq rfl rfl
  · exact .of_eq rfl rfl
  · exact .refl u

theorem State.takeRead_notices (s : State) (c : HostCommand) (t : Target) (l : Lookup) :
    s.KeepsNotices (s.takeRead c t l) := by
  unfold State.takeRead
  repeat' split
  all_goals exact .of_eq rfl rfl

theorem State.confirmTest_notices (s : State) : s.KeepsNotices s.confirmTest := by
  obtain ⟨q, d, r, form, -, -⟩ := s.confirmTest_form
  rw [form]
  exact .of_eq rfl rfl

theorem State.takeCommit_notices {s t : State} {a : Arrival} (taken : s.takeCommit a = some t) :
    s.KeepsNotices t := by
  unfold State.takeCommit at taken
  split at taken
  · cases taken
  · cases taken
    exact .of_eq rfl rfl

theorem State.submitTaken_notices (s : State) (a : Arrival) : s.KeepsNotices (s.submitTaken a) := by
  refine .trans ?_ (State.confirmTest_notices _)
  exact .of_eq rfl rfl

theorem State.decideSubmit_notices (s : State) (tag : Byte) (payload : List Byte) :
    s.KeepsNotices (s.decideSubmit tag payload) := by
  unfold State.decideSubmit
  split
  · exact .of_eq rfl rfl
  · split
    · exact .of_eq rfl rfl
    · next taken =>
      exact .conclude ((State.takeCommit_notices taken).trans (State.submitTaken_notices _ _))

theorem State.queueRelease_notices (s : State) (mark : Nat) :
    s.KeepsNotices (s.queueRelease mark) := by
  unfold State.queueRelease
  repeat' split
  all_goals exact .of_eq rfl rfl

theorem State.releaseTo_notices (s : State) (position : Nat) :
    s.KeepsNotices (s.releaseTo position) := by
  unfold State.releaseTo
  repeat' split
  · exact .of_eq rfl rfl
  · exact .of_eq rfl rfl
  · refine .conclude (.trans ?_ (State.queueRelease_notices _ _))
    exact .of_eq rfl rfl

theorem State.enlisted_notices (s : State) (e : Enlistment) : s.KeepsNotices (s.enlisted e) :=
  .conclude (.of_eq rfl rfl)

theorem State.formatStep_notices (s : State) (k : Nat) : s.KeepsNotices (s.formatStep k) := by
  unfold State.formatStep
  split <;> exact .of_eq rfl rfl

theorem State.formatted_notices (s : State) : s.KeepsNotices s.formatted := by
  unfold State.formatted
  refine .conclude ?_
  split
  · exact .of_eq rfl rfl
  · refine .trans ?_ (State.formatStep_notices _ 0)
    exact .of_eq rfl rfl

theorem State.quieted_notices (s : State) : s.KeepsNotices s.quieted := by
  unfold State.quieted
  dsimp only
  split <;> exact .of_eq rfl rfl

theorem State.woken_notices (s : State) : s.KeepsNotices s.woken := by
  have enter (t : State) : t.KeepsNotices t.enterJoining := .of_eq rfl rfl
  unfold State.woken
  refine .conclude (.trans (.trans ?_ (State.confirmTest_notices _)) (enter _))
  split <;> exact .of_eq rfl rfl

theorem State.stationReset_notices (s : State) (cut : CutShort) :
    s.KeepsNotices (s.stationReset cut) :=
  fun _ => ⟨Nat.zero_le _, Nat.zero_le _, Nat.zero_le _⟩

theorem State.refuseUnknown_notices (s : State) (code : Byte) :
    s.KeepsNotices (s.refuseUnknown code) := by
  unfold State.refuseUnknown
  split
  all_goals exact .of_eq rfl rfl

/-! ### Frames received (chapters 4, 5, 7 and 8) -/

/-- The end of a frame keeps the limits when its hand-on does. -/
theorem State.hearFrame_notices (s : State) (f : Machine.Frame) {g : State → State}
    (kept : ∀ u : State, u.KeepsNotices (g u)) : s.KeepsNotices (s.hearFrame f g) := by
  unfold State.hearFrame
  split
  · split
    · exact .conclude (.trans (t := s.setFramer .gap) (.of_eq rfl rfl) (kept _))
    · exact .of_eq rfl rfl
  · exact .refl s

theorem State.hearPeer_notices (s : State) (p : Nat) (quieting : Bool) :
    s.KeepsNotices (s.hearPeer p quieting) := by
  obtain ⟨q, d, r, form, -, -⟩ := s.hearPeer_form p quieting
  rw [form]
  exact .of_eq rfl rfl

theorem State.mergePeer_notices (s : State) (p : Nat) (f : Peer → Peer) :
    s.KeepsNotices (s.mergePeer p f) := by
  obtain ⟨q, d, r, form, -, -⟩ := s.mergePeer_form p f
  rw [form]
  exact .of_eq rfl rfl

theorem State.learn_notices (s : State) (o v : Nat) : s.KeepsNotices (s.learn o v) := .of_eq rfl rfl

theorem State.takeHeld_notices (s : State) (p origin value : Nat) :
    s.KeepsNotices (s.takeHeld p origin value) :=
  ((s.hearPeer_notices p false).trans (State.mergePeer_notices _ p _)).trans
    (State.learn_notices _ origin value)

theorem State.takePresence_notices (s : State) (p : Nat) (quieting full : Bool) (vector : List Word) :
    s.KeepsNotices (s.takePresence p quieting full vector) := by
  have merged := (s.hearPeer_notices p quieting).trans
    (State.mergePeer_notices _ p (.presence full vector))
  obtain ⟨holdings, form⟩ := State.learnAll_form vector
    ((s.hearPeer p quieting).mergePeer p (.presence full vector)) 0
  unfold State.takePresence
  rw [form]
  exact merged.trans (.of_eq rfl rfl)

theorem State.markDivergent_notices (s : State) (o seq p : Nat) :
    s.KeepsNotices (s.markDivergent o seq p) := by
  unfold State.markDivergent
  repeat' split
  all_goals exact .of_eq rfl rfl

theorem State.arrive_notices (s : State) (a : Arrival) : s.KeepsNotices (s.arrive a).1 := by
  have decided (u : State) : u.KeepsNotices (u.decideArrival a).1 := by
    unfold State.decideArrival
    repeat' split
    all_goals first | exact u.markDivergent_notices _ _ _ | exact .of_eq rfl rfl
  unfold State.arrive
  dsimp only
  repeat' split
  · exact s.markDivergent_notices _ _ _
  · exact .of_eq rfl rfl
  · exact (s.learn_notices _ _).trans (decided _)

theorem State.takeCopy_notices (s : State) (a : Arrival) : s.KeepsNotices (s.takeCopy a) := by
  refine .trans (.trans (s.arrive_notices a) ?_) (State.cancelRefill_still _ _ _).keepsNotices
  split
  · exact (State.narrowOrigin_still _ _).keepsNotices
  · exact .refl _

/-- A HOLE job offered and admitted hands its notice over; the notice joins at the event's end. -/
theorem State.offerHole_notices {s t : State} {o first last : Nat}
    (offered : s.offerHole o first last = some t) : s.KeepsNotices (t.holeAdmitted o first last) := by
  have admitted := State.narrowOrigin_still (t.raise .repairController (.hole o first last)) o
  refine .trans (t := t) ?_ ((t.raise_still _ _).trans admitted).keepsNotices
  unfold State.offerHole at offered
  split at offered
  · cases offered
    exact .of_eq rfl rfl
  · cases offered

theorem State.declareGone_notices (s : State) (o first last : Nat) :
    s.KeepsNotices (s.declareGone o first last) := by
  refine foldl_rel .refl .trans (fun u r => ?_) _ s
  split
  · next offered => exact State.offerHole_notices offered
  · exact .refl u

theorem State.takeGone_notices (s : State) (origin first last : Nat) :
    s.KeepsNotices (s.takeGone origin first last) :=
  ((s.learn_notices origin last).trans (State.declareGone_notices _ _ _ _)).trans
    (State.cancelRefill_still _ _ _).keepsNotices

theorem State.answerSeek_notices (s : State) (q o first last : Nat) :
    s.KeepsNotices (s.answerSeek q o first last) := by
  unfold State.answerSeek
  dsimp only
  repeat' split
  all_goals exact .of_eq rfl rfl

theorem State.moveFramer_notices (s : State) (a b : Framer) : s.KeepsNotices (s.moveFramer a b) := by
  unfold State.moveFramer
  split <;> exact .of_eq rfl rfl

/-! ### The transmitter and the timers (chapters 4, 6 to 8) -/

theorem State.enterMuted_notices (s : State) : s.KeepsNotices s.enterMuted := by
  unfold State.enterMuted
  refine .trans ?_ State.flush_notices
  dsimp only
  split <;> exact .of_eq rfl rfl

theorem State.appendSent_notices (s : State) (seq : Nat) : s.KeepsNotices (s.appendSent seq) := by
  unfold State.appendSent
  repeat' split
  all_goals exact .of_eq rfl rfl

theorem State.copySent_notices (s : State) (q o seq : Nat) : s.KeepsNotices (s.copySent q o seq) := by
  unfold State.copySent
  repeat' split
  · exact .refl s
  · exact (s.skipSeq_still _ _ _).keepsNotices
  · exact .refl s

theorem State.goneSent_notices (s : State) (q o : Nat) : s.KeepsNotices (s.goneSent q o) := by
  unfold State.goneSent
  split
  · exact .refl s
  · exact ((s.changeResponder_still _ _ _).trans (State.takeNext_still _ _ _)).keepsNotices

theorem State.silenceExpired_notices (l : List Nat) (s : State) :
    s.KeepsNotices (l.foldl State.silenceExpired s) :=
  foldl_rel .refl .trans (fun _ _ => .of_eq rfl rfl) l s

theorem State.unanswered_notices (s : State) (e : Entry) : s.KeepsNotices (s.unanswered e) := by
  unfold State.unanswered
  split <;> exact .of_eq rfl rfl

/-- A DECLARING slot's offers, one run at a time (R139). -/
theorem declareSlot_notices (fuel : Nat) (s : State) (i : Nat) :
    s.KeepsNotices (declareSlot fuel s i) := by
  have slot (v : Option SeekSlot) : s.KeepsNotices (s.setSlot i v) :=
    (s.setSlot_still i v).keepsNotices
  induction fuel generalizing s with
  | zero => exact .refl s
  | succ fuel ih =>
    unfold declareSlot
    split
    · exact .refl s
    · split
      · exact .refl s
      · split
        · exact slot _
        · dsimp only
          split
          · exact slot _
          · split
            · next offered =>
              exact (State.offerHole_notices offered).trans
                (ih _ fun v => (State.setSlot_still _ i v).keepsNotices)
            · exact slot _

theorem State.offerHoles_notices (s : State) : s.KeepsNotices s.offerHoles :=
  foldl_rel .refl .trans (fun u i => declareSlot_notices 17 u i) _ s

theorem State.waitedOut_notices (s : State) (i : Nat) (sl : SeekSlot) :
    s.KeepsNotices (s.waitedOut i sl) := by
  have slot (v : Option SeekSlot) : s.KeepsNotices (s.setSlot i v) :=
    (s.setSlot_still i v).keepsNotices
  unfold State.waitedOut State.attempted
  repeat' split
  · exact slot _
  · exact slot _
  · exact slot _
  · exact (slot _).trans (declareSlot_notices 17 _ _)

theorem State.deferred_notices (s : State) (e : Responder) : s.KeepsNotices (s.deferred e) := by
  unfold State.deferred
  split
  · exact .of_eq rfl rfl
  · exact (s.takeNext_still _ _).keepsNotices

/-! ### The array and mount (chapters 2, 3 and 10) -/

theorem State.hostReadDone_notices (s : State) (c : HostClaim) (bytes : List Byte) :
    s.KeepsNotices (s.hostReadDone c bytes) := by
  have done (code : Code) : s.KeepsNotices (s.setPort (s.port.readDone code)) :=
    (s.readDone_still code).keepsNotices
  unfold State.hostReadDone
  split
  · exact (done (c.code bytes)).trans (.of_eq rfl rfl)
  · exact done .notFound

theorem State.fetchDone_notices (s : State) (c : FetchClaim) (bytes : List Byte) :
    s.KeepsNotices (s.fetchDone c bytes) := by
  unfold State.fetchDone
  split
  · exact .of_eq rfl rfl
  · exact (s.skipSeq_still _ _ _).keepsNotices

theorem State.fetchDropped_notices (s : State) (q o : Nat) : s.KeepsNotices (s.fetchDropped q o) := by
  unfold State.fetchDropped
  repeat' split
  · exact (s.takeNext_still _ _).keepsNotices
  · exact .refl s
  · exact .refl s

theorem State.excessTest_notices (s : State) : s.KeepsNotices s.excessTest :=
  .of_eq (by rw [State.excessTest_port]) (by rw [State.excessTest_port])

theorem State.programmed_notices (s : State) (j : Job) (rest : List Job) (p : Place) :
    s.KeepsNotices (s.programmed j rest p) := by
  have placed : s.KeepsNotices (s.recordPlaced j rest p) := .of_eq rfl rfl
  have tracked (u : State) : u.KeepsNotices (u.trackCompletion j) := by
    obtain ⟨t, form, -⟩ := u.trackCompletion_form j
    rw [form]
    exact .of_eq rfl rfl
  have handedOn (u : State) : u.KeepsNotices (u.commitHandOn j) := by
    obtain ⟨q, d, r, form, -, -⟩ := u.commitHandOn_form j
    rw [form]
    exact .of_eq rfl rfl
  have followed (u : State) : u.KeepsNotices (u.followRelease j.body) := by
    obtain ⟨w, form⟩ := u.followRelease_form j.body
    rw [form]
    exact .of_eq rfl rfl
  exact ((((placed.trans (tracked _)).trans (handedOn _)).trans (followed _)).trans
    (State.excessTest_notices _)).trans (State.offerHoles_notices _)

theorem State.recordFailed_notices (s : State) (p : Place) : s.KeepsNotices (s.recordFailed p) := by
  rw [State.recordFailed_eq]
  exact .of_eq rfl rfl

theorem State.headerWritten_notices (s : State) (k : Nat) : s.KeepsNotices (s.headerWritten k) := by
  unfold State.headerWritten
  split <;> exact .of_eq rfl rfl

theorem State.eraseDone_notices (s : State) (k : Nat) (outcome : EraseOutcome) :
    s.KeepsNotices (s.eraseDone k outcome) := by
  unfold State.eraseDone
  cases outcome
  all_goals dsimp only; split <;> exact .of_eq rfl rfl

theorem State.afterErase_notices (s : State) (wasFull : Bool) :
    s.KeepsNotices (s.afterErase wasFull) := by
  unfold State.afterErase
  repeat' split
  · exact s.formatStep_notices _
  · exact s.excessTest_notices.trans (State.offerHoles_notices _)
  · exact .refl s

theorem State.nextExtent_notices (s : State) (c : Scan) : s.KeepsNotices (s.nextExtent c) := by
  unfold State.nextExtent
  split
  · exact .conclude (.of_eq rfl rfl)
  · exact .of_eq rfl rfl

theorem State.nextBlankCheck_notices (s : State) (c : Scan) :
    s.KeepsNotices (s.nextBlankCheck c) := by
  unfold State.nextBlankCheck
  split
  · exact .of_eq rfl rfl
  · exact s.nextExtent_notices _

theorem State.headerRead_notices (s : State) (c : Scan) (k : Nat) :
    s.KeepsNotices (s.headerRead c k) := by
  unfold State.headerRead
  dsimp only
  split
  · exact .of_eq rfl rfl
  · exact s.nextBlankCheck_notices _

theorem State.pageRead_notices (s : State) (c : Scan) (x : Extent) (page : Nat) :
    s.KeepsNotices (s.pageRead c x page) := by
  unfold State.pageRead
  dsimp only
  split
  · exact .of_eq rfl rfl
  · exact s.nextExtent_notices _

/-! ### Every command -/

/-- The next state of a command keeps the notice queue and the count within their limits. -/
def State.NextNotices (s : State) (i : Instr) : Prop := ∃ t, exec i s = .next t ∧ s.KeepsNotices t

section Commands

variable (s : State)

theorem execNextNotice_notices (m : Moment) : s.NextNotices (.nextNotice m) := by
  refine ⟨_, rfl, s.command_notices .nextNotice m fun c u => ?_⟩
  split
  · exact u.dropShown_notices c
  · exact .refl u

theorem execEnlist_notices (station n w rate p : Byte) (m : Moment) :
    s.NextNotices (.enlist station n w rate p m) := by
  refine ⟨_, rfl, s.command_notices .enlist m fun _ u => ?_⟩
  split
  · exact u.enlisted_notices _
  · exact .of_eq rfl rfl

theorem execFormat_notices (m : Moment) : s.NextNotices (.format m) := by
  refine ⟨_, rfl, s.command_notices .format m fun _ u => ?_⟩
  split
  · exact .of_eq rfl rfl
  · exact .of_eq rfl rfl
  · exact u.formatted_notices

theorem execQuiet_notices (m : Moment) : s.NextNotices (.quiet m) := by
  refine ⟨_, rfl, s.command_notices .quiet m fun _ u => ?_⟩
  split
  · exact u.quieted_notices
  · exact .of_eq rfl rfl

theorem execUnknownCode_notices (code : Byte) (m : Moment) : s.NextNotices (.unknownCode code m) := by
  refine ⟨_, rfl, ?_⟩
  split
  · exact .refl s
  · exact s.select_notices m _ _ fun _ u => u.refuseUnknown_notices code

theorem execBreakComplete_notices : s.NextNotices .breakComplete := by
  refine ⟨_, rfl, ?_⟩
  have broken : s.KeepsNotices (s.setTransmitter .idle).leaveBroken :=
    .trans (t := s.setTransmitter .idle) (.of_eq rfl rfl) (State.moveFramer_notices _ _ _)
  split
  · dsimp only
    split
    · exact broken.trans (State.enterMuted_notices _)
    · exact broken
  · exact .refl s

theorem execRefillSendCompletion_notices : s.NextNotices .refillSendCompletion := by
  refine ⟨_, rfl, ?_⟩
  have sent : s.KeepsNotices s.frameSent := .of_eq rfl rfl
  split
  · dsimp only
    repeat' split
    · exact .conclude (sent.trans (State.copySent_notices _ _ _ _))
    · exact .conclude (sent.trans (State.goneSent_notices _ _ _))
    · exact sent
  · exact .refl s

theorem execRecordProgramCompletion_notices (outcome : ProgramOutcome) :
    s.NextNotices (.recordProgramCompletion outcome) := by
  refine ⟨_, rfl, ?_⟩
  have idle : s.KeepsNotices s.arrayIdle := .of_eq rfl rfl
  split
  · split
    · exact .conclude (idle.trans (State.programmed_notices _ _ _ _))
    · exact .conclude (idle.trans (State.recordFailed_notices _ _))
  · exact .refl s

theorem execHeaderProgramCompletion_notices (outcome : ProgramOutcome) :
    s.NextNotices (.headerProgramCompletion outcome) := by
  refine ⟨_, rfl, ?_⟩
  have idle : s.KeepsNotices s.arrayIdle := .of_eq rfl rfl
  split
  · split
    · exact .conclude (idle.trans (State.headerWritten_notices _ _))
    · exact .conclude (.of_eq rfl rfl)
  · exact .refl s

theorem execFetchCompletion_notices (flaw : Option (List Byte)) :
    s.NextNotices (.fetchCompletion flaw) := by
  refine ⟨_, rfl, ?_⟩
  have idle : s.KeepsNotices s.arrayIdle := .of_eq rfl rfl
  split
  · refine .conclude ?_
    split
    · exact idle.trans (State.fetchDone_notices _ _ _)
    · exact idle.trans (State.fetchDropped_notices _ _ _)
    · exact idle
  · exact .refl s

theorem execBlankCheckCompletion_notices : s.NextNotices .blankCheckCompletion := by
  refine ⟨_, rfl, ?_⟩
  split
  · split
    · exact s.nextBlankCheck_notices _
    · exact .refl s
    · exact .refl s
  · exact .refl s

theorem execMountReadCompletion_notices : s.NextNotices .mountReadCompletion := by
  refine ⟨_, rfl, ?_⟩
  split
  · split
    · exact s.headerRead_notices _ _
    · exact s.pageRead_notices _ _ _
    · exact .refl s
  · exact .refl s

theorem execEraseCompletion_notices (outcome : EraseOutcome) :
    s.NextNotices (.eraseCompletion outcome) := by
  refine ⟨_, rfl, ?_⟩
  have ended : s.KeepsNotices s.eraseEnded := .of_eq rfl rfl
  split
  · exact .conclude ((ended.trans (State.eraseDone_notices _ _ _)).trans
      (State.afterErase_notices _ _))
  · exact .refl s

theorem execResumeMinimumReached_notices : s.NextNotices .resumeMinimumReached := by
  refine ⟨_, rfl, ?_⟩
  repeat' split
  · exact .refl s
  · exact ((s.setArray_still _).trans (State.checkSuspend_still _)).keepsNotices
  · exact .refl s

/-- Every command keeps the notice queue and the lost-notice count within their limits. -/
theorem exec_notices (i : Instr) : s.NextNotices i := by
  cases i with
  | stationReset cut => exact ⟨_, rfl, s.stationReset_notices cut⟩
  | status m => exact ⟨_, rfl, s.command_notices .status m fun _ _ => .of_eq rfl rfl⟩
  | result m => exact ⟨_, rfl, s.command_notices .result m fun _ u => .refl u⟩
  | readBuffer m => exact ⟨_, rfl, s.command_notices .readBuffer m fun _ u => .refl u⟩
  | nextNotice m => exact execNextNotice_notices s m
  | readPosition p m =>
    exact ⟨_, rfl, s.command_notices .readPosition m fun _ u => (u.takeRead_notices _ _ _).conclude⟩
  | readRecord o seq m =>
    exact ⟨_, rfl, s.command_notices .readRecord m fun _ u => (u.takeRead_notices _ _ _).conclude⟩
  | submit tag payload m =>
    exact ⟨_, rfl, s.command_notices .submit m fun _ u => u.decideSubmit_notices _ _⟩
  | release p m => exact ⟨_, rfl, s.command_notices .release m fun _ u => u.releaseTo_notices _⟩
  | enlist station n w rate p m => exact execEnlist_notices s station n w rate p m
  | format m => exact execFormat_notices s m
  | quiet m => exact execQuiet_notices s m
  | wake m => exact ⟨_, rfl, s.command_notices .wake m fun _ u => u.woken_notices⟩
  | lineResume m => exact ⟨_, rfl, s.command_notices .lineResume m fun _ _ => .of_eq rfl rfl⟩
  | reset cut m => exact ⟨_, rfl, s.command_notices .reset m fun _ u => u.stationReset_notices cut⟩
  | unknownCode code m => exact execUnknownCode_notices s code m
  | commandDiscarded how => exact ⟨_, rfl, by (repeat' split) <;> exact .of_eq rfl rfl⟩
  | hold asserted => exact ⟨_, rfl, .of_eq rfl rfl⟩
  | heldFrame sender origin value =>
    exact ⟨_, rfl, s.hearFrame_notices _ fun u => u.takeHeld_notices _ _ _⟩
  | presenceFrame sender joining full vector =>
    exact ⟨_, rfl, s.hearFrame_notices _ fun u => u.takePresence_notices _ _ _ _⟩
  | quietingPresenceFrame sender full vector =>
    exact ⟨_, rfl, s.hearFrame_notices _ fun u => u.takePresence_notices _ _ _ _⟩
  | appendFrame sender seq tag payload check =>
    exact ⟨_, rfl, s.hearFrame_notices _ fun u =>
      (u.hearPeer_notices _ _).trans (State.arrive_notices _ _)⟩
  | refillCopyFrame sender requester origin seq tag payload check =>
    exact ⟨_, rfl, s.hearFrame_notices _ fun u =>
      (u.hearPeer_notices _ _).trans (State.takeCopy_notices _ _)⟩
  | refillGoneFrame sender requester origin first last =>
    exact ⟨_, rfl, s.hearFrame_notices _ fun u =>
      (u.hearPeer_notices _ _).trans (State.takeGone_notices _ _ _ _)⟩
  | seekFrame sender origin first last =>
    refine ⟨_, rfl, s.hearFrame_notices _ fun u => ?_⟩
    have follow (v : State) (o a b : Nat) : v.KeepsNotices (v.followSeek o a b) := .of_eq rfl rfl
    exact ((u.hearPeer_notices _ _).trans (follow _ _ _ _)).trans (State.answerSeek_notices _ _ _ _ _)
  | frameDiscarded bytes => exact ⟨_, rfl, by split <;> exact .of_eq rfl rfl⟩
  | separatorDominant => exact ⟨_, rfl, s.moveFramer_notices _ _⟩
  | dominantRunEnd => exact ⟨_, rfl, s.moveFramer_notices _ _⟩
  | gapEnd => exact ⟨_, rfl, s.moveFramer_notices _ _⟩
  | huntIdleRun => exact ⟨_, rfl, s.moveFramer_notices _ _⟩
  | startBitSeen => exact ⟨_, rfl, s.moveFramer_notices _ _⟩
  | dominantBitInGap => exact ⟨_, rfl, s.moveFramer_notices _ _⟩
  | frameStart => exact ⟨_, rfl, by (repeat' split) <;> exact .of_eq rfl rfl⟩
  | arbitrationLoss => exact ⟨_, rfl, by split <;> exact .of_eq rfl rfl⟩
  | transmitFailure => exact ⟨_, rfl, by split <;> exact .of_eq rfl rfl⟩
  | breakComplete => exact execBreakComplete_notices s
  | heldSendCompletion => exact ⟨_, rfl, by split <;> exact .of_eq rfl rfl⟩
  | appendSendCompletion =>
    refine ⟨_, rfl, ?_⟩
    split
    · exact .conclude (.trans (t := s.frameSent) (.of_eq rfl rfl) (State.appendSent_notices _ _))
    · exact .refl s
  | refillSendCompletion => exact execRefillSendCompletion_notices s
  | seekSendCompletion => exact ⟨_, rfl, by dsimp only; (repeat' split) <;> exact .of_eq rfl rfl⟩
  | presenceSendCompletion => exact ⟨_, rfl, by dsimp only; (repeat' split) <;> exact .of_eq rfl rfl⟩
  | quietingPresenceSendCompletion =>
    exact ⟨_, rfl, by dsimp only; (repeat' split) <;> exact .of_eq rfl rfl⟩
  | presenceTimerExpiry => exact ⟨_, rfl, by split <;> exact .of_eq rfl rfl⟩
  | silenceTimerExpiry peers =>
    refine ⟨_, rfl, ?_⟩
    split
    · exact .refl s
    · exact (State.silenceExpired_notices _ s).conclude
  | joiningEnd =>
    refine ⟨_, rfl, ?_⟩
    split
    · exact .conclude (.of_eq rfl rfl)
    · exact .refl s
  | confirmationWaitExpiry seq =>
    refine ⟨_, rfl, ?_⟩
    repeat' split
    · exact (s.unanswered_notices _).conclude
    · exact .refl s
    · exact .refl s
  | repairWaitExpiry slot =>
    refine ⟨_, rfl, ?_⟩
    repeat' split
    · exact (s.waitedOut_notices _ _).conclude
    · exact .refl s
    · exact .refl s
  | deferExpiry requester origin =>
    refine ⟨_, rfl, ?_⟩
    repeat' split
    · exact (s.deferred_notices _).conclude
    · exact .refl s
    · exact .refl s
  | recordProgramCompletion outcome => exact execRecordProgramCompletion_notices s outcome
  | headerProgramCompletion outcome => exact execHeaderProgramCompletion_notices s outcome
  | hostReadCompletion flaw =>
    refine ⟨_, rfl, ?_⟩
    split
    · exact .conclude (.trans (t := s.arrayIdle) (.of_eq rfl rfl) (State.hostReadDone_notices _ _ _))
    · exact .refl s
  | fetchCompletion flaw => exact execFetchCompletion_notices s flaw
  | blankCheckCompletion => exact execBlankCheckCompletion_notices s
  | mountReadCompletion => exact execMountReadCompletion_notices s
  | eraseCompletion outcome => exact execEraseCompletion_notices s outcome
  | resumeMinimumReached => exact execResumeMinimumReached_notices s
  | suspensionCompletion =>
    refine ⟨_, rfl, ?_⟩
    split
    · exact .conclude (.of_eq rfl rfl)
    · exact .refl s

end Commands

end Sys2Proof.Machine

namespace Sys2Proof

open Machine

/-- Settles O54: notices join only at an event's end, where each joins within the limits whatever the
order, and leave only by NEXT NOTICE and a station reset. -/
theorem stepKeepsNotices : Obligations.StepKeepsNotices := by
  intro s t h stepped
  unfold Machine.step at stepped
  split at stepped
  · obtain rfl := Host.Outcome.next.inj stepped
    exact h
  · next c rest _ =>
    have waiting : (s.setPending rest).NoticesOk := ⟨h.length, h.arrivals, h.lost⟩
    exact next_unique (exec_notices _ c) stepped waiting

end Sys2Proof

/-! ## The station mode through every command (R171, R178, R179) -/

namespace Sys2Proof.Machine

/-! ### What leaves the mode -/

/-- The mode and FORMAT's progress are as they were. -/
structure State.KeepsMode (s t : State) : Prop where
  mode : t.mode = s.mode
  progress : t.formatNext = s.formatNext

theorem State.KeepsMode.refl (s : State) : s.KeepsMode s := ⟨rfl, rfl⟩

theorem State.KeepsMode.trans {s t u : State} (a : s.KeepsMode t) (b : t.KeepsMode u) :
    s.KeepsMode u := ⟨b.mode.trans a.mode, b.progress.trans a.progress⟩

theorem State.Keeps.keepsMode {s t : State} (h : s.Keeps t) : s.KeepsMode t := ⟨h.mode, h.formatNext⟩

theorem State.Rests.keepsMode {s t : State} (h : s.Rests t) : s.KeepsMode t := ⟨h.mode, h.formatNext⟩

/-- The end of an event leaves both. -/
theorem State.KeepsMode.conclude {s t : State} (h : s.KeepsMode t) : s.KeepsMode t.conclude :=
  h.trans t.conclude_keeps.keepsMode

/-! ### Changes by the table -/

/-- The change from one state to another is one that the table gives to a command, and FORMAT's progress
stays with FORMATTING. -/
def State.MovesBy (s : State) (i : Instr) (t : State) : Prop :=
  s.FormatOk → t.FormatOk ∧ (t.mode = s.mode ∨ i.mayEnter s.mode t.mode = true)

/-- The mode is the one given, FORMAT's progress as it was. -/
structure State.Enters (s : State) (m : Mode) (t : State) : Prop where
  mode : t.mode = m
  progress : t.formatNext = s.formatNext

theorem State.Enters.conclude {s t : State} {m : Mode} (h : s.Enters m t) : s.Enters m t.conclude :=
  ⟨t.conclude_keeps.mode.trans h.mode, t.conclude_keeps.formatNext.trans h.progress⟩

section Moves

variable {i : Instr} {s t u : State}

theorem State.KeepsMode.formatOk (h : s.KeepsMode t) (ok : s.FormatOk) : t.FormatOk := by
  unfold State.FormatOk
  rw [h.mode, h.progress]
  exact ok

theorem State.KeepsMode.moves (h : s.KeepsMode t) : s.MovesBy i t := fun ok => ⟨h.formatOk ok, .inl h.mode⟩

/-- What leaves the mode may come before a change by the table. -/
theorem State.MovesBy.after (h : t.MovesBy i u) (before : s.KeepsMode t) : s.MovesBy i u := by
  intro ok
  rw [← before.mode]
  exact h (before.formatOk ok)

theorem State.MovesBy.conclude (h : s.MovesBy i t) : s.MovesBy i t.conclude := by
  intro ok
  obtain ⟨kept, moved⟩ := h ok
  refine ⟨t.conclude_keeps.keepsMode.formatOk kept, ?_⟩
  rw [t.conclude_keeps.mode]
  exact moved

/-- Outside FORMATTING there is no progress of FORMAT's, so that any other mode may be entered. -/
theorem State.Enters.moves {m : Mode} (h : s.Enters m t) (outside : s.mode ≠ .formatting)
    (table : i.mayEnter s.mode m = true) : s.MovesBy i t := by
  intro ok
  have none : ¬ s.formatNext.isSome = true := fun present => outside (ok present)
  refine ⟨fun present => ?_, .inr (by rw [h.mode]; exact table)⟩
  rw [h.progress] at present
  exact absurd present none

end Moves

/-! ### Host commands (chapter 9) -/

/-- Before its release a selection writes in the Host Port alone (R148). -/
theorem State.select_unreleased (s : State) {m : Moment} (early : m.takes = false) (c : Completed)
    (o : Sdo) (effect : Completed → State → State) : ∃ p, s.select m c o effect = s.setPort p := by
  cases m with
  | whole => cases early
  | release => cases early
  | select =>
    dsimp only [State.select, State.beginSelection]
    split
    · exact ⟨s.port, rfl⟩
    · exact ⟨_, rfl⟩
  | complete =>
    dsimp only [State.select, State.completeSelection]
    split
    · exact ⟨_, rfl⟩
    · exact ⟨s.port, rfl⟩

/-- A command changes the mode by the table when its body does where it is taken, at the release. -/
theorem State.command_moves {i : Instr} {s : State} {c : HostCommand} {m : Moment}
    {body : Completed → State → State} (taken : ∀ k (u : State), m.takes = true →
      c.verdict u.mode = .taken → u.MovesBy i (body k u)) : s.MovesBy i (s.command c m body) := by
  have port (p : Port) : s.KeepsMode (s.setPort p) := ⟨rfl, rfl⟩
  unfold State.command
  cases takes : m.takes with
  | false =>
    obtain ⟨p, made⟩ := s.select_unreleased takes (s.completed c) (s.drives c)
      fun k t => t.decode c (body k)
    rw [made]
    exact (port p).moves
  | true =>
    obtain ⟨p, made | ⟨k, made⟩, -⟩ := s.select_cases m (s.completed c) (s.drives c)
      fun k t => t.decode c (body k)
    all_goals rw [made]
    · exact (port p).moves
    · refine .after ?_ (port p)
      unfold State.decode
      split
      · next verdict => exact taken k _ takes verdict
      all_goals exact State.KeepsMode.moves ⟨rfl, rfl⟩

/-- A command leaves the mode when its body does. -/
theorem State.command_keepsMode (s : State) (c : HostCommand) (m : Moment)
    {body : Completed → State → State} (kept : ∀ k (u : State), u.KeepsMode (body k u)) :
    s.KeepsMode (s.command c m body) :=
  State.command_inv (.refl s) c m body (fun _ _ h => ⟨h.mode, h.progress⟩)
    fun k u h => h.trans (kept k u)

theorem HostCommand.unenlisted_of_taken {c : HostCommand} {m : Mode} (which : c = .enlist ∨ c = .format)
    (taken : c.verdict m = .taken) : m = .unenlisted := by
  rcases which with rfl | rfl
  all_goals
    cases m with
    | unenlisted => rfl
    | _ => cases taken

theorem HostCommand.onLine_of_taken {m : Mode} (taken : HostCommand.quiet.verdict m = .taken) :
    m = .joining ∨ m = .active := by
  cases m with
  | joining => exact .inl rfl
  | active => exact .inr rfl
  | _ => cases taken

theorem HostCommand.quiet_of_taken {m : Mode} (taken : HostCommand.wake.verdict m = .taken) :
    m = .quiet := by
  cases m with
  | quiet => rfl
  | _ => cases taken

theorem HostCommand.serves_of_taken {m : Mode} (taken : HostCommand.reset.verdict m = .taken) :
    m.serves := by
  cases m with
  | unenlisted => exact .inl rfl
  | joining => exact .inr (.inl rfl)
  | active => exact .inr (.inr rfl)
  | _ => cases taken

theorem State.takeRead_keepsMode (s : State) (c : HostCommand) (t : Target) (l : Lookup) :
    s.KeepsMode (s.takeRead c t l) := by
  unfold State.takeRead
  repeat' split
  all_goals exact ⟨rfl, rfl⟩

theorem State.confirmTest_keepsMode (s : State) : s.KeepsMode s.confirmTest := by
  obtain ⟨q, d, r, form, -, -⟩ := s.confirmTest_form
  rw [form]
  exact ⟨rfl, rfl⟩

theorem State.takeCommit_keepsMode {s t : State} {a : Arrival} (taken : s.takeCommit a = some t) :
    s.KeepsMode t := by
  cases room : s.tracker.gapsAfter a.origin a.seq with
  | none =>
    rw [State.takeCommit, room] at taken
    cases taken
  | some gaps => exact (State.takeCommit_keeps room taken).keepsMode

theorem State.decideSubmit_keepsMode (s : State) (tag : Byte) (payload : List Byte) :
    s.KeepsMode (s.decideSubmit tag payload) := by
  have queued (t : State) (a : Arrival) : t.KeepsMode (t.submitTaken a) :=
    .trans (t := t.submitted a) ⟨rfl, rfl⟩ (State.confirmTest_keepsMode _)
  unfold State.decideSubmit
  split
  · exact ⟨rfl, rfl⟩
  · split
    · exact ⟨rfl, rfl⟩
    · next taken => exact ((State.takeCommit_keepsMode taken).trans (queued _ _)).conclude

theorem State.releaseTo_keepsMode (s : State) (position : Nat) :
    s.KeepsMode (s.releaseTo position) := by
  unfold State.releaseTo
  repeat' split
  · exact ⟨rfl, rfl⟩
  · exact ⟨rfl, rfl⟩
  · refine .conclude (.trans ?_ (State.queueRelease_keeps _ _).keepsMode)
    exact ⟨rfl, rfl⟩

theorem execUnknownCode_keepsMode (s : State) (code : Byte) (m : Moment) :
    ∃ t, execUnknownCode code s m = .next t ∧ s.KeepsMode t := by
  refine ⟨_, rfl, ?_⟩
  split
  · exact .refl s
  · refine State.select_inv (.refl s) m _ _ _ (fun _ _ h => ⟨h.mode, h.progress⟩) fun k u h => ?_
    refine h.trans ?_
    unfold State.refuseUnknown
    split <;> exact ⟨rfl, rfl⟩

/-! ### Entries into modes (R180, R181, R183, R184) -/

theorem State.enlisted_enters (s : State) (e : Enlistment) : s.Enters .joining (s.enlisted e) :=
  .conclude ⟨rfl, rfl⟩

theorem State.quieted_enters (s : State) : s.Enters .quiet s.quieted := by
  unfold State.quieted
  dsimp only
  split <;> exact ⟨rfl, rfl⟩

theorem State.woken_enters (s : State) : s.Enters .joining s.woken := by
  have tested (t : State) (kept : s.KeepsMode t) : s.Enters .joining t.confirmTest.enterJoining :=
    ⟨rfl, (kept.trans t.confirmTest_keepsMode).progress⟩
  unfold State.woken
  refine .conclude (tested _ ?_)
  split <;> exact ⟨rfl, rfl⟩

theorem execEnlist_moves (s : State) (station n w rate p : Byte) (m : Moment) :
    ∃ t, exec (.enlist station n w rate p m) s = .next t ∧
      s.MovesBy (.enlist station n w rate p m) t := by
  refine ⟨_, rfl, State.command_moves fun _ u takes taken => ?_⟩
  have mode := HostCommand.unenlisted_of_taken (.inl rfl) taken
  split
  · refine (u.enlisted_enters _).moves ?_ ?_ <;> rw [mode]
    · exact nofun
    · exact takes
  · exact State.KeepsMode.moves ⟨rfl, rfl⟩

theorem execQuiet_moves (s : State) (m : Moment) :
    ∃ t, exec (.quiet m) s = .next t ∧ s.MovesBy (.quiet m) t := by
  refine ⟨_, rfl, State.command_moves fun _ u takes taken => ?_⟩
  split
  · obtain mode | mode := HostCommand.onLine_of_taken taken
    all_goals
      refine u.quieted_enters.moves ?_ ?_ <;> rw [mode]
      · exact nofun
      · exact takes
  · exact State.KeepsMode.moves ⟨rfl, rfl⟩

theorem execWake_moves (s : State) (m : Moment) :
    ∃ t, exec (.wake m) s = .next t ∧ s.MovesBy (.wake m) t := by
  refine ⟨_, rfl, State.command_moves fun _ u takes taken => ?_⟩
  refine u.woken_enters.moves ?_ ?_ <;> rw [HostCommand.quiet_of_taken taken]
  · exact nofun
  · exact takes

theorem execJoiningEnd_moves (s : State) :
    ∃ t, exec .joiningEnd s = .next t ∧ s.MovesBy .joiningEnd t := by
  refine ⟨_, rfl, ?_⟩
  split
  · next due =>
    obtain ⟨joining, -⟩ := due
    have joined : s.Enters .active s.joined.conclude := .conclude ⟨rfl, rfl⟩
    refine joined.moves ?_ ?_ <;> rw [joining]
    · exact nofun
    · rfl
  · exact (State.KeepsMode.refl s).moves

/-! ### Resets and mount (R166, R172, R173, R176) -/

/-- A station reset ends FORMAT with all else, whatever the mode was. -/
theorem State.stationReset_moves {i : Instr} {s : State} (cut : CutShort)
    (table : i.mayEnter s.mode .mounting = true) : s.MovesBy i (s.stationReset cut) :=
  fun _ => ⟨nofun, .inr table⟩

theorem execReset_moves (s : State) (cut : CutShort) (m : Moment) :
    ∃ t, exec (.reset cut m) s = .next t ∧ s.MovesBy (.reset cut m) t := by
  refine ⟨_, rfl, State.command_moves fun _ u takes taken => ?_⟩
  refine State.stationReset_moves cut ?_
  obtain mode | mode | mode := HostCommand.serves_of_taken taken
  all_goals
    rw [mode]
    exact takes

section Mount

variable {i : Instr} {s : State} (mounting : s.mode = .mounting)
  (table : i.mayEnter .mounting .unenlisted = true) (c : Scan)
include mounting table

/-- The scan goes on in MOUNTING, or mount completes in UNENLISTED. -/
theorem State.nextExtent_moves : s.MovesBy i (s.nextExtent c) := by
  unfold State.nextExtent
  split
  · have mounted : s.Enters .unenlisted (s.mountDone c) := .conclude ⟨rfl, rfl⟩
    refine mounted.moves ?_ ?_ <;> rw [mounting]
    · exact nofun
    · exact table
  · exact State.KeepsMode.moves ⟨rfl, rfl⟩

theorem State.nextBlankCheck_moves : s.MovesBy i (s.nextBlankCheck c) := by
  unfold State.nextBlankCheck
  split
  · exact State.KeepsMode.moves ⟨rfl, rfl⟩
  · exact State.nextExtent_moves mounting table _

theorem State.headerRead_moves (k : Nat) : s.MovesBy i (s.headerRead c k) := by
  unfold State.headerRead
  dsimp only
  split
  · exact State.KeepsMode.moves ⟨rfl, rfl⟩
  · exact State.nextBlankCheck_moves mounting table _

theorem State.pageRead_moves (x : Extent) (page : Nat) : s.MovesBy i (s.pageRead c x page) := by
  unfold State.pageRead
  dsimp only
  split
  · exact State.KeepsMode.moves ⟨rfl, rfl⟩
  · exact State.nextExtent_moves mounting table _

end Mount

theorem execMountReadCompletion_moves (s : State) :
    ∃ t, exec .mountReadCompletion s = .next t ∧ s.MovesBy .mountReadCompletion t := by
  refine ⟨_, rfl, ?_⟩
  split
  · next c mode _ =>
    split
    · exact State.headerRead_moves mode rfl c _
    · exact State.pageRead_moves mode rfl c _ _
    · exact (State.KeepsMode.refl s).moves
  · exact (State.KeepsMode.refl s).moves

theorem execBlankCheckCompletion_moves (s : State) :
    ∃ t, exec .blankCheckCompletion s = .next t ∧ s.MovesBy .blankCheckCompletion t := by
  refine ⟨_, rfl, ?_⟩
  split
  · next mode _ =>
    split
    · exact State.nextBlankCheck_moves mode rfl _
    · exact (State.KeepsMode.refl s).moves
    · exact (State.KeepsMode.refl s).moves
  · exact (State.KeepsMode.refl s).moves

/-! ### FORMAT and its erases (R165, R178, R179) -/

/-- FORMAT goes on in FORMATTING with its progress, or ends in UNENLISTED without. -/
theorem State.formatStep_goesOn {s : State} (formatting : s.mode = .formatting) (k : Nat) :
    (s.formatStep k).FormatOk ∧
      ((s.formatStep k).mode = .formatting ∨ (s.formatStep k).mode = .unenlisted) := by
  unfold State.formatStep
  split
  · exact ⟨fun _ => formatting, .inl formatting⟩
  · exact ⟨nofun, .inr rfl⟩

theorem State.formatBegun_goesOn (s : State) : s.formatBegun.FormatOk ∧
    (s.formatBegun.mode = .formatting ∨ s.formatBegun.mode = .unenlisted) := by
  unfold State.formatBegun
  split
  · exact ⟨fun _ => rfl, .inl rfl⟩
  · exact State.formatStep_goesOn rfl 0

theorem execFormat_moves (s : State) (m : Moment) :
    ∃ t, exec (.format m) s = .next t ∧ s.MovesBy (.format m) t := by
  refine ⟨_, rfl, State.command_moves fun _ u takes taken => ?_⟩
  have mode := HostCommand.unenlisted_of_taken (.inr rfl) taken
  have formatted : u.MovesBy (.format m) u.formatBegun := by
    intro _
    obtain ⟨ok, begun | ended⟩ := u.formatBegun_goesOn
    · refine ⟨ok, .inr ?_⟩
      rw [begun, mode]
      exact takes
    · exact ⟨ok, .inl (ended.trans mode.symm)⟩
  split
  · exact State.KeepsMode.moves ⟨rfl, rfl⟩
  · exact State.KeepsMode.moves ⟨rfl, rfl⟩
  · exact formatted.conclude

theorem State.erasedAt_keepsMode (s : State) (k : Nat) (outcome : EraseOutcome) :
    s.KeepsMode (s.erasedAt k outcome) := by
  obtain ⟨-, -, -, -, keeps⟩ := s.erasedAt_fields k outcome
  exact ⟨keeps.mode, keeps.formatNext⟩

/-- With FORMAT's progress present the station is FORMATTING, from which an erase completion may lead to
UNENLISTED. -/
theorem State.afterErase_moves (s : State) (wasFull : Bool) (outcome : EraseOutcome) :
    s.MovesBy (.eraseCompletion outcome) (s.afterErase wasFull) := by
  cases progress : s.formatNext with
  | none => exact (State.afterErase_offers progress wasFull).2.keepsMode.moves
  | some k =>
    intro ok
    have formatting : s.mode = .formatting := ok (by rw [progress]; rfl)
    obtain ⟨kept, continues | ended⟩ := State.formatStep_goesOn formatting k
    all_goals rw [State.afterErase, progress]
    · exact ⟨kept, .inl (continues.trans formatting.symm)⟩
    · refine ⟨kept, .inr ?_⟩
      rw [ended, formatting]
      rfl

theorem execEraseCompletion_moves (s : State) (outcome : EraseOutcome) :
    ∃ t, exec (.eraseCompletion outcome) s = .next t ∧
      s.MovesBy (.eraseCompletion outcome) t := by
  refine ⟨_, rfl, ?_⟩
  split
  · next c _ _ =>
    exact .conclude (.after (State.afterErase_moves _ _ _) (s.erasedAt_keepsMode c.segment outcome))
  · exact (State.KeepsMode.refl s).moves

/-! ### Frames, the transmitter, the timers and the array -/

theorem State.hearFrame_keepsMode (s : State) (f : Machine.Frame) {g : State → State}
    (rests : ∀ u : State, u.Rests (g u)) : s.KeepsMode (s.hearFrame f g) := by
  unfold State.hearFrame
  split
  · split
    · exact .conclude ((s.setFramer_rests .gap).trans (rests _)).keepsMode
    · exact (s.setFramer_rests .gap).keepsMode
  · exact .refl s

theorem State.moveFramer_keepsMode (s : State) (a b : Framer) : s.KeepsMode (s.moveFramer a b) := by
  unfold State.moveFramer
  split <;> exact ⟨rfl, rfl⟩

theorem State.enterMuted_keepsMode (s : State) : s.KeepsMode s.enterMuted := by
  rw [State.enterMuted_eq]
  exact .trans (t := s.muting) ⟨rfl, rfl⟩ (State.flush_keeps _).keepsMode

theorem execBreakComplete_keepsMode (s : State) :
    ∃ t, execBreakComplete s = .next t ∧ s.KeepsMode t := by
  have broken : s.KeepsMode (s.setTransmitter .idle).leaveBroken :=
    .trans (t := s.setTransmitter .idle) ⟨rfl, rfl⟩ (State.moveFramer_keepsMode _ _ _)
  refine ⟨_, rfl, ?_⟩
  split
  · dsimp only
    split
    · exact broken.trans (State.enterMuted_keepsMode _)
    · exact broken
  · exact .refl s

theorem State.appendSent_keepsMode (s : State) (seq : Nat) : s.KeepsMode (s.appendSent seq) := by
  unfold State.appendSent
  repeat' split
  all_goals exact ⟨rfl, rfl⟩

theorem execRefillSendCompletion_keepsMode (s : State) :
    ∃ t, execRefillSendCompletion s = .next t ∧ s.KeepsMode t := by
  have sent : s.KeepsMode s.frameSent := ⟨rfl, rfl⟩
  refine ⟨_, rfl, ?_⟩
  split
  · dsimp only
    repeat' split
    · exact .conclude (sent.trans (State.copySent_keeps _ _ _ _).keepsMode)
    · exact .conclude (sent.trans (State.goneSent_keeps _ _ _).keepsMode)
    · exact sent
  · exact .refl s

theorem State.silenceExpired_keepsMode (l : List Nat) (s : State) :
    s.KeepsMode (l.foldl State.silenceExpired s) :=
  foldl_rel .refl .trans (fun _ _ => ⟨rfl, rfl⟩) l s

theorem State.unanswered_keepsMode (s : State) (e : Entry) : s.KeepsMode (s.unanswered e) := by
  obtain ⟨keeps, -⟩ := s.unanswered_keeps e
  exact ⟨keeps.mode, keeps.formatNext⟩

theorem State.hostReadDone_keepsMode (s : State) (c : HostClaim) (bytes : List Byte) :
    s.KeepsMode (s.hostReadDone c bytes) := by
  unfold State.hostReadDone
  split <;> exact ⟨rfl, rfl⟩

theorem execFetchCompletion_keepsMode (s : State) (flaw : Option (List Byte)) :
    ∃ t, execFetchCompletion flaw s = .next t ∧ s.KeepsMode t := by
  cases reading : s.array.activity with
  | read r =>
    cases r with
    | fetch c use =>
      obtain ⟨keeps, -⟩ :=
        s.fetched_keeps c use (s.delivered c.segment c.page c.offset c.size flaw)
      exact ⟨_, execFetchCompletion_fetched reading flaw, keeps.keepsMode⟩
    | _ => exact ⟨s, by rw [execFetchCompletion, reading], .refl s⟩
  | _ => exact ⟨s, by rw [execFetchCompletion, reading], .refl s⟩

theorem execRecordProgramCompletion_keepsMode (s : State) (outcome : ProgramOutcome) :
    ∃ t, execRecordProgramCompletion outcome s = .next t ∧ s.KeepsMode t := by
  refine ⟨_, rfl, ?_⟩
  split
  · next j rest p _ _ _ =>
    split
    · have keeps := s.recorded_keeps j rest p
      exact ⟨keeps.mode, keeps.formatNext⟩
    · rw [State.recordFailed_eq]
      exact .conclude ⟨rfl, rfl⟩
  · exact .refl s

theorem execHeaderProgramCompletion_keepsMode (s : State) (outcome : ProgramOutcome) :
    ∃ t, execHeaderProgramCompletion outcome s = .next t ∧ s.KeepsMode t := by
  refine ⟨_, rfl, ?_⟩
  split
  · split
    · refine .conclude ?_
      unfold State.headerWritten
      split <;> exact ⟨rfl, rfl⟩
    · exact .conclude ⟨rfl, rfl⟩
  · exact .refl s

theorem execResumeMinimumReached_keepsMode (s : State) :
    ∃ t, execResumeMinimumReached s = .next t ∧ s.KeepsMode t := by
  refine ⟨_, rfl, ?_⟩
  repeat' split
  · exact .refl s
  · exact ((s.setArray_keeps _).trans (State.checkSuspend_keeps _)).keepsMode
  · exact .refl s

/-! ### Every command -/

/-- The commands to which the table gives a change of the mode (R171, R179). -/
def inModeTable : Instr → Bool
  | .stationReset _ | .reset _ _ | .mountReadCompletion | .blankCheckCompletion | .enlist .. | .format _
  | .eraseCompletion _ | .joiningEnd | .quiet _ | .wake _ => true
  | _ => false

/-- A command outside the table leaves the mode and FORMAT's progress as they were. -/
theorem exec_keepsMode (s : State) (i : Instr) (outside : inModeTable i = false) :
    ∃ t, exec i s = .next t ∧ s.KeepsMode t := by
  cases i with
  | stationReset | reset | mountReadCompletion | blankCheckCompletion | enlist | format | eraseCompletion
  | joiningEnd | quiet | wake => cases outside
  | status m => exact ⟨_, rfl, s.command_keepsMode .status m fun _ _ => ⟨rfl, rfl⟩⟩
  | result m => exact ⟨_, rfl, s.command_keepsMode .result m fun _ u => .refl u⟩
  | readBuffer m => exact ⟨_, rfl, s.command_keepsMode .readBuffer m fun _ u => .refl u⟩
  | nextNotice m =>
    exact ⟨_, rfl, s.command_keepsMode .nextNotice m fun _ _ => by split <;> exact ⟨rfl, rfl⟩⟩
  | readPosition p m =>
    exact ⟨_, rfl, s.command_keepsMode .readPosition m fun _ u => (u.takeRead_keepsMode _ _ _).conclude⟩
  | readRecord o seq m =>
    exact ⟨_, rfl, s.command_keepsMode .readRecord m fun _ u => (u.takeRead_keepsMode _ _ _).conclude⟩
  | submit tag payload m =>
    exact ⟨_, rfl, s.command_keepsMode .submit m fun _ u => u.decideSubmit_keepsMode _ _⟩
  | release p m => exact ⟨_, rfl, s.command_keepsMode .release m fun _ u => u.releaseTo_keepsMode _⟩
  | lineResume m => exact ⟨_, rfl, s.command_keepsMode .lineResume m fun _ _ => ⟨rfl, rfl⟩⟩
  | unknownCode code m => exact execUnknownCode_keepsMode s code m
  | commandDiscarded how => exact ⟨_, rfl, by (repeat' split) <;> exact ⟨rfl, rfl⟩⟩
  | hold asserted => exact ⟨_, rfl, rfl, rfl⟩
  | heldFrame sender origin value =>
    exact ⟨_, rfl, s.hearFrame_keepsMode _ fun u => u.takeHeld_rests _ _ _⟩
  | presenceFrame sender joining full vector =>
    exact ⟨_, rfl, s.hearFrame_keepsMode _ fun u => u.takePresence_rests _ _ _ _⟩
  | quietingPresenceFrame sender full vector =>
    exact ⟨_, rfl, s.hearFrame_keepsMode _ fun u => u.takePresence_rests _ _ _ _⟩
  | appendFrame sender seq tag payload check =>
    exact ⟨_, rfl, s.hearFrame_keepsMode _ fun u =>
      (u.hearPeer_rests _ _).trans (State.arrive_rests _ _)⟩
  | refillCopyFrame sender requester origin seq tag payload check =>
    exact ⟨_, rfl, s.hearFrame_keepsMode _ fun u =>
      ((u.hearPeer_rests _ _).trans (State.arrive_rests _ _)).trans (State.takeCopy_keeps _ _).rests⟩
  | refillGoneFrame sender requester origin first last =>
    exact ⟨_, rfl, s.hearFrame_keepsMode _ fun u =>
      (u.hearPeer_rests _ _).trans (State.takeGone_rests _ _ _ _)⟩
  | seekFrame sender origin first last =>
    refine ⟨_, rfl, s.hearFrame_keepsMode _ fun u => ?_⟩
    have follow (v : State) (o a b : Nat) : v.Rests (v.followSeek o a b) := by constructor <;> rfl
    exact ((u.hearPeer_rests _ _).trans (follow _ _ _ _)).trans (State.answerSeek_keeps _ _ _ _ _).rests
  | frameDiscarded bytes => exact ⟨_, rfl, by split <;> exact ⟨rfl, rfl⟩⟩
  | separatorDominant => exact ⟨_, rfl, s.moveFramer_keepsMode _ _⟩
  | dominantRunEnd => exact ⟨_, rfl, s.moveFramer_keepsMode _ _⟩
  | gapEnd => exact ⟨_, rfl, s.moveFramer_keepsMode _ _⟩
  | huntIdleRun => exact ⟨_, rfl, s.moveFramer_keepsMode _ _⟩
  | startBitSeen => exact ⟨_, rfl, s.moveFramer_keepsMode _ _⟩
  | dominantBitInGap => exact ⟨_, rfl, s.moveFramer_keepsMode _ _⟩
  | frameStart => exact ⟨_, rfl, by (repeat' split) <;> exact ⟨rfl, rfl⟩⟩
  | arbitrationLoss => exact ⟨_, rfl, by split <;> exact ⟨rfl, rfl⟩⟩
  | transmitFailure => exact ⟨_, rfl, by split <;> exact ⟨rfl, rfl⟩⟩
  | breakComplete => exact execBreakComplete_keepsMode s
  | heldSendCompletion => exact ⟨_, rfl, by split <;> exact ⟨rfl, rfl⟩⟩
  | appendSendCompletion =>
    refine ⟨_, rfl, ?_⟩
    split
    · exact .conclude (.trans (t := s.frameSent) ⟨rfl, rfl⟩ (State.appendSent_keepsMode _ _))
    · exact .refl s
  | refillSendCompletion => exact execRefillSendCompletion_keepsMode s
  | seekSendCompletion => exact ⟨_, rfl, by dsimp only; (repeat' split) <;> exact ⟨rfl, rfl⟩⟩
  | presenceSendCompletion => exact ⟨_, rfl, by dsimp only; (repeat' split) <;> exact ⟨rfl, rfl⟩⟩
  | quietingPresenceSendCompletion =>
    exact ⟨_, rfl, by dsimp only; (repeat' split) <;> exact ⟨rfl, rfl⟩⟩
  | presenceTimerExpiry => exact ⟨_, rfl, by split <;> exact ⟨rfl, rfl⟩⟩
  | silenceTimerExpiry peers =>
    refine ⟨_, rfl, ?_⟩
    split
    · exact .refl s
    · exact (State.silenceExpired_keepsMode _ s).conclude
  | confirmationWaitExpiry seq =>
    refine ⟨_, rfl, ?_⟩
    repeat' split
    · exact (s.unanswered_keepsMode _).conclude
    · exact .refl s
    · exact .refl s
  | repairWaitExpiry slot =>
    refine ⟨_, rfl, ?_⟩
    repeat' split
    · exact (s.waitedOut_keeps _ _).keepsMode.conclude
    · exact .refl s
    · exact .refl s
  | deferExpiry requester origin =>
    refine ⟨_, rfl, ?_⟩
    repeat' split
    · exact (s.deferred_keeps _).1.keepsMode.conclude
    · exact .refl s
    · exact .refl s
  | recordProgramCompletion outcome => exact execRecordProgramCompletion_keepsMode s outcome
  | headerProgramCompletion outcome => exact execHeaderProgramCompletion_keepsMode s outcome
  | hostReadCompletion flaw =>
    refine ⟨_, rfl, ?_⟩
    split
    · exact .conclude (.trans (t := s.arrayIdle) ⟨rfl, rfl⟩ (State.hostReadDone_keepsMode _ _ _))
    · exact .refl s
  | fetchCompletion flaw => exact execFetchCompletion_keepsMode s flaw
  | resumeMinimumReached => exact execResumeMinimumReached_keepsMode s
  | suspensionCompletion =>
    refine ⟨_, rfl, ?_⟩
    split
    · exact .conclude ⟨rfl, rfl⟩
    · exact .refl s

/-- Every command changes the mode by the table. -/
theorem exec_moves (s : State) (i : Instr) : ∃ t, exec i s = .next t ∧ s.MovesBy i t := by
  cases i with
  | stationReset cut => exact ⟨_, rfl, State.stationReset_moves cut rfl⟩
  | reset cut m => exact execReset_moves s cut m
  | mountReadCompletion => exact execMountReadCompletion_moves s
  | blankCheckCompletion => exact execBlankCheckCompletion_moves s
  | enlist station n w rate p m => exact execEnlist_moves s station n w rate p m
  | format m => exact execFormat_moves s m
  | eraseCompletion outcome => exact execEraseCompletion_moves s outcome
  | joiningEnd => exact execJoiningEnd_moves s
  | quiet m => exact execQuiet_moves s m
  | wake m => exact execWake_moves s m
  | _ => exact (exec_keepsMode s _ rfl).imp fun _ ⟨run, kept⟩ => ⟨run, kept.moves⟩

end Sys2Proof.Machine

namespace Sys2Proof

open Machine

/-- Settles O57: the commands of the table one by one, each entering its mode without FORMAT's progress
or, in FORMAT and its erases, leaving FORMATTING when that progress ends; every other command leaves
both. -/
theorem modeChangesByTable : Obligations.ModeChangesByTable :=
  fun s _ i ok stepped => next_unique (exec_moves s i) stepped ok

end Sys2Proof

/-! ## The command at the front of the queue, and the queue that is empty (log 1) -/

namespace Sys2Proof.Machine

theorem step_of_pending_cons {s : State} {c : Instr} {rest : List Instr}
    (queued : s.pending = c :: rest) : Machine.step s = exec c (s.setPending rest) := by
  rw [Machine.step, queued]

theorem step_of_pending_nil {s : State} (empty : s.pending = []) : Machine.step s = .next s := by
  rw [Machine.step, empty]

end Sys2Proof.Machine

namespace Sys2Proof

open Machine

/-- Settles O1: by whether the queue holds a command, its rest being what `State.setPending` sets. -/
theorem stepTakesFrontCommand : Obligations.StepTakesFrontCommand :=
  ⟨fun _ _ _ queued => step_of_pending_cons queued, fun _ empty => step_of_pending_nil empty⟩

end Sys2Proof
